-- ==== Sys2Proof/Word.lean ====
section
/-! DEFINITION. The word types of the VB-1 model: register and address widths (R56, R122) and 32-thread masks (R46). -/

namespace Sys2Proof

/-- One byte. -/
abbrev Byte := BitVec 8
/-- A 32-bit value: one slot of a name row (R57). -/
abbrev W32 := BitVec 32
/-- A 64-bit value: a scalar register, a row pair, a PC (R56, R58, R122). -/
abbrev W64 := BitVec 64
/-- A set of threads of one pack, thread t in bit t (R46). -/
abbrev Mask := BitVec 32

end Sys2Proof
end

