-- ==== Sys2Proof/Config.lean ====
section
/-! DEFINITION. What the part fixes (figures of the manual) and the free values the manual leaves open. -/

namespace Sys2Proof.Config

/-- Enabled cores of the package (R18). -/
def cores : Nat := 480
/-- Enabled clusters of the package (R18). -/
def clusters : Nat := 120
/-- Granules of a core's pool (R19). -/
def granules : Nat := 64
/-- Resident packs of a core at most (R20). -/
def maxPacks : Nat := 64
/-- Resident teams of a core at most (R20). -/
def maxTeams : Nat := 16
/-- Cycles of the 2.1 GHz arithmetic clock in one microsecond (R19). -/
def cyclesPerUs : Nat := 2100
/-- Cycles in one millisecond (R19). -/
def cyclesPerMs : Nat := 2100000
/-- Cycles in one second (R19). -/
def cyclesPerSec : Nat := 2100000000

/-- A value the manual calls undefined (R3), drawn by the model's own counter State.draws. Free: nothing constrains it. -/
opaque freeWord : Nat → BitVec 64
/-- The disabled physical cluster of each ridge (R18, R28). Free: chosen at manufacture. -/
opaque disabledCluster : Nat → Fin 16
/-- The home slice of an interleaved line, by the device's fixed hash of the line address (R186). Free. -/
opaque homeHash : Nat → Fin 16
/-- The LPDDR channel of a line, by number: channels 0 to 15 are on col 8 and the others on col 9 (R24, R186). Free. -/
opaque lpddrChannel : Nat → Fin 32
/-- The die a flit's path is hashed to, for twice a line address, or for 1 + 2 × (16 × source + destination) (R16). Free. -/
opaque pathHash : Nat → Nat
/-- The bytes of the identity window outside the header and the listed entries (R28, R31). Free. -/
opaque identityByte : Nat → BitVec 8
/-- The bytes of the walker's store as shipped (R183). Free: the manual does not print them. -/
opaque shippedWalker : Nat → BitVec 8
/-- How many bytes of the store the shipped routine takes, from offset 0 (R183). Free: the manual does not print it. -/
opaque shippedLength : Nat
/-- The uncorrectable error that arises in a cycle, given a draw (R192): none, or what it meets (0 a memory line, 1 slots of a row, 2 a
scratchpad word, 3 a tile, 4 a private word, 5 a shadow) and the numbers that name it. Free: errors are no effect of any instruction. -/
opaque upset : Nat → Option (Nat × List Nat)
/-- For a fetched byte whose line has changed since the core cached it: true when the new byte is fetched (R127). Free. -/
opaque fetchesNew : Nat → Nat → Bool
/-- The rate of the package clock after discipline, nanoseconds over cycles, given a draw (R298). Free. -/
opaque slew : Nat → Nat × Nat
/-- Whether a line written by a ridge is left dirty in its cache, given a draw (R190, R192). Free. -/
opaque staysDirty : Nat → Bool
/-- How often an event that happens inside the caches, a ridge-cache miss (7) or a corrected soft error (8), is counted by counter n of a
partition between two cycles (R192, R341). Free. -/
opaque eventsBetween (event part n since now : Nat) : BitVec 64
/-- The firmware image that stands in a die's slot as shipped (R344). Free: the manual does not print it. -/
opaque shippedImage : Nat → List (BitVec 8)
/-- SHA-256 of an image (R343). Free: the function is named and not defined by the manual. -/
opaque sha256 : List (BitVec 8) → BitVec 256
/-- An image carries Farem's signature (R344, R356). Free. -/
opaque signedImage : List (BitVec 8) → Bool
/-- Farem's authority has signed the manifest that Summit boots with (R343). Free: fixed at manufacture. -/
opaque manifestSigned : Bool
/-- The RSA-3072 identity key of a die, fused at manufacture (R343). Free. -/
opaque identityKey : Nat → BitVec 3072
/-- The certificate chain in a die's fuses (R343): the digest of its root, and the die, the kind, true for a ridge, and the key that its leaf
names. Free. -/
opaque fusedChain : Nat → BitVec 256 × Nat × Bool × BitVec 3072
/-- A link key, given the draw of Summit's random generator (R349). Free. -/
opaque linkKey : Nat → BitVec 256
/-- The 96-bit AES-256-GCM tag under a key of a nonce, the additional data and the data (R349). Free: GCM is named and not defined. -/
opaque gcmTag : BitVec 256 → BitVec 96 → List (BitVec 8) → List (BitVec 8) → BitVec 96
/-- The expected measurement of each kind of die in Summit's manifest, true for a ridge (R343). Free. -/
opaque manifest : Bool → BitVec 256
/-- The digest of the authority's root certificate in Summit's fuses (R343). Free. -/
opaque rootDigest : BitVec 256

end Sys2Proof.Config
end

