-- ==== Sys2Proof/Syntax.lean ====
section
/-! DEFINITION. The 271 rows of spec/opcode_table.json as one inductive: 152 instructions with their operands (R100 to R118),
the unimplemented hint (R116), and the 118 moves and events that 95_what_each_step_holds.md calls whole and indivisible. -/

namespace Sys2Proof

/-- The fields every word carries: guard (R101), lookahead (R45), `!y` (R42) and `!u` (R100). -/
structure Hdr where
  gneg  : Bool
  gpred : BitVec 3
  la    : BitVec 4
  yld   : Bool
  uexp  : Bool
  deriving DecidableEq, Repr

/-- HALF of a source (R104). -/
inductive Half where
  | whole | lo | hi
  deriving DecidableEq, Repr

/-- COMP of a value-name source (R104). -/
inductive Comp where
  | whole | lo | hi
  deriving DecidableEq, Repr

/-- A value-name source (R104). -/
structure NameSrc where
  idx  : BitVec 8
  neg  : Bool
  abs  : Bool
  half : Half
  wide : Bool
  comp : Comp
  deriving DecidableEq, Repr

/-- A scalar source (R105). -/
structure ScalSrc where
  idx  : BitVec 6
  neg  : Bool
  abs  : Bool
  half : Half
  wide : Bool
  deriving DecidableEq, Repr

/-- A name span as a source (R107). -/
structure Span where
  first : BitVec 8
  len   : BitVec 5
  deriving DecidableEq, Repr

/-- A name span as a destination, with its declared count (R59, R107). -/
structure SpanD where
  first : BitVec 8
  cnt   : BitVec 4
  len   : BitVec 5
  deriving DecidableEq, Repr

/-- A source operand field (R103 to R108). -/
inductive Src where
  | name (n : NameSrc)
  | scal (x : ScalSrc)
  | pred (idx : BitVec 3) (neg : Bool)
  | tile (i : BitVec 4)
  | slot (i : BitVec 4)
  | bufr (i : BitVec 5)
  | fmt (i : BitVec 3)
  | sys (i : BitVec 8)
  | imm (v : BitVec 17)
  | span (x : Span)
  deriving DecidableEq, Repr

/-- A value-name destination (R104). `_` has index 0, count 0 and 32 bits. -/
structure VDst where
  idx  : BitVec 8
  cnt  : BitVec 4
  wide : Bool
  deriving DecidableEq, Repr

/-- A scalar destination (R105). -/
structure SDst where
  idx  : BitVec 6
  wide : Bool
  deriving DecidableEq, Repr

/-- A destination that may be a value name or a scalar. -/
inductive VSDst where
  | v (d : VDst)
  | s (d : SDst)
  deriving DecidableEq, Repr

/-- A destination that may be a value name or a predicate. -/
inductive VPDst where
  | v (d : VDst)
  | p (i : BitVec 3)
  deriving DecidableEq, Repr

/-- A destination that may be a value name or a span. -/
inductive VNDst where
  | v (d : VDst)
  | n (d : SpanD)
  deriving DecidableEq, Repr

/-- IKIND of the 32-bit immediate form (R110). -/
inductive IKind where
  | literal | i32 | u32 | f32 | fmt | count
  deriving DecidableEq, Repr

/-- The 32-bit immediate: IKIND, SLOT and IMM32 (R110). -/
structure Wide where
  kind : IKind
  slot : BitVec 4
  imm  : BitVec 32
  deriving DecidableEq, Repr

/-- The first source that EXT and XCLS carry in the 32-bit immediate form (R110). -/
inductive ExtSrc where
  | name (i : BitVec 8)
  | scal (i : BitVec 6)
  | sys (i : BitVec 6)
  | pred (i : BitVec 3)
  deriving DecidableEq, Repr

/-- Two sources: OPA and OPB, or the 32-bit immediate form (R110). -/
inductive Src2 where
  | reg (a b : Src)
  | wide (a : ExtSrc) (w : Wide)
  deriving DecidableEq, Repr

/-- One source: OPA, or the 32-bit immediate form (R110). -/
inductive Src1 where
  | reg (a : Src)
  | wide (w : Wide)
  deriving DecidableEq, Repr

/-- COND (R113). -/
inductive Cond where
  | eq | ne | lt | le | gt | ge | un
  deriving DecidableEq, Repr

/-- The rounding modes (R86). -/
inductive Rnd where
  | rne | rtz | rdn | rup | rs
  deriving DecidableEq, Repr

/-- SCOPE (R113). -/
inductive Scope where
  | t | c | d | s
  deriving DecidableEq, Repr

/-- ORD (R113). -/
inductive Ord where
  | none | acq | rel | full
  deriving DecidableEq, Repr

/-- A value-name destination and two sources. -/
structure Op2 where
  d : VDst
  s : Src2
  deriving DecidableEq, Repr

/-- A value-name destination and three sources, the third a name in EXT (R109). -/
structure Op3 where
  d : VDst
  a : Src
  b : Src
  c : BitVec 8
  deriving DecidableEq, Repr

/-- A scalar destination and two sources. -/
structure SOp2 where
  d : SDst
  s : Src2
  deriving DecidableEq, Repr

/-- An integer comparison (R150, R154). -/
structure ICmp where
  p    : BitVec 3
  w64  : Bool
  sgn  : Bool
  cond : Cond
  s    : Src2
  deriving DecidableEq, Repr

/-- A floating-point comparison (R156). -/
structure FCmp where
  p    : BitVec 3
  cond : Cond
  s    : Src2
  deriving DecidableEq, Repr

/-- The form of `live` (R144). -/
inductive LiveForm where
  | plain (v : Src) | pack | team
  deriving DecidableEq, Repr

/-- The form of `scl` (R164). -/
inductive SclForm where
  | exp (r : Rnd) (x n : Src)
  | e8m0 (x : Src) (f : BitVec 3)
  | rebase (c n : Src) (f : BitVec 3)
  deriving DecidableEq, Repr

/-- The form of `pk2` (R165). -/
inductive PkForm where
  | bits | f16 (r : Rnd) | bf16 (r : Rnd)
  deriving DecidableEq, Repr

/-- The form of `topk` (R166): started from empty, or an old list, a candidate and an index (a name when ixn). -/
inductive TopkForm where
  | fresh (c x : Src) (ext : BitVec 8)
  | ins (ol : Span) (c : Src) (ixn : Bool) (x : BitVec 8)
  deriving DecidableEq, Repr

/-- A load of R193: size, scope, order, destination, record, index, sub-byte width code. -/
structure LdOp where
  sz    : BitVec 3
  scope : Scope
  ord   : Ord
  d     : VDst
  b     : BitVec 5
  idx   : Src
  w     : BitVec 8
  deriving DecidableEq, Repr

/-- A store of R193. -/
structure StOp where
  sz    : BitVec 3
  scope : Scope
  ord   : Ord
  b     : BitVec 5
  idx   : Src
  v     : Src
  w     : BitVec 8
  deriving DecidableEq, Repr

/-- The length form of `bsub` (R203). -/
inductive BsubLen where
  | imm (n : BitVec 8) | scal (i : BitVec 6) | rest
  deriving DecidableEq, Repr

/-- The operand form of `mldw` (R242). -/
inductive MldwForm where
  | record (b : BitVec 5) (idx : Src) (tagScal : Bool) (tag : BitVec 8)
  | span (x : Span) (tag : Src) (ext : BitVec 8)
  deriving DecidableEq, Repr

/-- `mma` and `mmar` (R242). -/
structure MmaOp where
  g   : Option (BitVec 4)
  e   : Bool
  tag : Bool
  a   : BitVec 4
  sp  : Span
  f   : BitVec 3
  vs  : BitVec 8
  deriving DecidableEq, Repr

/-- The form of `mstat` (R257). -/
inductive MstatForm where
  | q | b (a : BitVec 4) | m
  deriving DecidableEq, Repr

/-- The source of `csr` (R294). -/
inductive CsrForm where
  | direct (i : BitVec 8) | ind (a : Src)
  deriving DecidableEq, Repr

/-- The destination of `cntr` (R294): one V64 destination with the field code, or the span of `.all`. -/
inductive CntrForm where
  | one (f : BitVec 2) (d : VSDst) | all (d : SpanD) (ext : BitVec 8)
  deriving DecidableEq, Repr

/-- The word of a hint as it stands (R116). -/
structure HintWord where
  maj : BitVec 4
  min : BitVec 8
  rsv : BitVec 2
  opd : BitVec 20
  opa : BitVec 20
  opb : BitVec 20
  ext : BitVec 8
  deriving DecidableEq, Repr

/-- Names a resident thread: core, resident team slot, pack, thread. -/
structure ThreadId where
  core   : Nat
  slot   : Nat
  pack   : Nat
  thread : Nat
  deriving DecidableEq, Repr

/-- Names a resident pack. -/
structure PackId where
  core : Nat
  slot : Nat
  pack : Nat
  deriving DecidableEq, Repr

/-- Names a queued engine command: on matrix engine q of a core, or in the copy queue of a resident team. -/
inductive CmdId where
  | matrix (core q id : Nat)
  | copy (core slot id : Nat)
  deriving DecidableEq, Repr

/-- A host request through a fabric port (R189): view 0 is physical, view 1 + p is partition p. -/
structure HostReq where
  port  : Nat
  view  : Nat
  write : Bool
  addr  : Nat
  len   : Nat
  data  : List Byte
  deriving DecidableEq, Repr

/-- A host atomic (R229): op 0 to 10 of R207, 11 `.fadd`, 12 compare-and-swap. -/
structure HostAtomic where
  port  : Nat
  view  : Nat
  addr  : Nat
  op    : Nat
  width : Nat
  value : BitVec 64
  cmp   : BitVec 64
  deriving DecidableEq, Repr

/-- What a data flit carries beside its key identifier (R349): its counter, its header, its data and its tag. -/
structure Flit where
  ctr    : BitVec 32
  header : List Byte
  data   : List Byte
  tag    : BitVec 96
  deriving DecidableEq, Repr

/-- The instructions, moves and events of VB-1, one constructor for each row of spec/opcode_table.json. -/
inductive Instr where
  -- control (R128)
  | nop (h : Hdr)
  | bra (h : Hdr) (disp : BitVec 17) (slot : BitVec 4)
  | brx (h : Hdr) (a : Src)
  | call (h : Hdr) (dst : VSDst) (disp : BitVec 17) (slot : BitVec 4)
  | ret (h : Hdr) (a : Src)
  | split (h : Hdr) (disp : BitVec 17) (slot : BitVec 4)
  | join (h : Hdr)
  | brk (h : Hdr) (n : BitVec 4) (disp : BitVec 17) (slot : BitVec 4)
  | exit (h : Hdr)
  | yield (h : Hdr)
  | trap (h : Hdr) (n : BitVec 17)
  | trapDbg (h : Hdr) (n : BitVec 17)
  | spawn (h : Hdr) (d : VDst) (b : BitVec 5) (idx : Src)
  | cwait (h : Hdr) (a : Src)
  | cwaitAll (h : Hdr)
  | sleep (h : Hdr) (a : Src)
  -- names (R128)
  | mov (h : Hdr) (dst : VNDst) (a : Src1) (ext : BitVec 8)
  | drop (h : Hdr) (k : BitVec 4) (v : Src) (ext : BitVec 8)
  | keep (h : Hdr) (k : BitVec 4) (v : Src) (ext : BitVec 8)
  | live (h : Hdr) (form : LiveForm) (d : VDst)
  -- integer (R150)
  | iadd (h : Hdr) (o : Op2)
  | isub (h : Hdr) (o : Op2)
  | imul (h : Hdr) (o : Op2)
  | imulh (h : Hdr) (sgn : Bool) (o : Op2)
  | imad (h : Hdr) (o : Op3)
  | imadw (h : Hdr) (sgn : Bool) (o : Op3)
  | imin (h : Hdr) (sgn : Bool) (o : Op2)
  | imax (h : Hdr) (sgn : Bool) (o : Op2)
  | iabs (h : Hdr) (d : VDst) (a : Src)
  | and (h : Hdr) (o : Op2)
  | or (h : Hdr) (o : Op2)
  | xor (h : Hdr) (o : Op2)
  | not (h : Hdr) (d : VDst) (a : Src)
  | shl (h : Hdr) (o : Op2)
  | shr (h : Hdr) (o : Op2)
  | sar (h : Hdr) (o : Op2)
  | bfx (h : Hdr) (sgn : Bool) (o : Op2)
  | bfi (h : Hdr) (o : Op3)
  | popc (h : Hdr) (d : VDst) (a : Src)
  | clz (h : Hdr) (d : VDst) (a : Src)
  | icmp (h : Hdr) (o : ICmp)
  | sel (h : Hdr) (k : BitVec 3) (o : Op2)
  | iadds (h : Hdr) (sgn : Bool) (o : Op2)
  | lea (h : Hdr) (n : BitVec 3) (sgn : Bool) (o : Op2)
  -- scalar (R154)
  | sadd (h : Hdr) (o : SOp2)
  | ssub (h : Hdr) (o : SOp2)
  | smul (h : Hdr) (o : SOp2)
  | smov (h : Hdr) (d : SDst) (a : Src1)
  | scmp (h : Hdr) (o : ICmp)
  | sbcast (h : Hdr) (d : SDst) (a : Src)
  | sget (h : Hdr) (d : SDst) (a : Src)
  | sand (h : Hdr) (op : BitVec 3) (o : SOp2)
  -- floating point (R156)
  | fadd (h : Hdr) (r : Rnd) (o : Op2)
  | fsub (h : Hdr) (r : Rnd) (o : Op2)
  | fmul (h : Hdr) (r : Rnd) (o : Op2)
  | ffma (h : Hdr) (r : Rnd) (o : Op3)
  | fmin (h : Hdr) (nan : Bool) (o : Op2)
  | fmax (h : Hdr) (nan : Bool) (o : Op2)
  | fcmp (h : Hdr) (o : FCmp)
  | frnd (h : Hdr) (r : Rnd) (d : VDst) (a : Src)
  | frcp (h : Hdr) (r : Rnd) (d : VDst) (a : Src)
  | frsq (h : Hdr) (r : Rnd) (d : VDst) (a : Src)
  | fsqrt (h : Hdr) (r : Rnd) (d : VDst) (a : Src)
  | fex2 (h : Hdr) (r : Rnd) (d : VDst) (a : Src)
  | flg2 (h : Hdr) (r : Rnd) (d : VDst) (a : Src)
  | fsin (h : Hdr) (r : Rnd) (d : VDst) (a : Src)
  | fcos (h : Hdr) (r : Rnd) (d : VDst) (a : Src)
  | fdiv (h : Hdr) (r : Rnd) (o : Op2)
  | dadd (h : Hdr) (r : Rnd) (o : Op2)
  | dmul (h : Hdr) (r : Rnd) (o : Op2)
  | dfma (h : Hdr) (r : Rnd) (o : Op3)
  | dcmp (h : Hdr) (o : FCmp)
  | hadd2 (h : Hdr) (bf : Bool) (r : Rnd) (o : Op2)
  | hmul2 (h : Hdr) (bf : Bool) (r : Rnd) (o : Op2)
  | hfma2 (h : Hdr) (bf : Bool) (r : Rnd) (o : Op3)
  | hmax2 (h : Hdr) (bf : Bool) (nan : Bool) (o : Op2)
  -- conversion (R161)
  | cvt (h : Hdr) (sat : Bool) (r : Rnd) (dt st : BitVec 4) (d : VDst) (a : Src)
  | cvtn (h : Hdr) (d : VDst) (x : Src) (f : BitVec 3) (scale : Option (BitVec 8))
  | cvtw (h : Hdr) (d : VDst) (c : Src) (f : BitVec 3) (scale : Option (BitVec 8))
  | scl (h : Hdr) (d : VDst) (form : SclForm)
  | pk2 (h : Hdr) (form : PkForm) (d : VDst) (a b : Src)
  | unpk (h : Hdr) (k : BitVec 2) (d : VDst) (a : Src)
  | fcls (h : Hdr) (k : BitVec 2) (d : VDst) (a : Src)
  -- cross-thread (R166)
  | shfl (h : Hdr) (m : BitVec 2) (d : VDst) (a l : Src)
  | vote (h : Hdr) (m : BitVec 2) (dst : VPDst) (a : Src)
  | ballot (h : Hdr) (dst : VSDst) (a : Src)
  | redux (h : Hdr) (op : BitVec 4) (d : VDst) (a : Src)
  | scan (h : Hdr) (op : BitVec 4) (excl : Bool) (d : VDst) (a : Src)
  | topk (h : Hdr) (k : BitVec 3) (d : SpanD) (form : TopkForm)
  -- memory (R193)
  | ld (h : Hdr) (o : LdOp)
  | st (h : Hdr) (o : StOp)
  | lds (h : Hdr) (o : LdOp)
  | sts (h : Hdr) (o : StOp)
  | ldp (h : Hdr) (o : LdOp)
  | stp (h : Hdr) (o : StOp)
  | sld (h : Hdr) (sz : BitVec 3) (scope : Scope) (ord : Ord) (d : SDst) (b : BitVec 5) (idx : Src)
  | ldc (h : Hdr) (sz : BitVec 3) (d : VDst) (disp : BitVec 17) (off : Src)
  | pref (h : Hdr) (b : BitVec 5) (idx : Src) (ext : BitVec 8)
  | bsub (h : Hdr) (ro : Bool) (len : BsubLen) (bd bs : BitVec 5) (off : Src)
  | bget (h : Hdr) (f : BitVec 3) (dst : VSDst) (b : BitVec 5)
  | fence (h : Hdr) (scope : Scope) (ord : Ord)
  -- atomics (R206)
  | atom (h : Hdr) (op : BitVec 4) (scope : Scope) (ord : Ord) (d : VDst) (b : BitVec 5) (idx v : Src)
  | acas (h : Hdr) (scope : Scope) (ord : Ord) (d : VDst) (b : BitVec 5) (idx : Src) (v : Span)
  | afadd (h : Hdr) (ty : BitVec 4) (scope : Scope) (ord : Ord) (d : VDst) (b : BitVec 5) (idx v : Src)
  | red (h : Hdr) (op : BitVec 4) (scope : Scope) (ord : Ord) (b : BitVec 5) (idx v : Src)
  -- barriers (R213)
  | binit (h : Hdr) (scope : Scope) (b : BitVec 5) (idx expa : Src)
  | barv (h : Hdr) (scope : Scope) (d : VDst) (b : BitVec 5) (idx count : Src)
  | bexp (h : Hdr) (scope : Scope) (b : BitVec 5) (idx bytes : Src)
  | bwait (h : Hdr) (lim : BitVec 5) (scope : Scope) (b : BitVec 5) (idx ph : Src)
  | btry (h : Hdr) (scope : Scope) (p : BitVec 3) (b : BitVec 5) (idx ph : Src)
  | bar (h : Hdr) (lim : BitVec 5) (scope : Scope) (b : BitVec 5) (idx count : Src)
  -- matrix (R242)
  | mldw (h : Hdr) (g : Option (BitVec 4)) (form : MldwForm) (f : BitVec 3)
  | mma (h : Hdr) (o : MmaOp)
  | mmar (h : Hdr) (o : MmaOp)
  | mfnc (h : Hdr) (a : Option Src) (ext : BitVec 8)
  | mwait (h : Hdr) (a : Option (BitVec 4))
  | mrd (h : Hdr) (d : SpanD) (a : BitVec 4) (row0 : Src) (ext : BitVec 8)
  | mzero (h : Hdr) (g : Option (BitVec 4)) (a : BitVec 4)
  | mwr (h : Hdr) (g : Option (BitVec 4)) (a : BitVec 4) (sp : Span) (row0 : BitVec 8)
  | mtag (h : Hdr) (g : Option (BitVec 4)) (b : BitVec 5) (idx : Src) (n : BitVec 8)
  | mstat (h : Hdr) (form : MstatForm) (d : SDst)
  | mst (h : Hdr) (g : Option (BitVec 4)) (b : BitVec 5) (idx : Src) (tile : BitVec 4) (f : BitVec 3)
  -- guard (R258)
  | gset (h : Hdr) (g : BitVec 4) (a : Src)
  | gclr (h : Hdr) (g : BitVec 4)
  | gtst (h : Hdr) (resolved : Bool) (p : BitVec 3) (g : BitVec 4)
  -- copy (R260); bo is EXT[5:0], bit 5 set when bO is given
  | cpy (h : Hdr) (bd bs : BitVec 5) (bo : BitVec 6)
  | cpyg (h : Hdr) (bd bs bi : BitVec 5) (bo : BitVec 6)
  | cpys (h : Hdr) (bd bs bi : BitVec 5) (bo : BitVec 6)
  | cpyc (h : Hdr) (bh : BitVec 5)
  | cpyr (h : Hdr) (op : BitVec 3) (bd bs : BitVec 5) (bo : BitVec 6)
  | cseq (h : Hdr) (done : Bool) (dst : VSDst)
  | cpyw (h : Hdr) (a : Src)
  -- routing (R287)
  | rsv (h : Hdr) (tr : Bool) (d : BitVec 6) (bd bs : BitVec 5) (sc : BitVec 6)
  | route (h : Hdr) (tk : BitVec 6) (bt bk : BitVec 5)
  | rret (h : Hdr) (b : BitVec 5) (i : Src)
  | rwait (h : Hdr) (tk : BitVec 6)
  | rstat (h : Hdr) (f : BitVec 3) (dst : VSDst) (tk : BitVec 6)
  | stile (h : Hdr) (d : SDst) (b : Option (BitVec 5))
  | sflush (h : Hdr) (a : Src)
  | rfree (h : Hdr) (tk : BitVec 6)
  -- system (R294)
  | csr (h : Hdr) (dst : VSDst) (form : CsrForm)
  | csw (h : Hdr) (n : BitVec 8) (a : Src)
  | tret (h : Hdr) (k : BitVec 2)
  | nsave (h : Hdr) (d : SDst) (b : BitVec 5) (idx : Src)
  | nload (h : Hdr) (b : BitVec 5) (idx : Src) (sn : BitVec 6)
  | tstamp (h : Hdr) (clk fence : Bool) (dst : VSDst)
  | cntr (h : Hdr) (form : CntrForm) (n : Src)
  | probe (h : Hdr) (dst : VSDst) (off : Src)
  | icinv (h : Hdr) (b : Option (BitVec 5))
  | mark (h : Hdr) (n : BitVec 17)
  -- hints (R116 to R118)
  | hnear (h : Hdr) (c : BitVec 2) (b : BitVec 5) (idx : Src)
  | hest (h : Hdr) (d : VDst)
  | unimplementedHint (h : Hdr) (w : HintWord)
  -- moves of issue and names
  | bundleStart (core q : Nat)
  | joinRelease (p : PackId)
  | pendingValueArrive (p : PackId) (flight : Nat)
  | rowFree (p : PackId) (row : Nat)
  | rowsGranted (core slot : Nat)
  | allocationDeadlock (core slot : Nat)
  | rowEvict (core slot : Nat)
  | rowRestore (p : PackId)
  -- moves of the ordering machine
  | storeLeave (t : ThreadId) (po : Nat)
  | markerRetire (t : ThreadId) (po : Nat)
  | loadPerform (t : ThreadId) (po : Nat)
  | reductionCombine (i j : Nat)
  | reductionApply (i : Nat)
  | barrierWake (t : ThreadId)
  | barrierTimeout (t : ThreadId)
  | sleepWake (t : ThreadId)
  | cwaitWake (t : ThreadId)
  | mwaitWake (t : ThreadId)
  | cpywWake (t : ThreadId)
  | rwaitWake (t : ThreadId)
  | rsvEntryFreed (p : PackId)
  | spawnHoldRelease (t : ThreadId)
  | spawnSubmit (t : ThreadId) (po : Nat)
  | tlbMissWalk (ridge part va kind : Nat)
  | walkStopped (ridge part va kind : Nat)
  -- engines
  | matrixCommandStart (c : CmdId)
  | engineReadMove (c : CmdId) (start len : Nat)
  | engineWriteMove (c : CmdId) (start len : Nat)
  | commandRetire (c : CmdId)
  | operandReadyRetire (p : PackId) (fence : Nat)
  | powerLeaveGrant (c : CmdId)
  | shadowResolve (core slot : Nat) (g : BitVec 4)
  | chainEntry (c : CmdId)
  | pinTimeout (part va : Nat)
  | engineHangTimeout (core q : Nat)
  | engineReturnToService (core q : Nat)
  -- routing
  | routeTableRead (p : PackId)
  | routeStallResume (p : PackId)
  | recordStoreResolve (p : PackId)
  | flushTimerExpiry (part station : Nat)
  | stationTeamLaunch (part station : Nat)
  | rretClaim (t : ThreadId)
  | rretArrival (t : ThreadId)
  | reservationTimeout (core entry : Nat)
  | rowCombine (core entry row : Nat)
  -- system waits and retirement
  | icinvDrop (p : PackId)
  | tstampFenceSample (t : ThreadId)
  | teamRetire (core slot : Nat)
  | gridRetire (fe grid : Nat)
  | launchAccept (fe : Nat)
  | teamPlace (fe : Nat)
  -- faults and pre-emption
  | asyncFaultDelivery (t : ThreadId)
  | sliceTimerExpiry (part : Nat)
  | sliceEndEntry (p : PackId)
  | budgetExpiry (core : Nat)
  | saveDrainTimeout (core slot : Nat)
  | teamSave (core slot : Nat)
  | teamRestore (fe : Nat)
  -- the host
  | hostMemoryRequest (r : HostReq)
  | hostAtomicRead (r : HostAtomic)
  | hostAtomicWrite (r : HostAtomic)
  | mreset
  | dierst (die : Nat)
  | quar (die : Nat)
  | ptpstep (ns : BitVec 64)
  | keyregen (key : Nat)
  | engrst (core q : Nat)
  | activate (part : Nat)
  | deactivate (part : Nat)
  | partitionReset (part : Nat)
  | resetDrainTimeout (part : Nat)
  | endSlice (part : Nat)
  | resume (part : Nat)
  | resolve (part va outcome : Nat)
  | stationActivate (part station : Nat)
  | stationDeactivate (part station : Nat)
  | queueRegister (fe q : Nat) (cfg : BitVec 64)
  | queueUnregister (fe q : Nat)
  | qwr (fe q : Nat) (value : BitVec 32)
  | pcSample (core part : Nat)
  | counterRotate (ridge : Nat)
  -- trust
  | attestationTimeout (die : Nat)
  | keyRollover (src dst : Nat)
  | keySwitch (src dst : Nat)
  | oldKeyRetire (src dst : Nat)
  | linkFailure (src dst : Nat)
  | dieQuarantine (die : Nat)
  | tlbInvalidation (part va : Nat)
  -- inputs from system software, Summit and the dies
  | snapshot (part : Nat)
  | migrationStop (part : Nat)
  | migrationStart (part : Nat)
  | registrationUpdate (part off : Nat) (value : BitVec 64)
  | loan (part k partner : Nat)
  | reclaim (part k partner : Nat)
  | dbgrel (part : Nat) (t : ThreadId) (atPc : Bool)
  | rcmd (die : Nat)
  | mgmtRegisterWrite (off : Nat) (value : BitVec 64)
  | ptpEventMessage (port : Nat) (oneStep : Bool) (origin : Nat)
  | powerGood (die : Nat)
  | bootMeasured (die : Nat) (digest : BitVec 256)
  | bootImageRejected (die : Nat)
  | getVersion (die : Nat) (versions : List Nat)
  | getCapabilities (die : Nat) (cert chal meas keyEx encMac : Bool)
  | negotiateAlgorithms (die : Nat) (rsa3072 sha256 secp384r1 aes256gcm : Bool)
  | getDigests (die : Nat) (slot0 : Bool)
  | getCertificate (die : Nat) (root : BitVec 256) (leaf : Nat × Bool × BitVec 3072)
  | challenge (die : Nat) (verifies : Bool)
  | getMeasurements (die : Nat) (signed : Bool)
  | keyExchange (die : Nat) (established : Bool)
  | finish (die : Nat) (completes : Bool)
  | linkKeyInstall (src dst : Nat)
  | flitReceive (src dst : Nat) (key : Bool) (f : Flit)
  | ridgeReopen (die : Nat)
  | recoveryComplete (die : Nat) (ok : Bool)
  | icinvManagementEquivalent (part : Nat)
  | dirtyRidgeCacheLineError (ridge line : Nat)
  | segmentFormTranslator (part : Nat) (src dst : Nat) (lines : Nat)
  | ptpEventMessageEgress (port : Nat)
  deriving DecidableEq, Repr

end Sys2Proof
end

