-- ==== Sys2Proof/WellFormed.lean ====
section
/-! DEFINITION. Which instructions are well formed: the refusals of R102 that depend on an operand's kind, width, modifier or
index (R103 to R111, R129, R146, R147, R150 to R166, R193, R194, R206, R213, R242, R258, R260, R287, R294). -/

namespace Sys2Proof

/-- The destination `_` (R104). -/
def VDst.isDiscard (d : VDst) : Bool := d.idx == 0 && d.cnt == 0 && !d.wide

/-- A destination of width W, or `_` (R146, R147, R194). -/
def VDst.okAt (w : Bool) (d : VDst) : Bool := d.wide == w || d.isDiscard

/-- The names of a span: LEN + 1, or EXT + 1 when LEN is 31 (R107). -/
def spanCount (len : BitVec 5) (ext : BitVec 8) : Nat := if len == 31 then ext.toNat + 1 else len.toNat + 1

/-- A span stays within v0 to v255 (R107). -/
def spanFits (first : BitVec 8) (n : Nat) : Bool := first.toNat + n ≤ 256

/-- A source span whose length EXT cannot give. -/
def Span.okShort (x : Span) : Bool := x.len != 31 && spanFits x.first (x.len.toNat + 1)

/-- COMP and HALF need WID 0b00 (R104). -/
def NameSrc.shapeOk (n : NameSrc) : Bool := !n.wide || (n.half == .whole && n.comp == .whole)
/-- HALF needs WID 0b00 (R105). -/
def ScalSrc.shapeOk (x : ScalSrc) : Bool := !x.wide || x.half == .whole

/-- The assigned numbers of R286. -/
def sysAssigned (i : BitVec 8) : Bool :=
  i.toNat ≤ 11 || i == 16 || i == 17 || i == 32 || i == 33 || i == 34

/-- The registers of R286 that have a writer. -/
def sysWritable (i : BitVec 8) : Bool := i == 17 || i == 32 || i == 33 || i == 34

/-- A value name with the modifiers allowed: NEG and ABS when `m`, HALF when `hf`; WID as `w` asks. -/
def nameOk (m hf : Bool) (w : Option Bool) (n : NameSrc) : Bool :=
  n.shapeOk && (m || (!n.neg && !n.abs)) && (hf || n.half == .whole) && w.all (· == n.wide)
/-- The same for a scalar. -/
def scalOk (m hf : Bool) (w : Option Bool) (x : ScalSrc) : Bool :=
  x.shapeOk && (m || (!x.neg && !x.abs)) && (hf || x.half == .whole) && w.all (· == x.wide)

/-- The set "int" of R146; `w` is the WID asked for, if one is. -/
def Src.isInt (w : Option Bool) : Src → Bool
  | .name n => nameOk false true w n
  | .scal x => scalOk false true w x
  | .sys i => sysAssigned i
  | .imm _ => true
  | _ => false

/-- The set "fp" of R146. -/
def Src.isFp (hf : Bool) (w : Bool) : Src → Bool
  | .name n => nameOk true hf (some w) n
  | .scal x => scalOk true hf (some w) x
  | .imm _ => true
  | _ => false

/-- The set "scl" of R146. -/
def Src.isScl (w : Option Bool) : Src → Bool
  | .scal x => scalOk false false w x
  | .sys i => sysAssigned i
  | .imm _ => true
  | _ => false

/-- The set "name" of R146, without NEG and ABS. -/
def Src.isName (hf : Bool) (w : Option Bool) : Src → Bool
  | .name n => nameOk false hf w n
  | _ => false

/-- A predicate source. -/
def Src.isPred : Src → Bool
  | .pred _ _ => true
  | _ => false

/-- A name or scalar. -/
def Src.isNameOrScal (hf : Bool) (w : Option Bool) : Src → Bool
  | .name n => nameOk false hf w n
  | .scal x => scalOk false hf w x
  | _ => false

/-- A value name of 32 bits, a scalar or a short immediate (R128). -/
def Src.isCtl : Src → Bool
  | .name n => nameOk false true (some false) n
  | .scal x => scalOk false true none x
  | .imm _ => true
  | _ => false

/-- A value name or scalar of 64 bits (R128). -/
def Src.isPc : Src → Bool
  | .name n => nameOk false false (some true) n
  | .scal x => scalOk false false (some true) x
  | _ => false

/-- A scalar or a short immediate (R242). -/
def Src.isRow0 : Src → Bool
  | .scal x => scalOk false true none x
  | .imm _ => true
  | _ => false

/-- An index operand: the set "int", or a span of two names (R193). A LEN of 31 is refused where EXT gives no length (R107, R194; log 104). -/
def Src.isIdx : Src → Bool
  | .span x => x.len == 1 && x.okShort
  | s => s.isInt none

/-- An index operand whose span may take its length from EXT (R107, R193). -/
def Src.isIdxExt (ext : BitVec 8) : Src → Bool
  | .span x => spanCount x.len ext == 2 && spanFits x.first 2 && (x.len == 31 || ext == 0)
  | s => s.isInt none && ext == 0

/-- IKIND and SLOT (R110): SLOT is zero for a literal; `fmt` is refused for floating point (R111). -/
def Wide.ok (fp : Bool) (w : Wide) : Bool :=
  (w.kind != .literal || w.slot == 0) && !(fp && w.kind == .fmt)

/-- Two sources of the set "int". -/
def Src2.isInt (w : Bool) : Src2 → Bool
  | .reg a b => a.isInt (some w) && b.isInt (some w)
  | .wide (.name _) i => i.ok false
  | .wide (.scal _) i => i.ok false
  | .wide (.sys n) i => sysAssigned (n.zeroExtend 8) && i.ok false
  | .wide (.pred _) _ => false

/-- `lea`: the index may also be 32 bits wide (R150). -/
def Src2.isLea (w : Bool) : Src2 → Bool
  | .reg a b => a.isInt (some w) && (b.isInt (some w) || b.isInt (some false))
  | s => s.isInt w

/-- Two sources of the set "fp". -/
def Src2.isFp (hf : Bool) (w : Bool) : Src2 → Bool
  | .reg a b => a.isFp hf w && b.isFp hf w
  | .wide (.name _) i => i.ok true
  | .wide (.scal _) i => i.ok true
  | .wide (.sys _) _ => false
  | .wide (.pred _) _ => false

/-- Two sources of the set "scl". -/
def Src2.isScl (w : Bool) : Src2 → Bool
  | .reg a b => a.isScl (some w) && b.isScl (some w)
  | .wide (.name _) _ => false
  | .wide (.scal _) i => i.ok false
  | .wide (.sys n) i => sysAssigned (n.zeroExtend 8) && i.ok false
  | .wide (.pred _) _ => false

/-- `mov`: its source with its destination (R129, R142). A span in only one of the two is refused (log 108). -/
def movOk (dst : VNDst) (a : Src1) (ext : BitVec 8) : Bool :=
  match dst, a with
  | .v _, .wide i => i.ok false && ext == 0
  | .v _, .reg (.name n) => nameOk false true none n && ext == 0
  | .v _, .reg (.scal x) => scalOk false true none x && ext == 0
  | .v _, .reg (.pred _ neg) => !neg && ext == 0
  | .v _, .reg (.sys i) => sysAssigned i && ext == 0
  | .v _, .reg (.imm _) => ext == 0
  | .n d, .reg (.span x) =>
      spanCount d.len ext == spanCount x.len ext && spanFits d.first (spanCount d.len ext) &&
      spanFits x.first (spanCount x.len ext) && (d.len == 31 || x.len == 31 || ext == 0)
  | _, _ => false

/-- The operand of `drop`, `keep` and `live`: a name without modifiers, or a span (R129). -/
def countedOk (span : Bool) (ext : BitVec 8) : Src → Bool
  | .name n => nameOk false false none n && n.comp == .whole && ext == 0
  | .span x => span && spanFits x.first (spanCount x.len ext) && (x.len == 31 || ext == 0)
  | _ => false

/-- The types of `cvt` (R162): 0 to 4 are floats; the bits of each. -/
def cvtBits (c : BitVec 4) : Nat :=
  match c.toNat with
  | 0 => 64 | 1 => 32 | 2 => 19 | 3 => 16 | 4 => 16 | 5 => 8 | 6 => 8 | 7 => 16 | 8 => 16
  | 9 => 32 | 10 => 32 | 11 => 64 | 12 => 64 | _ => 0
def cvtIsFloat (c : BitVec 4) : Bool := c.toNat ≤ 4
def cvtWide (c : BitVec 4) : Bool := cvtBits c == 64

/-- The pairs of R95 for `cvt` (R162). -/
def cvtPair (dt st : BitVec 4) : Bool :=
  dt.toNat ≤ 12 && st.toNat ≤ 12 && dt != st &&
  (if cvtIsFloat dt && cvtIsFloat st then
    cvtBits st < cvtBits dt || (cvtBits st == 16 && cvtBits dt == 16) || (st.toNat ≤ 1 && cvtBits dt < cvtBits st)
  else if cvtIsFloat dt || cvtIsFloat st then true
  else cvtBits dt < cvtBits st)

/-- The size and the width code of an access (R194). -/
def szOk (store subOk : Bool) (sz : BitVec 3) (w : BitVec 8) : Bool :=
  sz != 7 && !(store && (sz == 1 || sz == 3)) && (if sz == 6 then subOk && w.toNat ≤ 4 else w == 0)

def LdOp.ok (kinds : List Ord) (scopes : List Scope) (o : LdOp) : Bool :=
  szOk false true o.sz o.w && kinds.contains o.ord && scopes.contains o.scope &&
  o.d.okAt (o.sz == 5) && o.idx.isIdx

def StOp.ok (kinds : List Ord) (scopes : List Scope) (o : StOp) : Bool :=
  szOk true true o.sz o.w && kinds.contains o.ord && scopes.contains o.scope &&
  o.idx.isIdx && o.v.isInt (some (o.sz == 5))

/-- W of `red` and of a stored operand: the WID of the value (R206). -/
def Src.isWide : Src → Bool
  | .name n => n.wide
  | .scal x => x.wide
  | _ => false

def limOk (l : BitVec 5) : Bool := l == 0 || 10 ≤ l.toNat
def scopeTC (s : Scope) : Bool := s == .t || s == .c

/-- `mfnc`'s operand (R242, R251). -/
def mfncOk (ext : BitVec 8) : Option Src → Bool
  | none => ext == 0
  | some (.bufr _) => ext == 0
  | some (.name n) => nameOk false false none n && ext == 0
  | some s => countedOk true ext s

def MldwForm.ok : MldwForm → Bool
  | .record _ idx ts tag => idx.isInt none && (!ts || tag.toNat < 64)
  | .span x tag ext =>
      spanFits x.first (spanCount x.len ext) && (x.len == 31 || ext == 0) &&
      (match tag with
       | .imm v => !v.msb
       | .scal x => scalOk false true none x
       | _ => false)

def MmaOp.ok (o : MmaOp) : Bool := o.sp.okShort

def sdstOk (w : Bool) : SDst → Bool := fun d => d.wide == w

def VSDst.ok32 : VSDst → Bool
  | .v d => !d.wide
  | .s _ => true
def VSDst.ok64 : VSDst → Bool
  | .v d => d.okAt true
  | .s d => d.wide

/-- `hnear` of R117: everything else with its major is an unimplemented hint (R116). -/
def hnearOk (c : BitVec 2) (idx : Src) : Bool :=
  c != 3 &&
  (match idx with
   | .name n => nameOk false false (some false) n
   | .imm _ => true
   | _ => false)

/-- The raw fields of a hint are those of R117 or R118, read field by field. -/
def HintWord.isNear (w : HintWord) : Bool :=
  w.maj == 0 && w.min.toNat < 3 && w.rsv == 0 && w.opd == 0xE0000 && w.ext == 0 &&
  w.opa.toNat / 16384 == 26 && w.opa.toNat % 16384 / 64 < 32 && w.opa.toNat % 64 == 0 &&
  (w.opb.toNat / 131072 == 4 ||
   (w.opb.toNat / 131072 == 0 && w.opb.toNat % 512 / 8 == 0 && w.opb.toNat % 2 == 0 && w.opb.toNat % 8 < 6))
def HintWord.isEst (w : HintWord) : Bool :=
  w.maj == 1 && w.min == 0 && w.rsv == 0 && w.opd.toNat / 131072 == 0 && w.opd.toNat % 32 == 0 &&
  w.opa == 0xE0000 && w.opb == 0xE0000 && w.ext == 0

/-- Well-formedness of an instruction. A move or event is no word: it is always well formed. -/
def Instr.wf : Instr → Bool
  | .nop _ => true
  | .bra _ _ sl => sl.toNat ≤ 9
  | .brx _ a => a.isPc
  | .call _ dst _ sl =>
      sl.toNat ≤ 9 && (match dst with | .v d => d.okAt true | .s d => d.wide)
  | .ret _ a => a.isPc
  | .split _ _ sl => sl.toNat ≤ 9
  | .join _ => true
  | .brk _ _ _ sl => sl.toNat ≤ 9
  | .exit _ => true
  | .yield _ => true
  | .trap _ n => !n.msb
  | .trapDbg _ n => !n.msb
  | .spawn _ d _ idx => !d.wide && idx.isCtl
  | .cwait _ a => a.isCtl
  | .cwaitAll _ => true
  | .sleep _ a => a.isCtl
  | .mov _ dst a ext => movOk dst a ext
  | .drop _ k v ext => k != 0 && countedOk true ext v
  | .keep _ k v ext => k != 0 && k != 15 && countedOk true ext v
  | .live _ form d => !d.wide && (match form with | .plain v => countedOk false 0 v | _ => true)
  | .iadd _ o | .isub _ o | .imul _ o => o.s.isInt o.d.wide
  | .imulh _ _ o => o.s.isInt o.d.wide
  | .imad _ o => o.a.isInt (some o.d.wide) && o.b.isInt (some o.d.wide)
  | .imadw _ _ o => o.d.okAt true && o.a.isInt (some false) && o.b.isInt (some false)
  | .imin _ _ o | .imax _ _ o => o.s.isInt o.d.wide
  | .iabs _ d a => a.isInt (some d.wide)
  | .and _ o | .or _ o | .xor _ o => o.s.isInt o.d.wide
  | .not _ d a => a.isInt (some d.wide)
  | .shl _ o | .shr _ o | .sar _ o => o.s.isInt o.d.wide
  | .bfx _ _ o => o.s.isInt o.d.wide
  | .bfi _ o => o.a.isInt (some o.d.wide) && o.b.isInt (some o.d.wide)
  | .popc _ d a | .clz _ d a => a.isInt (some d.wide)
  | .icmp _ o => o.cond != .un && o.s.isInt o.w64
  | .sel _ _ o => o.s.isInt o.d.wide
  | .iadds _ _ o => o.s.isInt o.d.wide
  | .lea _ _ _ o => o.s.isLea o.d.wide
  | .sadd _ o | .ssub _ o | .smul _ o => o.s.isScl o.d.wide
  | .smov _ d a =>
      (match a with
       | .reg s => s.isScl (some d.wide) || s.isPred
       | .wide i => i.ok false)
  | .scmp _ o => o.cond != .un && o.s.isScl o.w64
  | .sbcast _ d a => a.isName true (some d.wide)
  | .sget _ d a => d.wide && (match a with | .fmt _ => true | .slot _ => true | _ => false)
  | .sand _ op o => op.toNat ≤ 5 && o.s.isScl o.d.wide
  | .fadd _ _ o | .fsub _ _ o | .fmul _ _ o | .fdiv _ _ o => !o.d.wide && o.s.isFp false false
  | .ffma _ _ o => !o.d.wide && o.a.isFp false false && o.b.isFp false false
  | .fmin _ _ o | .fmax _ _ o => !o.d.wide && o.s.isFp false false
  | .fcmp _ o => o.s.isFp false false
  | .frnd _ _ d a | .frcp _ _ d a | .frsq _ _ d a | .fsqrt _ _ d a
  | .fex2 _ _ d a | .flg2 _ _ d a | .fsin _ _ d a | .fcos _ _ d a => !d.wide && a.isFp false false
  | .dadd _ _ o | .dmul _ _ o => o.d.okAt true && o.s.isFp false true
  | .dfma _ _ o => o.d.okAt true && o.a.isFp false true && o.b.isFp false true
  | .dcmp _ o => o.s.isFp false true
  | .hadd2 _ _ _ o | .hmul2 _ _ _ o => !o.d.wide && o.s.isFp true false
  | .hfma2 _ _ _ o => !o.d.wide && o.a.isFp true false && o.b.isFp true false
  | .hmax2 _ _ _ o => !o.d.wide && o.s.isFp true false
  | .cvt _ sat _ td ty d a =>
      cvtPair td ty && (!sat || (!cvtIsFloat td && !cvtIsFloat ty)) && d.okAt (cvtWide td) &&
      (if cvtIsFloat ty then
        (match a with
         | .name n => nameOk false false (some (cvtWide ty)) n
         | .scal x => scalOk false false (some (cvtWide ty)) x
         | .imm _ => true
         | _ => false)
       else a.isInt (some (cvtWide ty)))
  | .cvtn _ d x _ _ => !d.wide && x.isFp false false
  | .cvtw _ d c _ _ => !d.wide && c.isInt (some false)
  | .scl _ d form => !d.wide &&
      (match form with
       | .exp _ x n => x.isFp false false && n.isInt (some false)
       | .e8m0 x _ => x.isFp false false
       | .rebase c n _ => c.isInt (some false) && n.isInt (some false))
  | .pk2 _ form d a b => !d.wide && a.isFp (form == .bits) false && b.isFp (form == .bits) false
  | .unpk _ _ d a => !d.wide && a.isNameOrScal true (some false)
  | .fcls _ k d a => !d.wide && a.isNameOrScal (k == 2 || k == 3) (some (k == 1))
  | .shfl _ _ d a l => a.isName false (some d.wide) && l.isInt (some false)
  | .vote _ m dst a => (a.isPred || a.isName false (some false)) &&
      (match dst with | .v d => m == 3 && !d.wide | .p _ => m != 3)
  | .ballot _ dst a => (a.isPred || a.isName false (some false)) && dst.ok32
  | .redux _ op d a => op.toNat ≤ 10 && a.isName false (some d.wide)
  | .scan _ op _ d a => op.toNat ≤ 10 && a.isName false (some d.wide)
  | .topk _ k d form =>
      (match form with
       | .fresh c x ext =>
           spanCount d.len ext == 2 * (k.toNat + 1) && spanFits d.first (2 * (k.toNat + 1)) &&
           (d.len == 31 || ext == 0) && c.isFp false false && x.isInt (some false)
       | .ins ol c _ _ =>
           d.len != 31 && ol.len != 31 && d.len.toNat + 1 == 2 * (k.toNat + 1) && ol.len == d.len &&
           spanFits d.first (2 * (k.toNat + 1)) && spanFits ol.first (2 * (k.toNat + 1)) && c.isFp false false)
  | .ld _ o => o.ok [.none, .acq] [.d, .s]
  | .st _ o => o.ok [.none, .rel] [.d, .s]
  | .lds _ o => o.ok [.none, .acq] [.t, .c]
  | .sts _ o => o.ok [.none, .rel] [.t, .c]
  | .ldp _ o => o.ok [.none] [.t]
  | .stp _ o => o.ok [.none] [.t]
  | .sld _ sz _ ord d _ idx =>
      szOk false false sz 0 && [Ord.none, .acq].contains ord && d.wide == (sz == 5) && idx.isScl none
  | .ldc _ sz d _ off => szOk false false sz 0 && d.okAt (sz == 5) && off.isInt none
  | .pref _ _ idx ext => idx.isIdxExt ext
  | .bsub _ _ _ _ _ off => off.isScl none
  | .bget _ f _ _ => f.toNat ≤ 3
  | .fence _ _ ord => ord != .none
  | .atom _ op _ _ d _ idx v => op.toNat ≤ 10 && idx.isIdx && v.isInt (some d.wide)
  | .acas _ _ _ _ _ idx v => idx.isIdx && v.len == 1 && v.okShort
  | .afadd _ ty _ _ d _ idx v => ty.toNat ≤ 2 && (ty == 0 || !d.wide) && idx.isIdx && v.isFp false d.wide
  | .red _ op _ _ _ idx v =>
      (op.toNat ≤ 7 || op == 9 || op == 10 || op == 11) && idx.isIdx &&
      (if op == 11 then v.isFp false v.isWide else v.isInt none)
  | .binit _ sc _ idx expa => scopeTC sc && idx.isIdx && expa.isInt (some false)
  | .barv _ sc d _ idx count => scopeTC sc && !d.wide && idx.isIdx && count.isInt (some false)
  | .bexp _ sc _ idx bytes => scopeTC sc && idx.isIdx && bytes.isInt (some false)
  | .bwait _ lim sc _ idx ph => limOk lim && scopeTC sc && idx.isIdx && ph.isInt (some false)
  | .btry _ sc _ _ idx ph => scopeTC sc && idx.isIdx && ph.isInt (some false)
  | .bar _ lim sc _ idx count => limOk lim && scopeTC sc && idx.isIdx && count.isInt (some false)
  | .mldw _ _ form _ => form.ok
  | .mma _ o => o.ok
  | .mmar _ o => o.ok && o.g.isSome
  | .mfnc _ a ext => mfncOk ext a
  | .mwait _ _ => true
  | .mrd _ d _ row0 ext =>
      spanCount d.len ext == 16 && spanFits d.first 16 && (d.len == 31 || ext == 0) && row0.isRow0
  | .mzero _ _ _ => true
  | .mwr _ _ _ sp row0 => sp.len == 15 && spanFits sp.first 16 && row0.toNat % 8 == 0 && row0.toNat ≤ 56
  | .mtag _ _ _ idx n => idx.isInt none && 1 ≤ n.toNat && n.toNat ≤ 16
  | .mstat _ _ _ => true
  | .mst _ _ _ idx _ _ => idx.isInt none
  | .gset _ _ a => a.isInt none || a.isPred
  | .gclr _ _ => true
  | .gtst _ _ _ _ => true
  | .cpy _ _ _ _ => true
  | .cpyg _ _ _ _ _ => true
  | .cpys _ _ _ _ _ => true
  | .cpyc _ _ => true
  | .cpyr _ op _ _ _ => op.toNat ≤ 4
  | .cseq _ _ dst => dst.ok32
  | .cpyw _ a => a.isInt none
  | .rsv _ _ _ _ _ _ => true
  | .route _ _ _ _ => true
  | .rret _ _ i => i.isInt (some false)
  | .rwait _ _ => true
  | .rstat _ f _ _ => f.toNat ≤ 5
  | .stile _ _ _ => true
  | .sflush _ a => a.isInt (some false)
  | .rfree _ _ => true
  | .csr _ _ form => (match form with | .direct i => sysAssigned i | .ind a => a.isInt none)
  | .csw _ n a => sysWritable n && a.isInt none
  | .tret _ k => k != 3
  | .nsave _ _ _ idx => idx.isInt none
  | .nload _ _ idx _ => idx.isInt none
  | .tstamp _ _ _ dst => dst.ok64
  | .cntr _ form n => n.isInt none &&
      (match form with
       | .one f dst => f != 3 && dst.ok64
       | .all d ext => spanCount d.len ext == 3 && spanFits d.first 3 && (d.len == 31 || ext == 0))
  | .probe _ dst off => dst.ok64 && off.isInt none
  | .icinv _ _ => true
  | .mark _ n => !n.msb
  | .hnear _ c _ idx => hnearOk c idx
  | .hest _ d => !d.wide
  | .unimplementedHint _ w => w.maj.toNat ≤ 13 && !w.isNear && !w.isEst
  | .bundleStart .. | .joinRelease .. | .pendingValueArrive .. | .rowFree .. | .rowsGranted ..
  | .allocationDeadlock .. | .rowEvict .. | .rowRestore .. | .storeLeave .. | .markerRetire ..
  | .loadPerform .. | .reductionCombine .. | .reductionApply .. | .barrierWake .. | .barrierTimeout ..
  | .sleepWake .. | .cwaitWake .. | .mwaitWake .. | .cpywWake .. | .rwaitWake ..
  | .rsvEntryFreed .. | .spawnHoldRelease .. | .spawnSubmit .. | .tlbMissWalk .. | .walkStopped ..
  | .matrixCommandStart .. | .engineReadMove .. | .engineWriteMove .. | .commandRetire .. | .operandReadyRetire ..
  | .powerLeaveGrant .. | .shadowResolve .. | .chainEntry .. | .pinTimeout .. | .engineHangTimeout ..
  | .engineReturnToService .. | .routeTableRead .. | .routeStallResume .. | .recordStoreResolve .. | .flushTimerExpiry ..
  | .stationTeamLaunch .. | .rretClaim .. | .rretArrival .. | .reservationTimeout .. | .rowCombine ..
  | .icinvDrop .. | .tstampFenceSample .. | .teamRetire .. | .gridRetire .. | .launchAccept ..
  | .teamPlace .. | .asyncFaultDelivery .. | .sliceTimerExpiry .. | .sliceEndEntry .. | .budgetExpiry ..
  | .saveDrainTimeout .. | .teamSave .. | .teamRestore .. | .hostMemoryRequest .. | .hostAtomicRead ..
  | .hostAtomicWrite .. | .mreset .. | .dierst .. | .quar .. | .ptpstep ..
  | .keyregen .. | .engrst .. | .activate .. | .deactivate .. | .partitionReset ..
  | .resetDrainTimeout .. | .snapshot .. | .endSlice .. | .resume .. | .migrationStop ..
  | .migrationStart .. | .resolve .. | .registrationUpdate .. | .stationActivate .. | .stationDeactivate ..
  | .loan .. | .reclaim .. | .dbgrel .. | .queueRegister .. | .queueUnregister ..
  | .qwr .. | .rcmd .. | .mgmtRegisterWrite .. | .ptpEventMessage .. | .pcSample ..
  | .counterRotate .. | .powerGood .. | .bootMeasured .. | .bootImageRejected .. | .getVersion ..
  | .getCapabilities .. | .negotiateAlgorithms .. | .getDigests .. | .getCertificate .. | .challenge ..
  | .getMeasurements .. | .keyExchange .. | .finish .. | .attestationTimeout .. | .linkKeyInstall ..
  | .keyRollover .. | .keySwitch .. | .oldKeyRetire .. | .flitReceive .. | .linkFailure ..
  | .dieQuarantine .. | .ridgeReopen .. | .recoveryComplete .. | .tlbInvalidation .. | .icinvManagementEquivalent ..
  | .dirtyRidgeCacheLineError .. | .segmentFormTranslator .. | .ptpEventMessageEgress .. => true

end Sys2Proof
end

