-- ==== Sys2Proof/Decode.lean ====
section
/-! DEFINITION. The instruction word: the decoder, total on any bytes and refusing by name (R99 to R111, R114 to R118), and the
encoder, both written from the encoding tables R128, R150, R154, R156, R161, R166, R193, R206, R213, R242, R258, R260, R287, R294. -/

namespace Sys2Proof

/-- The fields of an instruction word (R100), each as a number. -/
structure Fields where
  maj   : Nat
  min   : Nat
  gneg  : Nat
  gpred : Nat
  la    : Nat
  yld   : Nat
  uexp  : Nat
  rsv   : Nat
  opd   : Nat
  opa   : Nat
  opb   : Nat
  ext   : Nat
  deriving DecidableEq, Repr

/-- Why the decoder refuses; every refusal but `truncated` is `ILLEGAL_OPCODE` (R102). -/
inductive Reject where
  | truncated         -- fewer than 12 bytes
  | unassignedMajor   -- R102, R115
  | fieldNotAssigned  -- a reserved or must-be-zero bit, an unassigned MIN, or an operand field of the wrong form (R102, R103)
  | operandRefused    -- an operand's kind, width, modifier or index that the description refuses (R102)
  deriving DecidableEq, Repr

/-- The 96 bits cut into fields (R100). -/
def fieldsOf (w : Nat) : Fields where
  maj   := w / 2 ^ 88 % 256
  min   := w / 2 ^ 80 % 256
  gneg  := w / 2 ^ 79 % 2
  gpred := w / 2 ^ 76 % 8
  la    := w / 2 ^ 72 % 16
  yld   := w / 2 ^ 71 % 2
  uexp  := w / 2 ^ 70 % 2
  rsv   := w / 2 ^ 68 % 4
  opd   := w / 2 ^ 48 % 1048576
  opa   := w / 2 ^ 28 % 1048576
  opb   := w / 2 ^ 8 % 1048576
  ext   := w % 256

/-- The fields put together (R100). -/
def wordOf (f : Fields) : Nat :=
  f.maj * 2 ^ 88 + f.min * 2 ^ 80 + f.gneg * 2 ^ 79 + f.gpred * 2 ^ 76 + f.la * 2 ^ 72 + f.yld * 2 ^ 71 + f.uexp * 2 ^ 70 +
  f.rsv * 2 ^ 68 + f.opd * 2 ^ 48 + f.opa * 2 ^ 28 + f.opb * 2 ^ 8 + f.ext

/-- The field of an operand that the form does not use (R103). -/
def noneF : Nat := 917504

def Half.code : Half → Nat
  | .whole => 0 | .lo => 1 | .hi => 2
def Half.ofCode (n : Nat) : Half := if n = 1 then .lo else if n = 2 then .hi else .whole
def Comp.code : Comp → Nat
  | .whole => 0 | .lo => 1 | .hi => 2
def Comp.ofCode (n : Nat) : Comp := if n = 1 then .lo else if n = 2 then .hi else .whole
/-- COND (R113). -/
def Cond.code : Cond → Nat
  | .eq => 0 | .ne => 1 | .lt => 2 | .le => 3 | .gt => 4 | .ge => 5 | .un => 6
def Cond.ofCode (n : Nat) : Cond :=
  if n = 0 then .eq else if n = 1 then .ne else if n = 2 then .lt else if n = 3 then .le
  else if n = 4 then .gt else if n = 5 then .ge else .un
/-- RND (R86). -/
def Rnd.code : Rnd → Nat
  | .rne => 0 | .rtz => 1 | .rdn => 2 | .rup => 3 | .rs => 4
def Rnd.ofCode (n : Nat) : Rnd :=
  if n = 1 then .rtz else if n = 2 then .rdn else if n = 3 then .rup else if n = 4 then .rs else .rne
/-- SCOPE (R113). -/
def Scope.code : Scope → Nat
  | .t => 0 | .c => 1 | .d => 2 | .s => 3
def Scope.ofCode (n : Nat) : Scope := if n = 0 then .t else if n = 1 then .c else if n = 2 then .d else .s
/-- ORD (R113). -/
def Ord.code : Ord → Nat
  | .none => 0 | .acq => 1 | .rel => 2 | .full => 3
def Ord.ofCode (n : Nat) : Ord := if n = 0 then .none else if n = 1 then .acq else if n = 2 then .rel else .full
/-- IKIND (R110). -/
def IKind.code : IKind → Nat
  | .literal => 0 | .i32 => 1 | .u32 => 2 | .f32 => 3 | .fmt => 4 | .count => 5
def IKind.ofCode (n : Nat) : IKind :=
  if n = 1 then .i32 else if n = 2 then .u32 else if n = 3 then .f32 else if n = 4 then .fmt
  else if n = 5 then .count else .literal

/-- A source field (R103 to R108). -/
def Src.enc : Src → Nat
  | .name n => n.idx.toNat * 512 + n.neg.toNat * 256 + n.abs.toNat * 128 + n.half.code * 32 + n.wide.toNat * 8 + n.comp.code * 2
  | .scal x => 131072 + x.idx.toNat * 512 + x.neg.toNat * 256 + x.abs.toNat * 128 + x.half.code * 32 + x.wide.toNat * 8
  | .pred i neg => 262144 + i.toNat * 512 + neg.toNat * 256
  | .tile i => 393216 + i.toNat * 64
  | .slot i => 409600 + i.toNat * 64
  | .bufr i => 425984 + i.toNat * 64
  | .fmt i => 442368 + i.toNat * 64
  | .sys i => 458752 + i.toNat * 64
  | .imm v => 524288 + v.toNat
  | .span x => 655360 + x.first.toNat * 512 + x.len.toNat

/-- Reads a source field; bits the kind does not use are left to the canonical check of `decodeFields`. -/
def Src.dec (x : Nat) : Src :=
  if x / 131072 = 0 then
    .name ⟨BitVec.ofNat 8 (x / 512 % 256), x / 256 % 2 == 1, x / 128 % 2 == 1, Half.ofCode (x / 32 % 4), x / 8 % 4 == 1,
      Comp.ofCode (x / 2 % 4)⟩
  else if x / 131072 = 1 then
    .scal ⟨BitVec.ofNat 6 (x / 512 % 256), x / 256 % 2 == 1, x / 128 % 2 == 1, Half.ofCode (x / 32 % 4), x / 8 % 4 == 1⟩
  else if x / 131072 = 2 then .pred (BitVec.ofNat 3 (x / 512 % 256)) (x / 256 % 2 == 1)
  else if x / 131072 = 3 then
    if x / 16384 % 8 = 0 then .tile (BitVec.ofNat 4 (x / 64 % 256))
    else if x / 16384 % 8 = 1 then .slot (BitVec.ofNat 4 (x / 64 % 256))
    else if x / 16384 % 8 = 2 then .bufr (BitVec.ofNat 5 (x / 64 % 256))
    else if x / 16384 % 8 = 3 then .fmt (BitVec.ofNat 3 (x / 64 % 256))
    else .sys (BitVec.ofNat 8 (x / 64 % 256))
  else if x / 131072 = 4 then .imm (BitVec.ofNat 17 (x % 131072))
  else .span ⟨BitVec.ofNat 8 (x / 512 % 256), BitVec.ofNat 5 (x % 32)⟩

/-- A value-name destination (R104). -/
def VDst.enc (d : VDst) : Nat := d.idx.toNat * 512 + d.cnt.toNat * 32 + d.wide.toNat * 8
def VDst.dec (x : Nat) : VDst := ⟨BitVec.ofNat 8 (x / 512 % 256), BitVec.ofNat 4 (x / 32 % 16), x / 8 % 4 == 1⟩
/-- A scalar destination (R105). -/
def SDst.enc (d : SDst) : Nat := 131072 + d.idx.toNat * 512 + d.wide.toNat * 8
def SDst.dec (x : Nat) : SDst := ⟨BitVec.ofNat 6 (x / 512 % 256), x / 8 % 4 == 1⟩
/-- A predicate destination (R105). -/
def encP (i : BitVec 3) : Nat := 262144 + i.toNat * 512
def decP (x : Nat) : BitVec 3 := BitVec.ofNat 3 (x / 512 % 256)
/-- A span destination (R107). -/
def SpanD.enc (d : SpanD) : Nat := 655360 + d.first.toNat * 512 + d.cnt.toNat * 32 + d.len.toNat
def SpanD.dec (x : Nat) : SpanD := ⟨BitVec.ofNat 8 (x / 512 % 256), BitVec.ofNat 4 (x / 32 % 16), BitVec.ofNat 5 (x % 32)⟩
/-- A span source (R107). -/
def Span.enc (s : Span) : Nat := 655360 + s.first.toNat * 512 + s.len.toNat
def Span.dec (x : Nat) : Span := ⟨BitVec.ofNat 8 (x / 512 % 256), BitVec.ofNat 5 (x % 32)⟩

def VSDst.enc : VSDst → Nat
  | .v d => d.enc
  | .s d => d.enc
def VSDst.dec (x : Nat) : VSDst := if x / 131072 = 1 then .s (SDst.dec x) else .v (VDst.dec x)
def VPDst.enc : VPDst → Nat
  | .v d => d.enc
  | .p i => encP i
def VPDst.dec (x : Nat) : VPDst := if x / 131072 = 2 then .p (decP x) else .v (VDst.dec x)
def VNDst.enc : VNDst → Nat
  | .v d => d.enc
  | .n d => d.enc
def VNDst.dec (x : Nat) : VNDst := if x / 131072 = 5 then .n (SpanD.dec x) else .v (VDst.dec x)

/-- Special-register fields of R106: tiles, guard slots, buffer records and format slots. -/
def encA (i : BitVec 4) : Nat := 393216 + i.toNat * 64
def decA (x : Nat) : BitVec 4 := BitVec.ofNat 4 (x / 64 % 256)
def encGs (i : BitVec 4) : Nat := 409600 + i.toNat * 64
def encB (i : BitVec 5) : Nat := 425984 + i.toNat * 64
def decB (x : Nat) : BitVec 5 := BitVec.ofNat 5 (x / 64 % 256)
def encF (i : BitVec 3) : Nat := 442368 + i.toNat * 64
def decF (x : Nat) : BitVec 3 := BitVec.ofNat 3 (x / 64 % 256)
def encY (i : BitVec 8) : Nat := 458752 + i.toNat * 64
def decY (x : Nat) : BitVec 8 := BitVec.ofNat 8 (x / 64 % 256)
/-- The optional guard slot "G" of R242. -/
def encG : Option (BitVec 4) → Nat
  | none => noneF
  | some g => encGs g
def decG (x : Nat) : Option (BitVec 4) := if x = noneF then none else some (decA x)
def encOA : Option (BitVec 4) → Nat
  | none => noneF
  | some a => encA a
def encOB : Option (BitVec 5) → Nat
  | none => noneF
  | some b => encB b
def decOB (x : Nat) : Option (BitVec 5) := if x = noneF then none else some (decB x)
def encOS : Option Src → Nat
  | none => noneF
  | some s => s.enc
def decOS (x : Nat) : Option Src := if x = noneF then none else some (Src.dec x)
/-- A ticket's scalar, "T64" (R287). -/
def encT (i : BitVec 6) : Nat := 131080 + i.toNat * 512
def decT (x : Nat) : BitVec 6 := BitVec.ofNat 6 (x / 512 % 256)

/-- Bits [47:8] of the 32-bit immediate form (R110). -/
def Wide.bits (w : Wide) (xcls : Nat) : Nat :=
  w.kind.code * 2 ^ 37 + xcls * 2 ^ 36 + w.slot.toNat * 2 ^ 32 + w.imm.toNat
def Wide.ofBits (x : Nat) : Wide :=
  ⟨IKind.ofCode (x / 2 ^ 37), BitVec.ofNat 4 (x / 2 ^ 32 % 16), BitVec.ofNat 32 (x % 2 ^ 32)⟩

def ExtSrc.xcls : ExtSrc → Nat
  | .name _ => 0
  | _ => 1
def ExtSrc.ext : ExtSrc → Nat
  | .name i => i.toNat
  | .scal i => i.toNat
  | .sys i => 64 + i.toNat
  | .pred i => 128 + i.toNat
def ExtSrc.dec (xcls ext : Nat) : ExtSrc :=
  if xcls = 0 then .name (BitVec.ofNat 8 ext)
  else if ext / 64 = 0 then .scal (BitVec.ofNat 6 ext)
  else if ext / 64 = 1 then .sys (BitVec.ofNat 6 ext)
  else .pred (BitVec.ofNat 3 ext)

/-- OPA, OPB and EXT of two sources, with the WIDE bit's weight. -/
def Src2.wideBit : Src2 → Nat
  | .reg _ _ => 0
  | .wide _ _ => 128
def Src2.opa : Src2 → Nat
  | .reg a _ => a.enc
  | .wide e w => w.bits e.xcls / 1048576
def Src2.opb : Src2 → Nat
  | .reg _ b => b.enc
  | .wide e w => w.bits e.xcls % 1048576
def Src2.ext : Src2 → Nat
  | .reg _ _ => 0
  | .wide e _ => e.ext
def Src2.dec (f : Fields) : Src2 :=
  if f.min / 128 = 1 then
    .wide (ExtSrc.dec ((f.opa * 1048576 + f.opb) / 2 ^ 36 % 2) f.ext) (Wide.ofBits (f.opa * 1048576 + f.opb))
  else .reg (Src.dec f.opa) (Src.dec f.opb)
def Src1.wideBit : Src1 → Nat
  | .reg _ => 0
  | .wide _ => 128
def Src1.opa : Src1 → Nat
  | .reg a => a.enc
  | .wide w => w.bits 0 / 1048576
def Src1.opb : Src1 → Nat
  | .reg _ => noneF
  | .wide w => w.bits 0 % 1048576
def Src1.dec (f : Fields) : Src1 :=
  if f.min / 128 = 1 then .wide (Wide.ofBits (f.opa * 1048576 + f.opb)) else .reg (Src.dec f.opa)

/-- The guard, lookahead and marks of a word (R100). -/
def Hdr.ofFields (f : Fields) : Hdr :=
  ⟨f.gneg == 1, BitVec.ofNat 3 f.gpred, BitVec.ofNat 4 f.la, f.yld == 1, f.uexp == 1⟩
/-- A word's fields from its header and the fields that its table row gives. -/
def Hdr.fields (h : Hdr) (maj mn opd opa opb ext : Nat) : Fields :=
  ⟨maj, mn, h.gneg.toNat, h.gpred.toNat, h.la.toNat, h.yld.toNat, h.uexp.toNat, 0, opd, opa, opb, ext⟩

def Op2.fields (h : Hdr) (maj mn : Nat) (o : Op2) : Fields :=
  h.fields maj (o.s.wideBit + mn) o.d.enc o.s.opa o.s.opb o.s.ext
def Op2.dec (f : Fields) : Op2 := ⟨VDst.dec f.opd, Src2.dec f⟩
def Op3.fields (h : Hdr) (maj mn : Nat) (o : Op3) : Fields :=
  h.fields maj mn o.d.enc o.a.enc o.b.enc o.c.toNat
def Op3.dec (f : Fields) : Op3 := ⟨VDst.dec f.opd, Src.dec f.opa, Src.dec f.opb, BitVec.ofNat 8 f.ext⟩
def SOp2.fields (h : Hdr) (maj mn : Nat) (o : SOp2) : Fields :=
  h.fields maj (o.s.wideBit + mn) o.d.enc o.s.opa o.s.opb o.s.ext
def SOp2.dec (f : Fields) : SOp2 := ⟨SDst.dec f.opd, Src2.dec f⟩
def ICmp.fields (h : Hdr) (maj : Nat) (o : ICmp) : Fields :=
  h.fields maj (o.s.wideBit + o.w64.toNat * 16 + o.sgn.toNat * 8 + o.cond.code) (encP o.p) o.s.opa o.s.opb o.s.ext
def ICmp.dec (f : Fields) : ICmp :=
  ⟨decP f.opd, f.min / 16 % 2 == 1, f.min / 8 % 2 == 1, Cond.ofCode (f.min % 8), Src2.dec f⟩
def FCmp.fields (h : Hdr) (maj : Nat) (o : FCmp) : Fields :=
  h.fields maj (o.s.wideBit + o.cond.code) (encP o.p) o.s.opa o.s.opb o.s.ext
def FCmp.dec (f : Fields) : FCmp := ⟨decP f.opd, Cond.ofCode (f.min % 8), Src2.dec f⟩
/-- One source of the floating-point group. -/
def fields1 (h : Hdr) (maj mn : Nat) (d : VDst) (a : Src) : Fields := h.fields maj mn d.enc a.enc noneF 0
def LdOp.fields (h : Hdr) (maj : Nat) (o : LdOp) : Fields :=
  h.fields maj (o.sz.toNat * 16 + o.ord.code * 4 + o.scope.code) o.d.enc (encB o.b) o.idx.enc o.w.toNat
def LdOp.dec (f : Fields) : LdOp :=
  ⟨BitVec.ofNat 3 (f.min / 16), Scope.ofCode (f.min % 4), Ord.ofCode (f.min / 4 % 4), VDst.dec f.opd, decB f.opa,
   Src.dec f.opb, BitVec.ofNat 8 f.ext⟩
def StOp.fields (h : Hdr) (maj : Nat) (o : StOp) : Fields :=
  h.fields maj (o.sz.toNat * 16 + o.ord.code * 4 + o.scope.code) (encB o.b) o.idx.enc o.v.enc o.w.toNat
def StOp.dec (f : Fields) : StOp :=
  ⟨BitVec.ofNat 3 (f.min / 16), Scope.ofCode (f.min % 4), Ord.ofCode (f.min / 4 % 4), decB f.opd, Src.dec f.opa,
   Src.dec f.opb, BitVec.ofNat 8 f.ext⟩
def BsubLen.code : BsubLen → Nat
  | .imm _ => 0 | .scal _ => 1 | .rest => 2
def BsubLen.ext : BsubLen → Nat
  | .imm n => n.toNat | .scal i => i.toNat | .rest => 0
def BsubLen.dec (code ext : Nat) : BsubLen :=
  if code = 0 then .imm (BitVec.ofNat 8 ext) else if code = 1 then .scal (BitVec.ofNat 6 ext) else .rest
def MmaOp.fields (h : Hdr) (maj : Nat) (o : MmaOp) : Fields :=
  h.fields maj ((match o.g with | none => 0 | some g => 16 + g.toNat) + o.e.toNat * 32 + o.tag.toNat * 64)
    (encA o.a) o.sp.enc (encF o.f) o.vs.toNat
def MmaOp.dec (f : Fields) : MmaOp :=
  ⟨if f.min / 16 % 2 = 1 then some (BitVec.ofNat 4 (f.min % 16)) else none, f.min / 32 % 2 == 1, f.min / 64 % 2 == 1,
   decA f.opd, Span.dec f.opa, decF f.opb, BitVec.ofNat 8 f.ext⟩
/-- `.scl` and vS of `cvtn` and `cvtw` (R161). -/
def encScale : Option (BitVec 8) → Nat
  | none => 0 | some v => v.toNat
def scaleBit : Option (BitVec 8) → Nat
  | none => 0 | some _ => 16
def decScale (f : Fields) : Option (BitVec 8) := if f.min / 16 % 2 = 1 then some (BitVec.ofNat 8 f.ext) else none

/-- The fields of an instruction's word, from the encoding tables; a move or event has none. -/
def Instr.toFields : Instr → Option Fields
  | .nop h => some (h.fields 0x00 0 noneF noneF noneF 0)
  | .bra h disp slot => some (h.fields 0x01 0 noneF (524288 + disp.toNat) noneF slot.toNat)
  | .brx h a => some (h.fields 0x02 0 noneF a.enc noneF 0)
  | .call h dst disp slot => some (h.fields 0x03 0 dst.enc (524288 + disp.toNat) noneF slot.toNat)
  | .ret h a => some (h.fields 0x04 0 noneF a.enc noneF 0)
  | .split h disp slot => some (h.fields 0x05 0 noneF (524288 + disp.toNat) noneF slot.toNat)
  | .join h => some (h.fields 0x06 0 noneF noneF noneF 0)
  | .brk h n disp slot => some (h.fields 0x07 n.toNat noneF (524288 + disp.toNat) noneF slot.toNat)
  | .exit h => some (h.fields 0x08 0 noneF noneF noneF 0)
  | .yield h => some (h.fields 0x09 0 noneF noneF noneF 0)
  | .trap h n => some (h.fields 0x0A 0 noneF (524288 + n.toNat) noneF 0)
  | .trapDbg h n => some (h.fields 0x0A 1 noneF (524288 + n.toNat) noneF 0)
  | .spawn h d b idx => some (h.fields 0x0B 0 d.enc (encB b) idx.enc 0)
  | .cwait h a => some (h.fields 0x0C 0 noneF a.enc noneF 0)
  | .cwaitAll h => some (h.fields 0x0C 1 noneF noneF noneF 0)
  | .sleep h a => some (h.fields 0x0D 0 noneF a.enc noneF 0)
  | .mov h dst a ext => some (h.fields 0x10 a.wideBit dst.enc a.opa a.opb ext.toNat)
  | .drop h k v ext => some (h.fields 0x11 k.toNat noneF v.enc noneF ext.toNat)
  | .keep h k v ext => some (h.fields 0x12 k.toNat noneF v.enc noneF ext.toNat)
  | .live h form d =>
      some (match form with
            | .plain v => h.fields 0x13 0 d.enc v.enc noneF 0
            | .pack => h.fields 0x13 1 d.enc noneF noneF 0
            | .team => h.fields 0x13 2 d.enc noneF noneF 0)
  | .iadd h o => some (o.fields h 0x18 0)
  | .isub h o => some (o.fields h 0x19 0)
  | .imul h o => some (o.fields h 0x1A 0)
  | .imulh h sgn o => some (o.fields h 0x1B (sgn.toNat * 8))
  | .imad h o => some (o.fields h 0x1C 0)
  | .imadw h sgn o => some (o.fields h 0x1D (sgn.toNat * 8))
  | .imin h sgn o => some (o.fields h 0x1E (sgn.toNat * 8))
  | .imax h sgn o => some (o.fields h 0x1F (sgn.toNat * 8))
  | .iabs h d a => some (fields1 h 0x20 0 d a)
  | .and h o => some (o.fields h 0x21 0)
  | .or h o => some (o.fields h 0x22 0)
  | .xor h o => some (o.fields h 0x23 0)
  | .not h d a => some (fields1 h 0x24 0 d a)
  | .shl h o => some (o.fields h 0x25 0)
  | .shr h o => some (o.fields h 0x26 0)
  | .sar h o => some (o.fields h 0x27 0)
  | .bfx h sgn o => some (o.fields h 0x28 (sgn.toNat * 8))
  | .bfi h o => some (o.fields h 0x29 0)
  | .popc h d a => some (fields1 h 0x2A 0 d a)
  | .clz h d a => some (fields1 h 0x2B 0 d a)
  | .icmp h o => some (o.fields h 0x2C)
  | .sel h k o => some (o.fields h 0x2D (k.toNat * 16))
  | .iadds h sgn o => some (o.fields h 0x2E (sgn.toNat * 8))
  | .lea h n sgn o => some (o.fields h 0x2F (n.toNat * 16 + sgn.toNat * 8))
  | .sadd h o => some (o.fields h 0x30 0)
  | .ssub h o => some (o.fields h 0x31 0)
  | .smul h o => some (o.fields h 0x32 0)
  | .smov h d a => some (h.fields 0x33 a.wideBit d.enc a.opa a.opb 0)
  | .scmp h o => some (o.fields h 0x34)
  | .sbcast h d a => some (h.fields 0x35 0 d.enc a.enc noneF 0)
  | .sget h d a => some (h.fields 0x36 0 d.enc a.enc noneF 0)
  | .sand h op o => some (o.fields h 0x37 (op.toNat * 16))
  | .fadd h r o => some (o.fields h 0x38 r.code)
  | .fsub h r o => some (o.fields h 0x39 r.code)
  | .fmul h r o => some (o.fields h 0x3A r.code)
  | .ffma h r o => some (o.fields h 0x3B r.code)
  | .fmin h nan o => some (o.fields h 0x3C (nan.toNat * 8))
  | .fmax h nan o => some (o.fields h 0x3D (nan.toNat * 8))
  | .fcmp h o => some (o.fields h 0x3E)
  | .frnd h r d a => some (fields1 h 0x3F r.code d a)
  | .frcp h r d a => some (fields1 h 0x40 r.code d a)
  | .frsq h r d a => some (fields1 h 0x41 r.code d a)
  | .fsqrt h r d a => some (fields1 h 0x42 r.code d a)
  | .fex2 h r d a => some (fields1 h 0x43 r.code d a)
  | .flg2 h r d a => some (fields1 h 0x44 r.code d a)
  | .fsin h r d a => some (fields1 h 0x45 r.code d a)
  | .fcos h r d a => some (fields1 h 0x46 r.code d a)
  | .fdiv h r o => some (o.fields h 0x47 r.code)
  | .dadd h r o => some (o.fields h 0x48 r.code)
  | .dmul h r o => some (o.fields h 0x49 r.code)
  | .dfma h r o => some (o.fields h 0x4A r.code)
  | .dcmp h o => some (o.fields h 0x4B)
  | .hadd2 h bf r o => some (o.fields h 0x4C (bf.toNat * 8 + r.code))
  | .hmul2 h bf r o => some (o.fields h 0x4D (bf.toNat * 8 + r.code))
  | .hfma2 h bf r o => some (o.fields h 0x4E (bf.toNat * 8 + r.code))
  | .hmax2 h bf nan o => some (o.fields h 0x4F (bf.toNat * 8 + nan.toNat * 16))
  | .cvt h sat r td ty d a =>
      some (h.fields 0x50 (sat.toNat * 8 + r.code) d.enc a.enc noneF (td.toNat * 16 + ty.toNat))
  | .cvtn h d x f sc => some (h.fields 0x51 (scaleBit sc) d.enc x.enc (encF f) (encScale sc))
  | .cvtw h d c f sc => some (h.fields 0x52 (scaleBit sc) d.enc c.enc (encF f) (encScale sc))
  | .scl h d form =>
      some (match form with
            | .exp r x n => h.fields 0x53 r.code d.enc x.enc n.enc 0
            | .e8m0 x f => h.fields 0x53 16 d.enc x.enc (encF f) 0
            | .rebase c n f => h.fields 0x53 32 d.enc c.enc n.enc f.toNat)
  | .pk2 h form d a b =>
      some (match form with
            | .bits => h.fields 0x54 0 d.enc a.enc b.enc 0
            | .f16 r => h.fields 0x54 (16 + r.code) d.enc a.enc b.enc 0
            | .bf16 r => h.fields 0x54 (32 + r.code) d.enc a.enc b.enc 0)
  | .unpk h k d a => some (fields1 h 0x55 (k.toNat * 16) d a)
  | .fcls h k d a => some (fields1 h 0x56 (k.toNat * 16) d a)
  | .shfl h m d a l => some (h.fields 0x58 m.toNat d.enc a.enc l.enc 0)
  | .vote h m dst a => some (h.fields 0x59 m.toNat dst.enc a.enc noneF 0)
  | .ballot h dst a => some (h.fields 0x5A 0 dst.enc a.enc noneF 0)
  | .redux h op d a => some (fields1 h 0x5B op.toNat d a)
  | .scan h op excl d a => some (fields1 h 0x5C (op.toNat + excl.toNat * 16) d a)
  | .topk h k d form =>
      some (match form with
            | .fresh c x ext => h.fields 0x5D (k.toNat + 8) d.enc c.enc x.enc ext.toNat
            | .ins ol c ixn x => h.fields 0x5D (k.toNat + ixn.toNat * 16) d.enc ol.enc c.enc x.toNat)
  | .ld h o => some (o.fields h 0x60)
  | .st h o => some (o.fields h 0x61)
  | .lds h o => some (o.fields h 0x62)
  | .sts h o => some (o.fields h 0x63)
  | .ldp h o => some (o.fields h 0x64)
  | .stp h o => some (o.fields h 0x65)
  | .sld h sz scope ord d b idx =>
      some (h.fields 0x66 (sz.toNat * 16 + ord.code * 4 + scope.code) d.enc (encB b) idx.enc 0)
  | .ldc h sz d disp off => some (h.fields 0x67 (sz.toNat * 16) d.enc (524288 + disp.toNat) off.enc 0)
  | .pref h b idx ext => some (h.fields 0x68 2 noneF (encB b) idx.enc ext.toNat)
  | .bsub h ro len bd bs off =>
      some (h.fields 0x69 (ro.toNat * 64 + len.code * 16) (encB bd) (encB bs) off.enc len.ext)
  | .bget h f dst b => some (h.fields 0x6A (f.toNat * 16) dst.enc (encB b) noneF 0)
  | .fence h scope ord => some (h.fields 0x6B (ord.code * 4 + scope.code) noneF noneF noneF 0)
  | .atom h op scope ord d b idx v =>
      some (h.fields 0x70 (op.toNat * 16 + ord.code * 4 + scope.code) d.enc idx.enc v.enc b.toNat)
  | .acas h scope ord d b idx v =>
      some (h.fields 0x71 (ord.code * 4 + scope.code) d.enc idx.enc v.enc b.toNat)
  | .afadd h ty scope ord d b idx v =>
      some (h.fields 0x72 (ty.toNat * 16 + ord.code * 4 + scope.code) d.enc idx.enc v.enc b.toNat)
  | .red h op scope ord b idx v =>
      some (h.fields 0x73 (op.toNat * 16 + ord.code * 4 + scope.code) noneF idx.enc v.enc b.toNat)
  | .binit h scope b idx e => some (h.fields 0x78 scope.code noneF idx.enc e.enc b.toNat)
  | .barv h scope d b idx n => some (h.fields 0x79 scope.code d.enc idx.enc n.enc b.toNat)
  | .bexp h scope b idx n => some (h.fields 0x7A scope.code noneF idx.enc n.enc b.toNat)
  | .bwait h lim scope b idx ph => some (h.fields 0x7B (lim.toNat * 4 + scope.code) noneF idx.enc ph.enc b.toNat)
  | .btry h scope p b idx ph => some (h.fields 0x7C scope.code (encP p) idx.enc ph.enc b.toNat)
  | .bar h lim scope b idx n => some (h.fields 0x7D (lim.toNat * 4 + scope.code) noneF idx.enc n.enc b.toNat)
  | .mldw h g form f =>
      some (match form with
            | .record b idx ts tag => h.fields 0x80 (f.toNat + ts.toNat * 8) (encG g) (encB b) idx.enc tag.toNat
            | .span x tag ext => h.fields 0x80 f.toNat (encG g) x.enc tag.enc ext.toNat)
  | .mma h o => some (o.fields h 0x81)
  | .mmar h o => some (o.fields h 0x82)
  | .mfnc h a ext => some (h.fields 0x83 0 noneF (encOS a) noneF ext.toNat)
  | .mwait h a => some (h.fields 0x84 0 noneF (encOA a) noneF 0)
  | .mrd h d a row0 ext => some (h.fields 0x85 0 d.enc (encA a) row0.enc ext.toNat)
  | .mzero h g a => some (h.fields 0x86 0 (encG g) (encA a) noneF 0)
  | .mwr h g a sp row0 => some (h.fields 0x87 0 (encG g) (encA a) sp.enc row0.toNat)
  | .mtag h g b idx n => some (h.fields 0x88 0 (encG g) (encB b) idx.enc n.toNat)
  | .mstat h form d =>
      some (match form with
            | .q => h.fields 0x89 0 d.enc noneF noneF 0
            | .b a => h.fields 0x89 1 d.enc (encA a) noneF 0
            | .m => h.fields 0x89 2 d.enc noneF noneF 0)
  | .mst h g b idx tile f => some (h.fields 0x8A 0 (encG g) (encB b) idx.enc (tile.toNat + f.toNat * 16))
  | .gset h g a => some (h.fields 0x90 0 (encGs g) a.enc noneF 0)
  | .gclr h g => some (h.fields 0x91 0 (encGs g) noneF noneF 0)
  | .gtst h res p g => some (h.fields 0x92 res.toNat (encP p) (encGs g) noneF 0)
  | .cpy h bd bs bo => some (h.fields 0x94 0 (encB bd) (encB bs) noneF bo.toNat)
  | .cpyg h bd bs bi bo => some (h.fields 0x95 0 (encB bd) (encB bs) (encB bi) bo.toNat)
  | .cpys h bd bs bi bo => some (h.fields 0x96 0 (encB bd) (encB bs) (encB bi) bo.toNat)
  | .cpyc h bh => some (h.fields 0x97 0 noneF (encB bh) noneF 0)
  | .cpyr h op bd bs bo => some (h.fields 0x98 op.toNat (encB bd) (encB bs) noneF bo.toNat)
  | .cseq h done dst => some (h.fields 0x99 done.toNat dst.enc noneF noneF 0)
  | .cpyw h a => some (h.fields 0x9A 0 noneF a.enc noneF 0)
  | .rsv h tr d bd bs sc => some (h.fields 0xA0 tr.toNat (encT d) (encB bd) (encB bs) sc.toNat)
  | .route h tk bt bk => some (h.fields 0xA1 0 noneF (encT tk) (encB bt) bk.toNat)
  | .rret h b i => some (h.fields 0xA2 0 noneF (encB b) i.enc 0)
  | .rwait h tk => some (h.fields 0xA3 0 noneF (encT tk) noneF 0)
  | .rstat h f dst tk => some (h.fields 0xA4 f.toNat dst.enc (encT tk) noneF 0)
  | .stile h d b =>
      some (match b with
            | some b => h.fields 0xA5 0 d.enc (encB b) noneF 0
            | none => h.fields 0xA5 1 d.enc noneF noneF 0)
  | .sflush h a => some (h.fields 0xA6 0 noneF a.enc noneF 0)
  | .rfree h tk => some (h.fields 0xA7 0 noneF (encT tk) noneF 0)
  | .csr h dst form =>
      some (match form with
            | .direct i => h.fields 0xB0 0 dst.enc (encY i) noneF 0
            | .ind a => h.fields 0xB0 1 dst.enc a.enc noneF 0)
  | .csw h n a => some (h.fields 0xB1 0 (encY n) a.enc noneF 0)
  | .tret h k => some (h.fields 0xB2 k.toNat noneF noneF noneF 0)
  | .nsave h d b idx => some (h.fields 0xB3 0 d.enc (encB b) idx.enc 0)
  | .nload h b idx sn => some (h.fields 0xB4 0 noneF (encB b) idx.enc sn.toNat)
  | .tstamp h clk fen dst => some (h.fields 0xB5 (clk.toNat + fen.toNat * 2) dst.enc noneF noneF 0)
  | .cntr h form n =>
      some (match form with
            | .one f dst => h.fields 0xB6 f.toNat dst.enc n.enc noneF 0
            | .all d ext => h.fields 0xB6 3 d.enc n.enc noneF ext.toNat)
  | .probe h dst off => some (h.fields 0xB7 0 dst.enc off.enc noneF 0)
  | .icinv h b =>
      some (match b with
            | none => h.fields 0xB8 0 noneF noneF noneF 0
            | some b => h.fields 0xB8 1 noneF (encB b) noneF 0)
  | .mark h n => some (h.fields 0xB9 0 noneF (524288 + n.toNat) noneF 0)
  | .hnear h c b idx => some (h.fields 0xF0 c.toNat noneF (encB b) idx.enc 0)
  | .hest h d => some (h.fields 0xF1 0 d.enc noneF noneF 0)
  | .unimplementedHint h w =>
      some ⟨240 + w.maj.toNat, w.min.toNat, h.gneg.toNat, h.gpred.toNat, h.la.toNat, h.yld.toNat, h.uexp.toNat, w.rsv.toNat,
        w.opd.toNat, w.opa.toNat, w.opb.toNat, w.ext.toNat⟩
  | .bundleStart .. | .joinRelease .. | .pendingValueArrive .. | .rowFree .. | .rowsGranted ..
  | .allocationDeadlock .. | .rowEvict .. | .rowRestore .. | .storeLeave .. | .markerRetire ..
  | .loadPerform .. | .reductionCombine .. | .reductionApply .. | .barrierWake .. | .barrierTimeout ..
  | .sleepWake .. | .cwaitWake .. | .mwaitWake .. | .cpywWake .. | .rwaitWake ..
  | .rsvEntryFreed .. | .spawnHoldRelease .. | .spawnSubmit .. | .tlbMissWalk .. | .walkStopped ..
  | .matrixCommandStart .. | .engineReadMove .. | .engineWriteMove .. | .commandRetire .. | .operandReadyRetire ..
  | .powerLeaveGrant .. | .shadowResolve .. | .chainEntry .. | .pinTimeout .. | .engineHangTimeout ..
  | .engineReturnToService .. | .routeTableRead .. | .routeStallResume .. | .recordStoreResolve .. | .flushTimerExpiry ..
  | .stationTeamLaunch .. | .rretClaim .. | .rretArrival .. | .reservationTimeout .. | .rowCombine ..
  | .icinvDrop .. | .tstampFenceSample .. | .teamRetire .. | .gridRetire .. | .launchAccept ..
  | .teamPlace .. | .asyncFaultDelivery .. | .sliceTimerExpiry .. | .sliceEndEntry .. | .budgetExpiry ..
  | .saveDrainTimeout .. | .teamSave .. | .teamRestore .. | .hostMemoryRequest .. | .hostAtomicRead ..
  | .hostAtomicWrite .. | .mreset .. | .dierst .. | .quar .. | .ptpstep ..
  | .keyregen .. | .engrst .. | .activate .. | .deactivate .. | .partitionReset ..
  | .resetDrainTimeout .. | .snapshot .. | .endSlice .. | .resume .. | .migrationStop ..
  | .migrationStart .. | .resolve .. | .registrationUpdate .. | .stationActivate .. | .stationDeactivate ..
  | .loan .. | .reclaim .. | .dbgrel .. | .queueRegister .. | .queueUnregister ..
  | .qwr .. | .rcmd .. | .mgmtRegisterWrite .. | .ptpEventMessage .. | .pcSample ..
  | .counterRotate .. | .powerGood .. | .bootMeasured .. | .bootImageRejected .. | .getVersion ..
  | .getCapabilities .. | .negotiateAlgorithms .. | .getDigests .. | .getCertificate .. | .challenge ..
  | .getMeasurements .. | .keyExchange .. | .finish .. | .attestationTimeout .. | .linkKeyInstall ..
  | .keyRollover .. | .keySwitch .. | .oldKeyRetire .. | .flitReceive .. | .linkFailure ..
  | .dieQuarantine .. | .ridgeReopen .. | .recoveryComplete .. | .tlbInvalidation .. | .icinvManagementEquivalent ..
  | .dirtyRidgeCacheLineError .. | .segmentFormTranslator .. | .ptpEventMessageEgress .. => none

/-- The displacement of a short immediate (R108, R130). -/
def decI (x : Nat) : BitVec 17 := BitVec.ofNat 17 (x % 131072)

/-- Majors 0x00 to 0x17: control and names (R128). -/
def buildControl (h : Hdr) (f : Fields) : Option Instr :=
  match f.maj with
  | 0x00 => some (.nop h)
  | 0x01 => some (.bra h (decI f.opa) (BitVec.ofNat 4 f.ext))
  | 0x02 => some (.brx h (Src.dec f.opa))
  | 0x03 => some (.call h (VSDst.dec f.opd) (decI f.opa) (BitVec.ofNat 4 f.ext))
  | 0x04 => some (.ret h (Src.dec f.opa))
  | 0x05 => some (.split h (decI f.opa) (BitVec.ofNat 4 f.ext))
  | 0x06 => some (.join h)
  | 0x07 => some (.brk h (BitVec.ofNat 4 f.min) (decI f.opa) (BitVec.ofNat 4 f.ext))
  | 0x08 => some (.exit h)
  | 0x09 => some (.yield h)
  | 0x0A => some (if f.min = 1 then .trapDbg h (decI f.opa) else .trap h (decI f.opa))
  | 0x0B => some (.spawn h (VDst.dec f.opd) (decB f.opa) (Src.dec f.opb))
  | 0x0C => some (if f.min = 1 then .cwaitAll h else .cwait h (Src.dec f.opa))
  | 0x0D => some (.sleep h (Src.dec f.opa))
  | 0x10 => some (.mov h (VNDst.dec f.opd) (Src1.dec f) (BitVec.ofNat 8 f.ext))
  | 0x11 => some (.drop h (BitVec.ofNat 4 f.min) (Src.dec f.opa) (BitVec.ofNat 8 f.ext))
  | 0x12 => some (.keep h (BitVec.ofNat 4 f.min) (Src.dec f.opa) (BitVec.ofNat 8 f.ext))
  | 0x13 => some (.live h (if f.min = 1 then .pack else if f.min = 2 then .team else .plain (Src.dec f.opa)) (VDst.dec f.opd))
  | _ => none

/-- Majors 0x18 to 0x2F: the integer group (R150). -/
def buildInteger (h : Hdr) (f : Fields) : Option Instr :=
  let sgn := f.min / 8 % 2 == 1
  match f.maj with
  | 0x18 => some (.iadd h (Op2.dec f))
  | 0x19 => some (.isub h (Op2.dec f))
  | 0x1A => some (.imul h (Op2.dec f))
  | 0x1B => some (.imulh h sgn (Op2.dec f))
  | 0x1C => some (.imad h (Op3.dec f))
  | 0x1D => some (.imadw h sgn (Op3.dec f))
  | 0x1E => some (.imin h sgn (Op2.dec f))
  | 0x1F => some (.imax h sgn (Op2.dec f))
  | 0x20 => some (.iabs h (VDst.dec f.opd) (Src.dec f.opa))
  | 0x21 => some (.and h (Op2.dec f))
  | 0x22 => some (.or h (Op2.dec f))
  | 0x23 => some (.xor h (Op2.dec f))
  | 0x24 => some (.not h (VDst.dec f.opd) (Src.dec f.opa))
  | 0x25 => some (.shl h (Op2.dec f))
  | 0x26 => some (.shr h (Op2.dec f))
  | 0x27 => some (.sar h (Op2.dec f))
  | 0x28 => some (.bfx h sgn (Op2.dec f))
  | 0x29 => some (.bfi h (Op3.dec f))
  | 0x2A => some (.popc h (VDst.dec f.opd) (Src.dec f.opa))
  | 0x2B => some (.clz h (VDst.dec f.opd) (Src.dec f.opa))
  | 0x2C => some (.icmp h (ICmp.dec f))
  | 0x2D => some (.sel h (BitVec.ofNat 3 (f.min / 16 % 8)) (Op2.dec f))
  | 0x2E => some (.iadds h sgn (Op2.dec f))
  | 0x2F => some (.lea h (BitVec.ofNat 3 (f.min / 16 % 8)) sgn (Op2.dec f))
  | _ => none

/-- Majors 0x30 to 0x37: the scalar group (R154). -/
def buildScalar (h : Hdr) (f : Fields) : Option Instr :=
  match f.maj with
  | 0x30 => some (.sadd h (SOp2.dec f))
  | 0x31 => some (.ssub h (SOp2.dec f))
  | 0x32 => some (.smul h (SOp2.dec f))
  | 0x33 => some (.smov h (SDst.dec f.opd) (Src1.dec f))
  | 0x34 => some (.scmp h (ICmp.dec f))
  | 0x35 => some (.sbcast h (SDst.dec f.opd) (Src.dec f.opa))
  | 0x36 => some (.sget h (SDst.dec f.opd) (Src.dec f.opa))
  | 0x37 => some (.sand h (BitVec.ofNat 3 (f.min / 16 % 8)) (SOp2.dec f))
  | _ => none

/-- Majors 0x38 to 0x4F: floating point (R156). -/
def buildFloat (h : Hdr) (f : Fields) : Option Instr :=
  let r := Rnd.ofCode (f.min % 8)
  let nan := f.min / 8 % 2 == 1
  let un (k : Hdr → Rnd → VDst → Src → Instr) : Option Instr := some (k h r (VDst.dec f.opd) (Src.dec f.opa))
  match f.maj with
  | 0x38 => some (.fadd h r (Op2.dec f))
  | 0x39 => some (.fsub h r (Op2.dec f))
  | 0x3A => some (.fmul h r (Op2.dec f))
  | 0x3B => some (.ffma h r (Op3.dec f))
  | 0x3C => some (.fmin h nan (Op2.dec f))
  | 0x3D => some (.fmax h nan (Op2.dec f))
  | 0x3E => some (.fcmp h (FCmp.dec f))
  | 0x3F => un .frnd
  | 0x40 => un .frcp
  | 0x41 => un .frsq
  | 0x42 => un .fsqrt
  | 0x43 => un .fex2
  | 0x44 => un .flg2
  | 0x45 => un .fsin
  | 0x46 => un .fcos
  | 0x47 => some (.fdiv h r (Op2.dec f))
  | 0x48 => some (.dadd h r (Op2.dec f))
  | 0x49 => some (.dmul h r (Op2.dec f))
  | 0x4A => some (.dfma h r (Op3.dec f))
  | 0x4B => some (.dcmp h (FCmp.dec f))
  | 0x4C => some (.hadd2 h nan r (Op2.dec f))
  | 0x4D => some (.hmul2 h nan r (Op2.dec f))
  | 0x4E => some (.hfma2 h nan r (Op3.dec f))
  | 0x4F => some (.hmax2 h nan (f.min / 16 % 2 == 1) (Op2.dec f))
  | _ => none

/-- Majors 0x50 to 0x5F: conversion and cross-thread (R161, R166). -/
def buildConvert (h : Hdr) (f : Fields) : Option Instr :=
  let r := Rnd.ofCode (f.min % 8)
  let d := VDst.dec f.opd
  let a := Src.dec f.opa
  match f.maj with
  | 0x50 => some (.cvt h (f.min / 8 % 2 == 1) r (BitVec.ofNat 4 (f.ext / 16)) (BitVec.ofNat 4 (f.ext % 16)) d a)
  | 0x51 => some (.cvtn h d a (decF f.opb) (decScale f))
  | 0x52 => some (.cvtw h d a (decF f.opb) (decScale f))
  | 0x53 =>
      some (.scl h d
        (if f.min / 16 % 8 = 0 then .exp r a (Src.dec f.opb)
         else if f.min / 16 % 8 = 1 then .e8m0 a (decF f.opb)
         else .rebase a (Src.dec f.opb) (BitVec.ofNat 3 f.ext)))
  | 0x54 =>
      some (.pk2 h
        (if f.min / 16 % 8 = 0 then .bits else if f.min / 16 % 8 = 1 then .f16 r else .bf16 r) d a (Src.dec f.opb))
  | 0x55 => some (.unpk h (BitVec.ofNat 2 (f.min / 16 % 8)) d a)
  | 0x56 => some (.fcls h (BitVec.ofNat 2 (f.min / 16 % 8)) d a)
  | 0x58 => some (.shfl h (BitVec.ofNat 2 f.min) d a (Src.dec f.opb))
  | 0x59 => some (.vote h (BitVec.ofNat 2 f.min) (VPDst.dec f.opd) a)
  | 0x5A => some (.ballot h (VSDst.dec f.opd) a)
  | 0x5B => some (.redux h (BitVec.ofNat 4 f.min) d a)
  | 0x5C => some (.scan h (BitVec.ofNat 4 (f.min % 16)) (f.min / 16 % 2 == 1) d a)
  | 0x5D =>
      some (.topk h (BitVec.ofNat 3 (f.min % 8)) (SpanD.dec f.opd)
        (if f.min / 8 % 2 = 1 then .fresh a (Src.dec f.opb) (BitVec.ofNat 8 f.ext)
         else .ins (Span.dec f.opa) (Src.dec f.opb) (f.min / 16 % 2 == 1) (BitVec.ofNat 8 f.ext)))
  | _ => none

/-- Majors 0x60 to 0x7F: memory, atomics and barriers (R193, R206, R213). -/
def buildMemory (h : Hdr) (f : Fields) : Option Instr :=
  let scope := Scope.ofCode (f.min % 4)
  let ord := Ord.ofCode (f.min / 4 % 4)
  let op := BitVec.ofNat 4 (f.min / 16)
  let b := BitVec.ofNat 5 f.ext
  let idx := Src.dec f.opa
  let v := Src.dec f.opb
  let lim := BitVec.ofNat 5 (f.min / 4)
  match f.maj with
  | 0x60 => some (.ld h (LdOp.dec f))
  | 0x61 => some (.st h (StOp.dec f))
  | 0x62 => some (.lds h (LdOp.dec f))
  | 0x63 => some (.sts h (StOp.dec f))
  | 0x64 => some (.ldp h (LdOp.dec f))
  | 0x65 => some (.stp h (StOp.dec f))
  | 0x66 => some (.sld h (BitVec.ofNat 3 (f.min / 16)) scope ord (SDst.dec f.opd) (decB f.opa) v)
  | 0x67 => some (.ldc h (BitVec.ofNat 3 (f.min / 16)) (VDst.dec f.opd) (decI f.opa) v)
  | 0x68 => some (.pref h (decB f.opa) v (BitVec.ofNat 8 f.ext))
  | 0x69 => some (.bsub h (f.min / 64 % 2 == 1) (BsubLen.dec (f.min / 16 % 4) f.ext) (decB f.opd) (decB f.opa) v)
  | 0x6A => some (.bget h (BitVec.ofNat 3 (f.min / 16)) (VSDst.dec f.opd) (decB f.opa))
  | 0x6B => some (.fence h scope ord)
  | 0x70 => some (.atom h op scope ord (VDst.dec f.opd) b idx v)
  | 0x71 => some (.acas h scope ord (VDst.dec f.opd) b idx (Span.dec f.opb))
  | 0x72 => some (.afadd h op scope ord (VDst.dec f.opd) b idx v)
  | 0x73 => some (.red h op scope ord b idx v)
  | 0x78 => some (.binit h scope b idx v)
  | 0x79 => some (.barv h scope (VDst.dec f.opd) b idx v)
  | 0x7A => some (.bexp h scope b idx v)
  | 0x7B => some (.bwait h lim scope b idx v)
  | 0x7C => some (.btry h scope (decP f.opd) b idx v)
  | 0x7D => some (.bar h lim scope b idx v)
  | _ => none

/-- Majors 0x80 to 0x9F: matrix, guard and copy (R242, R258, R260). -/
def buildEngine (h : Hdr) (f : Fields) : Option Instr :=
  let bo := BitVec.ofNat 6 f.ext
  match f.maj with
  | 0x80 =>
      some (.mldw h (decG f.opd)
        (if f.opa / 131072 = 5 then .span (Span.dec f.opa) (Src.dec f.opb) (BitVec.ofNat 8 f.ext)
         else .record (decB f.opa) (Src.dec f.opb) (f.min / 8 % 2 == 1) (BitVec.ofNat 8 f.ext))
        (BitVec.ofNat 3 (f.min % 8)))
  | 0x81 => some (.mma h (MmaOp.dec f))
  | 0x82 => some (.mmar h (MmaOp.dec f))
  | 0x83 => some (.mfnc h (decOS f.opa) (BitVec.ofNat 8 f.ext))
  | 0x84 => some (.mwait h (decG f.opa))
  | 0x85 => some (.mrd h (SpanD.dec f.opd) (decA f.opa) (Src.dec f.opb) (BitVec.ofNat 8 f.ext))
  | 0x86 => some (.mzero h (decG f.opd) (decA f.opa))
  | 0x87 => some (.mwr h (decG f.opd) (decA f.opa) (Span.dec f.opb) (BitVec.ofNat 8 f.ext))
  | 0x88 => some (.mtag h (decG f.opd) (decB f.opa) (Src.dec f.opb) (BitVec.ofNat 8 f.ext))
  | 0x89 => some (.mstat h (if f.min = 0 then .q else if f.min = 1 then .b (decA f.opa) else .m) (SDst.dec f.opd))
  | 0x8A =>
      some (.mst h (decG f.opd) (decB f.opa) (Src.dec f.opb) (BitVec.ofNat 4 (f.ext % 16)) (BitVec.ofNat 3 (f.ext / 16 % 8)))
  | 0x90 => some (.gset h (decA f.opd) (Src.dec f.opa))
  | 0x91 => some (.gclr h (decA f.opd))
  | 0x92 => some (.gtst h (f.min == 1) (decP f.opd) (decA f.opa))
  | 0x94 => some (.cpy h (decB f.opd) (decB f.opa) bo)
  | 0x95 => some (.cpyg h (decB f.opd) (decB f.opa) (decB f.opb) bo)
  | 0x96 => some (.cpys h (decB f.opd) (decB f.opa) (decB f.opb) bo)
  | 0x97 => some (.cpyc h (decB f.opa))
  | 0x98 => some (.cpyr h (BitVec.ofNat 3 f.min) (decB f.opd) (decB f.opa) bo)
  | 0x99 => some (.cseq h (f.min == 1) (VSDst.dec f.opd))
  | 0x9A => some (.cpyw h (Src.dec f.opa))
  | _ => none

/-- Majors 0xA0 to 0xBF: routing and system (R287, R294). -/
def buildSystem (h : Hdr) (f : Fields) : Option Instr :=
  match f.maj with
  | 0xA0 => some (.rsv h (f.min == 1) (decT f.opd) (decB f.opa) (decB f.opb) (BitVec.ofNat 6 f.ext))
  | 0xA1 => some (.route h (decT f.opa) (decB f.opb) (BitVec.ofNat 5 f.ext))
  | 0xA2 => some (.rret h (decB f.opa) (Src.dec f.opb))
  | 0xA3 => some (.rwait h (decT f.opa))
  | 0xA4 => some (.rstat h (BitVec.ofNat 3 f.min) (VSDst.dec f.opd) (decT f.opa))
  | 0xA5 => some (.stile h (SDst.dec f.opd) (if f.min = 1 then none else some (decB f.opa)))
  | 0xA6 => some (.sflush h (Src.dec f.opa))
  | 0xA7 => some (.rfree h (decT f.opa))
  | 0xB0 => some (.csr h (VSDst.dec f.opd) (if f.min = 1 then .ind (Src.dec f.opa) else .direct (decY f.opa)))
  | 0xB1 => some (.csw h (decY f.opd) (Src.dec f.opa))
  | 0xB2 => some (.tret h (BitVec.ofNat 2 f.min))
  | 0xB3 => some (.nsave h (SDst.dec f.opd) (decB f.opa) (Src.dec f.opb))
  | 0xB4 => some (.nload h (decB f.opa) (Src.dec f.opb) (BitVec.ofNat 6 f.ext))
  | 0xB5 => some (.tstamp h (f.min % 2 == 1) (f.min / 2 % 2 == 1) (VSDst.dec f.opd))
  | 0xB6 =>
      some (.cntr h
        (if f.min = 3 then .all (SpanD.dec f.opd) (BitVec.ofNat 8 f.ext)
         else .one (BitVec.ofNat 2 f.min) (VSDst.dec f.opd)) (Src.dec f.opa))
  | 0xB7 => some (.probe h (VSDst.dec f.opd) (Src.dec f.opa))
  | 0xB8 => some (.icinv h (if f.min = 1 then some (decB f.opa) else none))
  | 0xB9 => some (.mark h (decI f.opa))
  | _ => none

/-- The hint region 0xF0 to 0xFD (R116 to R118): whatever is not `hnear` or `hest` as given is unimplemented. -/
def buildHint (h : Hdr) (f : Fields) : Instr :=
  let w : HintWord := ⟨BitVec.ofNat 4 (f.maj - 240), BitVec.ofNat 8 f.min, BitVec.ofNat 2 f.rsv, BitVec.ofNat 20 f.opd,
    BitVec.ofNat 20 f.opa, BitVec.ofNat 20 f.opb, BitVec.ofNat 8 f.ext⟩
  if w.isNear then .hnear h (BitVec.ofNat 2 f.min) (decB f.opa) (Src.dec f.opb)
  else if w.isEst then .hest h (VDst.dec f.opd)
  else .unimplementedHint h w

/-- Reads the fields by the opcode map R115; fields that fit no form are left to the check of `decodeFields`. -/
def build (f : Fields) : Option Instr :=
  let h := Hdr.ofFields f
  if f.maj < 0x18 then buildControl h f
  else if f.maj < 0x30 then buildInteger h f
  else if f.maj < 0x38 then buildScalar h f
  else if f.maj < 0x50 then buildFloat h f
  else if f.maj < 0x60 then buildConvert h f
  else if f.maj < 0x80 then buildMemory h f
  else if f.maj < 0xA0 then buildEngine h f
  else if f.maj < 0xC0 then buildSystem h f
  else if 0xF0 ≤ f.maj && f.maj ≤ 0xFD then some (buildHint h f)
  else none

/-- Decoding of the fields: the opcode map, then the canonical check (every bit of the word is one the form assigns), then
well-formedness (R102). -/
def decodeFields (f : Fields) : Except Reject Instr :=
  match build f with
  | none => .error .unassignedMajor
  | some i =>
    if i.toFields = some f then
      if i.wf then .ok i else .error .operandRefused
    else .error .fieldNotAssigned

/-- Decoding of a 96-bit word. -/
def decodeWord (w : Nat) : Except Reject Instr := decodeFields (fieldsOf w)

/-- The word of a well-formed instruction; none for a move or event, which has no word. -/
def encode (i : Instr) : Option Nat := i.toFields.map wordOf

/-- A little-endian value (R6, R99). -/
def leNat : List Byte → Nat
  | [] => 0
  | b :: bs => b.toNat + 256 * leNat bs
/-- The n low bytes of x, lowest address first (R6, R99). -/
def leBytes : Nat → Nat → List Byte
  | 0, _ => []
  | n + 1, x => BitVec.ofNat 8 (x % 256) :: leBytes n (x / 256)

/-- Decoding of the 12 bytes of an instruction, total on any bytes (R99, R102). -/
def decodeBytes (bs : List Byte) : Except Reject Instr :=
  if bs.length < 12 then .error .truncated else decodeWord (leNat (bs.take 12))

/-- The 12 bytes in which `nbits` low bits of w stand as an instruction, every further bit zero (R99). -/
def tableBytes (nbits w : Nat) : List Byte := leBytes 12 (w % 2 ^ nbits)

/-- The instruction the decoder reads from bits numbered as spec/opcode_table.json numbers them: the word is little-endian, so
bit i of the table is bit i of the word (R99). -/
def decodeTableWord (nbits w : Nat) : Option Instr :=
  match decodeBytes (tableBytes nbits w) with
  | .ok i => some i
  | .error _ => none

end Sys2Proof
end

