-- ==== Sys2Proof/Machine/State.lean ====
section
/-! DEFINITION. The state of VB-1 as plain data: every piece of state the manual names, the state right after module reset, and
the reasons a step can stop. -/

namespace Sys2Proof.Machine

/-- The fault codes and causes (R313). -/
inductive Code where
  | illegalOpcode | illegalSlot | malformedLine | badTarget | nameExhausted | nameLimit | spillLimit | bounds | recordWiden
  | pageNotPresent | pagePermission | keyAlias | atomicPlace | illegalConvergence | barrierMismatch | engineReset
  | dieQuarantined | nestDepth | routeDescriptor | misaligned | formatSlot | softwareTrap | pinRevoked
  | memoryUncorrectable | privilege | guardState | shadowAbsent | barrierTimeout | sliceEnd | debugBreak
  deriving DecidableEq, Repr

/-- Memory: (address, byte) pairs, addresses strictly rising, no byte 0 listed; an unlisted address reads 0 (R6; log 5). -/
abbrev Memory := List Host.Cell

/-- The memory a byte of an access stands in: physical memory, or the scratchpad of a team of a grid (R172, R186). -/
inductive Space where
  | phys
  | scratch (grid team : Nat)
  deriving DecidableEq, Repr

/-- The ordering kind of an access (R184, R223). -/
inductive OrdKind where
  | strong | release | unordered
  deriving DecidableEq, Repr

/-- A row or row pair of name storage (R57, R58, R66, R77). Its place in the pack's list is its place in the allocation order. -/
structure Row where
  id     : Nat
  name   : Nat
  wide   : Bool
  lo     : List W32      -- 32 slots, bits 31:0 of each thread's value
  hi     : List W32      -- 32 slots, bits 63:32; used when `wide`
  count  : List Nat      -- 32 counts, 15 persistent (R59)
  bound  : Mask          -- bit t: Bind(name, t) is this row
  cur    : Bool          -- this row is Current(name)
  held   : Nat           -- engine commands that hold the row (R78)
  busy   : Nat           -- the cycle from which no executing bundle has it as its row Y (R66)
  spent  : Nat           -- the cycle from which every read and drop of its counts so far has been made (R66)
  evLo   : Option Nat    -- spill entry that holds the low row, when evicted (R72)
  evHi   : Option Nat
  bad    : Mask          -- slots with an uncorrectable error (R192)
  owed   : List Nat      -- threads whose waits have spent a read of the row while it was evicted, one mention a read (R62, R72)
  deriving DecidableEq, Repr

/-- Where the value of a long-latency instruction goes (R61). -/
inductive FlightDst where
  | none
  | row (id : Nat)
  | scal (i : Nat) (wide : Bool)
  | pred (i : Nat)
  deriving DecidableEq, Repr

/-- A long-latency instruction that has not completed for the threads of `mask` (R45, R61). -/
structure Flight where
  id    : Nat
  group : Nat                      -- the flight of the instruction's first destination: its flights complete together (log 96)
  dst   : FlightDst
  name  : Option Nat               -- the name that the instruction writes (R167)
  mask  : Mask
  ready : Option Nat               -- the cycle from which values known at issue may arrive; none when another move brings them
  fixed : Bool                     -- they arrive in that very cycle (R149)
  vals  : List (Nat × W64)         -- (thread, value), known at issue or brought since
  parts : List (Nat × Nat × Byte)  -- (thread, byte number, byte) of loads performed in part (R180)
  deriving DecidableEq, Repr

/-- One entry of the reconvergence stack (R46). -/
structure JoinEntry where
  joinPc  : W64
  members : Mask
  arrived : Mask
  due     : Nat            -- the cycle from which it may release: the one after its last change (R55)
  deriving DecidableEq, Repr

/-- The serial record (R48). -/
structure Serial where
  j : W64
  m : Mask
  c : Nat
  d : Nat
  deriving DecidableEq, Repr

/-- Where a barrier object stands: its 16 bytes in order, in a scratchpad; none when dropped under OOB 1 (R211, R216). -/
structure ObjAt where
  space : Space
  addrs : List Nat
  deriving DecidableEq, Repr

/-- A `route` under way (R274, R290). -/
structure Routing where
  entry : Nat                 -- 32 × core + index
  gen   : W32                 -- of the reservation that its ticket named
  stage : Nat                 -- 0 markers, 1 stalled, 2 enqueueing, 2 + a fault code that resolved the next record's store, 256 + the page for
                              -- which that store waits
  sent  : Nat                 -- choices whose record is written or dropped, and those skipped before them
  k     : Nat                 -- choices of a row
  plan  : List (Option Nat)   -- the station of each choice, none where it is skipped, as the table gave them
  bt    : BitVec 256
  bk    : BitVec 256
  deriving DecidableEq, Repr

/-- What a thread at barrier waits for (R38). `reads`: the rows whose reads are spent when the wait ends without a fault (R62). A thread that
waits in `rfree` (R292) or holds in `spawn` (R139) is counted at barrier (log 100). -/
inductive Wait where
  | phase (obj : Option ObjAt) (ph : W32) (limit : Option Nat) (reads : List Nat) (site : Nat)
    -- bwait, bar after its arrival; limit: a deadline (R216); site: the record index, and 2^32 × the element index (R325)
  | arrival (limit : Option Nat) (reads : List Nat) (site : Nat)     -- bar, before its arrival move
  | cwait (seq : W32)
  | mwait (cmds : List Nat)                                          -- matrix commands that must have retired (R252)
  | mwaitTile (cmds : List Nat) (tile opener : Nat)   -- and the commit or discard of the shadow that a command opened (R252)
  | cpyw (seq : W32)
  | rwait (entry : Nat) (gen : W32)
  | sleep (until_ : Nat)
  | route (r : Routing)
  | rsv (bundle : Nat) (bd bs : BitVec 256) (sc : W64) (fmt : W64) (dst : Nat)
  | rret (rec : BitVec 256) (i : Nat) (stage : Nat) (reads : List Nat)   -- 0 marker, 1 claimed, 2 its staging stores are made,
    -- 3 marker of an execution after a park that claimed (R51), 4 + the flight of its loads (R278, R291)
  | icinv (bundle : Nat) (range : Option (Nat × Nat))
  | tstamp (clk : Bool) (flight : Nat) (write : Bool)              -- write: this thread gives the destination its value
  | rfree (entry : Nat) (gen : W32)
  | spawnHold
  | values                                           -- nsave and nload, before their accesses (R297)
  deriving DecidableEq, Repr

/-- The state of a thread (R38); `stopped` is the stop of R318. -/
inductive Status where
  | ready
  | atJoin
  | parked (page : Nat) (kind : Nat) (walk : Bool)   -- virtual address; access kind of R182, or 16 + the fault code that resolved
                                                     -- the page; walk: the walk, or the fault, is still to come (R317)
  | atBarrier (w : Wait)
  | exited
  | stopped
  deriving DecidableEq, Repr

/-- Handler mode (R284, R315, R322). -/
inductive Handler where
  | off | fault | slice
  deriving DecidableEq, Repr

/-- A place of an access in the ordering machine: the bytes in order. -/
structure Place where
  space : Space
  addrs : List Nat
  key   : Nat := 0
  home  : Nat := 0       -- die the access reaches, for R187
  kind  : OrdKind := .release
  site  : Nat := 0       -- the place of R208: 0 the home slice or the scratchpad itself, 1 the fabric port, 2 + n the unit of cluster n
  deriving DecidableEq, Repr

/-- The kinds of entry in SQ(t) and LS(t) (R219, R221). -/
inductive EntryKind where
  | load (flight : Nat) (first : Nat) (size : Nat) (sz : Nat) (bit : Nat)
  | store (bytes : List (Byte × Byte))                         -- (value, write-enable bits) for each byte of the place
  | atomic (op : Nat) (width : Nat) (v cmp : W64) (flight : Nat) (bundle rank : Nat) (first : Nat)
  | reduce (op : Nat) (width : Nat) (v : W64)
  | arrive (obj : Option ObjAt) (count : W32) (flight : Option Nat) (limit : Option Nat) (pc : W64) (bundle rank : Nat)
    -- bundle: the cycle in which the pack's bundle started (R215)
  | barrierStep (obj : ObjAt) (init : Bool) (v : W32) (part : Mask)   -- part: the threads that its faults reach (R214)
  | release (scope : Nat) (whole : Bool)
  | acquire (scope : Nat) (whole : Bool) (bound : Option Nat)
  | full (scope : Nat) (whole : Bool)
  | spawnLoad (flight : Nat) (first : Nat) (seq : W32) (order : Nat)   -- one part of the record; order: of creation (R53)
  deriving DecidableEq, Repr

/-- An entry of a thread in the ordering machine (R219): its program-order number, its place and its rank. -/
structure Entry where
  po    : Nat
  kind  : EntryKind
  place : Place
  rank  : Nat            -- t 0, c 1, d 2, s 3 (R220)
  bound : Option Nat     -- the marker a store or atomic is bound to (R221)
  va    : Nat := 0       -- the virtual address, for fault records
  deriving DecidableEq, Repr

/-- What raised an event: events of one source keep their order (R328). -/
inductive Source where
  | thread (i : ThreadId)
  | engine (core q : Nat)
  | copyQueue (core slot : Nat)
  | none
  deriving DecidableEq, Repr

/-- A fault that waits for a thread's next instruction boundary (R316). -/
structure PendFault where
  code   : Code
  detail : Nat
  fpc    : Option W64    -- none: the thread's current PC
  addr   : Nat
  writes : Bool          -- the event's record is still to be written: its first delivery writes it (R315)
  asSys  : Bool          -- delivered as a system fault whatever the class of its code (R280)
  event  : Nat           -- the number of the event, in the order in which events were raised (R328)
  low    : Nat × Nat     -- the lowest receiving thread: its pack and its index (R315)
  lost   : Bool          -- the event's record is that of a team that is lost (R315)
  src    : Source
  deriving DecidableEq, Repr

/-- A thread of a resident pack (R34, R38). -/
structure Thread where
  pc      : W64
  status  : Status
  handler : Handler
  fault   : W64          -- sys.fault (R286)
  fpc     : W64          -- sys.fpc
  preds   : BitVec 8     -- p1 to p7 in bits 1 to 7; p0 reads true (R56)
  gen     : W64          -- X of R88
  lane    : Nat          -- on a lane until this cycle (R42)
  was     : W64          -- its PC until that cycle
  since   : Nat          -- the program-order number from which entries are those of the bundle on that lane (R43)
  holds   : List (Nat × Nat)    -- (flight, instructions it may still issue before that flight completes) (R45)
  po      : Nat          -- next program-order number (R219)
  queue   : List Entry   -- SQ(t) and LS(t), oldest first
  pend    : List PendFault
  again   : List Nat     -- rows chosen by the execution that parked the thread (R51, R61)
  start   : Bool         -- the next fetch is the first at a kernel or handler PC (R125)
  aside   : Option (Status × W64 × List Nat × Bool)  -- state, PC, rows of a parked execution and `start`, set aside at a slice end (R322)
  resume  : Option W64   -- resume PC recorded by tret in the slice-end handler (R323)
  deriving DecidableEq, Repr

/-- Why the pack's next bundle waits before its first cycle (R39, R69, R239, R191, R259). -/
inductive HoldWhy where
  | allocation (need : Nat)
  | engineQueue
  | copyQueue
  | scoreboard (bytes : List (Nat × Nat)) (wr : Bool)   -- offset and length of each thread's scratchpad bytes (R191)
  | guardSlot (slot : Nat)                              -- R259
  | savedPeer (team : Nat)                              -- R179
  | values (flights : Bool)          -- nsave and nload: pending values (`nsave`) and the lowest thread's earlier entries (R297)
  deriving DecidableEq, Repr

/-- A bundle that waits before its first cycle: its threads and its PC (R39). -/
structure Hold where
  why  : HoldWhy
  mask : Mask
  pc   : W64
  deriving DecidableEq, Repr

/-- An operand-ready marker of a pack (R235, R251). -/
structure OpFence where
  id      : Nat
  flights : List (Nat × Nat)          -- (pack, flight) that must have completed
  entries : List (Nat × Nat × Nat)    -- (pack, thread, program order) of write entries that must have been performed
  copies  : List Nat                  -- copy commands of the team that must have made their writes to the named set
  all     : Bool                      -- the named set: every byte of the team's scratchpad, or those of a record
  range   : Option (BitVec 256)
  deriving DecidableEq, Repr

/-- A resident pack (R34 to R50). -/
structure Pack where
  threads : List Thread
  scal    : List W64
  rows    : List Row
  nextId  : Nat
  flights : List Flight
  stack   : List JoinEntry     -- top first
  serial  : Option Serial
  fair    : Nat                -- F
  cursor  : W64                -- C
  quad    : Nat
  stamp   : Nat
  lastStart : Option Nat
  yielded : Bool               -- the last bundle carried a yield
  rotated : Bool               -- the last bundle came from a fairness rotation
  lanes   : List Nat           -- ends of the pack's bundles on lanes
  hold    : Option Hold
  granted : Nat                -- rows given by R70 and not yet taken
  elder   : Bool               -- it has been the elder pack of an eviction round (R74)
  noEvict : Bool               -- R72: no row evictable until a thread of the pack has issued
  latch   : Option W64         -- the pack's latch format (R245)
  fences  : List OpFence
  retired : Bool
  asideStack  : List JoinEntry -- set aside at a slice end (R322)
  asideSerial : Option Serial
  asideHold : Option Hold      -- a waiting `nsave` or `nload` set aside with them (R302)
  inSlice : Bool               -- the pack is in the slice-end handler (R322)
  sliceDone : Bool             -- the pack has yielded (R323)
  restorePage : Option Nat     -- page whose translation the restore of a row waits for (R72)
  deriving DecidableEq, Repr

/-- A guard slot (R56). -/
inductive Guard where
  | unresolved | isTrue | isFalse
  deriving DecidableEq, Repr

/-- What an open block holds of one row (R97, R246): the A elements supplied, and for each step the zero point and the elements of
the latch row that served it, none where the products are zero (R247); the latch's square scale, geometry and group scales. -/
structure BlockRow where
  a     : List Nat
  b     : List (Option (Nat × List Nat))
  scale : W32
  geom  : Nat
  grp   : List W32
  deriving DecidableEq, Repr

/-- The block state of an accumulator tile (R97, R246): the pair, the steps supplied, the strip scales and the rows. -/
structure Block where
  aCode  : Nat
  bCode  : Nat
  steps  : Nat                              -- StepCount
  aScale : List W32                         -- one a row, FP32 bits of the scale
  rows   : List BlockRow
  opened : Bool
  deriving DecidableEq, Repr

/-- An accumulator tile: 64 × 64 FP32 elements, sparse over +0, and its block state (R238). -/
structure Tile where
  elems : List (Nat × W32)                  -- (64 i + j, bits); an unlisted element is +0
  block : Block
  bad   : Bool                              -- it holds an uncorrectable error (R192)
  deriving DecidableEq, Repr

/-- The shadow of a tile (R238, R248). -/
structure Shadow where
  tile : Tile
  slot : Option Nat                         -- open under this guard slot, or closed
  opener : Nat                              -- the command that opened it (R252)
  deriving DecidableEq, Repr

/-- The weight latch of a matrix engine (R238, R244): the bytes of the B tile and its scale trailer as they were taken, the format
record under which they are decoded, the tag, and the command that loaded them. -/
structure Latch where
  bytes  : List Byte
  fmt    : W64
  tag    : Nat
  src    : Nat
  deriving DecidableEq, Repr

/-- A tag-table entry (R255). -/
structure TagEntry where
  idx : W64
  recIx : Nat
  fmt : Nat
  tag : Nat
  deriving DecidableEq, Repr

/-- What a command does, with its operands as they stood at issue (R239, R242, R260). -/
inductive CmdOp where
  | mldwRec (rec : BitVec 256) (e : Int) (fmt : W64) (tag : Nat)
  | mldwSpan (bytes : List Byte) (fmt : W64) (tag : Nat)
  | mma (run : Bool) (tile : Nat) (frag : List Byte) (fmt : W64) (scale : List W64) (tag blockEnd : Bool)
  | mzero (tile : Nat)
  | mwr (tile row0 : Nat) (vals : List (List W32))
  | mtag (rec : BitVec 256) (e : Int) (n : Nat)
  | mst (rec : BitVec 256) (e : Int) (tile : Nat) (fmt : W64) (gen : W64) (undef : Bool)   -- undef: R236
  | cpy (bd bs : BitVec 256)
  | cpyg (bd bs bi : BitVec 256)
  | cpys (bd bs bi : BitVec 256)
  | cpyc (bh : BitVec 256)
  | cpyr (op : Nat) (bd bs : BitVec 256)
  deriving DecidableEq, Repr

/-- A matrix or copy command in its queue (R231, R239). -/
structure Cmd where
  id      : Nat
  op      : CmdOp
  guard   : Option Nat
  grid    : Nat
  team    : Nat
  core    : Nat
  slot    : Nat
  pack    : Nat
  mask    : Mask                     -- issuing threads
  pc      : W64
  pos     : List (Nat × Nat)         -- (thread, program order of the issue)
  rows    : List (Nat × Nat)         -- (pack, row id) still held for the command (R78)
  fences  : List Nat                 -- operand-ready markers of the pack issued before it
  obj     : Option (BitVec 256)      -- bO
  seq     : W32                      -- copy sequence number
  started : Bool
  leave   : Bool                     -- power leave granted (R241)
  arrived : Nat                      -- cycle in which it reached the head of its queue
  data    : List (Nat × Byte)        -- bytes read, by number in its read set (R232)
  done    : List Nat                 -- numbers of its write set already written
  toShadow : Bool                    -- the target chosen at the start (R248)
  runs    : List (Nat × Option Latch) -- rows of each run under `.tag` and the latch that serves them (R247)
  swap    : Option CmdOp             -- the `mldw` that the swap of the next run has issued (R247, R255)
  applied : Bool                     -- its one write move is done
  chain   : Nat × Nat × Nat          -- of `cpyc` (R265): h, the phase of the walk, CAP; of a tagged `mma`: the B code at its start
  sub     : Option (CmdOp × Option (BitVec 256))   -- the chain entry in progress, with its object (R265)
  failing : Option (Code × Nat × Bool)   -- of `cpyc`: the code that ERR is to hold, its address, and whether the command then aborts
  undef   : Bool                     -- what it writes to its tile is undefined (R236)
  idleFrom : Nat                     -- the cycle in which its last wait on a guard slot or on power leave ended (R327)
  parked  : Option (Nat × Nat)       -- page and access kind of a translation that is not present (R240)
  pins    : List (Nat × Nat)         -- pages pinned (R283)
  aborted : Option (Code × Nat)
  ranges  : List (Nat × Nat × Bool)  -- scratchpad ranges of the scoreboard: start, length, written (R191)
  deriving DecidableEq, Repr

/-- A matrix engine (R238, R327). -/
structure Engine where
  queue    : List Cmd
  latch    : Latch
  table    : List TagEntry
  lastMove : Nat
  outUntil : Option Nat              -- out of service until this cycle
  deriving DecidableEq, Repr

/-- A matrix command that no completed `mwait` covers yet (R236): the tile it writes, and the scratchpad bytes that an `mldw`
reads (store offset, byte number), with the numbers of those touched meanwhile. -/
structure Uncovered where
  id      : Nat
  pack    : Nat
  engine  : Nat
  tile    : Option Nat
  store   : Nat                      -- the team of the grid whose scratchpad the bytes stand in
  bytes   : List (Nat × Nat)
  touched : List Nat
  earlier : List (ThreadId × Nat)    -- write entries for those bytes that were issued before the command and not performed (R234)
  deriving DecidableEq, Repr

/-- An eviction chosen in an allocation deadlock (R71, R72): the elder pack and the victim pack, the row, its high half or its low
one, and the page whose translation it waits for. -/
structure Evict where
  elder  : Nat
  victim : Nat
  row    : Nat
  high   : Bool
  page   : Option Nat
  deriving DecidableEq, Repr

/-- What writes cells, so far as R236 asks when it was issued: a store entry of a thread, a command with the matrix engine it belongs to, or
neither (an atomic, a reduction, a barrier step, the device itself). -/
inductive Toucher where
  | entry (i : ThreadId) (po : Nat)
  | cmd (id : Nat) (engine : Option Nat)
  | other
  deriving DecidableEq, Repr

/-- The save in progress of a team (R323, R324). -/
structure Saving where
  forced : Bool
  drainStart : Nat
  lost : Bool
  deriving DecidableEq, Repr

/-- A resident team (R34, R312). -/
structure Team where
  grid    : Nat
  part    : Nat
  fe      : Nat
  index   : Nat
  packs   : List Pack
  recs    : List (BitVec 256)        -- b0 to b31
  fmts    : List (Option W64)        -- f0 to f7
  quota   : Nat
  guards  : List Guard
  tiles   : List Tile
  shadows : List Shadow
  bindings : List (Nat × Nat)        -- tile, engine (R250)
  resolvedAt : List Nat              -- command count at the resolution of each guard slot (R249)
  uncovered : List Uncovered         -- R236
  scratch : Memory
  badScr  : List Nat                 -- 4-byte words of the scratchpad with an uncorrectable error: byte address / 4 (R192)
  badPriv : List Nat                 -- the same of the private store
  priv    : Memory                   -- byte address (32 × pack + thread) × PRIV + offset
  spn     : W32
  cmp     : W32
  childDone : List Nat               -- sequence numbers above CMP retired or refused
  iss     : W32
  doneSeq : W32
  miss    : Nat
  copyQ   : List Cmd
  spillSlot : Nat
  evict   : Option Evict
  round   : Option Nat               -- the elder pack of the eviction round in progress (R71)
  taken   : List (BitVec 256)        -- records a station team took (R275)
  station : Option Nat
  saving  : Option Saving
  stopping : Bool                    -- terminated or reset: stops and drains (R320, R334)
  deriving DecidableEq, Repr

/-- State of one (row, choice) of a reassembly entry (R277, R278). -/
inductive Choice where
  | pending | claimed | arrived | dropped | skipped | timedOut
  deriving DecidableEq, Repr

/-- The state of a reassembly entry (R277). -/
inductive RState where
  | free | reserved | routed | complete
  deriving DecidableEq, Repr

/-- A reassembly entry (R277). -/
structure REntry where
  state   : RState
  gen     : W32
  grid    : Nat
  team    : Nat
  rows    : Nat
  k       : Nat
  n       : Nat
  dst     : BitVec 256
  staging : BitVec 256
  fmt     : W64
  tmo     : Nat
  renorm  : Bool
  rng     : W64
  start   : Option Nat
  weights : List W32
  choices : List Choice              -- row-major
  stations : List Nat                -- the station of each choice, as the route's table gave it
  combined : List Nat                -- rows whose combination has been written
  drop    : Nat
  tmoCount : Nat
  late    : Nat
  dup     : Nat
  miss    : W64
  parked  : List (Nat × Nat)         -- rows whose combination has begun and waits for the walker, each with its page; the page plus 1
                                     -- once it is to be walked again
  freeing : Bool                     -- freed once those rows are done (R292)
  deriving DecidableEq, Repr

/-- A core (R19, R36). -/
structure Core where
  age     : Nat
  teams   : List (Nat × Team)        -- by resident team index
  engines : List Engine
  entries : List REntry
  icache  : List (Nat × List Byte)   -- (partition × 2^60 + virtual line address, its 128 bytes)
  quadStart : List (Nat × Nat)       -- quadrant, cycle of its last bundle start
  born    : Nat                      -- cycle of the core's reset
  budget  : Option Nat               -- end of the slice-end budget (R322)
  sliceFor : Option Nat              -- the partition whose slice end is in progress on this core
  samplePos : Nat                     -- the least residency slot that the next sample takes (R338)
  sampled : Option Nat                -- cycle of the core's last sample
  deriving DecidableEq, Repr

/-- A TLB entry (R181). -/
structure TlbEntry where
  part : Nat
  vbase : Nat
  size : Nat                          -- 0, 1, 2 for 64 KiB, 2 MiB, 1 GiB
  leaf : W64
  deriving DecidableEq, Repr

/-- A logical counter of a partition on a ridge (R341, R342). -/
structure Counter where
  sel   : Nat                         -- 16-bit selector
  count : W64
  en    : W64
  run   : W64
  seq   : W64
  phys  : Bool                        -- holds a physical counter
  since : Nat                         -- cycle of the last update of its times
  deriving DecidableEq, Repr

/-- A ridge: its TLB, its walker's store, its counters and its governor (R181, R182, R241, R341). -/
structure Ridge where
  tlb      : List TlbEntry
  store    : List (Nat × Byte)        -- bytes of the routine store that software has written (R182)
  stale    : List (Nat × Nat)         -- translations in invalidation that wait for pins (R283): va × 16 + partition, cycle of its begin
  dirty    : List (Nat × Nat × List Byte)   -- lines dirty in the ridge cache: line, colour (R190), the home slice's older bytes (R192)
  rotated  : Nat                      -- cycle of the last rotation
  deriving DecidableEq, Repr

/-- A team in its save slot (R324, R325). -/
structure Saved where
  team  : Team
  base  : Nat                         -- physical address of its save slot
  scr   : Nat                         -- physical address of the image's scratchpad section
  at_   : Nat                         -- cycle of the save, for remaining waits
  lost  : Bool
  cmds  : List (Nat × Cmd)            -- command images: engine number (4 for copy), command
  own   : Nat                         -- the draw that names the bytes of the sections whose layout is the device's own
  deriving DecidableEq, Repr

/-- A grid (R34, R309). -/
structure Grid where
  fe      : Nat
  part    : Nat
  depth   : Nat
  record  : BitVec 2048
  bufs    : List (BitVec 256)
  lrec    : Nat
  queue   : Option (Nat × W32)        -- launch queue and record number
  parent  : Option (Nat × Nat × W32)  -- parent grid, team, sequence number
  privileged : Bool
  station : Option Nat
  order   : Nat                       -- order of acceptance
  held    : Bool                      -- a child whose dependences do not all hold yet
  nextTeam : Nat
  launches : List (List (BitVec 256)) -- station teams launched and not yet placed: the records taken
  saved   : List Saved
  slots   : List Nat                  -- spill slots in use
  live    : Nat                       -- teams placed or saved and not retired
  terminated : Bool
  recorded : Bool
  deriving DecidableEq, Repr

/-- A launch queue's registers (R304). -/
structure Queue where
  base  : W64
  cnt   : W64
  cfg   : W64                         -- priority and privileged bits as written
  reg   : Bool
  faulted : Bool
  regBase : W64                       -- the values registered
  regCnt : Nat
  prio  : Nat
  privileged : Bool
  wr    : W32
  rd    : W32
  compl : W32
  done  : List Nat                    -- record numbers above COMPL retired or refused
  waiting : Option Nat                -- page of a head whose read waits for the walker, or the fault code that resolved it (R305)
  deriving DecidableEq, Repr

/-- A child submitted by `spawn` and not yet accepted or refused (R140). -/
structure Submit where
  thread : ThreadId
  grid   : Nat
  team   : Nat
  seq    : W32
  flight : Nat
  lrec   : Nat
  record : BitVec 2048
  waiting : Option Nat                -- page of an acceptance check that waits for the walker, or the fault code that resolved it
  deriving DecidableEq, Repr

/-- A front end (R26, R303 to R311). -/
structure FrontEnd where
  queues  : List Queue
  last    : Nat                       -- queue served last
  grids   : Nat                       -- count of grids created (R309)
  accepts : Nat
  cursor  : Nat                       -- placement cursor: a core number
  deriving DecidableEq, Repr

/-- One ring of a station (R270, R274): numbers of the next record written and the next taken. -/
structure Ring where
  wr    : Nat
  rd    : Nat
  times : List Nat                    -- cycle in which each untaken record was written, oldest first
  owners : List (Nat × Nat × W32)     -- core, entry and generation of each untaken record
  deriving DecidableEq, Repr

/-- A station (R269). -/
structure Station where
  active  : Bool
  desc    : BitVec 512
  grid    : Nat
  queue   : Ring
  spill   : Ring
  flushReq : Bool                     -- an sflush since the last launch (R275)
  timerHit : Bool                     -- FLUSH cycles have passed for the oldest untaken record
  deriving DecidableEq, Repr

/-- A page with unresolved parks (R317). -/
structure Park where
  ridge : Nat
  page  : Nat
  deriving DecidableEq, Repr

/-- A partition and its block of the management window (R329 to R331). -/
structure Part where
  reg     : BitVec 1024
  active  : Bool
  suspended : Bool
  resetting : Option Nat              -- cycle in which the reset in progress began
  resetDone : Bool
  refused : Bool
  saving  : Bool
  drainKind : Nat                     -- 0 slice end, 1 migration stop, 2 deactivate, 3 reset
  snapIdx : Nat
  bitmap  : Nat                       -- active dirty bitmap
  frRd    : W32
  frWr    : W32
  frLost  : W64
  srRd    : W32
  srWr    : W32
  srDrop  : W64
  slice   : W64
  runSince : Nat                      -- package time at which the partition last began running
  stBase  : W64
  stCnt   : W64
  debugReg : W64
  dbgPc   : W64
  fair    : Nat                       -- sys.fair (R41)
  budget  : Nat                       -- sys.budget
  stations : List (Nat × Station)
  parks   : List Park
  loans   : List (Nat × Nat × Nat)    -- clusters being reclaimed: cluster, lender, number of the reclaim
  stopped : Bool                      -- front end stopped (reset, migration stop, col lost)
  clusters : Nat × Nat                -- first and last cluster as loans leave them
  counters : List (Nat × Counter)     -- 8 × ridge + number
  deriving DecidableEq, Repr

/-- The states of a die (R345). -/
inductive DieState where
  | off | booting | measured | attesting | trusted | quarantined
  deriving DecidableEq, Repr

/-- A die (R345 to R348). -/
structure Die where
  state    : DieState
  reason   : Nat
  attempts : Nat
  rolls    : Nat
  step     : Nat                      -- the last request of R347 accepted
  since    : Nat                      -- cycle of GET_VERSION
  session  : Bool
  measurement : BitVec 256
  memKeys  : Bool                     -- memory keys installed at its controllers (R354)
  image    : Option (List Byte)       -- its firmware image slot: what recovery has written, else the image as shipped (R344)
  deriving DecidableEq, Repr

/-- A direction of a die link (R349 to R352). -/
structure Link where
  src     : Nat
  dst     : Nat
  keys    : List (Option Nat)         -- keys installed at the receiver under identifiers 0 and 1, each by the draw that made it
  sender  : Bool                      -- identifier the sender uses
  armed   : Bool                      -- the sender has a key
  counter : Nat                       -- flits sent under the sender's key
  since   : Nat
  rolling : Bool
  switched : Bool
  accepted : Bool                     -- first flit under the new key accepted
  badRun  : Nat
  badTimes : List Nat
  deriving DecidableEq, Repr

/-- The package clock (R298, R340): at cycle `at_` it read `base`; from there it gains num / den nanoseconds a cycle. -/
structure Clock where
  base : Nat
  at_  : Nat
  num  : Nat
  den  : Nat
  deriving DecidableEq, Repr

/-- The module control block and the recovery block (R33, R357). -/
structure Module where
  ptpCfg  : W64
  heldBy  : Bool                      -- the module is held by R352
  been    : List Nat                  -- dies that have been TRUSTED since the module reset (MSTAT bit 0)
  rAddr   : W64
  rLen    : W64
  rStat   : Nat
  rDie    : Nat
  attesting : Option Nat              -- the die Summit attests
  turned  : List Nat                  -- dies whose turn of the bring-up is over (R347)
  asks    : List Nat                  -- dies in MEASURED, in the order of their requests (R347)
  ingress : List (Nat × Nat)          -- hardware timestamps of PTP event messages: port, time (R340)
  egress  : List (Nat × Nat)
  deriving DecidableEq, Repr

/-- An entry of the reduction pool (R219, R228). -/
structure Red where
  owners : List (ThreadId × Nat × Nat)  -- the entries it stands for: thread, program-order number, rank
  place  : Place
  va     : Nat
  op     : Nat
  width  : Nat
  v      : W64
  deriving DecidableEq, Repr

/-- A host atomic between its two moves (R229): the value read. -/
structure HostPending where
  req : HostAtomic
  old : W64
  deriving DecidableEq, Repr

/-- The bundle that executes in this step (R40, R43). -/
structure Cur where
  core : Nat
  slot : Nat
  pack : Nat
  mask : Mask
  pc   : W64
  word : List Byte                    -- the bytes fetched
  deriving DecidableEq, Repr

/-- Everything but the bytes of memory. -/
structure Device where
  now     : Nat                       -- cycles of the arithmetic clock since power-on
  draws   : Nat                       -- the model's own counter of free values drawn
  nextCmd : Nat
  nextBundle : Nat
  nextSpawn : Nat                     -- spawns issued so far (R53)
  nextEvent : Nat                     -- asynchronous faults raised so far (R328)
  keys    : List (Nat × Nat)          -- line / 128, its key identifier (R188)
  bad     : List Nat                  -- lines with an uncorrectable error (R192)
  lostKeys : List (Nat × Nat)         -- lines undefined after a key regeneration: line, key (R354)
  cores   : List (Nat × Core)
  ridges  : List (Nat × Ridge)
  grids   : List (Nat × Grid)
  submits : List Submit
  fronts  : List (Nat × FrontEnd)
  parts   : List (Nat × Part)
  dies    : List Die
  links   : List Link
  clock   : Clock
  module  : Module
  pool    : List Red
  hostAtoms : List HostPending
  hostReply : List (Nat × Nat)        -- replies to host requests: request number or port, value (R229, R237)
  cur     : Option Cur
  writes  : List Host.Cell            -- writes of the step being taken, newest first; empty between steps
  deriving DecidableEq, Repr

/-- One turn of the agenda: `dt` cycles pass, then the move is taken (R218; log 1). -/
structure Turn where
  dt   : Nat
  move : Instr
  deriving DecidableEq, Repr

/-- The state of the machine. -/
structure State where
  mem    : Memory
  dev    : Device
  agenda : List Turn                  -- which moves come next; none listed: the model's own scheduler chooses
  deriving DecidableEq, Repr

/-- A matrix engine after a reset of its core: an empty queue, a zero latch with the inert tag of R327 (log 6). -/
def Engine.fresh (now : Nat) : Engine :=
  { queue := [], latch := { bytes := [], fmt := 0, tag := 0xFFFF, src := 0 }, table := [],
    lastMove := now, outUntil := none }

/-- A free reassembly entry of generation 0 (R277; log 6). -/
def REntry.fresh : REntry :=
  { state := .free, gen := 0, grid := 0, team := 0, rows := 0, k := 0, n := 0, dst := 0, staging := 0, fmt := 0, tmo := 0,
    renorm := false, rng := 0, start := none, weights := [], choices := [], stations := [], combined := [], drop := 0, tmoCount := 0,
    late := 0, dup := 0, miss := 0, parked := [], freeing := false }

/-- A core at its reset (R36: the age counter is zero). -/
def Core.fresh (now : Nat) : Core :=
  { age := 0, teams := [], engines := List.replicate 4 (Engine.fresh now), entries := List.replicate 32 REntry.fresh,
    icache := [], quadStart := [], born := now, budget := none, sliceFor := none, samplePos := 0, sampled := none }

/-- A ridge at reset: an empty TLB and the walker's store as shipped (R181, R183). -/
def Ridge.fresh (now : Nat) : Ridge := { tlb := [], store := [], stale := [], dirty := [], rotated := now }

/-- An unregistered launch queue, its registers zero (R304; log 6). -/
def Queue.fresh : Queue :=
  { base := 0, cnt := 0, cfg := 0, reg := false, faulted := false, regBase := 0, regCnt := 0, prio := 0, privileged := false,
    wr := 0, rd := 0, compl := 0, done := [], waiting := none }

/-- A front end at reset (R303; log 6). -/
def FrontEnd.fresh : FrontEnd :=
  { queues := List.replicate 16 Queue.fresh, last := 15, grids := 0, accepts := 0, cursor := 0 }

/-- A partition at reset: inactive, its block zero; `sys.fair` 64 (R41) and `sys.budget` 16,384 (R286) (log 6). -/
def Part.fresh : Part :=
  { reg := 0, active := false, suspended := false, resetting := none, resetDone := false, refused := false, saving := false,
    drainKind := 0, snapIdx := 0, bitmap := 0, frRd := 0, frWr := 0, frLost := 0, srRd := 0, srWr := 0, srDrop := 0, slice := 0,
    runSince := 0, stBase := 0, stCnt := 0, debugReg := 0, dbgPc := 0, fair := 64, budget := 16384, stations := [], parks := [],
    loans := [], stopped := false, clusters := (0, 0), counters := [] }

/-- A die after a module reset: OFF (R345). -/
def Die.fresh : Die :=
  { state := .off, reason := 0, attempts := 0, rolls := 0, step := 0, since := 0, session := false, measurement := 0,
    memKeys := false, image := none }

/-- The die numbers at the far ends of a die's links (R16): a ridge has its two ring neighbours and both cols. -/
def linkedDies (d : Nat) : List Nat := if d < 8 then [(d + 1) % 8, (d + 7) % 8, 8, 9] else List.range 8

/-- The 48 link directions without keys (R349). -/
def Link.all : List Link :=
  (List.range 10).flatMap fun a => (linkedDies a).map fun b =>
    { src := a, dst := b, keys := [none, none], sender := false, armed := false, counter := 0, since := 0, rolling := false,
      switched := false, accepted := false, badRun := 0, badTimes := [] }

/-- The module's registers after a module reset (R33, R357; log 6). -/
def Module.fresh : Module :=
  { ptpCfg := 0, heldBy := false, been := [], rAddr := 0, rLen := 0, rStat := 0, rDie := 0, attesting := none, turned := [],
    asks := [], ingress := [], egress := [] }

/-- The device right after a module reset: every die OFF (R345), no line with a key (R188), the package clock at 0 and at
10 / 21 ns a cycle (R340). -/
def Device.reset : Device :=
  { now := 0, draws := 0, nextCmd := 0, nextBundle := 0, nextSpawn := 0, nextEvent := 0, keys := [], bad := [], lostKeys := [], cores := [], ridges := [],
    grids := [], submits := [], fronts := [], parts := [], dies := List.replicate 10 Die.fresh, links := Link.all,
    clock := { base := 0, at_ := 0, num := 10, den := 21 }, module := Module.fresh, pool := [], hostAtoms := [],
    hostReply := [], cur := none, writes := [] }

/-- The machine right after reset: nothing listed in memory, no move on the agenda. -/
def State.reset : State := { mem := [], dev := Device.reset, agenda := [] }

/-- Why a step stops with a fault. The meanings of this model raise none: every fault of the manual is a next state. -/
inductive Fault where
  /-- Raised by nothing: no definition of the model answers with it, so it is safe. -/
  | none
  deriving DecidableEq, Repr

/-- Why a step is refused. -/
inductive Refusal where
  /-- Raised by an arm of `exec` that has no meaning yet, of which there is none; safe: the machine stops. -/
  | notModelled (mnemonic : String)
  deriving DecidableEq, Repr

end Sys2Proof.Machine
end

