-- ==== Sys2Proof/Machine/Mem.lean ====
section
/-! DEFINITION. Memory in its canonical form, association lists, bit fields and byte order (R4, R6). -/

namespace Sys2Proof.Machine

/-- The byte at an address; an unlisted address reads 0 (R6; log 5). -/
def Memory.read : Memory → Nat → Byte
  | [], _ => 0
  | (x, b) :: m, a => if a = x then b else if a < x then 0 else Memory.read m a

/-- Writing a byte, the canonical form kept: writing 0 removes the entry. -/
def Memory.set : Memory → Nat → Byte → Memory
  | [], a, v => if v = 0 then [] else [(a, v)]
  | (x, b) :: m, a, v =>
    if a = x then (if v = 0 then m else (x, v) :: m)
    else if a < x then (if v = 0 then (x, b) :: m else (a, v) :: (x, b) :: m)
    else (x, b) :: Memory.set m a v

/-- The canonical form: addresses strictly rising, no byte 0 listed. -/
def Memory.wf : Memory → Bool
  | [] => true
  | (x, b) :: m => b != 0 && m.all (fun c => decide (x < c.1)) && Memory.wf m

/-- Applies writes, the newest first in the list. -/
def Memory.apply (m : Memory) : List Host.Cell → Memory
  | [] => m
  | (a, v) :: ws => (Memory.apply m ws).set a v

/-- `n` bytes from an address. -/
def Memory.bytes (m : Memory) (a : Nat) : Nat → List Byte
  | 0 => []
  | n + 1 => m.read a :: m.bytes (a + 1) n

/-- Writing bytes from an address, lowest first. -/
def Memory.setBytes (m : Memory) (a : Nat) : List Byte → Memory
  | [] => m
  | b :: bs => (m.set a b).setBytes (a + 1) bs

/-- The value at a key, when listed. -/
def aget {α : Type} : List (Nat × α) → Nat → Option α
  | [], _ => none
  | (k, v) :: l, a => if a = k then some v else aget l a

/-- Sets the value at a key, keys rising. -/
def aset {α : Type} : List (Nat × α) → Nat → α → List (Nat × α)
  | [], a, x => [(a, x)]
  | (k, v) :: l, a, x => if a = k then (k, x) :: l else if a < k then (a, x) :: (k, v) :: l else (k, v) :: aset l a x

/-- Removes a key. -/
def adel {α : Type} (l : List (Nat × α)) (a : Nat) : List (Nat × α) := l.filter (fun p => p.1 != a)

/-- The i-th element, or a default. -/
def nth {α : Type} (l : List α) (i : Nat) (d : α) : α := l.getD i d

/-- Replaces the i-th element by a function of it. -/
def lmod {α : Type} : List α → Nat → (α → α) → List α
  | [], _, _ => []
  | x :: l, 0, f => f x :: l
  | x :: l, i + 1, f => x :: lmod l i f

/-- Bits h down to l of x (R4). -/
def bits (x h l : Nat) : Nat := x / 2 ^ l % 2 ^ (h + 1 - l)

/-- One bit of x (R4). -/
def bit (x i : Nat) : Bool := x / 2 ^ i % 2 == 1

/-- Bits h down to l of a bit vector. -/
def fld {n : Nat} (x : BitVec n) (h l : Nat) : Nat := bits x.toNat h l

/-- The signed value of the low w bits of x. -/
def signed (w x : Nat) : Int := if bit (x % 2 ^ w) (w - 1) then (x % 2 ^ w : Nat) - 2 ^ w else (x % 2 ^ w : Nat)

/-- An integer modulo 2^w. -/
def wrap (w : Nat) (x : Int) : Nat := (x % (2 ^ w : Nat)).toNat

/-- The threads of a mask, ascending. -/
def threadsOf (m : Mask) : List Nat := (List.range 32).filter (fun t => m.getLsbD t)

/-- The number whose bits below n are those of a test. -/
def bitsOf (p : Nat → Bool) : Nat → Nat
  | 0 => 0
  | n + 1 => (bif p n then 2 ^ n else 0) + bitsOf p n
/-- A mask from a test. -/
def maskOf (p : Nat → Bool) : Mask := BitVec.ofNat 32 (bitsOf p 32)

/-- The mask of one thread. -/
def oneBit (t : Nat) : Mask := BitVec.ofNat 32 (2 ^ t)

/-- The number of threads of a mask. -/
def popc (m : Mask) : Nat := (threadsOf m).length

/-- The lowest thread of a mask. -/
def lowest (m : Mask) : Option Nat := (threadsOf m).head?

/-- The place of thread t in ascending order among the threads of m. -/
def rankIn (m : Mask) (t : Nat) : Nat := ((threadsOf m).filter (· < t)).length

/-- The least element of a list by a key, the first among equals. -/
def leastBy {α : Type} (key : α → Nat) : List α → Option α
  | [] => none
  | x :: l =>
    match leastBy key l with
    | none => some x
    | some y => if key y < key x then some y else some x

/-- Sorted list of distinct numbers. -/
def insertNat (a : Nat) : List Nat → List Nat
  | [] => [a]
  | x :: l => if a = x then x :: l else if a < x then a :: x :: l else x :: insertNat a l

/-- The 17-bit short immediate as a signed value (R108). -/
def immInt (v : BitVec 17) : Int := v.toInt

/-- The code of a fault (R313). -/
def Code.num : Code → Nat
  | .illegalOpcode => 0x01 | .illegalSlot => 0x02 | .malformedLine => 0x03 | .badTarget => 0x04 | .nameExhausted => 0x05
  | .nameLimit => 0x06 | .spillLimit => 0x07 | .bounds => 0x08 | .recordWiden => 0x09 | .pageNotPresent => 0x0A
  | .pagePermission => 0x0B | .keyAlias => 0x0C | .atomicPlace => 0x0D | .illegalConvergence => 0x0E
  | .barrierMismatch => 0x0F | .engineReset => 0x10 | .dieQuarantined => 0x11 | .nestDepth => 0x12 | .routeDescriptor => 0x13
  | .misaligned => 0x14 | .formatSlot => 0x15 | .softwareTrap => 0x16 | .pinRevoked => 0x17 | .memoryUncorrectable => 0x18
  | .privilege => 0x19 | .guardState => 0x1A | .shadowAbsent => 0x1B | .barrierTimeout => 0x1C | .sliceEnd => 0x20
  | .debugBreak => 0x21

/-- The class of R314 as the CLASS field of R319 codes it: 0 program, 1 system, 2 cause, 3 parking. -/
def Code.cls : Code → Nat
  | .engineReset | .dieQuarantined | .pinRevoked | .memoryUncorrectable => 1
  | .sliceEnd | .debugBreak => 2
  | .pageNotPresent => 3
  | _ => 0

end Sys2Proof.Machine
end

