-- ==== Sys2Proof/Machine/Float.lean ====
section
/-! DEFINITION. Number formats and exact arithmetic (R81 to R91, R95, R98): exact values, RoundTo, the scalar formats, the
element formats and the exact results of R158, all by Nat and Int arithmetic. -/

namespace Sys2Proof.Machine

/-- An exact value. `fin neg m e sticky` is ±m × 2^e when `sticky` is false; when it is true, the magnitude lies strictly
between m × 2^e and (m + 1) × 2^e. -/
inductive Ex where
  | nan
  | inf (neg : Bool)
  | fin (neg : Bool) (m : Nat) (e : Int) (sticky : Bool)
  deriving DecidableEq, Repr

/-- A number format (R81, R83, R84): a floating format, or an integer format with its range. -/
inductive Fmt where
  | float (ew mw bias : Nat) (hasInf : Bool) (nanBits : Option Nat)
  | int (lo hi : Int)
  | unbounded
  deriving DecidableEq, Repr

/-- A saturation kind (R89). -/
inductive Sat where
  | ieee | finite | inf | nan
  deriving DecidableEq, Repr

def fp64 : Fmt := .float 11 52 1023 true (some 0x7FF8000000000000)
def fp32 : Fmt := .float 8 23 127 true (some 0x7FC00000)
/-- FP19 by its upper 19 bits (R81). -/
def fp19 : Fmt := .float 8 10 127 true (some 0x3FE00)
def fp16 : Fmt := .float 5 10 15 true (some 0x7E00)
def bf16 : Fmt := .float 8 7 127 true (some 0x7FC0)
def e4m3 : Fmt := .float 4 3 7 false (some 0x7F)
def e5m2 : Fmt := .float 5 2 15 true (some 0x7E)
def e3m2 : Fmt := .float 3 2 3 false none
def e2m3 : Fmt := .float 2 3 1 false none
def e2m1 : Fmt := .float 2 1 1 false none

/-- ±Inf, ±0 and powers of two as exact values. -/
def Ex.zero (neg : Bool) : Ex := .fin neg 0 0 false
def Ex.one : Ex := .fin false 1 0 false
def Ex.ofInt (i : Int) : Ex := .fin (i < 0) i.natAbs 0 false
def Ex.pow2 (e : Int) : Ex := .fin false 1 e false
def Ex.isNan : Ex → Bool
  | .nan => true
  | _ => false
def Ex.isZero : Ex → Bool
  | .fin _ m _ s => m == 0 && !s
  | _ => false
def Ex.sign : Ex → Bool
  | .nan => false
  | .inf n => n
  | .fin n _ _ _ => n
def Ex.neg : Ex → Ex
  | .nan => .nan
  | .inf n => .inf (!n)
  | .fin n m e s => .fin (!n) m e s
def Ex.abs : Ex → Ex
  | .nan => .nan
  | .inf _ => .inf false
  | .fin _ m e s => .fin false m e s

/-- m × 2^k for an integer k, rounded down, and whether bits were lost. -/
def shiftR (m : Nat) (k : Int) : Nat × Bool :=
  if k ≥ 0 then (m * 2 ^ k.toNat, false) else (m / 2 ^ (-k).toNat, m % 2 ^ (-k).toNat != 0)

/-- The exact product (R82: Inf × 0 is NaN). -/
def Ex.mul : Ex → Ex → Ex
  | .nan, _ => .nan
  | _, .nan => .nan
  | .inf a, .inf b => .inf (a != b)
  | .inf a, .fin b m _ s => if m = 0 && !s then .nan else .inf (a != b)
  | .fin a m _ s, .inf b => if m = 0 && !s then .nan else .inf (a != b)
  | .fin a m e s, .fin b n f u => .fin (a != b) (m * n) (e + f) (s || u)

/-- The exact sum; an exact zero from operands of opposite sign is +0, or −0 under RDN (R82). -/
def Ex.add (rdn : Bool) : Ex → Ex → Ex
  | .nan, _ => .nan
  | _, .nan => .nan
  | .inf a, .inf b => if a = b then .inf a else .nan
  | .inf a, _ => .inf a
  | _, .inf b => .inf b
  | .fin a m e _, .fin b n f _ =>
    if m = 0 && n = 0 then .fin (if a = b then a else rdn) 0 0 false
    else if m = 0 then .fin b n f false
    else if n = 0 then .fin a m e false
    else
      let g := min e f
      let x := m * 2 ^ (e - g).toNat
      let y := n * 2 ^ (f - g).toNat
      if a = b then .fin a (x + y) g false
      else if x = y then .fin rdn 0 0 false
      else if x > y then .fin a (x - y) g false else .fin b (y - x) g false

/-- The quotient, to 200 bits and a sticky bit (R158: x/0 is Inf, 0/0 and Inf/Inf are NaN). -/
def Ex.div : Ex → Ex → Ex
  | .nan, _ => .nan
  | _, .nan => .nan
  | .inf _, .inf _ => .nan
  | .inf a, .fin b _ _ _ => .inf (a != b)
  | .fin a _ _ _, .inf b => .fin (a != b) 0 0 false
  | .fin a m e _, .fin b n f _ =>
    if n = 0 then (if m = 0 then .nan else .inf (a != b))
    else if m = 0 then .fin (a != b) 0 0 false
    else
      let k : Nat := 200 + n.log2
      .fin (a != b) (m * 2 ^ k / n) (e - f - k) (m * 2 ^ k % n != 0)

/-- The integer square root, by bits from the top. -/
def isqrtGo (n : Nat) : Nat → Nat → Nat
  | 0, r => r
  | k + 1, r => let c := r + 2 ^ k; isqrtGo n k (if c * c ≤ n then c else r)
def isqrt (n : Nat) : Nat := isqrtGo n (n.log2 / 2 + 1) 0

/-- Sqrt (R98): NaN below zero, −0 for −0. -/
def Ex.sqrt : Ex → Ex
  | .nan => .nan
  | .inf n => if n then .nan else .inf false
  | .fin n m e _ =>
    if m = 0 then .fin n 0 0 false
    else if n then .nan
    else
      let k : Nat := 400 + (if e % 2 = 0 then 0 else 1)
      let x := m * 2 ^ k
      let r := isqrt x
      .fin false r ((e - k) / 2) (r * r != x)

/-- 1 / Sqrt(a) (R158). -/
def Ex.rsqrt : Ex → Ex
  | .nan => .nan
  | .inf n => if n then .nan else .zero false
  | .fin n m e _ =>
    if m = 0 then .inf n
    else if n then .nan
    else
      let m' := if e % 2 = 0 then m else 2 * m
      let e' := if e % 2 = 0 then e else e - 1
      let k : Nat := 300 + m'.log2
      let r := isqrt (2 ^ (2 * k) / m')
      .fin false r (-(e' / 2) - k) (r * r * m' != 2 ^ (2 * k))

/-- floor(Log2 |x|) of a finite non-zero value. -/
def Ex.log2 : Ex → Int
  | .fin _ m e _ => m.log2 + e
  | _ => 0

/-- |a| compared with |b| for finite values: less. -/
def magLt (m : Nat) (e : Int) (n : Nat) (f : Int) : Bool :=
  let g := min e f
  m * 2 ^ (e - g).toNat < n * 2 ^ (f - g).toNat

/-- a < b, false when either is NaN; +0 and −0 are equal. -/
def Ex.lt : Ex → Ex → Bool
  | .nan, _ => false
  | _, .nan => false
  | .inf a, .inf b => a && !b
  | .inf a, _ => a
  | _, .inf b => !b
  | .fin a m e _, .fin b n f _ =>
    if m = 0 && n = 0 then false
    else if a != b then (if m = 0 then !b else if n = 0 then a else a)
    else if a then magLt n f m e else magLt m e n f

/-- a = b as values, false when either is NaN. -/
def Ex.eqv (a b : Ex) : Bool := !a.isNan && !b.isNan && !a.lt b && !b.lt a

/-- The greatest finite magnitude of a format as (m, e). -/
def Fmt.max : Fmt → Nat × Int
  | .float ew mw bias hasInf nanBits =>
    let top : Nat := 2 ^ (mw + 1) - (if hasInf then 1 else if nanBits.isSome then 2 else 1)
    (top, ((2 ^ ew : Nat) : Int) - (if hasInf then 2 else 1) - bias - mw)
  | .int _ hi => (hi.natAbs, 0)
  | .unbounded => (0, 0)

/-- NaNOf(F) (R89): NaN, or 0 where the format has none. -/
def Fmt.nanOf : Fmt → Ex
  | .float _ _ _ _ (some _) => .nan
  | _ => .zero false

/-- Big (R89). -/
def Fmt.big (f : Fmt) (neg : Bool) (mode : Rnd) (sat : Sat) (fromInf : Bool) : Ex :=
  match f with
  | .unbounded => .inf neg
  | .int lo hi => .ofInt (if neg then lo else hi)
  | .float _ _ _ hasInf _ =>
    let big : Ex := .fin neg f.max.1 f.max.2 false
    let inf : Ex := if hasInf then .inf neg else big
    match sat with
    | .finite => big
    | .inf => inf
    | .nan => f.nanOf
    | .ieee =>
      if fromInf then inf
      else match mode with
        | .rne => inf
        | .rs => inf
        | .rtz => big
        | .rdn => if neg then inf else big
        | .rup => if neg then big else inf

/-- Pick (R86 to R88): true for `hi`. `l` is floor(|x| / q), `r` over `2^d` its remainder, `st` whether more lies below. -/
def pick (neg : Bool) (mode : Rnd) (draw : Nat) (l r d : Nat) (st : Bool) : Bool :=
  match mode with
  | .rtz => false
  | .rdn => neg
  | .rup => !neg
  | .rs => r * 2 ^ 16 / 2 ^ d + draw ≥ 2 ^ 16
  | .rne => if 2 * r = 2 ^ d then st || l % 2 == 1 else 2 * r > 2 ^ d

/-- RoundTo (R87); `draw` is the value of NextRandom16 for stochastic rounding. -/
def roundTo (x : Ex) (f : Fmt) (mode : Rnd) (sat : Sat) (draw : Nat := 0) : Ex :=
  match x with
  | .nan => f.nanOf
  | .inf n => f.big n mode sat true
  | .fin n m e st =>
    if m = 0 && !st then (match f with | .float .. => x | _ => .zero false)
    else
      let q : Int :=
        match f with
        | .float _ mw bias _ _ => max (m.log2 + e) (1 - bias) - mw
        | _ => 0
      let d := (q - e).toNat
      let l := if e ≥ q then m * 2 ^ (e - q).toNat else m / 2 ^ d
      let r := if e ≥ q then 0 else m % 2 ^ d
      let exact := r == 0 && !st
      let y := if exact then l else if pick n mode draw l r d st then l + 1 else l
      let past :=
        match f with
        | .unbounded => false
        | .int lo hi => if n then -(y : Int) < lo else (y : Int) > hi
        | .float .. => magLt f.max.1 f.max.2 y q
      if past then f.big n mode sat false
      else
        match f with
        | .float .. => .fin n y q false
        | _ => if y = 0 then .zero false else .fin n y 0 false

/-- The bits of a value that a floating format represents (R81, R83). -/
def Fmt.encode (f : Fmt) (x : Ex) : Nat :=
  match f with
  | .float ew mw bias _ nanBits =>
    match x with
    | .nan => nanBits.getD 0
    | .inf n => n.toNat * 2 ^ (ew + mw) + (2 ^ ew - 1) * 2 ^ mw
    | .fin n m e _ =>
      n.toNat * 2 ^ (ew + mw) +
      (if m = 0 then 0
       else if m.log2 + e ≥ 1 - (bias : Int) then
         (m.log2 + e + bias).toNat * 2 ^ mw + (shiftR m ((mw : Int) - m.log2)).1 - 2 ^ mw
       else (shiftR m (e - (1 - (bias : Int) - mw))).1)
  | _ =>
    match x with
    | .fin n m _ _ => if n then wrap 64 (-(m : Int)) else m
    | _ => 0

/-- The value of a code of a floating format (R81, R83). -/
def Fmt.decode (f : Fmt) (c : Nat) : Ex :=
  match f with
  | .float ew mw bias hasInf nanBits =>
    let s := bit c (ew + mw)
    let e := c / 2 ^ mw % 2 ^ ew
    let m := c % 2 ^ mw
    if hasInf && e == 2 ^ ew - 1 then (if m = 0 then .inf s else .nan)
    else if !hasInf && nanBits.isSome && e == 2 ^ ew - 1 && m == 2 ^ mw - 1 then .nan
    else if e = 0 then .fin s m (1 - (bias : Int) - mw) false
    else .fin s (2 ^ mw + m) ((e : Int) - bias - mw) false
  | _ => .ofInt c

/-- RoundToFP32(x, RNE) and its bits. -/
def toF32 (x : Ex) : Ex := roundTo x fp32 .rne .ieee
def f32 (w : W32) : Ex := fp32.decode w.toNat

/-- π and ln 2 by their leading binary digits, 560 after the point. -/
def piFixed : Nat := 0x3243f6a8885a308d313198a2e03707344a4093822299f31d0082efa98ec4e6c89452821e638d01377be5466cf34e90c6cc0ac29b7c97c50dd3f84d5b5b54709179216d5d98979
def ln2Fixed : Nat := 0xb17217f7d1cf79abc9e3b39803f2f6af40f343267298b62d8a0d175b8baafa2be7b876206debac98559552fb4afa1b10ed2eae35c138214427573b291169b8253e96ca16224a

/-- The sum of n terms after t, each made from the one before it by `step`. -/
def series (step : Nat → Nat → Nat) : Nat → Nat → Nat → Nat → Nat
  | 0, _, _, acc => acc
  | n + 1, k, t, acc => let t' := step k t; series step n (k + 1) t' (acc + t')

/-- exp(y) for y = x / 2^560 below 1, in 560 fractional bits. -/
def expFixed (x : Nat) : Nat := series (fun k t => t * x / 2 ^ 560 / (k + 1)) 100 0 (2 ^ 560) (2 ^ 560)

/-- atanh(z) for z = x / 2^560 below 1/2, in 560 fractional bits. -/
def atanhFixed (x : Nat) : Nat :=
  let z2 := x * x / 2 ^ 560
  ((List.range 180).foldl (fun (p : Nat × Nat) k => (p.1 * z2 / 2 ^ 560, p.2 + p.1 / (2 * k + 1))) (x, 0)).2

/-- sin and cos of x / 2^560, from 0 to π/2, in 560 fractional bits. -/
def sinFixed (x : Nat) : Nat :=
  let z2 := x * x / 2 ^ 560
  let r := (List.range 70).foldl (fun (p : Nat × Nat × Nat) k =>
    (p.1 * z2 / 2 ^ 560 / ((2 * k + 2) * (2 * k + 3)), if k % 2 = 0 then (p.2.1 + p.1, p.2.2) else (p.2.1, p.2.2 + p.1)))
    (x, 0, 0)
  r.2.1 - r.2.2
def cosFixed (x : Nat) : Nat :=
  let z2 := x * x / 2 ^ 560
  let r := (List.range 70).foldl (fun (p : Nat × Nat × Nat) k =>
    (p.1 * z2 / 2 ^ 560 / ((2 * k + 1) * (2 * k + 2)), if k % 2 = 0 then (p.2.1 + p.1, p.2.2) else (p.2.1, p.2.2 + p.1)))
    (2 ^ 560, 0, 0)
  r.2.1 - r.2.2

/-- 2^a (R158). -/
def Ex.exp2 : Ex → Ex
  | .nan => .nan
  | .inf n => if n then .zero false else .inf false
  | .fin n m e _ =>
    if m = 0 then .one
    else if m.log2 + e ≥ 10 then (if n then .fin false 1 (-2000) true else .fin false 1 2000 true)
    else
      let x := (shiftR m (e + 560)).1       -- |a| in 560 fractional bits: exact, for no FP32 has more
      let i : Nat := x / 2 ^ 560
      let f : Nat := x % 2 ^ 560
      if f = 0 then .pow2 (if n then -(i : Int) else i)
      else
        let k : Int := if n then -(i : Int) - 1 else i
        let g := if n then 2 ^ 560 - f else f
        .fin false (expFixed (g * ln2Fixed / 2 ^ 560)) (k - 560) true

/-- log2(a) (R158). -/
def Ex.lg2 : Ex → Ex
  | .nan => .nan
  | .inf n => if n then .nan else .inf false
  | .fin n m e _ =>
    if m = 0 then .inf true
    else if n then .nan
    else
      let k : Int := m.log2 + e
      let x := (shiftR m (560 - (m.log2 : Int))).1   -- the significand, from 1 to 2
      if x = 2 ^ 560 then .ofInt k
      else
        -- from 1 to 2: atanh of (x - 1) / (x + 1), over atanh of 1/3
        let l : Nat := atanhFixed ((x - 2 ^ 560) * 2 ^ 560 / (x + 2 ^ 560)) * 2 ^ 561 / ln2Fixed
        let v : Int := k * 2 ^ 560 + l
        .fin (v < 0) (if v < 0 then v.natAbs - 1 else v.natAbs) (-560) true

/-- The quadrant and the rest of |a| over π/2, in 560 fractional bits. -/
def reduce (m : Nat) (e : Int) : Nat × Nat :=
  let x := (shiftR m (e + 560)).1
  let h := piFixed / 2
  (x / h, x % h)

/-- sin(a) and cos(a) (R158). -/
def Ex.sin : Ex → Ex
  | .nan => .nan
  | .inf _ => .nan
  | .fin n m e _ =>
    if m = 0 then .fin n 0 0 false
    else
      let (k, r) := reduce m e
      let v := if k % 2 = 0 then sinFixed r else cosFixed r
      .fin (n != (k % 4 ≥ 2)) (v - (if k = 0 then 1 else 0)) (-560) true
def Ex.cos : Ex → Ex
  | .nan => .nan
  | .inf _ => .nan
  | .fin _ m e _ =>
    if m = 0 then .one
    else
      let (k, r) := reduce m e
      let v := if k % 2 = 0 then cosFixed r else sinFixed r
      .fin (k % 4 == 1 || k % 4 == 2) (v - (if k = 0 then 1 else 0)) (-560) true

/-- NextRandom16 (R88): the new generator state and the value. -/
def nextRandom (x : W64) : W64 × Nat :=
  let a := x ^^^ (x <<< 13)
  let b := a ^^^ (a >>> 7)
  let c := b ^^^ (b <<< 17)
  (c, c.toNat / 2 ^ 48)

/-- SeedGenerator (R88). -/
def seedGenerator (g : W64) (team pack tid : Nat) : W64 :=
  let x := g ^^^ BitVec.ofNat 64 ((team * 1024 ||| pack * 32 ||| tid) * 0x9E3779B97F4A7C15)
  if x = 0 then 0x9E3779B97F4A7C15 else x

end Sys2Proof.Machine
end

