-- ==== Sys2Proof/Machine/Walker.lean ====
section
/-! DEFINITION. The walker's processor: one instruction of RV32IMC, apart from its accesses to memory (R182; log 73). The manual
names the instruction set and prints none of it: the encodings and effects here are those of the published RISC-V base ISA. -/

namespace Sys2Proof.Machine

/-- The registers x0 to x31 and the pc of a walker. -/
structure Rv where
  regs : List W32
  pc   : W32
  deriving DecidableEq, Repr

/-- An instruction after decoding: a register number is a Nat below 32, an immediate is sign-extended. -/
inductive RvOp where
  | lui (rd : Nat) (v : W32)
  | auipc (rd : Nat) (v : W32)
  | jal (rd : Nat) (off : W32)
  | jalr (rd rs : Nat) (off : W32)
  | branch (cond a b : Nat) (off : W32)
  | load (width : Nat) (ext : Bool) (rd rs : Nat) (off : W32)        -- width in bytes; ext: sign-extended
  | store (width : Nat) (rs src : Nat) (off : W32)
  | opImm (f : Nat) (alt : Bool) (rd rs : Nat) (v : W32)
  | op (f : Nat) (alt : Bool) (rd a b : Nat)
  | mulDiv (f rd a b : Nat)
  | fence
  | ebreak
  deriving DecidableEq, Repr

/-- The low n bits of x, sign-extended. -/
def rvSext (n x : Nat) : W32 := (BitVec.ofNat n x).signExtend 32

/-- A 32-bit encoding; none where RV32IM has no such instruction, or one that a walk has no use for (`ecall`). -/
def rvDecode (x : Nat) : Option RvOp :=
  let rd := bits x 11 7
  let f := bits x 14 12
  let a := bits x 19 15
  let b := bits x 24 20
  let hi := bits x 31 25
  let imm := rvSext 12 (bits x 31 20)
  match bits x 6 0 with
  | 0x37 => some (.lui rd (BitVec.ofNat 32 (x / 4096 * 4096)))
  | 0x17 => some (.auipc rd (BitVec.ofNat 32 (x / 4096 * 4096)))
  | 0x6F => some (.jal rd (rvSext 21 (bits x 31 31 * 2 ^ 20 + bits x 19 12 * 2 ^ 12 + bits x 20 20 * 2 ^ 11 + bits x 30 21 * 2)))
  | 0x67 => if f = 0 then some (.jalr rd a imm) else none
  | 0x63 =>
    if f = 2 || f = 3 then none
    else some (.branch f a b (rvSext 13 (bits x 31 31 * 2 ^ 12 + bits x 7 7 * 2 ^ 11 + bits x 30 25 * 2 ^ 5 + bits x 11 8 * 2)))
  | 0x03 => if f = 3 || f > 5 then none else some (.load (2 ^ (f % 4)) (f < 4) rd a imm)
  | 0x23 => if f > 2 then none else some (.store (2 ^ f) a b (rvSext 12 (hi * 32 + rd)))
  | 0x13 =>
    if f = 1 then (if hi = 0 then some (.opImm f false rd a (BitVec.ofNat 32 b)) else none)
    else if f = 5 then (if hi = 0 || hi = 0x20 then some (.opImm f (hi == 0x20) rd a (BitVec.ofNat 32 b)) else none)
    else some (.opImm f false rd a imm)
  | 0x33 =>
    if hi = 1 then some (.mulDiv f rd a b)
    else if hi = 0 then some (.op f false rd a b)
    else if hi = 0x20 && (f = 0 || f = 5) then some (.op f true rd a b)
    else none
  | 0x0F => if f = 0 then some .fence else none
  | 0x73 => if x = 0x00100073 then some .ebreak else none
  | _ => none

/-- A compressed encoding of 16 bits (RV32C). -/
def rvDecodeC (x : Nat) : Option RvOp :=
  let f := bits x 15 13
  let rd := bits x 11 7
  let rs := bits x 6 2
  let rdp := bits x 4 2 + 8
  let rsp := bits x 9 7 + 8
  let imm6 := rvSext 6 (bits x 12 12 * 32 + rs)
  let offW := BitVec.ofNat 32 (bits x 12 10 * 8 + bits x 6 6 * 4 + bits x 5 5 * 64)
  let offJ := rvSext 12 (bits x 12 12 * 2 ^ 11 + bits x 11 11 * 2 ^ 4 + bits x 10 9 * 2 ^ 8 + bits x 8 8 * 2 ^ 10 + bits x 7 7 * 2 ^ 6 + bits x 6 6 * 2 ^ 7 +
    bits x 5 3 * 2 + bits x 2 2 * 2 ^ 5)
  let offB := rvSext 9 (bits x 12 12 * 2 ^ 8 + bits x 11 10 * 2 ^ 3 + bits x 6 5 * 2 ^ 6 + bits x 4 3 * 2 + bits x 2 2 * 2 ^ 5)
  match x % 4, f with
  | 0, 0 =>
    let n := bits x 12 11 * 16 + bits x 10 7 * 64 + bits x 6 6 * 4 + bits x 5 5 * 8
    if n = 0 then none else some (.opImm 0 false rdp 2 (BitVec.ofNat 32 n))
  | 0, 2 => some (.load 4 true rdp rsp offW)
  | 0, 6 => some (.store 4 rsp rdp offW)
  | 1, 0 => some (.opImm 0 false rd rd imm6)
  | 1, 1 => some (.jal 1 offJ)
  | 1, 2 => some (.opImm 0 false rd 0 imm6)
  | 1, 3 =>
    if bits x 12 12 * 32 + rs = 0 then none
    else if rd = 2 then
      some (.opImm 0 false 2 2 (rvSext 10 (bits x 12 12 * 2 ^ 9 + bits x 6 6 * 2 ^ 4 + bits x 5 5 * 2 ^ 6 + bits x 4 3 * 2 ^ 7 + bits x 2 2 * 2 ^ 5)))
    else some (.lui rd (imm6 <<< 12))
  | 1, 4 =>
    match bits x 11 10 with
    | 0 => if bit x 12 then none else some (.opImm 5 false rsp rsp (BitVec.ofNat 32 rs))
    | 1 => if bit x 12 then none else some (.opImm 5 true rsp rsp (BitVec.ofNat 32 rs))
    | 2 => some (.opImm 7 false rsp rsp imm6)
    | _ =>
      if bit x 12 then none
      else match bits x 6 5 with
        | 0 => some (.op 0 true rsp rsp rdp)
        | 1 => some (.op 4 false rsp rsp rdp)
        | 2 => some (.op 6 false rsp rsp rdp)
        | _ => some (.op 7 false rsp rsp rdp)
  | 1, 5 => some (.jal 0 offJ)
  | 1, 6 => some (.branch 0 rsp 0 offB)
  | 1, 7 => some (.branch 1 rsp 0 offB)
  | 2, 0 => if bit x 12 then none else some (.opImm 1 false rd rd (BitVec.ofNat 32 rs))
  | 2, 2 => if rd = 0 then none else some (.load 4 true rd 2 (BitVec.ofNat 32 (bits x 12 12 * 32 + bits x 6 4 * 4 + bits x 3 2 * 64)))
  | 2, 4 =>
    if bit x 12 then
      (if rs != 0 then some (.op 0 false rd rd rs) else if rd = 0 then some .ebreak else some (.jalr 1 rd 0))
    else if rs != 0 then some (.op 0 false rd 0 rs)
    else if rd = 0 then none else some (.jalr 0 rd 0)
  | 2, 6 => some (.store 4 2 rs (BitVec.ofNat 32 (bits x 12 9 * 4 + bits x 8 7 * 64)))
  | _, _ => none

/-- The instruction at the start of 4 bytes, and its length. -/
def rvFetch (x : Nat) : Option (RvOp × Nat) :=
  if x % 4 = 3 then (rvDecode (x % 2 ^ 32)).map (·, 4) else (rvDecodeC (x % 2 ^ 16)).map (·, 2)

def Rv.get (r : Rv) (i : Nat) : W32 := if i = 0 then 0 else r.regs.getD i 0
def Rv.set (r : Rv) (i : Nat) (v : W32) : Rv := { r with regs := lmod r.regs i fun _ => v }

def rvAlu (f : Nat) (alt : Bool) (a b : W32) : W32 :=
  match f with
  | 0 => if alt then a - b else a + b
  | 1 => a <<< (b.toNat % 32)
  | 2 => if a.slt b then 1 else 0
  | 3 => if a.ult b then 1 else 0
  | 4 => a ^^^ b
  | 5 => if alt then a.sshiftRight (b.toNat % 32) else a >>> (b.toNat % 32)
  | 6 => a ||| b
  | _ => a &&& b
/-- Multiplication and division; division by zero and overflow have defined results. -/
def rvMulDiv (f : Nat) (a b : W32) : W32 :=
  match f with
  | 0 => a * b
  | 1 => BitVec.ofInt 32 (a.toInt * b.toInt / 2 ^ 32)
  | 2 => BitVec.ofInt 32 (a.toInt * b.toNat / 2 ^ 32)
  | 3 => BitVec.ofNat 32 (a.toNat * b.toNat / 2 ^ 32)
  | 4 => if b = 0 then BitVec.allOnes 32 else a.sdiv b
  | 5 => if b = 0 then BitVec.allOnes 32 else a / b
  | 6 => if b = 0 then a else a.srem b
  | _ => if b = 0 then a else a % b
def rvTaken (f : Nat) (a b : W32) : Bool :=
  match f with
  | 0 => a == b
  | 1 => a != b
  | 4 => a.slt b
  | 5 => !a.slt b
  | 6 => a.ult b
  | _ => !a.ult b

/-- What an instruction does: it goes on, asks for an access of memory, or returns. -/
inductive RvDo where
  | next (r : Rv)
  | load (r : Rv) (addr : W32) (width : Nat) (ext : Bool) (rd : Nat)
  | store (r : Rv) (addr : W32) (width : Nat) (v : W32)
  | ret (r : Rv)
  deriving DecidableEq, Repr

/-- One instruction of `n` bytes. -/
def Rv.exec (r : Rv) (o : RvOp) (n : Nat) : RvDo :=
  let on : Rv := { r with pc := r.pc + BitVec.ofNat 32 n }
  match o with
  | .lui rd v => .next (on.set rd v)
  | .auipc rd v => .next (on.set rd (r.pc + v))
  | .jal rd off => .next { on.set rd on.pc with pc := r.pc + off }
  | .jalr rd rs off => .next { on.set rd on.pc with pc := (r.get rs + off) &&& ~~~(1 : W32) }
  | .branch f a b off => .next (if rvTaken f (r.get a) (r.get b) then { r with pc := r.pc + off } else on)
  | .load w ext rd rs off => .load on (r.get rs + off) w ext rd
  | .store w rs src off => .store on (r.get rs + off) w (r.get src)
  | .opImm f alt rd rs v => .next (on.set rd (rvAlu f alt (r.get rs) v))
  | .op f alt rd a b => .next (on.set rd (rvAlu f alt (r.get a) (r.get b)))
  | .mulDiv f rd a b => .next (on.set rd (rvMulDiv f (r.get a) (r.get b)))
  | .fence => .next on
  | .ebreak => .ret r

end Sys2Proof.Machine
end

