-- ==== Sys2Proof/Machine/Device.lean ====
section
/-! DEFINITION. The device's parts by number, physical memory with its line keys, translation and the walk, package time and the
fault-record ring (R16 to R18, R181 to R192, R298, R319, R339). -/

namespace Sys2Proof.Machine

open Sys2Proof

/-- Clusters and ridges by number (R18). -/
def clusterOf (core : Nat) : Nat := core / 4
def ridgeOf (core : Nat) : Nat := core / 60

def Device.core (d : Device) (c : Nat) : Core := (aget d.cores c).getD (Core.fresh 0)
def Device.setCore (d : Device) (c : Nat) (x : Core) : Device := { d with cores := aset d.cores c x }
def Device.modCore (d : Device) (c : Nat) (f : Core → Core) : Device := d.setCore c (f (d.core c))
def Device.ridge (d : Device) (r : Nat) : Ridge := (aget d.ridges r).getD (Ridge.fresh 0)
def Device.modRidge (d : Device) (r : Nat) (f : Ridge → Ridge) : Device := { d with ridges := aset d.ridges r (f (d.ridge r)) }
def Device.part (d : Device) (p : Nat) : Part := (aget d.parts p).getD Part.fresh
def Device.modPart (d : Device) (p : Nat) (f : Part → Part) : Device := { d with parts := aset d.parts p (f (d.part p)) }
def Device.front (d : Device) (f : Nat) : FrontEnd := (aget d.fronts f).getD FrontEnd.fresh
def Device.modFront (d : Device) (f : Nat) (g : FrontEnd → FrontEnd) : Device := { d with fronts := aset d.fronts f (g (d.front f)) }
def Device.modGrid (d : Device) (g : Nat) (f : Grid → Grid) : Device :=
  match aget d.grids g with
  | none => d
  | some x => { d with grids := aset d.grids g (f x) }
def Device.team (d : Device) (c slot : Nat) : Option Team := aget (d.core c).teams slot
def Device.setTeam (d : Device) (c slot : Nat) (t : Team) : Device :=
  d.modCore c fun x => { x with teams := aset x.teams slot t }
def Device.modTeam (d : Device) (c slot : Nat) (f : Team → Team) : Device :=
  match d.team c slot with
  | none => d
  | some t => d.setTeam c slot (f t)
def Team.modPack (t : Team) (p : Nat) (f : Pack → Pack) : Team := { t with packs := lmod t.packs p f }
def Pack.modThread (p : Pack) (t : Nat) (f : Thread → Thread) : Pack := { p with threads := lmod p.threads t f }
def Device.modPack (d : Device) (c slot p : Nat) (f : Pack → Pack) : Device := d.modTeam c slot (·.modPack p f)
def Device.modThread (d : Device) (i : ThreadId) (f : Thread → Thread) : Device :=
  d.modPack i.core i.slot i.pack (·.modThread i.thread f)
def Device.pack (d : Device) (c slot p : Nat) : Option Pack := (d.team c slot).bind (·.packs[p]?)
def Device.thread (d : Device) (i : ThreadId) : Option Thread := (d.pack i.core i.slot i.pack).bind (·.threads[i.thread]?)
def Device.modEngine (d : Device) (c q : Nat) (f : Engine → Engine) : Device :=
  d.modCore c fun x => { x with engines := lmod x.engines q f }
def Device.engine (d : Device) (c q : Nat) : Engine := nth (d.core c).engines q (Engine.fresh 0)

/-- Every resident team with its core and resident team index. -/
def Device.teams (d : Device) : List (Nat × Nat × Team) :=
  d.cores.flatMap fun c => c.2.teams.map fun t => (c.1, t.1, t.2)

/-- Where a team of a grid is resident. -/
def Device.find (d : Device) (grid team : Nat) : Option (Nat × Nat × Team) :=
  d.teams.find? fun x => x.2.2.grid == grid && x.2.2.index == team

/-- A free value (R3), drawn once. -/
def Device.draw (d : Device) : Device × W64 := ({ d with draws := d.draws + 1 }, Config.freeWord d.draws)

/-! ### Package time (R298, R340) -/

def Clock.read (k : Clock) (now : Nat) : Nat := k.base + (now - k.at_) * k.num / k.den
def Device.time (d : Device) : Nat := d.clock.read d.now % 2 ^ 64

/-! ### Counters (R341, R342) -/

/-- Counter n of a partition with its times, its cycles and the events of the caches brought up to a cycle (R341; log 17); an update
raises SEQ by 2 (R342). -/
def Counter.at_ (c : Counter) (part n : Nat) (k : Clock) (now : Nat) : Counter :=
  let ns := k.read now - k.read c.since
  let ev := c.sel % 256
  let x := { c with since := now, en := if c.sel % 256 = 0 then c.en else c.en + BitVec.ofNat 64 ns,
                    run := if c.phys then c.run + BitVec.ofNat 64 ns else c.run,
                    count := if c.phys && ev = 1 then c.count + BitVec.ofNat 64 (now - c.since)
                             else if c.phys && (ev = 7 || ev = 8) && c.since < now then c.count + Config.eventsBetween ev part n c.since now
                             else c.count }
  if x.en = c.en && x.run = c.run && x.count = c.count then x else { x with seq := c.seq + 2 }
/-- n occurrences of an event of a partition on a ridge: counters that select it and hold a physical counter rise (R341). -/
def Device.count (d : Device) (part ridge ev n : Nat) : Device :=
  if (d.part part).counters.any (fun c => c.1 / 8 == ridge && c.2.sel % 256 == ev && c.2.phys) then
    d.modPart part fun q => { q with counters := q.counters.map fun c =>
      if c.1 / 8 = ridge && c.2.sel % 256 = ev && c.2.phys then (c.1, { c.2 with count := c.2.count + BitVec.ofNat 64 n, seq := c.2.seq + 2 }) else c }
  else d
/-- The 32 bytes of counter n of ridge r in the partition's counter window, at offset 32 × (8r + n) (R342). -/
def Device.windowEntry (d : Device) (part ridge n : Nat) : BitVec 256 :=
  match aget (d.part part).counters (8 * ridge + n) with
  | none => 0
  | some c => let c := c.at_ part (8 * ridge + n) d.clock d.now; c.seq ++ c.run ++ c.en ++ c.count
/-- Counter n of a partition on a ridge, now (R298, R342): count, enabled and running time. -/
def Device.counter (d : Device) (part ridge n : Nat) : W64 × W64 × W64 :=
  let w := d.windowEntry part ridge n
  (w.extractLsb' 0 64, w.extractLsb' 64 64, w.extractLsb' 128 64)

/-! ### Physical memory -/

/-- The byte of physical memory, writes of this step included. -/
def Device.rd (d : Device) (m : Memory) (a : Nat) : Byte :=
  match d.writes.find? (fun c => c.1 == a) with
  | some c => c.2
  | none => m.read a
def Device.rdBytes (d : Device) (m : Memory) (a n : Nat) : List Byte := (List.range n).map fun i => d.rd m (a + i)
def Device.rdNat (d : Device) (m : Memory) (a n : Nat) : Nat := leNat (d.rdBytes m a n)
/-- Writes a byte of physical memory; the write takes its place in memory at the end of the step. -/
def Device.wr (d : Device) (a : Nat) (b : Byte) : Device := { d with writes := (a, b) :: d.writes }
def Device.wrBytes (d : Device) (a : Nat) : List Byte → Device
  | [] => d
  | b :: bs => (d.wr a b).wrBytes (a + 1) bs

/-- The ranges of R186. -/
inductive Region where
  | interleaved
  | homed (n : Nat)
  | lpddr
  | system
  | nothing
  deriving DecidableEq, Repr

def regionOf (a : Nat) : Region :=
  if a < 0x006000000000 then .interleaved
  else if a < 0x00C000000000 then .homed ((a - 0x006000000000) / 0x000C00000000)
  else if a < 0x010000000000 then .nothing
  else if a < 0x030000000000 then .lpddr
  else if a < 0x100000000000 then .nothing
  else if a < 0x10000000000000 then .system
  else .nothing

/-- The ridge of a line's home slice (R186): 16 slices, two stacks a ridge; none in system space. -/
def homeRidge (a : Nat) (isLocal : Bool) (home : Nat) : Option Nat :=
  match regionOf a with
  | .interleaved => some ((Config.homeHash (a / 128)).val / 2)
  | .homed n => some n
  | .lpddr => if isLocal then some (home % 8) else some ((Config.homeHash (a / 128)).val / 2)
  | _ => none

def Device.die (d : Device) (n : Nat) : Die := nth d.dies n Die.fresh
/-- A die whose addresses fault and on which nothing is placed (R187, R311, R355). -/
def Device.trusted (d : Device) (n : Nat) : Bool := (d.die n).state == .trusted

/-! ### Die links and the colours of the ridge caches (R16, R24, R190, R345) -/

/-- The intermediate die of a path (R16): the one the hash picks, or the next TRUSTED die of its kind. -/
def Device.through (d : Device) (base n k : Nat) : Option Nat :=
  ((List.range n).map fun i => base + (Config.pathHash k + i) % n).find? d.trusted
/-- What the hash takes: the line address, or for a flit without an address its source and destination (R16). -/
def pathKey (src dst : Nat) (line : Option Nat) : Nat := match line with | some l => 2 * l | none => 2 * (16 * src + dst) + 1
/-- The dies on the way from one die to another: directly linked ones, else one col between two ridges and one ridge between the cols
(R16); none when no die of that kind is TRUSTED. -/
def Device.path (d : Device) (src dst : Nat) (line : Option Nat) : Option (List Nat) :=
  if src = dst then some [src]
  else if (linkedDies src).contains dst then some [src, dst]
  else (if src < 8 then d.through 8 2 (pathKey src dst line) else d.through 0 8 (pathKey src dst line)).map fun v => [src, v, dst]
/-- Data flits pass from one die to another: every die on the way is TRUSTED (R345). -/
def Device.connected (d : Device) (src dst : Nat) (line : Option Nat) : Bool :=
  match d.path src dst line with
  | some ds => ds.all d.trusted
  | none => false
/-- The col on which a line of the LPDDR tier stands (R24, R186). -/
def lpddrCol (line : Nat) : Nat := 8 + (Config.lpddrChannel line).val / 16
/-- The die links carry an access from a ridge to a physical address of a home ridge (8 for none), and on to where its data stands: system
space lies beyond a col, and the data of an LPDDR line on one (R16, R186, R345). An access to a ridge that is not TRUSTED faults instead
(R187). -/
def Device.linked (d : Device) (ridge a home : Nat) : Bool :=
  let line := some (a / 128)
  match regionOf a with
  | .system => (d.through 8 2 (pathKey ridge 8 line)).any fun v => d.connected ridge v line
  | .lpddr => !d.trusted home || (d.connected ridge home line && d.connected home (lpddrCol (a / 128)) line)
  | _ => home ≥ 8 || !d.trusted home || d.connected ridge home line

/-- The hash of a line for the ridge cache (R190). -/
def colourHash (pa : Nat) : Nat := bits pa 10 7 ^^^ bits pa 14 11 ^^^ bits pa 18 15 ^^^ bits pa 22 19
/-- The k-th set bit of a mask of 16 colours, counted from bit 0 (R190). -/
def selColour (mask k : Nat) : Nat := ((List.range 16).filter (bit mask)).getD k 0
/-- The colour that a line fills for a partition: one of those in its mask (R24, R190). -/
def Device.fillColour (d : Device) (part pa : Nat) : Nat :=
  let mask := fld (d.part part).reg 239 224
  selColour mask (colourHash pa % ((List.range 16).filter (bit mask)).length)

/-- The key of a line, when it carries one (R188). -/
def Device.keyOf (d : Device) (a : Nat) : Option Nat := aget d.keys (a / 128)
/-- A line of a tier that carries keys. -/
def keyed (a : Nat) : Bool := a < 0x030000000000

/-- An access under a key meets a line that carries another (R188); a write of whole lines does not. -/
def Device.alias (d : Device) (a n key : Nat) (whole : Bool) : Bool :=
  keyed a && !whole &&
  (List.range ((a + n - 1) / 128 - a / 128 + 1)).any fun i =>
    match aget d.keys (a / 128 + i) with
    | some k => k != key
    | none => false

/-- A write of n bytes sets the key of lines that carry none, and of lines it writes whole (R188); whole lines are good and
defined again (R192, R354). -/
def Device.setKeys (d : Device) (a n key : Nat) : Device :=
  if !keyed a || n = 0 then d
  else
    (List.range ((a + n - 1) / 128 - a / 128 + 1)).foldl (fun d i =>
      let l := a / 128 + i
      let whole := a ≤ l * 128 && (l + 1) * 128 ≤ a + n
      let d := if whole || (aget d.keys l).isNone then { d with keys := aset d.keys l key } else d
      if whole then { d with bad := d.bad.filter (· != l), lostKeys := adel d.lostKeys l } else d) d

/-- A line whose stored data cannot be corrected (R192). -/
def Device.isBad (d : Device) (a n : Nat) : Bool :=
  (List.range ((a + n - 1) / 128 - a / 128 + 1)).any fun i => d.bad.contains (a / 128 + i)

/-- The byte a reader sees: a line whose key was regenerated reads undefined (R354, R3). The byte is one free value for each address
and key, so that reads of it agree until it is written: the model's choice (log 78). -/
def Device.rdSeen (d : Device) (m : Memory) (a : Nat) : Byte :=
  match aget d.lostKeys (a / 128) with
  | some k => (Config.freeWord (a * 64 + k + 2 ^ 64)).truncate 8
  | none => d.rd m a

/-- The aligned 128-byte parts of n bytes from an address: (first byte, address, length) (R180). -/
def lineParts (va n : Nat) : List (Nat × Nat × Nat) :=
  (List.range ((va + n - 1) / 128 - va / 128 + 1)).map fun i =>
    let lo := max va ((va / 128 + i) * 128)
    let hi := min (va + n) ((va / 128 + i + 1) * 128)
    (lo - va, lo, hi - lo)

/-- Lines that n bytes reach stand at their home slices: what a ridge cache held dirty of them has been written back. -/
def Device.cleaned (d : Device) (a n : Nat) : Device :=
  let hit := fun (x : Nat × Nat × List Byte) => a / 128 ≤ x.1 && x.1 * 128 < a + n
  if d.ridges.any fun r => r.2.dirty.any hit then
    { d with ridges := d.ridges.map fun (r : Nat × Ridge) => (r.1, { r.2 with dirty := r.2.dirty.filter fun x => !hit x }) }
  else d
/-- A key-0 access of the device itself by physical address does not reach bytes of a line: its home slice lies on a ridge that is not
TRUSTED (R187), or the line carries another key and is not written whole (R188, R189). -/
def Device.shut (d : Device) (a n : Nat) (whole : Bool) : Bool :=
  (match homeRidge a false 0 with | some r => !d.trusted r | none => false) || d.alias a n 0 whole
/-- A key-0 write of the device itself by physical address (R189), line by line; a line it does not reach stays as it is. -/
def Device.wrKey0 (d : Device) (a : Nat) (bs : List Byte) : Device :=
  (lineParts a bs.length).foldl (fun d x =>
    if d.shut x.2.1 x.2.2 (x.2.2 == 128) then d
    else (((d.cleaned x.2.1 x.2.2).wrBytes x.2.1 ((bs.drop x.1).take x.2.2)).setKeys x.2.1 x.2.2 0)) d

/-! ### Translation (R181 to R185) -/

def leafV (x : W64) : Bool := bit x.toNat 0
def leafW (x : W64) : Bool := bit x.toNat 1
def leafX (x : W64) : Bool := bit x.toNat 2
def leafD (x : W64) : Bool := bit x.toNat 3
def leafPin (x : W64) : Bool := bit x.toNat 4
def leafOrd (x : W64) : Nat := fld x 6 5
def leafApl (x : W64) : Nat := fld x 8 7
def leafKey (x : W64) : Nat := fld x 14 9
def leafLocal (x : W64) : Bool := bit x.toNat 15
def leafHome (x : W64) : Nat := fld x 55 52
def pageBits (size : Nat) : Nat := if size = 0 then 16 else if size = 1 then 21 else 30
/-- The physical address of va under a leaf of a size. -/
def leafPa (x : W64) (size va : Nat) : Nat :=
  let b := pageBits size
  fld x 51 16 * 65536 / 2 ^ b * 2 ^ b + va % 2 ^ b

/-- An entry that ends the standard walk, points on, or is a leaf (R183). -/
def walkLevels : List (Nat × Nat × Nat) := [(48, 512, 4096), (39, 512, 4096), (30, 512, 4096), (21, 512, 4096), (16, 32, 256)]

/-- The standard walk from a table: the leaf, its size and the physical address of its entry (R183). An entry that cannot be
read under key 0 ends the walk with no leaf (log 12). -/
def walkFrom (d : Device) (m : Memory) (va : Nat) : List (Nat × Nat × Nat) → Nat → Nat → Option (W64 × Nat × Nat)
  | [], _, _ => none
  | (sh, cnt, _) :: rest, level, table =>
    let a := table + 8 * (va / 2 ^ sh % cnt)
    if d.shut a 8 false || d.isBad a 8 then none
    else
      let e := d.rdNat m a 8
      let w := BitVec.ofNat 64 e
      if !leafV w then none
      else if bit e 56 then
        if bits e 11 1 = 0 && bits e 55 52 = 0 && rest ≠ [] && bits e 51 12 * 4096 % (match rest with | (_, _, al) :: _ => al | [] => 1) = 0
        then walkFrom d m va rest (level + 1) (bits e 51 12 * 4096)
        else none
      else if level = 3 then (if bits e 29 16 = 0 then some (w, 2, a) else none)
      else if level = 4 then (if bits e 20 16 = 0 then some (w, 1, a) else none)
      else if level = 5 then some (w, 0, a)
      else none

/-- A physical address that a page table's OR reaches: the dirty bitmap in force (R336). -/
def Device.dirtyOr (d : Device) (m : Memory) (p : Nat) (pa : Nat) : Device :=
  let q := d.part p
  let base := fld q.reg 511 448 + q.bitmap * 0x600000
  let f := pa / 65536
  if f < 0x3000000 then
    let a := base + f / 8
    d.wrKey0 a [d.rd m a ||| BitVec.ofNat 8 (2 ^ (f % 8))]
  else d

/-- The outcome of a translation. -/
inductive Tr where
  | ok (pa : Nat) (leaf : W64) (size : Nat)
  | miss
  | fault (c : Code)
  deriving DecidableEq, Repr

def tlbHit (e : TlbEntry) (p va : Nat) : Bool := e.part == p && e.vbase / 2 ^ pageBits e.size == va / 2 ^ pageBits e.size

/-- A byte of a ridge's routine store: as software has written it, else as shipped (R182, R183). -/
def Ridge.storeByte (r : Ridge) (i : Nat) : Byte := (aget r.store i).getD (Config.shippedWalker i)
/-- Software has changed no byte of the shipped routine. -/
def Ridge.asShipped (r : Ridge) : Bool := r.store.all fun x => Config.shippedLength ≤ x.1 || x.2 == Config.shippedWalker x.1
/-- How a walk routine ends. -/
inductive WalkEnd where
  | back (r : Rv)       -- `ebreak`
  | lost                -- an instruction it has not, or an access that is not made: no leaf (log 12)
  | stopped             -- more than 65,536 instructions (R181)
  deriving DecidableEq, Repr
/-- A walker runs instructions of its store, at most n; loads and stores reach physical memory under key 0 (R182), at their 32-bit address
with zeros above (log 110). -/
def Device.runWalker (m : Memory) (ridge : Nat) : Nat → Device → Rv → Device × WalkEnd
  | 0, d, _ => (d, .stopped)
  | n + 1, d, r =>
    match rvFetch (leNat ((List.range 4).map fun i => (d.ridge ridge).storeByte ((r.pc.toNat + i) % 65536))) with
    | none => (d, .lost)
    | some (o, k) =>
      match r.exec o k with
      | .next r => Device.runWalker m ridge n d r
      | .ret r => (d, .back r)
      | .load r a w ext rd =>
        if d.shut a.toNat w false || d.isBad a.toNat w then (d, .lost)
        else
          let v := leNat ((List.range w).map fun i => d.rdSeen m (a.toNat + i))
          Device.runWalker m ridge n d (r.set rd (if ext then rvSext (8 * w) v else BitVec.ofNat 32 v))
      | .store r a w v =>
        if d.shut a.toNat w false || d.isBad a.toNat w then (d, .lost)
        else Device.runWalker m ridge n (d.wrKey0 a.toNat (leBytes w v.toNat)) r
/-- The registers at a routine's entry (R182): a0 to a3, the last with the low 32 bits of ROOT (log 109); the others hold free values
(log 73). -/
def Device.walkEntry (d : Device) (p va kind : Nat) : Rv :=
  let q := d.part p
  let free := (List.range 32).map fun i => (Config.freeWord (d.draws * 32 + i + 2 ^ 112)).truncate 32
  let r : Rv := { regs := free, pc := BitVec.ofNat 32 (fld q.reg 63 0) }
  (((r.set 10 (BitVec.ofNat 32 va)).set 11 (BitVec.ofNat 32 (va / 2 ^ 32 % 2 ^ 25))).set 12 (BitVec.ofNat 32 (p % 16 + 16 * kind))).set 13
    (BitVec.ofNat 32 (fld q.reg 191 128))
/-- What a routine returned: the leaf in a0 and a1, the size in a2 (R182). -/
def WalkEnd.leaf : WalkEnd → Option (W64 × Nat)
  | .back r => if (r.get 12).toNat < 3 then some (r.get 11 ++ r.get 10, (r.get 12).toNat) else none
  | _ => none

/-- The walk of a partition on a ridge's walker, filling the TLB (R181 to R183). The shipped routine is walked as R183 states
while the entry is offset 0 and its bytes stand as shipped; any other routine is executed (R182; log 12). -/
def Device.walk (d : Device) (m : Memory) (ridge p va kind : Nat) : Device × Option (W64 × Nat) :=
  let q := d.part p
  let fill (d : Device) (w : W64) (size : Nat) : Device :=
    d.modRidge ridge fun r => { r with tlb := ⟨p, va / 2 ^ pageBits size * 2 ^ pageBits size, size, w⟩ :: r.tlb.filter (fun e => !(tlbHit e p va && e.size == size)) }
  if fld q.reg 63 0 = 0 && (d.ridge ridge).asShipped then
    match walkFrom d m va walkLevels 1 (fld q.reg 191 128) with
    | none => (d, none)
    | some (w, size, at_) =>
      if (kind == 1 || kind == 2) && leafW w && !leafD w then
        let w' := w ||| 8
        let d := d.wrKey0 at_ (leBytes 8 w'.toNat)
        let d := d.dirtyOr m p (leafPa w size va)
        (fill d w' size, some (w', size))
      else (fill d w size, some (w, size))
  else
    let r := Device.runWalker m ridge 65536 { d with draws := d.draws + 1 } (d.walkEntry p va kind)
    match r.2.leaf with
    | some (w, size) => if leafV w then (fill r.1 w size, some (w, size)) else (r.1, none)
    | none => (r.1, none)

/-- The leaf's conditions of R185. -/
def leafFault (q : Part) (w : W64) (size va kind : Nat) : Bool :=
  let pa := leafPa w size va
  let frame := fld w 51 16 * 65536
  leafOrd w == 3 || leafApl w == 3 || ((kind == 1 || kind == 2) && !leafW w) || (kind == 3 && !leafX w) ||
  (match regionOf pa with
   | .interleaved => leafLocal w || leafHome w != 0
   | .homed n => !leafLocal w || leafHome w != n
   | .lpddr => if leafLocal w then leafHome w > 7 else leafHome w != 0
   | .system => leafLocal w || leafHome w != 0
   | .nothing => true) ||
  frame % 2 ^ pageBits size != 0 ||
  regionOf (frame / 2 ^ pageBits size * 2 ^ pageBits size) != regionOf (frame / 2 ^ pageBits size * 2 ^ pageBits size + 2 ^ pageBits size - 1) ||
  (keyed pa && !bit (fld q.reg 319 256) (leafKey w))

/-- Translation of an address for an access kind of R182 (0 read, 1 write, 2 atomic, 3 fetch). A TLB entry with D = 0 serves no
write (R183, R336; log 12). -/
def Device.translate (d : Device) (m : Memory) (ridge p va kind : Nat) : Device × Tr :=
  if va ≥ 2 ^ 57 then (d, .fault .pagePermission)
  else
    let hits := (d.ridge ridge).tlb.filter fun e => tlbHit e p va
    let useIt (d : Device) (w : W64) (size : Nat) : Device × Tr :=
      if leafFault (d.part p) w size va kind then (d, .fault .pagePermission) else (d, .ok (leafPa w size va) w size)
    match leastBy (·.size) hits with
    | some e =>
      let d := d.modRidge ridge fun r => { r with tlb := r.tlb.filter fun x => !(tlbHit x p va && x.size > e.size) }
      if (kind == 1 || kind == 2) && leafW e.leaf && !leafD e.leaf then
        match d.walk m ridge p va kind with
        | (d, none) => (d, .miss)
        | (d, some (w, size)) => useIt d w size
      else useIt d e.leaf e.size
    | none =>
      match d.walk m ridge p va kind with
      | (d, none) => (d, .miss)
      | (d, some (w, size)) => if leafV w then useIt d w size else (d, .miss)

/-- The faults of an access at its translated place, in the order of R196 after `ATOMIC_PLACE`: the merge of a write of less than a
whole line reads the line (R192). -/
def Device.placeFault (d : Device) (pa n : Nat) (w : W64) (reads whole : Bool) : Option Code :=
  if (match homeRidge pa (leafLocal w) (leafHome w) with | some r => !d.trusted r | none => false) then some .dieQuarantined
  else if d.alias pa n (leafKey w) whole then some .keyAlias
  else if (reads || !whole) && d.isBad pa n then some .memoryUncorrectable
  else none

/-! ### Accesses of the device itself by virtual address (R189) -/

/-- Reads n bytes under a partition's translation, by lines. -/
def Device.vread (d : Device) (m : Memory) (ridge p va n : Nat) : Device × Except (Option Code) (List Byte) :=
  (List.range n).foldl (fun (acc : Device × Except (Option Code) (List Byte)) i =>
    match acc.2 with
    | .error e => (acc.1, .error e)
    | .ok bs =>
      match acc.1.translate m ridge p (va + i) 0 with
      | (d, .miss) => (d, .error none)
      | (d, .fault c) => (d, .error (some c))
      | (d, .ok pa w _) =>
        match d.placeFault pa 1 w true false with
        | some c => (d, .error (some c))
        | none => (d, .ok (bs ++ [d.rdSeen m pa]))) (d, .ok [])

/-- Writes bytes under a partition's translation; nothing is written unless every byte can be. -/
def Device.vwrite (d : Device) (m : Memory) (ridge p va : Nat) (bs : List Byte) : Device × Except (Option Code) Unit :=
  let r := (List.range bs.length).foldl (fun (acc : Device × Except (Option Code) (List (Nat × Nat))) i =>
    match acc.2 with
    | .error e => (acc.1, .error e)
    | .ok ps =>
      match acc.1.translate m ridge p (va + i) 1 with
      | (d, .miss) => (d, .error none)
      | (d, .fault c) => (d, .error (some c))
      | (d, .ok pa w _) =>
        let whole := (va + i) / 128 * 128 ≥ va && (va + i) / 128 * 128 + 128 ≤ va + bs.length
        match d.placeFault pa 1 w false whole with
        | some c => (d, .error (some c))
        | none => (d, .ok (ps ++ [(pa, leafKey w)]))) (d, .ok [])
  match r with
  | (d, .error e) => (d, .error e)
  | (d, .ok ps) =>
    ((ps.zip bs).foldl (fun d (x : (Nat × Nat) × Byte) =>
        let whole := x.1.1 % 128 = 0 && (ps.any fun q => q.1 == x.1.1 + 127)
        let d := if whole then d.setKeys x.1.1 128 x.1.2 else d.setKeys x.1.1 1 x.1.2
        (d.cleaned x.1.1 1).wr x.1.1 x.2) d, .ok ())

/-! ### Records (R308, R319) -/

/-- A 64-byte record written to the partition's ring; one that would overwrite an unread slot is counted as lost (R319). -/
def Device.record (d : Device) (p : Nat) (bs : List Byte) : Device :=
  let q := d.part p
  let cnt := fld q.reg 639 608
  if cnt = 0 then d
  else if (q.frWr - q.frRd).toNat ≥ cnt then
    d.modPart p fun q => { q with frLost := if q.frLost.toNat = 2 ^ 64 - 1 then q.frLost else q.frLost + 1 }
  else
    let d := d.wrKey0 (fld q.reg 703 640 + 64 * (q.frWr.toNat % cnt)) bs
    d.modPart p fun q => { q with frWr := q.frWr + 1 }

/-- The common record layout of R319. -/
structure Rec where
  addr    : Nat := 0
  resume  : Nat := 0
  team    : Nat := 0
  pc      : Nat := 0
  grid    : Nat := 0
  detail  : Nat := 0
  cls     : Nat := 0
  nested  : Bool := false
  thread  : Nat := 0
  kind    : Nat
  core    : Nat := 0
  pack    : Nat := 0
  code    : Nat

def Rec.bytes (r : Rec) (time : Nat) : List Byte :=
  leBytes 64 (r.code + r.pack * 2 ^ 18 + r.core * 2 ^ 23 + r.kind * 2 ^ 32 + r.thread * 2 ^ 40 + r.nested.toNat * 2 ^ 45 +
    r.cls * 2 ^ 46 + r.detail % 65536 * 2 ^ 48 + r.grid % 2 ^ 64 * 2 ^ 64 + r.pc % 2 ^ 64 * 2 ^ 128 + time * 2 ^ 192 +
    r.team * 2 ^ 360 + r.resume % 2 ^ 64 * 2 ^ 384 + r.addr % 2 ^ 64 * 2 ^ 448)

def Device.emit (d : Device) (p : Nat) (r : Rec) : Device := d.record p (r.bytes d.time)

/-- A park record, once for each page, partition and ridge (R317). -/
def Device.parkRecord (d : Device) (p ridge va kind : Nat) (r : Rec) : Device :=
  let page := va / 65536 * 65536
  if (d.part p).parks.any (fun x => x.ridge == ridge && x.page == page) then d
  else
    let d := d.emit p { r with addr := page, detail := kind, cls := 3, kind := 0x06, code := 0x0A }
    d.modPart p fun q => { q with parks := ⟨ridge, page⟩ :: q.parks }

end Sys2Proof.Machine
end

