-- ==== Sys2Proof/Machine/Names.lean ====
section
/-! DEFINITION. Counted names of one pack: reads, counts, the row decision, freeing and spill entries (R56 to R80). -/

namespace Sys2Proof.Machine

open Sys2Proof

def Row.countOf (r : Row) (t : Nat) : Nat := nth r.count t 0
/-- Bind(r.name, t) is r. -/
def Row.binds (r : Row) (t : Nat) : Bool := r.bound.getLsbD t
def Row.live (r : Row) : Bool := r.count.any (· != 0)
/-- Rows of the pair or the single row. -/
def Row.size (r : Row) : Nat := if r.wide then 2 else 1
def Row.evicted (r : Row) : Bool := r.evLo.isSome || r.evHi.isSome
/-- Resident rows (R69). -/
def Row.resident (r : Row) : Nat :=
  (if r.evLo.isSome then 0 else 1) + (if r.wide && r.evHi.isNone then 1 else 0)

/-- The row in which t's value of N stands (R57). -/
def Pack.bind (p : Pack) (n t : Nat) : Option Row := p.rows.find? fun r => r.name == n && r.binds t
/-- Current(N) (R57). -/
def Pack.current (p : Pack) (n : Nat) : Option Row := p.rows.find? fun r => r.name == n && r.cur
/-- Thread t's count of N; zero when it has no binding (R57). -/
def Pack.count (p : Pack) (n t : Nat) : Nat :=
  match p.bind n t with
  | some r => r.countOf t
  | none => 0

def Pack.modRow (p : Pack) (id : Nat) (f : Row → Row) : Pack :=
  { p with rows := p.rows.map fun r => if r.id = id then f r else r }
def Pack.row (p : Pack) (id : Nat) : Option Row := p.rows.find? (·.id == id)

/-- Thread t's value of N, read at 64 bits or at 32 with a component (R58, R63). -/
def Pack.value (p : Pack) (n t : Nat) (wide : Bool) (comp : Comp) : Nat :=
  match p.bind n t with
  | none => 0
  | some r =>
    let lo := (nth r.lo t 0).toNat
    let hi := if r.wide then (nth r.hi t 0).toNat else 0
    if wide then hi * 2 ^ 32 + lo else if comp = .hi then hi else lo

/-- Spends k reads of N for t; a persistent count is not decreased (R59, R62). `till` is the end of the bundle (R66). -/
def Pack.spend (p : Pack) (n t k till : Nat) : Pack :=
  match p.bind n t with
  | none => p
  | some r =>
    p.modRow r.id fun r => { r with
      count := lmod r.count t (fun c => if c = 15 then 15 else c - k), spent := max r.spent till }

/-- Spends t's reads of some rows, one for each mention (R62); an evicted row spends them when it is back (R72). `till` is the cycle
from which they are made (R66). -/
def Pack.spendRows (p : Pack) (t till : Nat) (ids : List Nat) : Pack :=
  ids.foldl (fun (p : Pack) i => p.modRow i fun r =>
    if r.evicted then { r with owed := r.owed ++ [t] }
    else { r with count := lmod r.count t (fun c => if c = 15 then 15 else c - 1), spent := max r.spent till }) p

/-- Sets t's count of N. -/
def Pack.setCount (p : Pack) (n t c till : Nat) : Pack :=
  match p.bind n t with
  | none => p
  | some r => p.modRow r.id fun r => { r with count := lmod r.count t (fun _ => c), spent := max r.spent till }

/-- A read of a name is pending for t (R45). -/
def Pack.pendingName (p : Pack) (n t : Nat) : Bool :=
  match p.bind n t with
  | none => false
  | some r => p.flights.any fun f => f.dst == .row r.id && f.mask.getLsbD t

/-- Some thread of the pack has issued an instruction that writes N and has not completed (R167). -/
def Pack.writing (p : Pack) (n : Nat) : Bool := p.flights.any fun f => f.name == some n && f.mask != 0

/-- Some value of the row is pending. -/
def Pack.rowPending (p : Pack) (id : Nat) : Bool := p.flights.any fun f => f.dst == .row id && f.mask != 0

/-- The row total of R67 at a cycle, with counts as the pack's executing bundles leave them (R15; log 38). -/
def Pack.rowTotal (p : Pack) (now : Nat) : Nat :=
  p.rows.foldl (fun a r => if r.live || r.held > 0 || r.busy > now then a + r.size else a) 0

/-- The row total when a bundle decides its rows: rows that held a count before its reads, in q, still count (R67). -/
def Pack.rowTotalFor (p q : Pack) (now : Nat) : Nat :=
  p.rows.foldl (fun a r => if r.live || r.held > 0 || r.busy > now || (match q.row r.id with | some y => y.live | none => false) then a + r.size else a) 0

/-- A row is free when every count is zero, no engine holds it and no executing bundle has it as its row Y or still reads it (R66). An
evicted row is freed once it is back (R72). -/
def Row.free (now : Nat) (r : Row) : Bool := !r.live && r.held == 0 && r.busy ≤ now && r.spent ≤ now && !r.evicted

/-- Frees the rows that are due (R66). -/
def Pack.sweep (p : Pack) (now : Nat) : Pack := { p with rows := p.rows.filter fun r => !r.free now }

/-- The pack's resident rows (R69). -/
def Pack.resident (p : Pack) : Nat := p.rows.foldl (fun a r => a + r.resident) 0
/-- The team's rows in use (R69). -/
def Team.resident (t : Team) : Nat := t.packs.foldl (fun a p => a + p.resident) 0
/-- The same with rows given and not yet taken (R70). -/
def Team.inUse (t : Team) : Nat := t.packs.foldl (fun a p => a + p.resident + p.granted) 0

/-- Why a row decision does not succeed. -/
inductive NoRow where
  | limit
  | blocked (need : Nat)
  deriving DecidableEq, Repr

/-- The current row may be filled (R60). -/
def Row.fillable (r : Row) (wide : Bool) (w : Mask) : Bool :=
  r.wide == wide && r.held == 0 && !r.evicted && (threadsOf w).all fun t => r.countOf t == 0

/-- A fresh row of the pack for a name. -/
def Pack.addRow (p : Pack) (n : Nat) (wide : Bool) (till : Nat) : Pack × Nat :=
  let r : Row := { id := p.nextId, name := n, wide := wide, lo := List.replicate 32 0, hi := List.replicate 32 0,
                   count := List.replicate 32 0, bound := 0, cur := true, held := 0, busy := till, spent := 0, evLo := none, evHi := none, bad := 0, owed := [] }
  ({ p with nextId := p.nextId + 1, rows := (p.rows.map fun x => if x.name = n then { x with cur := false } else x) ++ [r] }, p.nextId)

/-- The row decision for the destinations of a bundle, in ascending order (R60, R67): the pack with rows taken, their numbers and
how many rows of the quota they need. -/
def Pack.decide (p q : Pack) (now till maxlive : Nat) (w : Mask) : List (Nat × Bool) → Option (Pack × List Nat × Nat)
  | [] => some (p, [], 0)
  | (n, wide) :: ds =>
    let fresh : Option (Pack × Nat × Nat) :=
      let sz := if wide then 2 else 1
      if p.rowTotalFor q now + sz > maxlive then none
      else let (p', i) := p.addRow n wide till; some (p', i, sz)
    let one : Option (Pack × Nat × Nat) :=
      match p.current n with
      | some r => if r.fillable wide w then some (p.modRow r.id (fun r => { r with busy := max r.busy till }), r.id, 0) else fresh
      | none => fresh
    match one with
    | none => none
    | some (p, i, k) =>
      match p.decide q now till maxlive w ds with
      | none => none
      | some (p, is, k') => some (p, i :: is, k + k')

/-- Writes t's value and count into row id and binds the name (R60). -/
def Pack.writeRow (p : Pack) (id t cnt : Nat) (v : Nat) : Pack :=
  match p.row id with
  | none => p
  | some y =>
    { p with rows := p.rows.map fun r =>
        if r.id = id then
          { r with lo := lmod r.lo t (fun _ => BitVec.ofNat 32 v), hi := lmod r.hi t (fun _ => BitVec.ofNat 32 (v / 2 ^ 32)),
                   count := lmod r.count t (fun _ => cnt), bound := r.bound ||| oneBit t, bad := r.bad &&& ~~~(oneBit t) }
        else if r.name = y.name then { r with bound := r.bound &&& ~~~(oneBit t) } else r }

/-- Puts an arriving value into row id for t; counts and bindings stay (R61, R63), and the slot is good again (R192). -/
def Pack.arriveRow (p : Pack) (id t : Nat) (v : Nat) : Pack :=
  p.modRow id fun r => { r with lo := lmod r.lo t (fun _ => BitVec.ofNat 32 v), hi := lmod r.hi t (fun _ => BitVec.ofNat 32 (v / 2 ^ 32)), bad := r.bad &&& ~~~(oneBit t) }

/-- Every count of thread t becomes zero; `till` is the cycle from which a row where it was not has lost it (R66). -/
def Pack.zeroCounts (p : Pack) (t till : Nat) : Pack :=
  { p with rows := p.rows.map fun r =>
      { r with count := lmod r.count t (fun _ => 0), spent := if r.countOf t = 0 then r.spent else max r.spent till } }

/-- Adds to or takes from the engine hold of a row (R78). -/
def Pack.holdRow (p : Pack) (id : Nat) (k : Nat) : Pack := p.modRow id fun r => { r with held := r.held + k }
def Pack.unholdRow (p : Pack) (id : Nat) (till : Nat) : Pack := p.modRow id fun r => { r with held := r.held - 1, spent := max r.spent till }

/-! ### Scalars, predicates and the pending values of long-latency instructions -/

def Pack.scalar (p : Pack) (i : Nat) : W64 := nth p.scal i 0
def Pack.setScalar (p : Pack) (i : Nat) (wide : Bool) (v : Nat) : Pack :=
  { p with scal := lmod p.scal i fun _ => BitVec.ofNat 64 (if wide then v else v % 2 ^ 32) }
def Thread.pred (t : Thread) (i : Nat) : Bool := i == 0 || t.preds.getLsbD i
/-- A write to p0 is ignored (R56). -/
def Thread.setPred (t : Thread) (i : Nat) (v : Bool) : Thread :=
  if i = 0 then t
  else { t with preds := if v then t.preds ||| BitVec.ofNat 8 (2 ^ i) else t.preds &&& ~~~(BitVec.ofNat 8 (2 ^ i)) }

def Pack.thread (p : Pack) (t : Nat) : Option Thread := p.threads[t]?
def Pack.pred (p : Pack) (t i : Nat) : Bool :=
  match p.thread t with
  | some x => x.pred i
  | none => i == 0

/-- Puts the value of a completed destination (R61). -/
def Pack.putFlight (p : Pack) (dst : FlightDst) (t : Nat) (v : Nat) : Pack :=
  match dst with
  | .none => p
  | .row id => p.arriveRow id t v
  | .scal i wide => p.setScalar i wide v
  | .pred i => p.modThread t fun x => x.setPred i (v != 0)

/-- Thread t's part of a long-latency instruction is over: it has its value, or none where it faults (R45). -/
def Pack.completeFlight (p : Pack) (id t : Nat) (v : Option Nat) : Pack :=
  match p.flights.find? (fun (g : Flight) => g.id == id && g.mask.getLsbD t) with
  | none => p
  | some f =>
    let p := match v with
      | some v => p.putFlight f.dst t v
      | none => p
    let p := { p with flights := (p.flights.map fun (g : Flight) => if g.id = id then { g with mask := g.mask &&& ~~~(oneBit t) } else g).filter (·.mask != 0) }
    p.modThread t fun x => { x with holds := x.holds.filter (·.1 != id) }

/-- Every thread for which an instruction is pending has its value. -/
def Pack.settled (p : Pack) (group : Nat) : Bool :=
  p.flights.all fun (f : Flight) => f.group != group || (threadsOf f.mask).all fun t => f.vals.any fun v => v.1 == t
/-- A long-latency instruction completes, for all its threads and destinations at once, when each has its value: the reading of R45 that
R15 asks for (log 96). -/
def Pack.finish (p : Pack) (group : Nat) : Pack :=
  if p.settled group then
    (p.flights.filter fun (f : Flight) => f.group == group).foldl (fun p (f : Flight) =>
      f.vals.foldl (fun p v => p.completeFlight f.id v.1 (some v.2.toNat)) p) p
  else p

/-! ### Spill entries (R77) -/

/-- The 256 bytes of one row: the low row, or the high row of a pair. -/
def Row.entry (r : Row) (high : Bool) (rank : Nat) : List Byte :=
  let vals := if high then r.hi else r.lo
  let v := (List.range 32).foldl (fun a t => a + (nth vals t 0).toNat * 2 ^ (32 * t)) 0
  let c := (List.range 32).foldl (fun a t => a + r.countOf t * 2 ^ (4 * t)) 0
  leBytes 256 (v + c * 2 ^ 1024 + r.name * 2 ^ 1152 + r.wide.toNat * 2 ^ 1160 + high.toNat * 2 ^ 1161 + r.cur.toNat * 2 ^ 1162 +
    rank % 256 * 2 ^ 1168 + r.bound.toNat * 2 ^ 1184)

/-- The rows of a pack as entries in ascending RANK: those with a count (R80). RANK numbers the rows that the image holds from 0, where an
eviction's numbers all rows of the pack: the model's choice (log 79). -/
def Pack.entries (p : Pack) : List (List Byte) :=
  ((p.rows.filter (·.live)).foldl (fun (acc : Nat × List (List Byte)) r =>
    if r.wide then (acc.1 + 2, acc.2 ++ [r.entry false acc.1, r.entry true (acc.1 + 1)])
    else (acc.1 + 1, acc.2 ++ [r.entry false acc.1])) (0, [])).2

/-- The fields of an entry (R77). -/
structure EntryF where
  vals  : List W32
  count : List Nat
  name  : Nat
  rank  : Nat
  wide  : Bool
  high  : Bool
  cur   : Bool
  bound : Mask
  reserved : Bool
  deriving DecidableEq, Repr

def EntryF.ofBytes (bs : List Byte) : EntryF :=
  let x := leNat bs
  { vals := (List.range 32).map fun t => BitVec.ofNat 32 (bits x (32 * t + 31) (32 * t)),
    count := (List.range 32).map fun t => bits x (1024 + 4 * t + 3) (1024 + 4 * t),
    name := bits x 1159 1152, rank := bits x 1175 1168, wide := bit x 1160, high := bit x 1161, cur := bit x 1162, bound := BitVec.ofNat 32 (bits x 1215 1184),
    reserved := bits x 1167 1163 != 0 || bits x 1183 1176 != 0 || bits x 2047 1216 != 0 }

/-- Takes a saved row as the newest row of the pack: value, counts, bindings and current-row mark (R80, R297). -/
def Pack.takeRow (p : Pack) (lo : EntryF) (hi : Option EntryF) : Pack :=
  let r : Row := { id := p.nextId, name := lo.name, wide := hi.isSome, lo := lo.vals,
                   hi := (match hi with | some h => h.vals | none => List.replicate 32 0), count := lo.count, bound := lo.bound,
                   cur := lo.cur, held := 0, busy := 0, spent := 0, evLo := none, evHi := none, bad := 0, owed := [] }
  { p with nextId := p.nextId + 1,
           rows := (p.rows.map fun x => if x.name = r.name then
                      { x with bound := x.bound &&& ~~~r.bound, cur := x.cur && !r.cur } else x) ++ [r] }

end Sys2Proof.Machine
end

