-- ==== Sys2Proof/Machine/Operands.lean ====
section
/-! DEFINITION. The executing bundle and what each thread reads of an operand field (R43, R103 to R111, R146, R147, R157, R160,
R195, R286). -/

namespace Sys2Proof

open Machine

/-- The names of a span (R107). -/
def spanNames (first : BitVec 8) (len : BitVec 5) (ext : BitVec 8) : List Nat :=
  (List.range (spanCount len ext)).map (first.toNat + ·)

/-- The names a field reads, one for each read it spends (R62). -/
def Src.reads (ext : BitVec 8) : Src → List Nat
  | .name n => [n.idx.toNat]
  | .span x => spanNames x.first x.len ext
  | _ => []
def Src2.reads : Src2 → List Nat
  | .reg a b => Src.reads 0 a ++ Src.reads 0 b
  | .wide (.name i) _ => [i.toNat]
  | .wide (.scal _) _ => []
  | .wide (.sys _) _ => []
  | .wide (.pred _) _ => []

/-- The registers that differ from thread to thread (R43). -/
def sysVaries (i : Nat) : Bool := i == 0 || i == 16 || i == 17

/-- The operand is the same for every thread (R43). -/
def Src.flat : Src → Bool
  | .name _ => false
  | .span _ => false
  | .pred _ _ => false
  | .sys i => !sysVaries i.toNat
  | _ => true
def Src2.flat : Src2 → Bool
  | .reg a b => Src.flat a && Src.flat b
  | .wide (.name _) _ => false
  | .wide (.scal _) _ => true
  | .wide (.sys i) _ => !sysVaries i.toNat
  | .wide (.pred _) _ => false

/-- Scalars a field reads: a pending one holds the thread as a pending name does (log 20). -/
def Src.scals : Src → List Nat
  | .scal x => [x.idx.toNat]
  | _ => []
def Src2.scals : Src2 → List Nat
  | .reg a b => Src.scals a ++ Src.scals b
  | .wide (.scal i) _ => [i.toNat]
  | _ => []
def Src.preds : Src → List Nat
  | .pred i _ => [i.toNat]
  | _ => []

/-- HALF of a 32-bit value (R104). -/
def Half.of (h : Half) (x : Nat) : Nat :=
  match h with
  | .whole => x
  | .lo => x % 65536
  | .hi => x / 65536 % 65536

/-- A 32-bit immediate read as an integer of w bits (R111). -/
def Wide.int (w : Nat) (x : Wide) : Nat :=
  if w ≤ 32 then x.imm.toNat % 2 ^ w
  else
    match x.kind with
    | .literal => wrap w x.imm.toInt
    | .i32 => wrap w x.imm.toInt
    | _ => x.imm.toNat

/-- A 32-bit immediate read as a value of format f (R111). -/
def Wide.fp (f : Fmt) (x : Wide) : Ex :=
  match x.kind with
  | .u32 => roundTo (.ofInt x.imm.toNat) f .rne .ieee
  | .count => roundTo (.ofInt x.imm.toNat) f .rne .ieee
  | _ => roundTo (fp32.decode x.imm.toNat) f .rne .ieee

/-- The names that a hint's raw field names, cut at v255 (R116). -/
def rawNames (x : BitVec 20) (ext : BitVec 8) : List Nat :=
  let first := bits x.toNat 16 9
  if bits x.toNat 19 17 = 0 then [first]
  else if bits x.toNat 19 17 = 5 then
    ((List.range (spanCount (BitVec.ofNat 5 x.toNat) ext)).map (first + ·)).filter (· < 256)
  else []

def SclForm.reads : SclForm → List Nat
  | .exp _ x n => Src.reads 0 x ++ Src.reads 0 n
  | .e8m0 x _ => Src.reads 0 x
  | .rebase c n _ => Src.reads 0 c ++ Src.reads 0 n
def TopkForm.reads : TopkForm → List Nat
  | .fresh c x _ => Src.reads 0 c ++ Src.reads 0 x
  | .ins ol c ixn x => spanNames ol.first ol.len 0 ++ Src.reads 0 c ++ (if ixn then [x.toNat] else [])
def MldwForm.reads : MldwForm → List Nat
  | .record _ idx _ _ => Src.reads 0 idx
  | .span x _ ext => spanNames x.first x.len ext

/-- The value names an instruction reads, one entry for each read it spends from a thread (R62). The row name of `mma` and
`mmar` depends on the slot's record and is not among them (R242). -/
def Instr.reads : Instr → List Nat
  | .brx _ a | .ret _ a | .spawn _ _ _ a | .cwait _ a | .sleep _ a => a.reads 0
  | .mov _ _ (.reg a) ext => a.reads ext
  | .iadd _ o | .isub _ o | .imul _ o | .imulh _ _ o | .imin _ _ o | .imax _ _ o | .and _ o | .or _ o | .xor _ o | .shl _ o
  | .shr _ o | .sar _ o | .bfx _ _ o | .sel _ _ o | .iadds _ _ o | .lea _ _ _ o => o.s.reads
  | .imad _ o | .imadw _ _ o | .bfi _ o | .ffma _ _ o | .dfma _ _ o | .hfma2 _ _ _ o => o.a.reads 0 ++ o.b.reads 0 ++ [o.c.toNat]
  | .iabs _ _ a | .not _ _ a | .popc _ _ a | .clz _ _ a | .sbcast _ _ a => a.reads 0
  | .icmp _ o | .scmp _ o => o.s.reads
  | .sadd _ o | .ssub _ o | .smul _ o | .sand _ _ o => o.s.reads
  | .smov _ _ (.reg a) => a.reads 0
  | .fadd _ _ o | .fsub _ _ o | .fmul _ _ o | .fdiv _ _ o | .fmin _ _ o | .fmax _ _ o | .dadd _ _ o | .dmul _ _ o
  | .hadd2 _ _ _ o | .hmul2 _ _ _ o | .hmax2 _ _ _ o => o.s.reads
  | .fcmp _ o | .dcmp _ o => o.s.reads
  | .frnd _ _ _ a | .frcp _ _ _ a | .frsq _ _ _ a | .fsqrt _ _ _ a | .fex2 _ _ _ a | .flg2 _ _ _ a | .fsin _ _ _ a
  | .fcos _ _ _ a | .cvt _ _ _ _ _ _ a | .unpk _ _ _ a | .fcls _ _ _ a => a.reads 0
  | .cvtn _ _ x _ sc | .cvtw _ _ x _ sc => x.reads 0 ++ (match sc with | some v => [v.toNat] | none => [])
  | .scl _ _ form => form.reads
  | .pk2 _ _ _ a b | .shfl _ _ _ a b => a.reads 0 ++ b.reads 0
  | .vote _ _ _ a | .ballot _ _ a | .redux _ _ _ a | .scan _ _ _ _ a => a.reads 0
  | .topk _ _ _ form => form.reads
  | .ld _ o | .lds _ o | .ldp _ o => o.idx.reads 0
  | .st _ o | .sts _ o | .stp _ o => o.idx.reads 0 ++ o.v.reads 0
  | .sld _ _ _ _ _ _ a | .ldc _ _ _ _ a | .bsub _ _ _ _ _ a => a.reads 0
  | .pref _ _ a ext => a.reads ext
  | .atom _ _ _ _ _ _ i v | .afadd _ _ _ _ _ _ i v | .red _ _ _ _ _ i v => i.reads 0 ++ v.reads 0
  | .acas _ _ _ _ _ i v => i.reads 0 ++ spanNames v.first v.len 0
  | .binit _ _ _ i v | .barv _ _ _ _ i v | .bexp _ _ _ i v | .bwait _ _ _ _ i v | .btry _ _ _ _ i v | .bar _ _ _ _ i v =>
      i.reads 0 ++ v.reads 0
  | .mldw _ _ form _ => form.reads
  | .mma _ o | .mmar _ o => spanNames o.sp.first o.sp.len 0
  | .mwr _ _ _ sp _ => spanNames sp.first sp.len 0
  | .mrd _ _ _ a _ | .mtag _ _ _ a _ | .mst _ _ _ a _ _ | .gset _ _ a | .cpyw _ a | .rret _ _ a | .sflush _ a
  | .csr _ _ (.ind a) | .csw _ _ a | .nsave _ _ _ a | .nload _ _ a _ | .cntr _ _ a | .probe _ _ a | .hnear _ _ _ a => a.reads 0
  | .unimplementedHint _ w => rawNames w.opa w.ext ++ rawNames w.opb w.ext
  | _ => []

/-- The scalars and predicates an instruction reads beside its guard (log 20). -/
def Instr.scals : Instr → List Nat
  | .brx _ a | .ret _ a | .spawn _ _ _ a | .cwait _ a | .sleep _ a | .mov _ _ (.reg a) _ | .smov _ _ (.reg a) => a.scals
  | .iadd _ o | .isub _ o | .imul _ o | .imulh _ _ o | .imin _ _ o | .imax _ _ o | .and _ o | .or _ o | .xor _ o | .shl _ o
  | .shr _ o | .sar _ o | .bfx _ _ o | .sel _ _ o | .iadds _ _ o | .lea _ _ _ o => o.s.scals
  | .imad _ o | .imadw _ _ o | .bfi _ o | .ffma _ _ o | .dfma _ _ o | .hfma2 _ _ _ o => o.a.scals ++ o.b.scals
  | .iabs _ _ a | .not _ _ a | .popc _ _ a | .clz _ _ a => a.scals
  | .icmp _ o | .scmp _ o => o.s.scals
  | .sadd _ o | .ssub _ o | .smul _ o | .sand _ _ o => o.s.scals
  | .fadd _ _ o | .fsub _ _ o | .fmul _ _ o | .fdiv _ _ o | .fmin _ _ o | .fmax _ _ o | .dadd _ _ o | .dmul _ _ o
  | .hadd2 _ _ _ o | .hmul2 _ _ _ o | .hmax2 _ _ _ o => o.s.scals
  | .fcmp _ o | .dcmp _ o => o.s.scals
  | .frnd _ _ _ a | .frcp _ _ _ a | .frsq _ _ _ a | .fsqrt _ _ _ a | .fex2 _ _ _ a | .flg2 _ _ _ a | .fsin _ _ _ a
  | .fcos _ _ _ a | .cvt _ _ _ _ _ _ a | .unpk _ _ _ a | .fcls _ _ _ a | .cvtn _ _ a _ _ | .cvtw _ _ a _ _ => a.scals
  | .scl _ _ (.exp _ x n) | .scl _ _ (.rebase x n _) => x.scals ++ n.scals
  | .scl _ _ (.e8m0 x _) => x.scals
  | .pk2 _ _ _ a b | .shfl _ _ _ a b => a.scals ++ b.scals
  | .topk _ _ _ (.fresh c x _) => c.scals ++ x.scals
  | .topk _ _ _ (.ins _ c _ _) => c.scals
  | .ld _ o | .lds _ o | .ldp _ o => o.idx.scals
  | .st _ o | .sts _ o | .stp _ o => o.idx.scals ++ o.v.scals
  | .sld _ _ _ _ _ _ a | .ldc _ _ _ _ a | .pref _ _ a _ => a.scals
  | .bsub _ _ l _ _ a => a.scals ++ (match l with | .scal i => [i.toNat] | _ => [])
  | .atom _ _ _ _ _ _ i v | .afadd _ _ _ _ _ _ i v | .red _ _ _ _ _ i v => i.scals ++ v.scals
  | .acas _ _ _ _ _ i _ => i.scals
  | .binit _ _ _ i v | .barv _ _ _ _ i v | .bexp _ _ _ i v | .bwait _ _ _ _ i v | .btry _ _ _ _ i v | .bar _ _ _ _ i v =>
      i.scals ++ v.scals
  | .mldw _ _ (.record _ a ts tag) _ => a.scals ++ (if ts then [tag.toNat % 64] else [])
  | .mldw _ _ (.span _ tag _) _ => tag.scals
  | .mrd _ _ _ a _ | .mtag _ _ _ a _ | .mst _ _ _ a _ _ | .gset _ _ a | .cpyw _ a | .rret _ _ a | .sflush _ a
  | .csr _ _ (.ind a) | .csw _ _ a | .nsave _ _ _ a | .cntr _ _ a | .probe _ _ a => a.scals
  | .nload _ _ a sn => sn.toNat :: a.scals
  | .rsv _ _ _ _ _ sc => [sc.toNat]
  | .route _ tk _ _ | .rwait _ tk | .rstat _ _ _ tk | .rfree _ tk => [tk.toNat]
  | _ => []
def Instr.preds : Instr → List Nat
  | .mov _ _ (.reg a) _ | .smov _ _ (.reg a) | .vote _ _ _ a | .ballot _ _ a | .gset _ _ a => a.preds
  | .iadd _ o | .isub _ o | .imul _ o | .imulh _ _ o | .imin _ _ o | .imax _ _ o | .and _ o | .or _ o | .xor _ o | .shl _ o
  | .shr _ o | .sar _ o | .bfx _ _ o | .iadds _ _ o | .lea _ _ _ o => (match o.s with | .wide (.pred i) _ => [i.toNat] | _ => [])
  | .sel _ k _ => [k.toNat]
  | _ => []

/-- The header of an instruction; a move has none. -/
def Instr.hdr : Instr → Option Hdr
  | .nop h | .bra h _ _ | .brx h _ | .call h _ _ _ | .ret h _ | .split h _ _ | .join h | .brk h _ _ _ | .exit h | .yield h
  | .trap h _ | .trapDbg h _ | .spawn h _ _ _ | .cwait h _ | .cwaitAll h | .sleep h _ | .mov h _ _ _ | .drop h _ _ _
  | .keep h _ _ _ | .live h _ _ | .iadd h _ | .isub h _ | .imul h _ | .imulh h _ _ | .imad h _ | .imadw h _ _ | .imin h _ _
  | .imax h _ _ | .iabs h _ _ | .and h _ | .or h _ | .xor h _ | .not h _ _ | .shl h _ | .shr h _ | .sar h _ | .bfx h _ _
  | .bfi h _ | .popc h _ _ | .clz h _ _ | .icmp h _ | .sel h _ _ | .iadds h _ _ | .lea h _ _ _ | .sadd h _ | .ssub h _
  | .smul h _ | .smov h _ _ | .scmp h _ | .sbcast h _ _ | .sget h _ _ | .sand h _ _ | .fadd h _ _ | .fsub h _ _ | .fmul h _ _
  | .ffma h _ _ | .fmin h _ _ | .fmax h _ _ | .fcmp h _ | .frnd h _ _ _ | .frcp h _ _ _ | .frsq h _ _ _ | .fsqrt h _ _ _
  | .fex2 h _ _ _ | .flg2 h _ _ _ | .fsin h _ _ _ | .fcos h _ _ _ | .fdiv h _ _ | .dadd h _ _ | .dmul h _ _ | .dfma h _ _
  | .dcmp h _ | .hadd2 h _ _ _ | .hmul2 h _ _ _ | .hfma2 h _ _ _ | .hmax2 h _ _ _ | .cvt h _ _ _ _ _ _ | .cvtn h _ _ _ _
  | .cvtw h _ _ _ _ | .scl h _ _ | .pk2 h _ _ _ _ | .unpk h _ _ _ | .fcls h _ _ _ | .shfl h _ _ _ _ | .vote h _ _ _
  | .ballot h _ _ | .redux h _ _ _ | .scan h _ _ _ _ | .topk h _ _ _ | .ld h _ | .st h _ | .lds h _ | .sts h _ | .ldp h _
  | .stp h _ | .sld h _ _ _ _ _ _ | .ldc h _ _ _ _ | .pref h _ _ _ | .bsub h _ _ _ _ _ | .bget h _ _ _ | .fence h _ _
  | .atom h _ _ _ _ _ _ _ | .acas h _ _ _ _ _ _ | .afadd h _ _ _ _ _ _ _ | .red h _ _ _ _ _ _ | .binit h _ _ _ _
  | .barv h _ _ _ _ _ | .bexp h _ _ _ _ | .bwait h _ _ _ _ _ | .btry h _ _ _ _ _ | .bar h _ _ _ _ _ | .mldw h _ _ _
  | .mma h _ | .mmar h _ | .mfnc h _ _ | .mwait h _ | .mrd h _ _ _ _ | .mzero h _ _ | .mwr h _ _ _ _ | .mtag h _ _ _ _
  | .mstat h _ _ | .mst h _ _ _ _ _ | .gset h _ _ | .gclr h _ | .gtst h _ _ _ | .cpy h _ _ _ | .cpyg h _ _ _ _
  | .cpys h _ _ _ _ | .cpyc h _ | .cpyr h _ _ _ _ | .cseq h _ _ | .cpyw h _ | .rsv h _ _ _ _ _ | .route h _ _ _ | .rret h _ _
  | .rwait h _ | .rstat h _ _ _ | .stile h _ _ | .sflush h _ | .rfree h _ | .csr h _ _ | .csw h _ _ | .tret h _
  | .nsave h _ _ _ | .nload h _ _ _ | .tstamp h _ _ _ | .cntr h _ _ | .probe h _ _ | .icinv h _ | .mark h _ | .hnear h _ _ _
  | .hest h _ | .unimplementedHint h _ => some h
  | _ => none

/-- A cross-thread instruction: its source is pending while any thread of the pack has the name pending (R167). -/
def Instr.cross : Instr → Bool
  | .shfl .. | .vote .. | .ballot .. | .redux .. | .scan .. => true
  | _ => false

end Sys2Proof

namespace Sys2Proof.Machine

open Sys2Proof

/-- The bundle that executes, with the device, the team and the pack as they stood at its issue. `part` is Part (R148). -/
structure Bun where
  dev   : Device
  core  : Nat
  slot  : Nat
  index : Nat             -- pack index
  mask  : Mask
  pc    : W64
  uni   : Bool            -- uniform (R43)
  part  : Mask
  team  : Team
  pack  : Pack
  rows  : List Nat        -- the rows decided for the destinations
  fls   : List Nat        -- the numbers of the long-latency results, one a destination
  h     : Hdr

/-- The cycle in which thread t executes (R43). -/
def Bun.cycle (b : Bun) (t : Nat) : Nat := if b.uni then b.dev.now else b.dev.now + rankIn b.mask t

/-- The cycle after the bundle's last (R42, R43). -/
def Bun.till (b : Bun) : Nat := b.dev.now + (if b.uni then 1 else max 1 (popc b.mask))
def Bun.id (b : Bun) (t : Nat) : ThreadId := ⟨b.core, b.slot, b.index, t⟩
def Bun.ridge (b : Bun) : Nat := ridgeOf b.core
def Bun.thread (b : Bun) (t : Nat) : Option Thread := b.pack.threads[t]?
def Bun.grid (b : Bun) : Option Grid := aget b.dev.grids b.team.grid
def Bun.privileged (b : Bun) : Bool :=
  match b.grid with
  | some g => g.privileged
  | none => false
def Bun.depth (b : Bun) : Nat :=
  match b.grid with
  | some g => g.depth
  | none => 0

/-- Thread t is in handler mode (R284). -/
def Bun.inHandler (b : Bun) (t : Nat) : Bool :=
  match b.thread t with
  | some x => x.handler != .off
  | none => false

/-- The threads of Part, ascending. -/
def Bun.ts (b : Bun) : List Nat := threadsOf b.part

/-- The lowest thread of Part. -/
def Bun.low (b : Bun) : Nat := (lowest b.part).getD 0

/-- A thread's value of a system register (R286). -/
def Bun.sysReg (b : Bun) (t i : Nat) : Nat :=
  match i with
  | 0 => t
  | 1 => b.index
  | 2 => b.team.index
  | 3 => b.team.grid
  | 4 => b.core
  | 5 => clusterOf b.core
  | 6 => ridgeOf b.core
  | 7 => b.cycle t - (b.dev.core b.core).born
  | 8 => b.dev.clock.read (b.cycle t) % 2 ^ 64
  | 9 => b.depth
  | 10 => b.mask.toNat
  | 11 => b.team.part
  | 16 => match b.thread t with | some x => x.fault.toNat | none => 0
  | 17 => match b.thread t with | some x => x.fpc.toNat | none => 0
  | 32 => (b.dev.part b.team.part).fair
  | 33 => (b.dev.part b.team.part).budget
  | 34 => b.team.quota
  | _ => 0

/-- Registers 16 and 17 are read in handler mode only (R286). -/
def Bun.sysDenied (b : Bun) (t i : Nat) : Bool := (i == 16 || i == 17) && !b.inHandler t

/-- A source that thread t may not read faults `PRIVILEGE` (R148, R286). -/
def Bun.denied (b : Bun) (t : Nat) : Src → Bool
  | .sys i => b.sysDenied t i.toNat
  | _ => false
def Bun.denied2 (b : Bun) (t : Nat) : Src2 → Bool
  | .reg x y => b.denied t x || b.denied t y
  | .wide (.sys i) _ => b.sysDenied t i.toNat
  | _ => false

/-! ### Integer reads -/

/-- Thread t's value of a named source, HALF applied (R58, R104). -/
def Bun.name (b : Bun) (t : Nat) (n : NameSrc) : Nat := n.half.of (b.pack.value n.idx.toNat t n.wide n.comp)

/-- The value of a scalar source, HALF applied (R105). -/
def Bun.scalar (b : Bun) (x : ScalSrc) : Nat :=
  let v := (b.pack.scalar x.idx.toNat).toNat
  x.half.of (if x.wide then v else v % 2 ^ 32)

/-- A value name in EXT, read whole at w bits (R109). -/
def Bun.extName (b : Bun) (t : Nat) (i : BitVec 8) (w : Nat) : Nat := b.pack.value i.toNat t (w == 64) .whole

/-- An integer source at w bits (R108, R146, R147). -/
def Bun.int (b : Bun) (t w : Nat) : Src → Nat
  | .name n => b.name t n % 2 ^ w
  | .scal x => b.scalar x % 2 ^ w
  | .pred i neg => (b.pack.pred t i.toNat != neg).toNat
  | .sys i => b.sysReg t i.toNat % 2 ^ w
  | .imm v => wrap w v.toInt
  | _ => 0

/-- A 32-bit immediate read as an integer of w bits (R111). -/
def Bun.extInt (b : Bun) (t w : Nat) : ExtSrc → Nat
  | .name i => b.extName t i w % 2 ^ w
  | .scal i => (b.pack.scalar i.toNat).toNat % 2 ^ w
  | .sys i => b.sysReg t i.toNat % 2 ^ w
  | .pred i => (b.pack.pred t i.toNat).toNat

/-- Both sources at w bits (R110). -/
def Bun.int2 (b : Bun) (t w : Nat) : Src2 → Nat × Nat
  | .reg x y => (b.int t w x, b.int t w y)
  | .wide x i => (b.extInt t w x, i.int w)

/-- The signed value of an operand at its WID, for indices and 64-bit offsets (R195, R201, R203). A system register is read
zero-extended (log 21). -/
def Bun.idx (b : Bun) (t : Nat) : Src → Int
  | .name n => signed (if n.wide then 64 else 32) (b.name t n)
  | .scal x => signed (if x.wide then 64 else 32) (b.scalar x)
  | .sys i => signed 64 (b.sysReg t i.toNat)
  | .imm v => v.toInt
  | _ => 0

/-- The index operand: row index (two-index form) and column index (R176, R193). -/
def Bun.idx2 (b : Bun) (t : Nat) : Src → Option Int × Int
  | .span x => (some (signed 32 (b.pack.value x.first.toNat t false .whole)),
                signed 32 (b.pack.value (x.first.toNat + 1) t false .whole))
  | s => (none, b.idx t s)

/-! ### Floating-point reads -/

/-- ABS, then NEG (R104). -/
def signMods (abs neg : Bool) (x : Ex) : Ex :=
  let y := if abs then x.abs else x
  if neg then y.neg else y

/-- A floating-point source of format f and w bits (R108, R157). -/
def Bun.fp (b : Bun) (t : Nat) (f : Fmt) (w : Nat) : Src → Ex
  | .name n => signMods n.abs n.neg (f.decode (b.name t n % 2 ^ w))
  | .scal x => signMods x.abs x.neg (f.decode (b.scalar x % 2 ^ w))
  | .imm v => roundTo (.ofInt v.toInt) f .rne .ieee
  | _ => .zero false

/-- A 32-bit immediate read as a value of format f (R111). -/
def Bun.extFp (b : Bun) (t : Nat) (f : Fmt) (w : Nat) : ExtSrc → Ex
  | .name i => f.decode (b.extName t i w)
  | .scal i => f.decode ((b.pack.scalar i.toNat).toNat % 2 ^ w)
  | _ => .zero false

def Bun.fp2 (b : Bun) (t : Nat) (f : Fmt) (w : Nat) : Src2 → Ex × Ex
  | .reg x y => (b.fp t f w x, b.fp t f w y)
  | .wide x i => (b.extFp t f w x, i.fp f)

/-- The two lanes of a packed source (R160). HALF on a scalar gives both lanes the chosen half, as on a name: the model's choice (log 84). -/
def Bun.lanes (b : Bun) (t : Nat) (f : Fmt) : Src → Ex × Ex
  | .name n =>
    let v := b.pack.value n.idx.toNat t false n.comp
    let m := fun x => signMods n.abs n.neg (f.decode x)
    if n.half = .whole then (m (v % 65536), m (v / 65536 % 65536)) else (m (n.half.of v), m (n.half.of v))
  | .scal x =>
    let v := (b.pack.scalar x.idx.toNat).toNat % 2 ^ 32
    let m := fun y => signMods x.abs x.neg (f.decode y)
    if x.half = .whole then (m (v % 65536), m (v / 65536)) else (m (x.half.of v), m (x.half.of v))
  | .imm v => let y := roundTo (.ofInt v.toInt) f .rne .ieee; (y, y)
  | _ => (.zero false, .zero false)

def Bun.extLanes (b : Bun) (t : Nat) (f : Fmt) : ExtSrc → Ex × Ex
  | .name i => let v := b.extName t i 32; (f.decode (v % 65536), f.decode (v / 65536 % 65536))
  | .scal i => let v := (b.pack.scalar i.toNat).toNat % 2 ^ 32; (f.decode (v % 65536), f.decode (v / 65536))
  | _ => (.zero false, .zero false)

def Bun.lanes2 (b : Bun) (t : Nat) (f : Fmt) : Src2 → (Ex × Ex) × (Ex × Ex)
  | .reg x y => (b.lanes t f x, b.lanes t f y)
  | .wide x i => (b.extLanes t f x, let y := i.fp f; (y, y))

/-- The guard holds for thread t (R101). -/
def Pack.guard (p : Pack) (h : Hdr) (t : Nat) : Bool := p.pred t h.gpred.toNat != h.gneg

end Sys2Proof.Machine
end

