-- ==== Sys2Proof/Machine/Flags.lean ====
section
/-! DEFINITION. The conditions that set predicates, and the selections that compare (R113, R153, R159, R169). -/

namespace Sys2Proof.Machine

open Sys2Proof

/-- u(x), s(x) as R151 defines x(x): the value by SIGNED. -/
def valueOf (sgn : Bool) (w x : Nat) : Int := if sgn then signed w x else ((x % 2 ^ w : Nat) : Int)

/-- A condition on w-bit integers (R113, R153). -/
def condInt (c : Cond) (sgn : Bool) (w x y : Nat) : Bool :=
  let a := valueOf sgn w x
  let b := valueOf sgn w y
  match c with
  | .eq => x % 2 ^ w == y % 2 ^ w
  | .ne => x % 2 ^ w != y % 2 ^ w
  | .lt => a < b
  | .le => a ≤ b
  | .gt => a > b
  | .ge => a ≥ b
  | .un => false

/-- A condition on floating-point values (R113, R159). -/
def condFp (c : Cond) (x y : Ex) : Bool :=
  let un := x.isNan || y.isNan
  match c with
  | .eq => !un && x.eqv y
  | .ne => un || !x.eqv y
  | .lt => x.lt y
  | .le => !un && !y.lt x
  | .gt => y.lt x
  | .ge => !un && !x.lt y
  | .un => un

/-- x is below y with −0 below +0 (R159). -/
def Ex.below (x y : Ex) : Bool := x.lt y || (x.isZero && y.isZero && x.sign && !y.sign)

/-- `fmin` and `fmax` (R159). -/
def fpSelect (nan max : Bool) (x y : Ex) : Ex :=
  match x, y with
  | .nan, .nan => .nan
  | .nan, y => if nan then .nan else y
  | x, .nan => if nan then .nan else x
  | x, y => if max then (if x.below y then y else x) else (if y.below x then y else x)

end Sys2Proof.Machine
end

