-- ==== Sys2Proof/Machine/Ops.lean ====
section
/-! DEFINITION. Named operations over a pack, a thread and a grid: PCs, reconvergence and serial mode (R46 to R50), taking a
fault and returning from a handler (R315, R296, R323), termination and loss (R320), and entries of the ordering machine (R221). -/

namespace Sys2Proof.Machine

open Sys2Proof

/-- A list mapped with the place of each element, counted from k. -/
def imap {α β : Type} (f : Nat → α → β) : Nat → List α → List β
  | _, [] => []
  | k, x :: l => f k x :: imap f (k + 1) l

/-- NextPC (R46). -/
def nextPc (pc : W64) : W64 :=
  if pc.toNat % 16 < 9 then pc + 1 else BitVec.ofNat 64 ((pc.toNat / 16 + 1) * 16)

/-- StaticTarget (R130). -/
def staticTarget (pc : W64) (disp : BitVec 17) (slot : Nat) : W64 :=
  BitVec.ofNat 64 (wrap 50 ((bits pc.toNat 53 4 : Int) + disp.toInt) * 16 + slot)

/-- A 64-bit value is a PC (R122). -/
def isPc (pc : W64) : Bool := pc.toNat < 2 ^ 54 && pc.toNat % 16 ≤ 9

/-! ### Threads -/

def Thread.ready (t : Thread) : Bool := t.status == .ready
def Thread.gone (t : Thread) : Bool := t.status == .exited
/-- The thread waits no longer and goes on at NextPC (R38). -/
def Thread.wake (t : Thread) : Thread := { t with status := .ready, pc := nextPc t.pc }
def Place.none : Place := { space := .phys, addrs := [] }
/-- A new entry of the thread in the ordering machine, with the next program-order number (R219). -/
def Thread.push (t : Thread) (k : EntryKind) (p : Place) (rank : Nat) (bound : Option Nat) (va : Nat) : Thread :=
  { t with po := t.po + 1, queue := t.queue ++ [{ po := t.po, kind := k, place := p, rank := rank, bound := bound, va := va }] }
/-- A whole acquire, release or full marker (R221). -/
def Thread.acquire (t : Thread) : Thread := t.push (.acquire 3 true none) .none 3 none 0
def Thread.releaseW (t : Thread) : Thread := t.push (.release 3 true) .none 3 none 0
def Thread.fullW (t : Thread) : Thread := t.push (.full 3 true) .none 3 none 0
/-- The thread wakes with a whole acquire (R141, R216, R252, R266, R281). -/
def Thread.wakeAcquire (t : Thread) : Thread := t.acquire.wake
/-- A wait has ended without a fault: the reads that it left open are spent (R62). -/
def Device.spendRows (d : Device) (i : ThreadId) (ids : List Nat) : Device :=
  d.modPack i.core i.slot i.pack fun p => p.spendRows i.thread (d.now + 1) ids

/-- An entry or marker of the thread with a program-order number remains. -/
def Thread.has (t : Thread) (po : Nat) : Bool := t.queue.any fun (e : Entry) => e.po == po

/-! ### Reconvergence (R46, R47) -/

/-- Thread t becomes ready at a PC. -/
def Pack.readyAt (p : Pack) (m : Mask) (pc : W64) : Pack :=
  { p with threads := imap (fun t (x : Thread) => if m.getLsbD t then { x with status := .ready, pc := pc } else x) 0 p.threads }

/-- Removes the entries, from the top, whose members are none, and releases those whose members have all arrived, each in the cycle
after its last change (R46, R55): the entries that stay, and those released. -/
def joinReleases (now : Nat) : List JoinEntry → List JoinEntry × List JoinEntry
  | [] => ([], [])
  | e :: es =>
    let r := joinReleases now es
    if now < e.due then (e :: r.1, r.2)
    else if e.members = 0 then r
    else if e.members &&& ~~~e.arrived = 0 then (r.1, e :: r.2)
    else (e :: r.1, r.2)

/-- R46 applied to the whole stack. -/
def Pack.release (p : Pack) (now : Nat) : Pack :=
  let r := joinReleases now p.stack
  r.2.foldl (fun q e => q.readyAt e.members (nextPc e.joinPc)) { p with stack := r.1 }

/-- Thread t leaves the n innermost entries that hold it (R47). -/
def leaveStack (t due : Nat) : Nat → List JoinEntry → List JoinEntry
  | 0, s => s
  | _, [] => []
  | n + 1, e :: s =>
    if e.members.getLsbD t then
      { e with members := e.members &&& ~~~(oneBit t), arrived := e.arrived &&& ~~~(oneBit t), due := max e.due due } :: leaveStack t due n s
    else e :: leaveStack t due (n + 1) s

/-- Thread t leaves n entries; R46 applies to them from cycle `due` on (R55). -/
def Pack.leave (p : Pack) (t n due : Nat) : Pack := { p with stack := leaveStack t due n p.stack }

/-- The innermost entry of thread t (R46). -/
def Pack.innermost (p : Pack) (t : Nat) : Option JoinEntry := p.stack.find? (·.members.getLsbD t)

/-- Thread t arrives at its innermost entry (R47). -/
def arriveStack (t due : Nat) : List JoinEntry → List JoinEntry
  | [] => []
  | e :: s =>
    if e.members.getLsbD t then { e with arrived := e.arrived ||| oneBit t, due := max e.due due } :: s else e :: arriveStack t due s

/-- The arrived bit of thread t is cleared where it is set (R316, R323). -/
def unarrive (t : Nat) (s : List JoinEntry) : List JoinEntry :=
  s.map fun e => { e with arrived := e.arrived &&& ~~~(oneBit t) }

/-! ### Serial mode (R48 to R50) -/

def Pack.isGone (p : Pack) (t : Nat) : Bool :=
  match p.thread t with
  | some x => x.gone
  | none => true

/-- The next thread of M becomes c; when none remains, serial mode ends and the threads of M at join become ready at
NextPC(J) (R49, R50). -/
def Pack.serialNext (p : Pack) : Pack :=
  match p.serial with
  | none => p
  | some s =>
    match (threadsOf s.m).find? (fun t => s.c < t && !p.isGone t) with
    | some c => { p with serial := some { s with c := c, d := 0 } }
    | none =>
      let w := maskOf fun t => s.m.getLsbD t && (match p.thread t with | some x => x.status == .atJoin | none => false)
      { p with serial := none }.readyAt w (nextPc s.j)

/-- c leaves M and the next thread becomes current (R49). -/
def Pack.serialLeave (p : Pack) (t : Nat) : Pack :=
  match p.serial with
  | none => p
  | some s =>
    if s.m.getLsbD t then
      let p := { p with serial := some { s with m := s.m &&& ~~~(oneBit t) } }
      if s.c = t then p.serialNext else p
    else p

/-- Thread t exits: it leaves every entry and M, its counts become zero, and R46 applies (R47, R49, R66, R135). -/
def Pack.exitThread (p : Pack) (t till : Nat) : Pack :=
  let p := p.modThread t fun x => { x with status := .exited, handler := .off }
  ((p.zeroCounts t till).serialLeave t).leave t 16 till

/-- PACK_RETIRE: a pack whose 32 threads are exited has retired (R37). -/
def Pack.retire (p : Pack) : Pack := { p with retired := p.retired || p.threads.all (·.gone) }

/-! ### The slice-end handler's end (R323) -/

/-- Every thread of the pack has yielded: the set-aside stack, serial record and states return. -/
def Pack.unslice (p : Pack) : Pack :=
  let back (x : Thread) : Thread :=
    match x.aside with
    | none => { x with handler := .off, resume := none }
    | some (st, pc, again, start) =>
      match x.resume with
      | some r => if r = pc then { x with status := st, pc := pc, again := again, start := start, handler := .off, aside := none, resume := none }
                  else { x with status := .ready, pc := r, handler := .off, aside := none, resume := none, again := [], start := false }
      | none => { x with handler := .off, aside := none }
  let moved := maskOf fun t => match p.thread t with
    | some x => (match x.aside, x.resume with
                 | some (_, pc, _, _), some r => r != pc
                 | _, _ => x.gone)
    | none => false
  let stack := p.asideStack.map fun e => { e with arrived := e.arrived &&& ~~~moved }
  let gone := (List.range 32).filter fun t => p.isGone t
  let q := { p with threads := p.threads.map back, stack := gone.foldl (fun s t => leaveStack t 0 16 s) stack,
                    serial := p.asideSerial, hold := p.asideHold, asideStack := [], asideSerial := none, asideHold := none, inSlice := false, sliceDone := true }
  gone.foldl (fun q t => q.serialLeave t) q

/-- The pack yields when every thread has executed `tret` in the slice-end handler or exited (R323). -/
def Pack.yield (p : Pack) : Pack :=
  if p.inSlice && p.threads.all (fun x => x.gone || x.resume.isSome) then p.unslice else p

/-- Every pack of the slice end's partition on the core has yielded: its teams are saved, cooperatively (R323, R324). -/
def Device.coop (d : Device) (core : Nat) : Device :=
  match (d.core core).sliceFor with
  | none => d
  | some p =>
    let mine := (d.core core).teams.filter fun (t : Nat × Team) => t.2.part == p
    if mine.all (fun (t : Nat × Team) => t.2.packs.all fun (x : Pack) => x.retired || x.sliceDone) then
      d.modCore core fun c => { c with budget := none, teams := c.teams.map fun (t : Nat × Team) =>
        if t.2.part = p && t.2.saving.isNone then (t.1, { t.2 with saving := some { forced := false, drainStart := d.now, lost := false } }) else t }
    else d
/-- The same after a bundle of the core. -/
def Device.coopAfter (d : Device) (c : Option Cur) : Device :=
  match c with
  | some c => d.coop c.core
  | none => d

/-! ### Launch records and grids -/

/-- Fields of a launch record (R306). -/
def lrKpc (r : BitVec 2048) : W64 := BitVec.ofNat 64 (fld r 63 0)
def lrHpc (r : BitVec 2048) : W64 := BitVec.ofNat 64 (fld r 127 64)
def lrParam (r : BitVec 2048) : Nat := fld r 191 128
def lrBptr (r : BitVec 2048) : Nat := fld r 255 192
def lrSpb (r : BitVec 2048) : Nat := fld r 319 256
def lrSpe (r : BitVec 2048) : Nat := fld r 383 320
def lrPword (r : BitVec 2048) : Nat := fld r 447 384
def lrSeed (r : BitVec 2048) : W64 := BitVec.ofNat 64 (fld r 511 448)
def lrTeams (r : BitVec 2048) : Nat := fld r 599 576 + 1
def lrPacks (r : BitVec 2048) : Nat := fld r 612 608 + 1
def lrThreads (r : BitVec 2048) : Nat := fld r 620 616 + 1
def lrPrio (r : BitVec 2048) : Nat := fld r 625 624
def lrDepn (r : BitVec 2048) : Nat := fld r 639 632
def lrQuota (r : BitVec 2048) : Nat := fld r 653 640
def lrMaxlive (r : BitVec 2048) : Nat := fld r 664 656
def lrSlots (r : BitVec 2048) : Nat := fld r 687 672
def lrFbound (r : BitVec 2048) (i : Nat) : Bool := bit r.toNat (688 + i)
def lrBcnt (r : BitVec 2048) : Nat := fld r 701 696
def lrScratch (r : BitVec 2048) : Nat := fld r 735 704
def lrPriv (r : BitVec 2048) : Nat := fld r 767 736
def lrTiles (r : BitVec 2048) : Nat := fld r 772 768
def lrShadow (r : BitVec 2048) : Nat := fld r 780 776
def lrDep (r : BitVec 2048) (i : Nat) : Nat := fld r (895 + 64 * i) (832 + 64 * i)
def lrFmt (r : BitVec 2048) (i : Nat) : W64 := BitVec.ofNat 64 (fld r (1151 + 64 * i) (1088 + 64 * i))

def Device.grid (d : Device) (g : Nat) : Option Grid := aget d.grids g
/-- `.maxlive` of a grid (R307). -/
def Device.maxlive (d : Device) (g : Nat) : Nat :=
  match d.grid g with
  | some x => lrMaxlive x.record
  | none => 0
/-- A field of the launch record of a grid (R307). -/
def Device.lr (d : Device) (g : Nat) (f : BitVec 2048 → Nat) : Nat :=
  match d.grid g with
  | some x => f x.record
  | none => 0

/-! ### Ending a grid or a team (R37, R316, R320) -/

/-! ### The end of a slice end (R321, R335) -/

/-- Every core of clusters lo to hi. -/
def coresOf (lo hi : Nat) : List Nat := (List.range (4 * (hi + 1 - lo))).map (4 * lo + ·)
/-- k clusters pass from one end of a range to the adjacent end of another (R335). -/
def Device.giveClusters (d : Device) (src dst k : Nat) : Device :=
  let a := (d.part src).clusters
  let b := (d.part dst).clusters
  if a.2 + 1 - a.1 ≤ k then d
  else if b.2 + 1 = a.1 then
    (d.modPart src fun q => { q with clusters := (a.1 + k, a.2) }).modPart dst fun q => { q with clusters := (b.1, b.2 + k) }
  else if a.2 + 1 = b.1 then
    (d.modPart src fun q => { q with clusters := (a.1, a.2 - k) }).modPart dst fun q => { q with clusters := (b.1 - k, b.2) }
  else d

/-- A team of the partition is resident on a core of some. -/
def Device.holds (d : Device) (p : Nat) (cores : List Nat) : Bool := d.teams.any fun x => x.2.2.part == p && cores.contains x.1
/-- The slice end of some cores is over. -/
def Device.clearSlice (d : Device) (p : Nat) (cores : List Nat) : Device :=
  { d with cores := d.cores.map fun (c : Nat × Core) =>
      if cores.contains c.1 && c.2.sliceFor == some p then (c.1, { c.2 with sliceFor := none, budget := none }) else c }

/-- The end of a reclaim (R335), its lender and number given: done when no team of the borrower is left on its cores and every earlier
reclaim of that lender is done. -/
def Device.endLoan (d : Device) (p : Nat) (k : Nat × Nat) : Device :=
  let q := d.part p
  let mine := q.loans.filter fun x => x.2 == k
  let cores := mine.flatMap fun x => coresOf x.1 x.1
  if d.holds p cores || q.loans.any (fun x => x.2.1 == k.1 && x.2.2 < k.2) then d
  else
    let d := (d.modPart p fun q => { q with loans := q.loans.filter fun x => x.2 != k }).giveClusters p k.1 mine.length
    if q.saving then d else d.clearSlice p cores
/-- PARTITION_SUSPENDED (R321), and the ends of reclaims (R335): done when no team of the partition is left on the cores of the slice
end, and at a migration stop no team of it at all. After that stop the front end stays stopped (R337). -/
def Device.sliceCheck (d : Device) (p : Nat) : Device :=
  let q := d.part p
  let lent := q.loans.flatMap fun x => coresOf x.1 x.1
  let d := (q.loans.map (·.2)).dedup.foldl (fun d k => d.endLoan p k) d
  let cores := coresOf q.clusters.1 q.clusters.2 ++ lent
  if q.saving && !(d.holds p cores || (q.drainKind == 1 && d.teams.any fun x => x.2.2.part == p)) then
    (d.clearSlice p cores).modPart p fun q => { q with saving := false, suspended := q.drainKind == 0 }
  else d

/-! ### Teams that leave -/

/-- The team leaves its core: granules and spill slot are released, and its commands leave the engines. -/
def Device.removeTeam (d : Device) (core slot : Nat) : Device :=
  match d.team core slot with
  | none => d
  | some t =>
    let d := d.modCore core fun c =>
      { c with teams := adel c.teams slot,
               engines := c.engines.map fun (e : Engine) => { e with queue := e.queue.filter fun (k : Cmd) => !(k.grid == t.grid && k.team == t.index) } }
    (d.modGrid t.grid fun g => { g with slots := g.slots.filter (· != t.spillSlot) }).sliceCheck t.part

/-- The device's free granule count is what the teams of a core leave of 64 (R19, R23). -/
def granulesOf (pword : Nat) : Nat := bits pword 6 0 + bits pword 14 8 + bits pword 22 16 + bits pword 30 24

/-- Every thread of a team stops at its instruction boundary; the team drains (R320, R334). -/
def Team.stop (t : Team) (now : Nat) : Team :=
  { t with stopping := true, saving := some { forced := true, drainStart := now, lost := false },
           packs := t.packs.map fun p =>
             { p with retired := true, stack := [], serial := none, hold := none, granted := 0, inSlice := false, asideStack := [], asideSerial := none, asideHold := none,
                      rows := p.rows.map fun r => { r with count := List.replicate 32 0 },
                      threads := p.threads.map fun x =>
                        { x with status := .exited, handler := .off, pend := [], holds := [], aside := none, resume := none } } }

/-- The entry becomes free as by `rfree`, its generation kept: at once, or when the rows whose combination has begun are done (R292). -/
def REntry.release (e : REntry) : REntry := if e.parked.isEmpty then { REntry.fresh with gen := e.gen } else { e with freeing := true }

/-- The record fields that name a thread (R319). -/
def Device.recOf (d : Device) (id : ThreadId) (c : Code) (detail : Nat) (fpc : W64) (addr : Nat) (resume : Nat) : Rec :=
  let t := d.team id.core id.slot
  let x := d.thread id
  { addr := addr, resume := resume, team := (match t with | some t => t.index | none => 0), pc := fpc.toNat,
    grid := (match t with | some t => t.grid | none => 0), detail := detail, cls := c.cls,
    nested := (match x with | some x => x.handler != .off | none => false),
    thread := id.thread, kind := 2, core := id.core, pack := id.pack, code := c.num }

/-- Threads of a resident team by number, ascending. -/
def maskIds (core slot pack : Nat) (m : Mask) : List ThreadId := (threadsOf m).map fun t => ⟨core, slot, pack, t⟩
/-- Every thread of a resident team, ascending. -/
def Device.teamIds (d : Device) (core slot : Nat) : List ThreadId :=
  match d.team core slot with
  | none => []
  | some t => (List.range t.packs.length).flatMap fun p => maskIds core slot p (BitVec.allOnes 32)

/-- The fault is a system fault: its code's class says so, or the rule that raises it (R280, R314). -/
def PendFault.system (f : PendFault) : Bool := f.asSys || f.code.cls == 1
/-- The event of a fault that waits for a thread of a team has its record written, unless it has one already: it names the lowest
receiving thread, and the PC at which that thread is interrupted (R315, R316). -/
def Device.eventRecord (d : Device) (core slot : Nat) (f : PendFault) (lost : Bool) : Device :=
  match d.team core slot with
  | none => d
  | some t =>
    if !(f.writes && f.system) || (match d.grid t.grid with | some g => g.terminated | none => true) then d
    else
      let i : ThreadId := ⟨core, slot, f.low.1, f.low.2⟩
      let pc := match d.thread i with | some x => x.pc | none => 0
      (d.emit t.part { d.recOf i f.code f.detail (f.fpc.getD pc) f.addr pc.toNat with cls := 1, kind := if lost then 3 else 2 }).modTeam core slot
        fun t => { t with packs := t.packs.map fun (p : Pack) => { p with threads := p.threads.map fun (x : Thread) =>
          { x with pend := x.pend.map fun (g : PendFault) => if g.event = f.event then { g with writes := false, lost := lost } else g } } }
/-- A fault among others in the order of their events. -/
def insertFault (f : PendFault) : List PendFault → List PendFault
  | [] => [f]
  | g :: l => if g.event < f.event then g :: insertFault f l else if g.event = f.event then g :: l else f :: g :: l
/-- The events that wait for threads of a team, each once, in the order in which they were raised (R328). -/
def Team.events (t : Team) : List PendFault :=
  ((t.packs.flatMap fun (p : Pack) => p.threads.flatMap fun (x : Thread) => x.pend).foldr insertFault [])
/-- Every system fault that waits for a thread of a team and has no record yet is recorded, in the order of the events: a system fault
is recorded in every case (R314, R328). -/
def Device.flushFaults (d : Device) (core slot : Nat) : Device :=
  match d.team core slot with
  | none => d
  | some t => t.events.foldl (fun d f => d.eventRecord core slot f false) d

/-- A grid terminates (R320). Its record is written once; later ones are not. -/
def Device.terminate (d : Device) (g : Nat) (r : Rec) : Device :=
  match d.grid g with
  | none => d
  | some x =>
    if x.terminated then d
    else
      let d := (d.teams.filter fun y => y.2.2.grid == g).foldl (fun d y => d.flushFaults y.1 y.2.1) d
      let d := d.emit x.part { r with kind := 7 }
      let d := d.modGrid g fun x => { x with terminated := true, launches := [], saved := [], live := x.live - x.saved.length,
                                             slots := x.slots.filter fun s => d.teams.any fun y => y.2.2.grid == g && y.2.2.spillSlot == s }
      let d : Device := { d with
        cores := d.cores.map fun (c : Nat × Core) =>
          (c.1, { c.2 with
            entries := c.2.entries.map fun (e : REntry) => if e.grid = g && e.state != .free then e.release else e,
            teams := c.2.teams.map fun (t : Nat × Team) => if t.2.grid = g then (t.1, t.2.stop d.now) else t }) }
      (d.cores.map (·.1)).foldl Device.coop d

/-- A team is lost: its record, where the event has none yet, is written, and it retires at once (R315, R320, R353). -/
def Device.loseTeam (d : Device) (core slot : Nat) (r : Option Rec) : Device :=
  match d.team core slot with
  | none => d
  | some t =>
    let d := d.flushFaults core slot
    let d := match r with | some r => d.emit t.part { r with kind := 3 } | none => d
    ((d.removeTeam core slot).modGrid t.grid fun g => { g with live := g.live - 1 }).coop core

/-! ### Taking a fault, and returning from a handler (R296, R315, R318) -/

/-- The thread enters handler mode: `sys.fault`, `sys.fpc` and the PC are set, a wait is abandoned, nothing else changes (R315,
R316). -/
def Thread.enter (t : Thread) (h : Handler) (c : Code) (detail : Nat) (fpc hpc : W64) : Thread :=
  { t with handler := h, fault := BitVec.ofNat 64 (c.num + detail % 65536 * 65536), fpc := fpc, pc := hpc, status := .ready,
           again := [], start := true }

/-- TAKING A FAULT: the one operation by which a thread takes a fault (R315, R318). `rec` says whether a system fault writes its
record here (one for each event and team). -/
def Device.raise (d : Device) (id : ThreadId) (c : Code) (detail : Nat) (fpc : W64) (addr : Nat) (asyn rec : Bool) : Device :=
  match d.team id.core id.slot, d.thread id with
  | some t, some x =>
    let resume := if asyn then x.pc.toNat else 0
    let r := d.recOf id c detail fpc addr resume
    let hpc := match d.grid t.grid with | some g => lrHpc g.record | none => 0
    let ended := match d.grid t.grid with | some g => g.terminated | none => true
    if ended || x.gone then d
    else if c = .debugBreak && bit (d.part t.part).debugReg.toNat 0 then
      (d.emit t.part r).modThread id fun x => { x with status := .stopped }
    else if hpc = 0 || x.handler != .off then
      if c = .engineReset then d.loseTeam id.core id.slot (if rec then some r else none)
      else
        let d := if c.cls = 1 && rec then d.emit t.part r else d
        d.terminate t.grid r
    else
      let d := if c.cls = 1 && rec then d.emit t.part r else d
      (d.modPack id.core id.slot id.pack fun p => { p with stack := if x.status == .atJoin then unarrive id.thread p.stack else p.stack }).modThread id
        fun x => x.enter .fault c detail fpc hpc
  | _, _ => d

/-- RETURNING FROM A HANDLER: `tret`, `tret.next` and `tret.exit` (k = 0, 1, 2) for a thread in handler mode (R296, R323). -/
def Pack.tret (p : Pack) (t k till : Nat) : Pack :=
  match p.thread t with
  | none => p
  | some x =>
    if k = 2 then (p.exitThread t till).yield
    else
      let pc := if k = 0 then x.fpc else nextPc x.fpc
      if x.handler = .slice then (p.modThread t fun x => { x with resume := some pc }).yield
      else p.modThread t fun x => { x with handler := .off, pc := pc, start := false }

/-! ### Rows and grants of a team (R66, R69, R70) -/

/-- What a pack needs of the quota before it can go on (R69, R72). -/
def Pack.need (p : Pack) : Nat :=
  if p.rows.any (·.evicted) then 1
  else
    match p.hold with
    | some ⟨.allocation n, _, _⟩ => n
    | _ => 0
def Pack.blocked (p : Pack) : Bool := p.need > p.granted

/-- The age stamp of a pack among the blocked ones: that of an elder of an eviction round is the lowest, of several the eldest's (R74; log
97). -/
def Team.stampOf (t : Team) (i : Nat) : Nat :=
  match t.packs[i]? with
  | some p => if p.elder && p.blocked then p.stamp else 2 ^ 64 + p.stamp
  | none => 0
/-- Gives free rows to the blocked packs in ascending age stamp, each only when its whole need is covered (R70). -/
def Team.grantGo : Nat → Team → Team
  | 0, t => t
  | n + 1, t =>
    let free := t.quota - t.inUse
    let ok := (List.range t.packs.length).filter fun i =>
      match t.packs[i]? with
      | some p => p.blocked && p.need - p.granted ≤ free
      | none => false
    match leastBy t.stampOf ok with
    | none => t
    | some i => Team.grantGo n (t.modPack i fun p => { p with granted := p.need })
def Team.grant (t : Team) : Team := Team.grantGo 32 t

/-- Frees the rows that are due (R66). -/
def Team.freeing (t : Team) (now : Nat) : Team := { t with packs := t.packs.map (Pack.sweep · now) }
/-- Frees the rows that are due and gives them to blocked packs (R66, R70). -/
def Team.sweep (t : Team) (now : Nat) : Team := (t.freeing now).grant

end Sys2Proof.Machine
end

