-- ==== Sys2Proof/Machine/Issue.lean ====
section
/-! DEFINITION. How a bundle executes one instruction: Part, the name checks, the row decision, what each thread's execution comes
to, and the end of the bundle (R42 to R45, R51, R59 to R67, R126, R148). -/

namespace Sys2Proof.Machine

open Sys2Proof

/-- Where an instruction's result goes: a value name with its count (R59), a scalar (R105) or a predicate. -/
inductive Dst where
  | name (n : Nat) (wide : Bool) (cnt : Nat)
  | scal (i : Nat) (wide : Bool)
  | pred (i : Nat)
  deriving DecidableEq, Repr

/-- What one thread's execution of the instruction comes to. -/
inductive Fate where
  | next                                        -- goes on to NextPC
  | goto (pc : W64)                             -- its new PC
  | fault (c : Code) (detail addr : Nat)
  | park (page kind : Nat)                      -- R51
  | wait (w : Wait)                             -- waits at barrier
  | hold                                        -- held before it executes
  | left                                        -- its PC and state stand as the instruction set them
  deriving DecidableEq, Repr

/-- The rows whose reads a wait has not spent yet (R62). -/
def Wait.reads : Wait → List Nat
  | .phase _ _ _ rs _ => rs
  | .arrival _ rs _ => rs
  | .rret _ _ _ rs => rs
  | _ => []
/-- The thread waits, and its reads are spent when the wait ends (R62). -/
def Fate.opens : Fate → Bool
  | .wait w => !w.reads.isEmpty
  | _ => false

/-- A thread's result: its fate and the values for the destinations; a value not given is pending (R61). -/
structure Res where
  fate : Fate := .next
  vals : List Nat := []
  deriving DecidableEq, Repr

def Res.ok (v : Nat) : Res := { vals := [v] }
def Res.fault (c : Code) (detail : Nat) : Res := { fate := .fault c detail 0 }

/-- What an instruction uses: names read, destinations, whether its operands permit a uniform execution (R43), whether it is
long-latency (R45), cross-thread (R149) or collective (R44), and whether the bundle carries a yield by itself (R136). -/
structure Use where
  reads : List Nat := []
  dests : List Dst := []
  flat  : Bool := false
  long  : Bool := false
  cross : Bool := false          -- completes for every thread of its bundle (R149)
  collective : Bool := false
  yields : Bool := false
  deriving DecidableEq, Repr

def VDst.dst (d : VDst) : Dst := .name d.idx.toNat d.wide d.cnt.toNat
def SDst.dst (d : SDst) : Dst := .scal d.idx.toNat d.wide
def VSDst.dst : VSDst → Dst
  | .v d => VDst.dst d
  | .s d => SDst.dst d
def VPDst.dst : VPDst → Dst
  | .v d => VDst.dst d
  | .p i => .pred i.toNat
/-- The destinations of a span, ascending (R59). -/
def spanDsts (d : SpanD) (wide : Bool) (ext : BitVec 8) : List Dst :=
  (spanNames d.first d.len ext).map fun n => .name n wide d.cnt.toNat

/-- A destination that takes a row: its declared count is not 0 (R59). -/
def Dst.live : Dst → Option (Nat × Bool)
  | .name n w c => if c = 0 then none else some (n, w)
  | _ => none

/-! ### Reads and rows of a whole bundle -/

/-- R64: the reads exceed a count that is not persistent. -/
def Pack.short (p : Pack) (t : Nat) (reads : List Nat) : Bool :=
  reads.any fun n => let c := p.count n t; c != 15 && reads.count n > c

/-- One of the reads meets an uncorrectable error in the thread's slot (R192). -/
def Pack.spoilt (p : Pack) (t : Nat) (reads : List Nat) : Bool :=
  reads.any fun n => match p.bind n t with | some r => r.bad.getLsbD t | none => false

/-- The threads of `e` spend the reads, each in its own cycle; `after` gives the cycle that follows it (R62, R66). -/
def Pack.spendBy (p : Pack) (e : Mask) (reads : List Nat) (after : Nat → Nat) : Pack :=
  { p with rows := p.rows.map fun r =>
      let k := reads.count r.name
      if k = 0 || (r.bound &&& e) = 0 then r
      else { r with spent := (threadsOf (r.bound &&& e)).foldl (fun n t => max n (after t)) r.spent,
                    count := imap (fun t c => if e.getLsbD t && r.bound.getLsbD t && c != 15 then c - k else c) 0 r.count } }

/-- The threads of `k` keep the counts they had in `q` (R62: parked or faulted threads spend nothing, and those that wait in `bar`,
`bwait` or `rret` spend their reads when the wait ends). -/
def Pack.refund (p q : Pack) (k : Mask) : Pack :=
  if k = 0 then p
  else
    { p with rows := p.rows.map fun r =>
        match q.row r.id with
        | some r0 => { r with count := imap (fun t c => if k.getLsbD t then r0.countOf t else c) 0 r.count }
        | none => r }

/-- The place of a row among the rows of a thread. -/
def placeOf (rows : List Nat) (id : Nat) : Option Nat :=
  if id = 0 then none else (List.range rows.length).find? fun j => rows.getD j 0 == id

/-- The threads of `done` write their values and counts and rebind (R60). `rows` gives a thread's rows in the order of the
destinations, 0 for none. -/
def Pack.writeAll (p : Pack) (dests : List Dst) (done : Mask) (rows : Nat → List Nat) (val : Nat → Nat → Nat) : Pack :=
  if done = 0 || dests.all (fun d => d.live.isNone) then p
  else
    { p with rows := p.rows.map fun r =>
        let at_ := fun t => if done.getLsbD t then placeOf (rows t) r.id else none
        let cnt := fun j => match dests[j]? with | some (.name _ _ c) => c | _ => 0
        { r with
          lo := imap (fun t x => match at_ t with | some j => BitVec.ofNat 32 (val t j) | none => x) 0 r.lo,
          hi := imap (fun t x => match at_ t with | some j => BitVec.ofNat 32 (val t j / 2 ^ 32) | none => x) 0 r.hi,
          count := imap (fun t x => match at_ t with | some j => cnt j | none => x) 0 r.count,
          bad := r.bad &&& ~~~(maskOf fun t => (at_ t).isSome),
          bound := maskOf fun t =>
            match at_ t with
            | some _ => true
            | none => r.bound.getLsbD t && !(done.getLsbD t && dests.any fun d => match d.live with | some (n, _) => n == r.name | none => false) } }

/-- What the row decision and the quota come to (R60, R67, R69). -/
inductive Rows where
  | ok (p : Pack) (ids : List Nat)
  | limit
  | block (need : Nat)

/-- Puts the decided rows at the places of the live destinations. -/
def alignRows : List Dst → List Nat → List Nat
  | [], _ => []
  | d :: ds, ids =>
    if d.live.isSome then ids.headD 0 :: alignRows ds ids.tail else 0 :: alignRows ds ids

/-- The row decision for the writing threads `w`; `q` is the pack before the bundle's reads (R60, R67, R69). -/
def Pack.rowsFor (p q : Pack) (t : Team) (now till maxlive : Nat) (w : Mask) (dests : List Dst) : Rows :=
  let live := dests.filterMap Dst.live
  if live.isEmpty || w = 0 then .ok p (alignRows dests [])
  else
    match p.decide q now till maxlive w live with
    | none => .limit
    | some (q, ids, need) =>
      if need ≤ t.quota - t.inUse + p.granted then .ok { q with granted := 0 } (alignRows dests ids)
      else .block need

/-! ### Threads and the bundle -/

/-- The rows that a parked execution of the thread chose, when they still stand (R61). Where one of several has been freed all are chosen anew
(log 103). -/
def Pack.oldRows (p : Pack) (t : Nat) : Option (List Nat) :=
  match p.thread t with
  | some x =>
    if x.again.isEmpty then none
    else if x.again.all fun i => i == 0 || (p.row i).isSome then some x.again else none
  | none => none

/-- The pack's bundle as BUNDLE_START left it (R40, R43). -/
def Device.bun (d : Device) (h : Hdr) (flat : Bool) : Option Bun :=
  match d.cur with
  | none => none
  | some c =>
    match d.team c.core c.slot with
    | none => none
    | some t =>
      match t.packs[c.pack]? with
      | none => none
      | some p =>
        some { dev := d, core := c.core, slot := c.slot, index := c.pack, mask := c.mask, pc := c.pc,
               uni := flat && h.gpred == 0 && !h.gneg, part := 0, team := t, pack := p, rows := [], fls := [], h := h }

/-- The rows of thread t in this execution. -/
def Bun.rowsOf (b : Bun) (t : Nat) : List Nat := (b.pack.oldRows t).getD b.rows

def Fate.kept : Fate → Bool
  | .fault .. => true
  | .park .. => true
  | .hold => true
  | _ => false

/-- The threads of the bundle that spend nothing and write nothing: they fault, park or are held (R51, R62). -/
def Bun.kept (b : Bun) (res : Nat → Res) : Mask := maskOf fun t => b.mask.getLsbD t && (res t).fate.kept
/-- The threads of Part that complete the instruction. -/
def Bun.done (b : Bun) (res : Nat → Res) : Mask := maskOf fun t => b.part.getLsbD t && !(res t).fate.kept
/-- The threads of the bundle that execute the instruction without taking part in it (R62, R149). -/
def Bun.idle (b : Bun) (res : Nat → Res) : Mask := maskOf fun t => b.mask.getLsbD t && !b.part.getLsbD t && !(res t).fate.kept

/-- The next program-order number of a thread as the bundle found it (R43). -/
def Bun.since (b : Bun) (t : Nat) : Nat := match b.pack.thread t with | some x => x.po | none => 0
/-- A thread after its execution (R42, R45, R51). A first fetch that parks has been the first one: the next is not tested by R125, the model's
choice (log 83). -/
def Bun.after (b : Bun) (u : Use) (f : Fate) (done : Bool) (t : Nat) (x : Thread) : Thread :=
  match f with
  | .hold => x
  | .park page kind =>
    { x with lane := b.cycle t + 1, was := b.pc, since := b.since t, status := .parked page kind false, again := b.rowsOf t, start := false }
  | f =>
    let x := { x with lane := b.cycle t + 1, was := b.pc, since := b.since t, again := if f = .left then x.again else [], start := if f = .left then x.start else false,
                      holds := x.holds.map (fun (k : Nat × Nat) => (k.1, k.2 - 1)) ++
                               (if u.long && (done || (u.cross && !f.kept)) then b.fls.map fun k => (k, b.h.la.toNat) else []) }
    match f with
    | .next => { x with pc := nextPc b.pc }
    | .goto pc => { x with pc := pc }
    | .wait w => { x with status := .atBarrier w }
    | _ => x

/-- Where the value of a pending destination goes, given its row. -/
def Dst.flight (row : Nat) : Dst → FlightDst
  | .name _ _ _ => if row = 0 then .none else .row row
  | .scal i w => .scal i w
  | .pred i => .pred i

/-- The pending results of a long-latency instruction (R45, R61): one flight for each destination and each row. -/
def Bun.flights (b : Bun) (u : Use) (done : Mask) (res : Nat → Res) : List Flight :=
  (if u.long && done != 0 then
    (List.range u.dests.length).flatMap fun j =>
      let dstOf : Nat → FlightDst := fun t => (u.dests.getD j (.pred 0)).flight ((b.rowsOf t).getD j 0)
      let ts := threadsOf done
      let kinds := (ts.map dstOf).dedup
      kinds.map fun k =>
        let m := maskOf fun t => done.getLsbD t && dstOf t == k
        { id := b.fls.getD j 0, group := b.fls.getD 0 0, dst := k, name := ((u.dests.getD j (.pred 0)).live).map (·.1), mask := m,
          ready := some b.till, fixed := u.cross,
          vals := (threadsOf m).filterMap fun t => ((res t).vals[j]?).map fun v => (t, BitVec.ofNat 64 v), parts := [] }
  else []) ++
  (if u.long && u.cross && b.idle res != 0 then
    [{ id := b.fls.getD 0 0, group := b.fls.getD 0 0, dst := .none, name := none, mask := b.idle res, ready := some b.till, fixed := true,
       vals := (threadsOf (b.idle res)).map fun t => (t, 0), parts := [] }]
  else [])

/-- Predicates written by thread t at once (R148). -/
def writePreds (dests : List Dst) (vals : List Nat) (x : Thread) : Thread :=
  (dests.zip vals).foldl (fun x (dv : Dst × Nat) => match dv.1 with | .pred i => x.setPred i (dv.2 != 0) | _ => x) x
/-- Scalars written once for the bundle (R155). -/
def writeScals (dests : List Dst) (vals : List Nat) (p : Pack) : Pack :=
  (dests.zip vals).foldl (fun p (dv : Dst × Nat) => match dv.1 with | .scal i w => p.setScalar i w dv.2 | _ => p) p

/-- The threads of the bundle that wait with their reads not spent yet (R62). -/
def Bun.opens (b : Bun) (res : Nat → Res) : Mask := maskOf fun t => b.mask.getLsbD t && (res t).fate.opens
/-- The rows of the names that thread t reads, one for each read (R62). -/
def Bun.readRows (b : Bun) (names : List Nat) (t : Nat) : List Nat := names.filterMap fun n => (b.pack.bind n t).map (·.id)

/-- One thread at the end of a bundle: its new PC or state, and its predicates. -/
def Bun.endThread (b : Bun) (u : Use) (res : Nat → Res) (t : Nat) (x : Thread) : Thread :=
  if b.mask.getLsbD t then
    let x := b.after u (res t).fate ((b.done res).getLsbD t) t x
    if u.long || !(b.done res).getLsbD t then x else writePreds u.dests (res t).vals x
  else x

/-- The pack at the end of a bundle: names, scalars, threads, pending results, lanes (R42, R45, R51, R60 to R62). -/
def Bun.endPack (b : Bun) (u : Use) (res : Nat → Res) (p : Pack) : Pack :=
  let p := if u.reads.isEmpty then p else p.refund b.pack (b.kept res)
  let p := p.writeAll u.dests (b.done res) b.rowsOf fun t j => if u.long then 0 else ((res t).vals).getD j 0
  let p := if u.long || b.done res = 0 then p else writeScals u.dests (res ((lowest (b.done res)).getD 0)).vals p
  { p with
    threads := imap (b.endThread u res) 0 p.threads,
    flights := p.flights ++ b.flights u (b.done res) res,
    lanes := b.till :: p.lanes.filter (· > b.dev.now),
    yielded := b.h.yld || u.yields, hold := none, noEvict := false }.retire

/-- Faults of the bundle's threads in ascending thread index; a system fault writes one record for the bundle and code (R315). -/
def Bun.raiseAll (b : Bun) (res : Nat → Res) (d : Device) : Device :=
  ((threadsOf b.mask).foldl (fun (acc : Device × List Code) t =>
    match (res t).fate with
    | .fault c detail addr =>
      (acc.1.raise (b.id t) c detail b.pc addr false (!acc.2.contains c), c :: acc.2)
    | _ => acc) (d, [])).1

/-- The end of a bundle: `res` is what each thread's execution came to (R42, R45, R51, R60 to R62, R315). -/
def Device.settle (d : Device) (b : Bun) (u : Use) (res : Nat → Res) : Device :=
  b.raiseAll res { d.modPack b.core b.slot b.index (fun p => (b.endPack u res p).refund b.pack (b.opens res)) with cur := none }

/-- The threads of `nsave` and `nload` wait at barrier; those of any other bundle stand ready (R38, R39). -/
def HoldWhy.seat (m : Mask) (p : Pack) : HoldWhy → Pack
  | .values _ => { p with threads := imap (fun t (x : Thread) => if m.getLsbD t then { x with status := .atBarrier .values } else x) 0 p.threads }
  | _ => p
/-- The bundle waits before its first cycle with nothing spent or written (R39, R69). -/
def Device.holdBundle (d : Device) (b : Bun) (why : HoldWhy) : Device :=
  { d.modPack b.core b.slot b.index fun p => { why.seat b.mask p with hold := some ⟨why, b.mask, b.pc⟩ } with cur := none }

/-- One fault for every thread of the bundle (R102, R126). -/
def Device.faultBundle (d : Device) (b : Bun) (c : Code) (detail : Nat) : Device := d.settle b {} fun _ => .fault c detail

/-- The reads of the instruction exceed thread t's counts (R64). -/
def Bun.short (b : Bun) (u : Use) (t : Nat) : Bool := b.pack.short t u.reads
/-- Thread t, which its guard lets read, meets an uncorrectable error in a row that it reads (R192). -/
def Bun.spoilt (b : Bun) (u : Use) (t : Nat) : Bool := b.pack.guard b.h t && b.pack.spoilt t u.reads
/-- Part, as far as it is settled before the rows are decided (R148). A thread that meets an uncorrectable error in a row that it reads is not
in W (log 102). -/
def Bun.partOf (b : Bun) (u : Use) : Mask := maskOf fun t => b.mask.getLsbD t && b.pack.guard b.h t && !b.short u t && !b.spoilt u t
/-- The pack after the bundle's reads (R62). -/
def Bun.spentPack (b : Bun) (u : Use) : Pack := b.pack.spendBy (maskOf fun t => b.mask.getLsbD t && !b.short u t) u.reads fun t => b.cycle t + 1
/-- The threads that choose rows in this execution (R61). -/
def Bun.writers (b : Bun) (u : Use) : Mask := maskOf fun t => (b.partOf u).getLsbD t && (b.pack.oldRows t).isNone

/-- The bundle with Part, rows and flight numbers, as the instruction's own execution sees it. -/
def Bun.taking (b : Bun) (u : Use) (p : Pack) (part : Mask) (rows : List Nat) : Bun :=
  { b with part := part, rows := rows, fls := (List.range u.dests.length).map (p.nextId + ·) }
/-- The device with the rows taken and the reads spent. -/
def Device.taking (d : Device) (b : Bun) (u : Use) (p : Pack) : Device :=
  d.setTeam b.core b.slot (b.team.modPack b.index fun _ =>
    { p with nextId := if u.long then p.nextId + u.dests.length else p.nextId })

/-- What each thread comes to once the instruction's own execution has answered (R64, R67, R192). The error of a row read comes before
`NAME_LIMIT` (log 102). -/
def Bun.result (b : Bun) (u : Use) (limit : Nat → Bool) (own : Nat → Res) (t : Nat) : Res :=
  if b.short u t then .fault .nameExhausted 0
  else if b.spoilt u t then .fault .memoryUncorrectable 0
  else if limit t then .fault .nameLimit 0
  else if b.part.getLsbD t then own t else {}

/-- The bundle goes on with its rows: the instruction's own execution, or the fault of R44. -/
def Device.goOn (d : Device) (b : Bun) (u : Use) (body : Bun → Device → Device × (Nat → Res)) (p : Pack) (part : Mask) (rows : List Nat)
    (limit : Nat → Bool) : Device :=
  let guarded := maskOf fun t => b.mask.getLsbD t && b.pack.guard b.h t
  let b := b.taking u p part rows
  let d := d.taking b u p
  if u.collective && (b.mask != BitVec.allOnes 32 || (guarded != 0 && guarded != b.mask)) then
    d.settle b u fun t =>
      if b.short u t then .fault .nameExhausted 0 else if b.spoilt u t then .fault .memoryUncorrectable 0 else if limit t then .fault .nameLimit 0 else .fault .illegalConvergence 0
  else
    let r := body b d
    r.1.settle b u (b.result u limit r.2)

/-- THE ISSUE OF ONE INSTRUCTION: names (R64), rows (R67, R69), convergence (R44), then the instruction's own execution, which
gets the device and answers it with each thread's result. -/
def Device.issue (d : Device) (h : Hdr) (u : Use) (body : Bun → Device → Device × (Nat → Res)) : Device :=
  match d.bun h u.flat with
  | none => d
  | some b =>
    match (b.spentPack u).rowsFor b.pack b.team d.now b.till (d.maxlive b.team.grid) (b.writers u) u.dests with
    | .ok p rows => d.goOn b u body p (b.partOf u) rows fun _ => false
    | .limit => d.goOn b u body (b.spentPack u) (b.partOf u &&& ~~~(b.writers u)) (alignRows u.dests []) fun t => (b.writers u).getLsbD t
    | .block need => d.holdBundle b (.allocation need)

/-! ### Common shapes of a body -/

/-- Each thread of Part in turn, ascending (R43), the device passed on. -/
def Bun.each (b : Bun) (d : Device) (f : Device → Nat → Device × Res) : Device × (Nat → Res) :=
  let r := b.ts.foldl (fun (acc : Device × List (Nat × Res)) t =>
    let x := f acc.1 t
    (x.1, (t, x.2) :: acc.2)) (d, [])
  (r.1, fun t => (aget r.2 t).getD {})

/-- Once for the bundle when Part is not empty; the result stands for every thread of Part. -/
def Bun.once (b : Bun) (d : Device) (f : Device → Nat → Device × Res) : Device × (Nat → Res) :=
  if b.part = 0 then (d, fun _ => {})
  else
    let r := f d b.low
    (r.1, fun _ => r.2)

/-- A value for each thread of Part, computed from what it reads; none when the thread may not read a source (R148). -/
def Device.value (d : Device) (i : Instr) (dest : Dst) (flat long : Bool) (f : Bun → Nat → Option Nat) : Device :=
  match i.hdr with
  | none => d
  | some h =>
    d.issue h { reads := i.reads, dests := [dest], flat := flat, long := long } fun b d =>
      (d, fun t => match f b t with | some v => .ok v | none => .fault .privilege 0)

/-- The n draws of a thread's generator; the lowest thread of the bundle draws for a uniform instruction (R88). -/
def drawsFrom : Nat → W64 → List Nat
  | 0, _ => []
  | n + 1, x => (nextRandom x).2 :: drawsFrom n (nextRandom x).1
def advanceBy : Nat → W64 → W64
  | 0, x => x
  | n + 1, x => advanceBy n (nextRandom x).1
def Bun.draws (b : Bun) (t n : Nat) : List Nat :=
  match b.thread (if b.uni then (lowest b.mask).getD t else t) with
  | some x => drawsFrom n x.gen
  | none => []

/-- Every thread of `m` advances its generator n times (R88). -/
def Device.advance (d : Device) (b : Bun) (m : Mask) (n : Nat) : Device :=
  d.modPack b.core b.slot b.index fun p =>
    { p with threads := imap (fun t (x : Thread) => if m.getLsbD t then { x with gen := advanceBy n x.gen } else x) 0 p.threads }

/-- A value for each thread of Part that is rounded n times in a mode; under `.rs` the thread's generator advances (R88). -/
def Device.rounded (d : Device) (i : Instr) (dest : Dst) (flat long : Bool) (r : Rnd) (n : Nat)
    (f : Bun → Nat → List Nat → Option Nat) : Device :=
  match i.hdr with
  | none => d
  | some h =>
    d.issue h { reads := i.reads, dests := [dest], flat := flat, long := long } fun b d =>
      let v := fun t => f b t (if r = .rs then b.draws t n else [])
      (if r = .rs then d.advance b (maskOf fun t => b.part.getLsbD t && (v t).isSome) n else d,
       fun t => match v t with | some v => .ok v | none => .fault .privilege 0)

/-- Commits the writes of a step to memory. -/
def State.commit (s : State) (d : Device) : State := { s with mem := s.mem.apply d.writes, dev := { d with writes := [] } }

/-- The device as a step begins: no write of the step made yet. -/
def State.start (s : State) : Device := { s.dev with writes := [] }
/-- The step of an instruction, a move or an event. -/
def State.run (s : State) (f : Memory → Device → Device) : Host.Outcome State Fault Refusal :=
  .next (s.commit (f s.mem s.start))

end Sys2Proof.Machine
end

