-- ==== Sys2Proof/Machine/Fetch.lean ====
section
/-! DEFINITION. Fetching a line and decoding the instruction at a PC (R119 to R127, R367), the target test (R124), and the
formation of a bundle (R40 to R45, R49). -/

namespace Sys2Proof.Machine

open Sys2Proof

/-- What a read of a code line comes to. -/
inductive LineRead where
  | ok (bytes : List Byte)
  | park (page : Nat)
  | wait                        -- no die link carries the access (R345)
  | fault (c : Code)
  deriving DecidableEq, Repr

/-- The partition's code window holds a line (R367). -/
def Part.window (p : Part) (va : Nat) : Bool :=
  let base := fld p.reg 767 704
  base ≤ va && va + 128 ≤ base + fld p.reg 831 768

/-- A cached line whose memory has changed: each byte is the old or the new one (R127). Of a byte written more than once, the new one is the
last (log 107). -/
def mixLine (k : Nat) : Nat → List Byte → List Byte → List Byte
  | i, o :: os, n :: ns => (if o = n then o else if Config.fetchesNew k i then n else o) :: mixLine k (i + 1) os ns
  | _, _, _ => []

/-- Reads a line by its virtual address through a core's instruction cache (R123, R124, R127, R201). -/
def Device.fetchLine (d : Device) (m : Memory) (core part va : Nat) : Device × LineRead :=
  match d.translate m (ridgeOf core) part va 3 with
  | (d, .miss) => (d, .park va)
  | (d, .fault c) => (d, .fault c)
  | (d, .ok pa w _) =>
    if !(d.part part).window va then (d, .fault .pagePermission)
    else
      match d.placeFault pa 128 w true false with
      | some c => (d, .fault c)
      | none =>
        if !d.linked (ridgeOf core) pa ((homeRidge pa (leafLocal w) (leafHome w)).getD 8) then (d, .wait)
        else
        let new := (List.range 128).map fun i => d.rdSeen m (pa + i)
        let key := part * 2 ^ 60 + va
        match aget (d.core core).icache key with
        | none => (d.modCore core fun c => { c with icache := aset c.icache key new }, .ok new)
        | some old =>
          if old = new then (d, .ok old)
          else ({ d with draws := d.draws + 1 }, .ok (mixLine d.draws 0 old new))

def lineOf (pc : W64) : Nat := bits pc.toNat 53 4 * 128
def slotOf (pc : W64) : Nat := pc.toNat % 16
def headerOf (line : List Byte) : Nat := leNat (line.take 8)
def headerKind (h : Nat) : Nat := bits h 31 30
def headerValid (h i : Nat) : Bool := bit h i
def headerTarget (h i : Nat) : Bool := bit h (10 + i)

/-- A malformed header (R120). -/
def malformed (h : Nat) : Bool :=
  bits h 63 32 != 0 || headerKind h == 3 ||
  (headerKind h == 0 && ((bits h 19 10 ||| bits h 29 20) &&& (1023 - bits h 9 0)) != 0) ||
  (headerKind h == 2 && bits h 29 0 != 0)

/-- The 12 bytes of slot i (R119). -/
def slotBytes (line : List Byte) (i : Nat) : List Byte := (line.drop (8 + 12 * i)).take 12

/-- The stages 1 to 3 of R126: the bytes of the instruction at a PC and its header, or what the fetch comes to. -/
def Device.fetch (d : Device) (m : Memory) (core part : Nat) (pc : W64) : Device × Except Fate (List Byte × Nat) :=
  if !isPc pc then (d, .error (.fault .badTarget 0 0))
  else
    match d.fetchLine m core part (lineOf pc) with
    | (d, .park va) => (d, .error (.park va 3))
    | (d, .wait) => (d, .error .hold)
    | (d, .fault c) => (d, .error (.fault c 0 (lineOf pc)))
    | (d, .ok line) =>
      let h := headerOf line
      if malformed h then (d, .error (.fault .malformedLine 0 0))
      else if headerKind h != 0 || !headerValid h (slotOf pc) then (d, .error (.fault .illegalSlot 0 0))
      else (d, .ok (slotBytes line (slotOf pc), h))

/-- The test of R124 on a new PC: none when the transfer is made. The slot of a `call` is tested before the line is read (log 105). -/
def Device.targetTest (d : Device) (m : Memory) (core part : Nat) (pc : W64) (call : Bool) : Device × Option Fate :=
  if !isPc pc || (call && slotOf pc != 0) then (d, some (.fault .badTarget 0 0))
  else
    match d.fetchLine m core part (lineOf pc) with
    | (d, .park va) => (d, some (.park va 3))
    | (d, .wait) => (d, some .hold)
    | (d, .fault c) => (d, some (.fault c 0 (lineOf pc)))
    | (d, .ok line) =>
      let h := headerOf line
      if malformed h then (d, some (.fault .malformedLine 0 0))
      else if headerTarget h (slotOf pc) then (d, none)
      else (d, some (.fault .badTarget 0 0))

/-- The instruction a PC would issue, when its fetch and decoding succeed. -/
def Device.peek (d : Device) (m : Memory) (core part : Nat) (pc : W64) : Option Instr :=
  match (d.fetch m core part pc).2 with
  | .error _ => none
  | .ok (bs, _) =>
    match decodeBytes bs with
    | .ok i => some i
    | .error _ => none

/-! ### Holding and eligibility (R40, R45, R49) -/

def Pack.scalPending (p : Pack) (i : Nat) : Bool :=
  p.flights.any fun f => f.mask != 0 && (match f.dst with | .scal j _ => j == i | _ => false)
def Pack.predPending (p : Pack) (t i : Nat) : Bool := p.flights.any fun f => f.mask.getLsbD t && f.dst == .pred i

/-- Something the instruction reads is still pending for thread t (R45, R167; log 20). -/
def Pack.waitsFor (p : Pack) (now t : Nat) (i : Instr) (extra : List Nat) : Bool :=
  (i.reads ++ extra).any (fun n => p.pendingName n t) ||
  (i.cross && i.reads.any (fun n => p.rows.any (fun r => r.name == n && now < r.busy) || p.writing n)) ||
  i.scals.any p.scalPending || i.preds.any (p.predPending t) ||
  (match i.hdr with | some h => p.predPending t h.gpred.toNat | none => false)

/-- The row name that `mma` and `mmar` read (R242). -/
def rowOf (o : MmaOp) (t : Team) : List Nat :=
  match (t.fmts.getD o.f.toNat none) with
  | some f => if bits f.toNat 7 5 != 0 || o.tag then [o.vs.toNat] else []
  | none => if o.tag then [o.vs.toNat] else []
def rowName (i : Instr) (t : Team) : List Nat :=
  match i with
  | .mma _ o => rowOf o t
  | .mmar _ o => rowOf o t
  | _ => []

def isSplit : Instr → Bool
  | .split .. => true
  | _ => false

/-- Thread t can enter a bundle, apart from what its next instruction reads (R40). -/
def Thread.free (x : Thread) (now : Nat) : Bool :=
  x.ready && x.lane ≤ now && x.holds.all (·.2 != 0) && x.pend.isEmpty && !(x.handler == .slice && x.resume.isSome)

/-- Thread t, whose next instruction is `ins` if its fetch and decoding succeed, is eligible (R40, R45, R49). -/
def Pack.eligibleFor (p : Pack) (t : Team) (now : Nat) (ins : Option Instr) (i : Nat) : Bool :=
  match ins with
  | none => true
  | some ins =>
    !p.waitsFor now i ins (rowName ins t) &&
    !(isSplit ins && (match p.serial with | some s => s.c != i | none => false) && (match ins.hdr with | some h => p.guard h i | none => true))
/-- The eligible threads at a PC. -/
def Pack.eligibleAt (p : Pack) (t : Team) (now : Nat) (pc : W64) (ins : Option Instr) : Mask :=
  maskOf fun i => match p.thread i with
    | some x => x.pc == pc && x.free now && p.eligibleFor t now ins i
    | none => false
/-- The eligible threads, PC by PC (R40). -/
def Device.eligible (d : Device) (m : Memory) (core : Nat) (t : Team) (p : Pack) : Mask :=
  ((p.threads.filter (·.free d.now)).map (·.pc)).dedup.foldl (fun e pc => e ||| p.eligibleAt t d.now pc (d.peek m core t.part pc)) 0

def Pack.pcOf (p : Pack) (t : Nat) : Nat :=
  match p.thread t with
  | some x => x.pc.toNat
  | none => 0

/-- The bundle formation of R40 and R49 over the eligible threads: the PC, the threads, F and C. -/
def Pack.form (p : Pack) (elig : Mask) (fair : Nat) : Option (W64 × Mask × Nat × W64 × Bool) :=
  let ts := threadsOf elig
  match leastBy p.pcOf ts with
  | none => none
  | some l =>
    let cur : Option Nat := match p.serial with
      | some s => if elig.getLsbD s.c then some s.c else none
      | none => none
    let h := match cur with | some c => p.pcOf c | none => p.pcOf l
    let cands := (ts.map p.pcOf).filter (· != h)
    let all := fun (pc : Nat) => maskOf fun t => elig.getLsbD t && p.pcOf t == pc
    let atH := match cur with | some c => oneBit c | none => all h
    if cands.isEmpty then some (BitVec.ofNat 64 h, atH, 0, p.cursor, false)
    else if p.fair ≥ fair then
      let above := cands.filter (· > p.cursor.toNat)
      let c := match leastBy (fun x => x) (if above.isEmpty then cands else above) with | some c => c | none => h
      some (BitVec.ofNat 64 c, all c, 0, BitVec.ofNat 64 c, true)
    else some (BitVec.ofNat 64 h, atH, p.fair + 1, p.cursor, false)

/-- The slice end has reached the pack, and it must enter the handler before it issues (R322). -/
def Device.sliceDue (d : Device) (core : Nat) (t : Team) (p : Pack) : Bool :=
  (d.core core).sliceFor == some t.part && !p.inSlice && !p.sliceDone && p.threads.all (·.handler != .fault)

/-- The slice-end budget of the core is spent: every pack of the partition stops at its boundary (R323). -/
def Device.sliceOver (d : Device) (core : Nat) (t : Team) : Bool :=
  (d.core core).sliceFor == some t.part && (d.core core).budget.any (· ≤ d.now)

/-- A matrix engine's queue holds the commands of R238 at most; an engine out of service takes none (R327). -/
def Engine.full (e : Engine) (now : Nat) : Bool := e.queue.length ≥ 32 || e.outUntil.any (now < ·)

/-- Commands guarded by a slot that are not yet decided, or a shadow open under it (R259). -/
def Device.slotBusy (d : Device) (core : Nat) (t : Team) (g : Nat) : Bool :=
  ((d.core core).engines.any fun (e : Engine) => e.queue.any fun (c : Cmd) => c.grid == t.grid && c.team == t.index && c.guard == some g && !c.started) ||
  t.shadows.any fun (x : Shadow) => x.slot == some g

/-- Two ranges of offsets overlap. -/
def overlaps (a n c k : Nat) : Bool := a < c + k && c < a + n && n != 0 && k != 0
/-- Scratchpad bytes, as offset and length, meet the range scoreboard (R191). -/
def Team.scored (t : Team) (xs : List (Nat × Nat)) (wr : Bool) : Bool :=
  t.copyQ.any fun (c : Cmd) => c.ranges.any fun x => (x.2.2 || wr) && xs.any fun y => overlaps x.1 x.2.1 y.1 y.2
/-- A team of a grid is saved and not resident (R179). -/
def Device.isSaved (d : Device) (grid team : Nat) : Bool :=
  (d.find grid team).isNone && (match aget d.grids grid with | some g => g.saved.any fun (s : Saved) => s.team.index == team | none => false)
/-- The lowest thread's earlier entries, or the values pending for the pack, hold an `nsave` or `nload` (R297). -/
def Device.valuesWait (d : Device) (core slot i : Nat) (p : Pack) (mask : Mask) (flights : Bool) : Bool :=
  let t := (lowest mask).getD 0
  (flights && !p.flights.isEmpty) || (match p.thread t with | some x => !x.queue.isEmpty | none => false) ||
  d.pool.any fun (r : Red) => r.owners.any fun o => o.1 == ⟨core, slot, i, t⟩
/-- What a waiting bundle waits for has come about (R39, R69, R179, R191, R239, R259, R297). -/
def Device.holdClear (d : Device) (core slot i : Nat) (t : Team) (p : Pack) (h : Hold) : Bool :=
  match h.why with
  | .allocation n => n ≤ p.granted
  | .engineQueue => !(d.engine core p.quad).full d.now
  | .copyQueue => t.copyQ.length < 16
  | .scoreboard xs wr => !t.scored xs wr
  | .guardSlot g => !d.slotBusy core t g
  | .savedPeer k => !d.isSaved t.grid k
  | .values fl => !d.valuesWait core slot i p h.mask fl
/-- The threads of a waiting bundle that still stand at it; those of `nsave` and `nload` wait at barrier (R38, R39). -/
def Pack.heldMask (p : Pack) : Mask :=
  match p.hold with
  | none => 0
  | some h => maskOf fun t => h.mask.getLsbD t && (match p.thread t with
    | some x => (x.ready || x.status == .atBarrier .values) && x.pc == h.pc && x.pend.isEmpty
    | none => false)

/-- The record and the element index of a wait on a barrier object, as its image holds them (R325; log 31). -/
def Wait.site : Wait → Nat
  | .phase _ _ _ _ s => s
  | .arrival _ _ s => s
  | _ => 0
/-- The hold of a waiting `nsave` or `nload`, for which a save waits (R302). -/
def Hold.saves (h : Hold) : Bool := match h.why with | .values _ => true | _ => false
/-- A slice end or a save keeps the pack from issuing, a waiting `nsave` or `nload` apart (R302, R322 to R324). -/
def Device.halted (d : Device) (core : Nat) (t : Team) (p : Pack) : Bool :=
  !(p.hold.any Hold.saves) && (t.saving.isSome || d.sliceDue core t p || d.sliceOver core t || p.sliceDone)
/-- The bundle the pack would form now: the PC and the threads (R39, R40, R42). -/
def Device.formed (d : Device) (m : Memory) (core slot i : Nat) (t : Team) (p : Pack) : Option (W64 × Mask × Nat × W64 × Bool) :=
  let q := d.part t.part
  if p.retired || t.stopping || d.halted core t p || p.rows.any (·.evicted) || (p.lanes.filter (· > d.now)).length ≥ 2 || !q.active || q.suspended || q.resetting.isSome || !d.trusted (ridgeOf core) || d.module.heldBy then none
  else
    match p.hold with
    | some h => if p.heldMask = 0 || !d.holdClear core slot i t p h then none else some (h.pc, p.heldMask, p.fair, p.cursor, p.rotated)
    | none => p.form (d.eligible m core t p) q.fair

/-- The packs of a quadrant that can form a bundle: slot, pack number, pack and the bundle (R42). -/
def Device.formers (d : Device) (m : Memory) (core quad : Nat) : List (Nat × Nat × Pack × (W64 × Mask × Nat × W64 × Bool)) :=
  (d.core core).teams.flatMap fun (s : Nat × Team) =>
    (List.range s.2.packs.length).filterMap fun i =>
      match s.2.packs[i]? with
      | some p => if p.quad == quad then (d.formed m core s.1 i s.2 p).map fun r => (s.1, i, p, r) else none
      | none => none

/-- The order of R42: no yield first, then the oldest last start, then the lower age stamp. -/
def Pack.rank (p : Pack) : Nat :=
  ((if p.yielded then 1 else 0) * 2 ^ 64 + (match p.lastStart with | some n => n + 1 | none => 0)) * 2 ^ 64 + p.stamp

/-- The pack a quadrant takes and its bundle (R42). -/
def Device.choosePack (d : Device) (m : Memory) (core quad : Nat) : Option (Nat × Nat × Pack × (W64 × Mask × Nat × W64 × Bool)) :=
  leastBy (fun (x : Nat × Nat × Pack × (W64 × Mask × Nat × W64 × Bool)) => x.2.2.1.rank) (d.formers m core quad)

/-- The bundle of threads and PC as a `Bun` without Part. -/
def Device.rawBun (d : Device) (core slot pack : Nat) (t : Team) (p : Pack) (mask : Mask) (pc : W64) : Bun :=
  { dev := d, core := core, slot := slot, index := pack, mask := mask, pc := pc, uni := false, part := 0, team := t, pack := p,
    rows := [], fls := [], h := ⟨false, 0, 0, false, false⟩ }

/-- A bundle has started: its quadrant and pack have had their start of the cycle, and the events of R341 are counted (R42). A bundle
that its instruction found to wait before its first cycle has not started (R39). -/
def Device.began (d : Device) (core slot i : Nat) (mask : Mask) : Device :=
  match d.team core slot, d.pack core slot i with
  | some t, some p =>
    if p.hold.isSome then d
    else
      let d := (d.count t.part (ridgeOf core) 2 1).count t.part (ridgeOf core) 3 (popc mask)
      (d.modCore core fun x => { x with quadStart := aset x.quadStart p.quad d.now }).modPack core slot i fun p => { p with lastStart := some d.now }
  | _, _ => d
/-- The bundle that stands in `cur` has started. -/
def Device.beganCur (d : Device) (c : Option Cur) : Device :=
  match c with
  | some c => d.began c.core c.slot c.pack c.mask
  | none => d
/-- Waiting threads of `nsave` and `nload` are ready for another try (R297). -/
def Pack.rouse (p : Pack) : Pack :=
  { p with threads := p.threads.map fun x => if x.status = .atBarrier .values then { x with status := .ready } else x }

/-- BUNDLE_START (R40, R42, R123 to R126): the quadrant takes a pack, forms its bundle and fetches its instruction. A fetch that
parks or faults ends the bundle; otherwise the bundle stands in `cur` and its instruction executes in the same step. The
`BAD_TARGET` of a first fetch comes after the tests of the line and before the word's, the model's choice (log 82). -/
def Device.bundleStart (m : Memory) (d : Device) (core quad : Nat) : Device :=
  let d := d.modCore core fun c => { c with teams := c.teams.map fun (t : Nat × Team) =>
    (t.1, { t.2 with packs := t.2.packs.map (Pack.release · d.now) }.sweep d.now) }
  if aget (d.core core).quadStart quad = some d.now || d.cur.isSome then d
  else
    match d.choosePack m core quad with
    | none => d
    | some (slot, i, p, (pc, mask, f, c, rot)) =>
      match d.team core slot with
      | none => d
      | some t =>
        let still := d
        let d := d.modPack core slot i fun p => { (if p.hold.isSome then p.rouse else p) with fair := f, cursor := c, rotated := rot }
        let r := d.fetch m core t.part pc
        let d := r.1
        let b := d.rawBun core slot i t ((d.pack core slot i).getD p) mask pc
        match r.2 with
        | .error .hold => still
        | .error fate =>
          let d := match fate with
            | .park va kind => d.parkRecord t.part (ridgeOf core) va kind (d.recOf (b.id ((lowest mask).getD 0)) .pageNotPresent 0 pc 0 0)
            | _ => d
          (d.settle b {} fun _ => { fate := fate }).began core slot i mask
        | .ok (bs, h) =>
          let starting := maskOf fun t => mask.getLsbD t && (match p.thread t with | some x => x.start | none => false)
          if starting != 0 && (slotOf pc != 0 || !headerTarget h 0) then
            (d.settle { b with mask := starting } {} fun _ => .fault .badTarget 0).began core slot i starting
          else
            match decodeBytes bs with
            | .error _ => (d.faultBundle b .illegalOpcode 0).began core slot i mask
            | .ok _ => { d with cur := some ⟨core, slot, i, mask, pc, bs⟩ }

/-- The instruction of the bundle in `cur`. -/
def Device.current (d : Device) : Option Instr :=
  match d.cur with
  | none => none
  | some c =>
    match decodeBytes c.word with
    | .ok i => some i
    | .error _ => none

end Sys2Proof.Machine
end

