-- ==== Sys2Proof/Machine/Access.lean ====
section
/-! DEFINITION. Buffer records, and a thread's access through one: offset, tests, translation and the places it reaches (R172 to
R180, R185 to R188, R191, R195, R196, R208, R220). -/

namespace Sys2Proof.Machine

open Sys2Proof

/-! ### The fields of a record (R173) -/

def recBase (r : BitVec 256) : Nat := fld r 63 0
def recExtent (r : BitVec 256) : Nat := fld r 103 64
def recStride (r : BitVec 256) : Nat := fld r 159 128
def recKind (r : BitVec 256) : Nat := fld r 167 160
def recEsz (r : BitVec 256) : Nat := fld r 170 168
def recSwz (r : BitVec 256) : Nat := fld r 173 171
def recOob (r : BitVec 256) : Bool := bit r.toNat 174
def recRd (r : BitVec 256) : Bool := bit r.toNat 175
def recWr (r : BitVec 256) : Bool := bit r.toNat 176
def recAtom (r : BitVec 256) : Bool := bit r.toNat 177
def recPeer (r : BitVec 256) : Nat := fld r 179 178

/-- A record is ill-formed (R174); `scrg` and `priv` bound its store. -/
def recBad (r : BitVec 256) (scrg priv : Nat) : Bool :=
  let k := recKind r
  fld r 255 180 != 0 || fld r 127 104 != 0 || recSwz r > 5 || k > 3 || (recPeer r != 0 && k != 3) ||
  (recSwz r != 0 && k != 1 && k != 3) || (recEsz r ≤ 6 && recBase r % 2 ^ recEsz r != 0) ||
  (k == 0 && recBase r + recExtent r > 2 ^ 57) || ((k == 1 || k == 3) && recBase r + recExtent r > 16384 * scrg) ||
  (k == 2 && recBase r + recExtent r > priv)

/-- The executing team's record bN; an unbound record is zero (log 22). -/
def Team.bufr (t : Team) (i : Nat) : BitVec 256 := t.recs.getD i 0
/-- The team's format slot fN (R92). -/
def Team.fmt (t : Team) (i : Nat) : Option W64 := t.fmts.getD i none

/-! ### The access -/

/-- What an access asks of its record (R178, R194, R195): kinds accepted, reads, writes, atomic, all three permissions (R211), size in bytes, element width of a
sub-byte access, the alignment it needs (0 for none), the scope of an atomic, and the access kind of R182. -/
structure Acc where
  kinds : List Nat
  rd    : Bool
  wr    : Bool
  atom  : Bool := false
  all   : Bool := false
  n     : Nat
  sub   : Option Nat := none
  align : Nat := 0
  scope : Option Nat := none
  kind  : Nat
  deriving DecidableEq, Repr

/-- One part of an access: the number of its first byte, its place and its virtual address. -/
structure AccPart where
  first : Nat
  place : Place
  rank  : Nat
  va    : Nat
  deriving DecidableEq, Repr

/-- What the tests of an access come to. -/
inductive Reach where
  | ok (parts : List AccPart) (bit n : Nat)   -- bit: place of a sub-byte element in its first byte; n: bytes reached
  | dropped                                   -- OOB 1 (R196)
  | bad (f : Fate)
  deriving DecidableEq, Repr

/-- The byte offset of an access, the bit in that byte and the bytes reached (R176, R177). That the two-index form on sub-byte elements adds
j × STRIDE bytes to the element's own offset is the model's choice (log 89). -/
def offsetOf (r : BitVec 256) (idx : Option Int × Int) (a : Acc) : Int × Nat × Nat :=
  let row : Int := match idx.1 with | some j => j * recStride r | none => 0
  match a.sub with
  | some w =>
    let p : Int := idx.2 * w
    (row + p / 8, (p % 8).toNat, ((p % 8).toNat + w + 7) / 8)
  | none => (row + idx.2 * 2 ^ recEsz r, 0, a.n)

/-- The store offset of a byte under the record's swizzle (R176). -/
def swizzle (r : BitVec 256) (o : Nat) : Nat :=
  if recSwz r = 0 then o else o ^^^ (o / 128 % 2 ^ recSwz r * 4)

/-- The ordering kind that a leaf gives (R184, R223). -/
def ordOf (w : W64) : OrdKind := if leafOrd w = 0 then .strong else if leafOrd w = 2 then .unordered else .release

/-- The widest scope of an atomic at a translated place (R208). -/
def placeScope (pa : Nat) (w : W64) : Nat :=
  if regionOf pa = .system then 3 else if leafApl w = 2 then 1 else if leafApl w = 0 then 2 else 3

/-- The place at which an atomic through a kind 0 record is performed (R208): code of Place.site for an access of a cluster. -/
def placeSite (pa cl : Nat) (w : W64) : Nat :=
  if regionOf pa = .system then 1 else if leafApl w = 2 then 2 + cl else if leafApl w = 0 then 0 else 1

/-- Translations of the parts of an access, in order (R180). -/
def Device.translateAll (d : Device) (m : Memory) (ridge p kind : Nat) : List (Nat × Nat × Nat) → Device × List (Nat × Nat × Nat × Tr)
  | [] => (d, [])
  | (f, va, n) :: ps =>
    let r := d.translate m ridge p va kind
    let rs := Device.translateAll r.1 m ridge p kind ps
    (rs.1, (f, va, n, r.2) :: rs.2)

/-- The parts of a kind 0 access, or the first fault in the order of R196. -/
def Device.reachPhys (d : Device) (m : Memory) (core p : Nat) (a : Acc) (rank : Nat) (va n : Nat) : Device × Except (Option Code × Nat) (List AccPart) :=
  let r := d.translateAll m (ridgeOf core) p a.kind (lineParts va n)
  let d := r.1
  let oks := r.2.filterMap fun x => match x.2.2.2 with | .ok pa w _ => some (x.1, x.2.1, x.2.2.1, pa, w) | _ => none
  match r.2.find? fun x => x.2.2.2 == .miss with
  | some x => (d, .error (none, x.2.1))
  | none =>
    match r.2.find? fun x => (match x.2.2.2 with | .fault _ => true | _ => false) with
    | some x => (d, .error (some .pagePermission, x.2.1))
    | none =>
      let first (p : Nat × Nat × Nat × Nat × W64 → Bool) := (oks.find? p).map (·.2.1)
      match first fun x => a.scope.any (· > placeScope x.2.2.2.1 x.2.2.2.2) with
      | some va => (d, .error (some .atomicPlace, va))
      | none =>
        match first fun x => (match homeRidge x.2.2.2.1 (leafLocal x.2.2.2.2) (leafHome x.2.2.2.2) with | some r => !d.trusted r | none => false) with
        | some va => (d, .error (some .dieQuarantined, va))
        | none =>
          match first fun x => d.alias x.2.2.2.1 x.2.2.1 (leafKey x.2.2.2.2) false with
          | some va => (d, .error (some .keyAlias, va))
          | none =>
            match first fun x => a.rd && d.isBad x.2.2.2.1 x.2.2.1 with
            | some va => (d, .error (some .memoryUncorrectable, va))
            | none =>
              (d, .ok (oks.map fun x =>
                { first := x.1, rank := if regionOf x.2.2.2.1 = .system then 3 else rank, va := x.2.1,
                  place := { space := .phys, addrs := (List.range x.2.2.1).map (x.2.2.2.1 + ·), key := leafKey x.2.2.2.2,
                             home := (homeRidge x.2.2.2.1 (leafLocal x.2.2.2.2) (leafHome x.2.2.2.2)).getD 8, kind := ordOf x.2.2.2.2,
                             site := if a.scope.isSome then placeSite x.2.2.2.1 (clusterOf core) x.2.2.2.2 else 0 } }))

/-- The team whose scratchpad a record of kind 1 or 3 reaches (R179). -/
def peerOf (t : Team) (r : BitVec 256) : Nat := if recKind r = 3 then 4 * (t.index / 4) + recPeer r else t.index

/-- The tests of R178, R195 and R196 on thread t's access through record r, and the places it reaches. `rank` is the access's own
for kind 0 (R220). An instruction without SZ, a barrier instruction among them, meets `BOUNDS` detail 2 at a record of sub-byte elements: the
model's choice (logs 15 and 88). -/
def Bun.reach (b : Bun) (d : Device) (m : Memory) (t : Nat) (r : BitVec 256) (idx : Option Int × Int) (a : Acc) (rank : Nat) : Device × Reach :=
  let k := recKind r
  let o := offsetOf r idx a
  let e := o.1
  let n := o.2.2
  let va := if k = 0 then ((recBase r + e) % 2 ^ 64).toNat else 0        -- the address for a record of R319
  if !a.kinds.contains k then (d, .bad (.fault .bounds 3 va))
  else if (a.rd && !a.atom && !recRd r) || (a.wr && !a.atom && !recWr r) || (a.atom && !recAtom r) ||
    (a.all && !(recRd r && recWr r && recAtom r)) then (d, .bad (.fault .bounds 1 va))
  else if a.sub.isSome != (recEsz r == 7) then (d, .bad (.fault .bounds 2 va))
  else if e < 0 || e + n > recExtent r then (d, if recOob r then .dropped else .bad (.fault .bounds 0 va))
  else
    let at_ := recBase r + e.toNat
    if a.align != 0 && at_ % a.align != 0 then (d, .bad (.fault .misaligned 0 va))
    else if k != 0 then
      if a.scope.any (· > (if k = 3 then 1 else 0)) then (d, .bad (.fault .atomicPlace 0 va))
      else if k = 2 then                 -- the addresses of a kind 2 place are those of the team's private store
        (d, .ok [{ first := 0, rank := 0, va := va,
                   place := { space := .phys, addrs := (List.range n).map ((32 * b.index + t) * d.lr b.team.grid lrPriv + at_ + ·) } }] o.2.1 n)
      else
        (d, .ok [{ first := 0, rank := if k = 3 then 1 else 0, va := va,
                   place := { space := .scratch b.team.grid (peerOf b.team r), addrs := (List.range n).map (fun i => swizzle r (at_ + i)),
                              site := if k = 3 && a.scope.isSome then 2 + clusterOf b.core else 0 } }] o.2.1 n)
    else
      match d.reachPhys m b.core b.team.part a rank at_ n with
      | (d, .ok ps) => (d, .ok ps o.2.1 n)
      | (d, .error (none, va)) =>
        (d.parkRecord b.team.part b.ridge va a.kind (d.recOf (b.id t) .pageNotPresent 0 b.pc 0 0), .bad (.park va a.kind))
      | (d, .error (some c, va)) => (d, .bad (.fault c 0 va))

/-! ### The cells of a place -/

/-- The die links carry a core's access to its place (R16, R345). -/
def Device.joined (d : Device) (core : Nat) (p : Place) : Bool := p.space != .phys || d.linked (ridgeOf core) (p.addrs.headD 0) p.home

/-- A resident team's scratchpad (R179). -/
def Device.scratchOf (d : Device) (grid team : Nat) : Memory :=
  match d.find grid team with
  | some (_, _, t) => t.scratch
  | none => []
/-- A place in a resident team's scratchpad takes in a word with an uncorrectable error (R192). -/
def Device.badWord (d : Device) (p : Place) : Bool :=
  match p.space with
  | .phys => false
  | .scratch g t => match d.find g t with | some (_, _, x) => p.addrs.any fun a => x.badScr.contains (a / 4) | none => false
/-- Words of 4 bytes written whole are good again (R192). -/
def mended (bad : List Nat) (addrs : List Nat) : List Nat := bad.filter fun w => !((List.range 4).all fun i => addrs.contains (4 * w + i))
/-- The physical address of the scratchpad of a saved team: its image in the save area (R217, R230). -/
def Device.imageOf (d : Device) (grid team : Nat) : Option Nat :=
  if (d.find grid team).isSome then none
  else (d.grid grid).bind fun g => (g.saved.find? fun (s : Saved) => s.team.index == team).map (·.scr)
/-- What a step on the image of a saved team's scratchpad meets, where the place stands in one: it reaches physical memory under key 0 (R187,
R188, R192, R217). -/
def Device.metImage (d : Device) (p : Place) (reads : Bool) : Option Code :=
  match p.space with
  | .phys => none
  | .scratch g t =>
    match d.imageOf g t with
    | none => none
    | some b =>
      let as := p.addrs.map (b + ·)
      if as.any fun a => match homeRidge a false 0 with | some r => !d.trusted r | none => false then some .dieQuarantined
      else if as.any fun a => d.alias a 1 0 false then some .keyAlias
      else if reads && as.any fun a => d.isBad a 1 then some .memoryUncorrectable
      else none
/-- Writes scratchpad bytes; while the team is saved its image holds them (R217, R230). -/
def Device.setScratch (d : Device) (grid team : Nat) (xs : List (Nat × Byte)) : Device :=
  match d.find grid team with
  | some (c, s, _) => d.modTeam c s fun t => { t with scratch := xs.foldl (fun m x => m.set x.1 x.2) t.scratch, badScr := mended t.badScr (xs.map (·.1)) }
  | none =>
    match d.imageOf grid team with
    | some a => xs.foldl (fun d x => d.wrKey0 (a + x.1) [x.2]) d
    | none => d

/-- The byte of a cell (R219). -/
def Device.cell (d : Device) (m : Memory) (s : Space) (a : Nat) : Byte :=
  match s with
  | .phys => d.rdSeen m a
  | .scratch g t => match d.imageOf g t with | some b => d.rdSeen m (b + a) | none => (d.scratchOf g t).read a
def Device.cells (d : Device) (m : Memory) (p : Place) : List Byte := p.addrs.map fun a => d.cell m p.space a

/-! ### Stalls of the whole bundle (R179, R191) -/

/-- A record reaches the scratchpad of the executing team itself (R179, R191). -/
def Team.own (t : Team) (r : BitVec 256) : Bool := (recKind r = 1 || recKind r = 3) && peerOf t r = t.index

/-- A scratchpad access of a thread meets the range scoreboard, or a saved peer (R179, R191). -/
def Device.stall (d : Device) (b : Bun) (r : BitVec 256) (idx : Nat → Option Int × Int) (a : Acc) (part : List Nat) : Option HoldWhy :=
  if recKind r = 3 && d.isSaved b.team.grid (peerOf b.team r) && !part.isEmpty then some (.savedPeer (peerOf b.team r))
  else
    let xs := part.filterMap fun t =>
      let o := offsetOf r (idx t) a
      if o.1 ≥ 0 && o.1 + o.2.2 ≤ recExtent r then some (recBase r + o.1.toNat, o.2.2) else none
    if b.team.own r && b.team.scored xs a.wr then some (.scoreboard xs a.wr) else none

/-- Whether the bundle of `cur` waits before an access (R179, R191); Part is taken before the name checks. -/
def Device.stalled (d : Device) (h : Hdr) (ri : BitVec 5) (idx : Src) (a : Acc) : Option (Bun × HoldWhy) :=
  match d.bun h idx.flat with
  | none => none
  | some b =>
    let r := b.team.bufr ri.toNat
    match d.stall b r (fun t => b.idx2 t idx) a ((threadsOf b.mask).filter fun t => b.pack.guard h t) with
    | some w => some (b, w)
    | none => none

end Sys2Proof.Machine
end

