-- ==== Sys2Proof/Machine/Control.lean ====
section
/-! DEFINITION. The meanings of the control, thread and name instructions (R128 to R144). -/

namespace Sys2Proof.Machine

open Sys2Proof

/-- The pack of the executing bundle is in serial mode (R48). -/
def Device.serialMode (d : Device) : Bool :=
  match d.cur with
  | none => false
  | some c => match d.pack c.core c.slot c.pack with | some p => p.serial.isSome | none => false

/-- Changes the bundle's pack. -/
def Device.modBunPack (d : Device) (b : Bun) (f : Pack → Pack) : Device := d.modPack b.core b.slot b.index f
/-- The bundle's pack as it stands now. -/
def Device.bunPack (d : Device) (b : Bun) : Pack := (d.pack b.core b.slot b.index).getD b.pack
/-- Changes thread t of the bundle's pack. -/
def Device.modBunThread (d : Device) (b : Bun) (t : Nat) (f : Thread → Thread) : Device := d.modThread (b.id t) f
/-- The bundle's team as it stands now. -/
def Device.bunTeam (d : Device) (b : Bun) : Team := (d.team b.core b.slot).getD b.team

/-- The test of R124 for the bundle's grid. -/
def Bun.test (b : Bun) (m : Memory) (d : Device) (pc : W64) (call : Bool) : Device × Option Fate :=
  let r := d.targetTest m b.core b.team.part pc call
  match r.2 with
  | some (.park va k) => (r.1.parkRecord b.team.part b.ridge va k (r.1.recOf (b.id b.low) .pageNotPresent 0 b.pc 0 0), r.2)
  | _ => r

def execNop (h : Hdr) (s : State) : Host.Outcome State Fault Refusal :=
  s.run fun _ d => d.issue h { flat := true } fun _ d => (d, fun _ => {})

def execYield (h : Hdr) (s : State) : Host.Outcome State Fault Refusal :=
  s.run fun _ d => d.issue h { flat := true, yields := true } fun _ d => (d, fun _ => {})

/-- `bra` (R131): one test for the bundle (R130). -/
def execBra (h : Hdr) (disp : BitVec 17) (slot : BitVec 4) (s : State) : Host.Outcome State Fault Refusal :=
  s.run fun m d => d.issue h { flat := true } fun b d => b.once d fun d _ =>
    let pc := staticTarget b.pc disp slot.toNat
    let r := b.test m d pc false
    (r.1, { fate := r.2.getD (.goto pc) })

/-- `brx` and `ret` (R132): each thread's own target. -/
def Device.indirect (m : Memory) (d : Device) (i : Instr) (a : Src) : Device :=
  match i.hdr with
  | none => d
  | some h => d.issue h { reads := i.reads, flat := a.flat } fun b d => b.each d fun d t =>
      let pc := BitVec.ofNat 64 (b.int t 64 a)
      let r := b.test m d pc false
      (r.1, { fate := r.2.getD (.goto pc) })
def execBrx (h : Hdr) (a : Src) (s : State) : Host.Outcome State Fault Refusal := s.run fun m d => d.indirect m (.brx h a) a
def execRet (h : Hdr) (a : Src) (s : State) : Host.Outcome State Fault Refusal := s.run fun m d => d.indirect m (.ret h a) a

/-- `call` (R133): the test comes before the row decision, and a failed one takes no row. -/
def execCall (h : Hdr) (dst : VSDst) (disp : BitVec 17) (slot : BitVec 4) (s : State) : Host.Outcome State Fault Refusal :=
  s.run fun m d =>
    match d.bun h true with
    | none => d
    | some b =>
      let part := maskOf fun t => b.mask.getLsbD t && b.pack.guard h t
      let pc := staticTarget b.pc disp slot.toNat
      let r := if part = 0 then (d, none) else { b with part := part }.test m d pc true
      let fate := r.2.getD (.goto pc)
      r.1.issue h { flat := true, dests := if r.2.isSome then [] else [VSDst.dst dst] } fun b d =>
        (d, fun _ => { fate := fate, vals := [(nextPc b.pc).toNat] })

/-- `split` (R47 to R49, R134). -/
def execSplit (h : Hdr) (disp : BitVec 17) (slot : BitVec 4) (s : State) : Host.Outcome State Fault Refusal :=
  s.run fun _ d => d.issue h { flat := !d.serialMode } fun b d =>
    let j := staticTarget b.pc disp slot.toNat
    if b.part = 0 then (d, fun _ => {})
    else
      match b.pack.serial with
      | some r =>
        (if b.part.getLsbD r.c then d.modBunPack b fun p => { p with serial := p.serial.map fun r => { r with d := r.d + 1 } } else d,
         fun t => if t = r.c then {} else { fate := .hold })
      | none =>
        (d.modBunPack b fun p =>
          if p.stack.length < 16 then { p with stack := { joinPc := j, members := b.part, arrived := 0, due := 0 } :: p.stack }
          else { p with serial := some { j := j, m := b.part, c := b.low, d := 0 } }, fun _ => {})

/-- One thread's `join` (R47, R49, R55): the pack after it, and whether the thread waits at join; its entry may release from cycle
`due` on. -/
def Pack.join (p : Pack) (t due : Nat) (pc : W64) : Pack × Bool :=
  let waits (p : Pack) : Pack := p.modThread t fun x => { x with status := .atJoin, start := false }
  let plain : Pack × Bool :=
    match p.innermost t with
    | some e => if e.joinPc = pc then ({ waits p with stack := arriveStack t due p.stack }, true) else (p, false)
    | none => (p, false)
  match p.serial with
  | some r =>
    if r.c = t then
      if r.d > 0 then ({ p with serial := some { r with d := r.d - 1 } }, false)
      else if r.j = pc then ((waits p).serialNext, true)
      else (p, false)
    else plain
  | none => plain

def execJoin (h : Hdr) (s : State) : Host.Outcome State Fault Refusal :=
  s.run fun _ d => d.issue h { flat := !d.serialMode } fun b d => b.each d fun d t =>
    let r := (d.bunPack b).join t (b.cycle t + 1) b.pc
    (d.modBunPack b fun _ => r.1, { fate := if r.2 then .left else .next })

/-- One thread's `brk` of n entries, which R46 applies to from cycle `due` on (R47, R49, R55). -/
def Pack.brk (p : Pack) (t n due : Nat) : Pack :=
  match p.serial with
  | some r =>
    if r.c = t then
      if n ≤ r.d then { p with serial := some { r with d := r.d - n } }
      else (p.serialLeave t).leave t (n - r.d - 1) due
    else p.leave t n due
  | none => p.leave t n due

def execBrk (h : Hdr) (n : BitVec 4) (disp : BitVec 17) (slot : BitVec 4) (s : State) : Host.Outcome State Fault Refusal :=
  s.run fun m d => d.issue h { flat := !d.serialMode } fun b d =>
    if b.part = 0 then (d, fun _ => {})
    else
      let pc := staticTarget b.pc disp slot.toNat
      let r := b.test m d pc false
      match r.2 with
      | some f => (r.1, fun _ => { fate := f })
      | none => b.each r.1 fun d t => (d.modBunPack b fun p => p.brk t (n.toNat + 1) (b.cycle t + 1), { fate := .goto pc })

/-- `exit` (R47, R49, R66, R135). -/
def execExit (h : Hdr) (s : State) : Host.Outcome State Fault Refusal :=
  s.run fun _ d => (d.issue h { flat := !d.serialMode } fun b d => b.each d fun d t =>
    (d.modBunPack b fun p => (p.exitThread t (b.cycle t + 1)).yield, { fate := .left })).coopAfter d.cur

def execTrap (h : Hdr) (n : BitVec 17) (s : State) : Host.Outcome State Fault Refusal :=
  s.run fun _ d => d.issue h { flat := true } fun _ d => (d, fun _ => .fault .softwareTrap n.toNat)

def execTrapDbg (h : Hdr) (n : BitVec 17) (s : State) : Host.Outcome State Fault Refusal :=
  s.run fun _ d => d.issue h { flat := true } fun _ d => (d, fun _ => .fault .debugBreak n.toNat)

/-- The children of a team that have not retired or been refused (R139). -/
def Team.children (t : Team) : Nat := (t.spn - t.cmp).toNat - t.childDone.length

/-- `spawn` (R52, R53, R139, R140): the tests, the sequence number, and the release and load entries of R221; the child is submitted
by SPAWN_SUBMIT. -/
def execSpawn (h : Hdr) (v : VDst) (rb : BitVec 5) (idx : Src) (s : State) : Host.Outcome State Fault Refusal :=
  s.run fun m d => d.issue h { reads := (Instr.spawn h v rb idx).reads, dests := [VDst.dst v], flat := idx.flat, long := true } fun b d =>
    b.each d fun d t =>
      let r := b.team.bufr rb.toNat
      let i := signed 32 (b.int t 32 idx)
      let at_ := ((recBase r + 256 * i) % 2 ^ 64).toNat
      if b.depth + 1 > 10 then (d, .fault .nestDepth 0)
      else if recKind r != 0 then (d, .fault .bounds 3)
      else if !recRd r then (d, { fate := .fault .bounds 1 at_ })
      else if i < 0 || 256 * i + 256 > recExtent r then (d, { fate := .fault .bounds 0 at_ })
      else
        let va := recBase r + 256 * i.toNat
        if va % 64 != 0 then (d, { fate := .fault .misaligned 0 at_ })
        else
          match d.reachPhys m b.core b.team.part { kinds := [0], rd := true, wr := false, n := 256, kind := 0 } 2 va 256 with
          | (d, .error (none, a)) =>
            (d.parkRecord b.team.part b.ridge a 0 (d.recOf (b.id t) .pageNotPresent 0 b.pc 0 0), { fate := .park a 0 })
          | (d, .error (some c, a)) => (d, { fate := .fault c 0 a })
          | (d, .ok ps) =>
            if (d.bunTeam b).children ≥ 2 ^ 31 - 1 then
              (d.modBunThread b t fun x => { x with status := .atBarrier .spawnHold }, { fate := .hold })
            else
              let q := (d.bunTeam b).spn + 1
              let n := d.nextSpawn
              let d := { d with nextSpawn := n + 1 }.modTeam b.core b.slot fun x => { x with spn := q }
              (d.modBunThread b t fun x =>
                ps.foldl (fun x p => x.push (.spawnLoad (b.fls.getD 0 0) p.first q n) p.place p.rank none p.va) x.releaseW, {})

/-- The condition of R141: child s and every earlier child of the team have retired or been refused. -/
def cwaitDone (cmp seq : W32) : Bool := (cmp - seq).toNat < 2 ^ 31

/-- `cwait` of a sequence number (R141). -/
def Device.cwait (d : Device) (i : Instr) (flat : Bool) (sq : Bun → Nat → W32) : Device :=
  match i.hdr with
  | none => d
  | some h => d.issue h { reads := i.reads, flat := flat } fun b d => b.each d fun d t =>
      if cwaitDone b.team.cmp (sq b t) then (d.modBunThread b t (·.acquire), {})
      else (d, { fate := .wait (.cwait (sq b t)) })
def execCwait (h : Hdr) (a : Src) (s : State) : Host.Outcome State Fault Refusal :=
  s.run fun _ d => d.cwait (.cwait h a) a.flat fun b t => BitVec.ofNat 32 (b.int t 32 a)
def execCwaitAll (h : Hdr) (s : State) : Host.Outcome State Fault Refusal :=
  s.run fun _ d => d.cwait (.cwaitAll h) true fun b _ => b.team.spn

/-- `sleep` (R137). -/
def execSleep (h : Hdr) (a : Src) (s : State) : Host.Outcome State Fault Refusal :=
  s.run fun _ d => d.issue h { reads := (Instr.sleep h a).reads, flat := a.flat } fun b d =>
    (d, fun t =>
      let n := min (b.int t 32 a) 1048576
      if n = 0 then {} else { fate := .wait (.sleep (b.cycle t + n)) })

/-- The value `mov` copies to a destination of w bits (R142). -/
def Bun.movVal (b : Bun) (t w : Nat) : Src1 → Nat
  | .reg (.name n) => b.name t n
  | .reg a => b.int t w a
  | .wide i => i.int w
def Src1.flat : Src1 → Bool
  | .reg a => Src.flat a
  | .wide _ => true
def Bun.deniedMov (b : Bun) (t : Nat) : Src1 → Bool
  | .reg a => b.denied t a
  | .wide _ => false

/-- `mov` (R142). The names of a span are 32 bits wide, the model's choice (log 86). -/
def execMov (h : Hdr) (dst : VNDst) (a : Src1) (ext : BitVec 8) (s : State) : Host.Outcome State Fault Refusal :=
  s.run fun _ d =>
    match dst with
    | .v v => d.value (.mov h dst a ext) (VDst.dst v) (Src1.flat a) false fun b t =>
        if b.deniedMov t a then none else some (b.movVal t (if v.wide then 64 else 32) a)
    | .n v => d.issue h { reads := (Instr.mov h dst a ext).reads, dests := spanDsts v false ext } fun b d =>
        (d, fun t => { vals := ((Instr.mov h dst a ext).reads).map fun n => b.pack.value n t false .whole })

/-- The count after `drop` of k reads, 15 for all, and whether it faults (R65). -/
def dropCount (k c : Nat) : Nat × Bool :=
  if k = 15 then (0, false)
  else if c = 15 then (15, false)
  else if c = 0 then (0, true)
  else if k ≤ c then (c - k, false)
  else (0, true)
/-- The count after `keep` of k reads, and whether it faults (R65). -/
def keepCount (k c : Nat) : Nat × Bool :=
  if c = 0 then (0, true) else if c = 15 then (15, false) else if c + k ≤ 14 then (c + k, false) else (15, false)

/-- Counts changed for one thread, name by name, up to the first fault (R143). -/
def Pack.changeCounts (f : Nat → Nat × Bool) (t till : Nat) : List Nat → Pack → Pack × Bool
  | [], p => (p, false)
  | n :: ns, p =>
    let r := f (p.count n t)
    let p := p.setCount n t r.1 till
    if r.2 then (p, true) else Pack.changeCounts f t till ns p
/-- `drop` and `keep` (R65, R143): no read is spent, and neither is uniform. -/
def Device.counts (d : Device) (h : Hdr) (v : Src) (ext : BitVec 8) (f : Nat → Nat × Bool) : Device :=
  d.issue h {} fun b d => b.each d fun d t =>
    let r := Pack.changeCounts f t (b.cycle t + 1) (v.reads ext) (d.bunPack b)
    (d.modBunPack b fun _ => r.1, { fate := if r.2 then .fault .nameExhausted 0 0 else .next })
def execDrop (h : Hdr) (k : BitVec 4) (v : Src) (ext : BitVec 8) (s : State) : Host.Outcome State Fault Refusal :=
  s.run fun _ d => d.counts h v ext (dropCount k.toNat)
def execKeep (h : Hdr) (k : BitVec 4) (v : Src) (ext : BitVec 8) (s : State) : Host.Outcome State Fault Refusal :=
  s.run fun _ d => d.counts h v ext (keepCount k.toNat)

/-- `live` (R144): the count as it stood before the instruction's own destination. -/
def execLive (h : Hdr) (form : LiveForm) (v : VDst) (s : State) : Host.Outcome State Fault Refusal :=
  s.run fun _ d =>
    d.issue h { dests := [VDst.dst v], flat := (match form with | .plain _ => false | _ => true) } fun b d =>
      (d, fun t => .ok (match form with
        | .plain (.name n) => b.pack.count n.idx.toNat t
        | .plain _ => 0
        | .pack => b.pack.rowTotal b.dev.now
        | .team => b.team.resident))

end Sys2Proof.Machine
end

