-- ==== Sys2Proof/Machine/Integer.lean ====
section
/-! DEFINITION. The meanings of the integer and scalar instructions (R150 to R155). -/

namespace Sys2Proof.Machine

open Sys2Proof

/-- W of an integer instruction (R147). -/
def width (wide : Bool) : Nat := if wide then 64 else 32

/-- An integer instruction of two sources: f takes W and u(a), u(b), and the result is stored modulo 2^W (R147, R148). -/
def Device.intOp (d : Device) (i : Instr) (o : Op2) (f : Nat → Nat → Nat → Int) : Device :=
  d.value i (VDst.dst o.d) o.s.flat false fun b t =>
    let w := width o.d.wide
    let x := b.int2 t w o.s
    if b.denied2 t o.s then none else some (wrap w (f w x.1 x.2))
/-- An integer instruction of one source. -/
def Device.intOp1 (d : Device) (i : Instr) (v : VDst) (a : Src) (f : Nat → Nat → Int) : Device :=
  d.value i (VDst.dst v) a.flat false fun b t =>
    let w := width v.wide
    if b.denied t a then none else some (wrap w (f w (b.int t w a)))
/-- An integer instruction of three sources, the first two at `ws` bits and the third a name at W (R109). -/
def Device.intOp3 (d : Device) (i : Instr) (o : Op3) (ws w : Nat) (f : Nat → Nat → Nat → Int) : Device :=
  d.value i (VDst.dst o.d) false false fun b t =>
    if b.denied t o.a || b.denied t o.b then none
    else some (wrap w (f (b.int t ws o.a) (b.int t ws o.b) (b.extName t o.c w)))

/-! ### Results (R151, R152) -/

def mulHigh (sgn : Bool) (w x y : Nat) : Int := valueOf sgn w x * valueOf sgn w y / 2 ^ w
def absInt (w x : Nat) : Int := (signed w x).natAbs
def shiftLeft (w x n : Nat) : Int := if n ≥ w then 0 else ((x * 2 ^ n : Nat) : Int)
def shiftRight (w x n : Nat) : Int := if n ≥ w then 0 else ((x / 2 ^ n : Nat) : Int)
def shiftArith (w x n : Nat) : Int := signed w x / 2 ^ min n (w - 1)
def bitCount (w x : Nat) : Nat := (List.range w).foldl (fun a i => if bit x i then a + 1 else a) 0
def leadZeros (w x : Nat) : Nat := if x % 2 ^ w = 0 then w else w - 1 - (x % 2 ^ w).log2
/-- A sum clamped to the range of W bits (R151). -/
def addClamp (sgn : Bool) (w x y : Nat) : Int :=
  let r := valueOf sgn w x + valueOf sgn w y
  if sgn then max (-2 ^ (w - 1)) (min (2 ^ (w - 1) - 1) r) else max 0 (min (2 ^ w - 1) r)
/-- The field of R152: position and length. -/
def bitField (w ctl : Nat) : Nat × Nat :=
  let pos := ctl % 256
  let len := ctl / 256 % 256
  if pos ≥ w || len = 0 then (pos, 0) else (pos, min len (w - pos))
def fieldExtract (sgn : Bool) (w x ctl : Nat) : Int :=
  let p := bitField w ctl
  if p.2 = 0 then 0 else valueOf sgn p.2 (x / 2 ^ p.1)
def fieldInsert (w x ctl y : Nat) : Nat :=
  let p := bitField w ctl
  let mask := if p.2 = 0 then 0 else (2 ^ p.2 - 1) * 2 ^ p.1
  (x &&& (2 ^ w - 1 - mask)) ||| ((y * 2 ^ p.1) &&& mask)

def execIadd (h : Hdr) (o : Op2) (s : State) : Host.Outcome State Fault Refusal :=
  s.run fun _ d => d.intOp (.iadd h o) o fun _ x y => (x : Int) + y
def execIsub (h : Hdr) (o : Op2) (s : State) : Host.Outcome State Fault Refusal :=
  s.run fun _ d => d.intOp (.isub h o) o fun _ x y => (x : Int) - y
def execImul (h : Hdr) (o : Op2) (s : State) : Host.Outcome State Fault Refusal :=
  s.run fun _ d => d.intOp (.imul h o) o fun _ x y => (x : Int) * y
def execImulh (h : Hdr) (sgn : Bool) (o : Op2) (s : State) : Host.Outcome State Fault Refusal :=
  s.run fun _ d => d.intOp (.imulh h sgn o) o (mulHigh sgn)
def execImad (h : Hdr) (o : Op3) (s : State) : Host.Outcome State Fault Refusal :=
  s.run fun _ d => d.intOp3 (.imad h o) o (width o.d.wide) (width o.d.wide) fun x y z => (x : Int) * y + z
def execImadw (h : Hdr) (sgn : Bool) (o : Op3) (s : State) : Host.Outcome State Fault Refusal :=
  s.run fun _ d => d.intOp3 (.imadw h sgn o) o 32 64 fun x y z => valueOf sgn 32 x * valueOf sgn 32 y + z
def execImin (h : Hdr) (sgn : Bool) (o : Op2) (s : State) : Host.Outcome State Fault Refusal :=
  s.run fun _ d => d.intOp (.imin h sgn o) o fun w x y => min (valueOf sgn w x) (valueOf sgn w y)
def execImax (h : Hdr) (sgn : Bool) (o : Op2) (s : State) : Host.Outcome State Fault Refusal :=
  s.run fun _ d => d.intOp (.imax h sgn o) o fun w x y => max (valueOf sgn w x) (valueOf sgn w y)
def execIabs (h : Hdr) (v : VDst) (a : Src) (s : State) : Host.Outcome State Fault Refusal :=
  s.run fun _ d => d.intOp1 (.iabs h v a) v a absInt
def execAnd (h : Hdr) (o : Op2) (s : State) : Host.Outcome State Fault Refusal :=
  s.run fun _ d => d.intOp (.and h o) o fun _ x y => ((x &&& y : Nat) : Int)
def execOr (h : Hdr) (o : Op2) (s : State) : Host.Outcome State Fault Refusal :=
  s.run fun _ d => d.intOp (.or h o) o fun _ x y => ((x ||| y : Nat) : Int)
def execXor (h : Hdr) (o : Op2) (s : State) : Host.Outcome State Fault Refusal :=
  s.run fun _ d => d.intOp (.xor h o) o fun _ x y => ((x ^^^ y : Nat) : Int)
def execNot (h : Hdr) (v : VDst) (a : Src) (s : State) : Host.Outcome State Fault Refusal :=
  s.run fun _ d => d.intOp1 (.not h v a) v a fun _ x => -(x : Int) - 1
def execShl (h : Hdr) (o : Op2) (s : State) : Host.Outcome State Fault Refusal :=
  s.run fun _ d => d.intOp (.shl h o) o shiftLeft
def execShr (h : Hdr) (o : Op2) (s : State) : Host.Outcome State Fault Refusal :=
  s.run fun _ d => d.intOp (.shr h o) o shiftRight
def execSar (h : Hdr) (o : Op2) (s : State) : Host.Outcome State Fault Refusal :=
  s.run fun _ d => d.intOp (.sar h o) o shiftArith
def execBfx (h : Hdr) (sgn : Bool) (o : Op2) (s : State) : Host.Outcome State Fault Refusal :=
  s.run fun _ d => d.intOp (.bfx h sgn o) o (fieldExtract sgn)
def execBfi (h : Hdr) (o : Op3) (s : State) : Host.Outcome State Fault Refusal :=
  s.run fun _ d => d.intOp3 (.bfi h o) o (width o.d.wide) (width o.d.wide) fun x y z => (fieldInsert (width o.d.wide) x y z : Int)
def execPopc (h : Hdr) (v : VDst) (a : Src) (s : State) : Host.Outcome State Fault Refusal :=
  s.run fun _ d => d.intOp1 (.popc h v a) v a fun w x => (bitCount w x : Int)
def execClz (h : Hdr) (v : VDst) (a : Src) (s : State) : Host.Outcome State Fault Refusal :=
  s.run fun _ d => d.intOp1 (.clz h v a) v a fun w x => (leadZeros w x : Int)

/-- `icmp` (R153). -/
def execIcmp (h : Hdr) (o : ICmp) (s : State) : Host.Outcome State Fault Refusal :=
  s.run fun _ d => d.value (.icmp h o) (.pred o.p.toNat) o.s.flat false fun b t =>
    let w := width o.w64
    let x := b.int2 t w o.s
    if b.denied2 t o.s then none else some (condInt o.cond o.sgn w x.1 x.2).toNat

/-- `sel` (R153): never uniform. -/
def execSel (h : Hdr) (k : BitVec 3) (o : Op2) (s : State) : Host.Outcome State Fault Refusal :=
  s.run fun _ d => d.value (.sel h k o) (VDst.dst o.d) false false fun b t =>
    let x := b.int2 t (width o.d.wide) o.s
    if b.denied2 t o.s then none else some (if b.pack.pred t k.toNat then x.1 else x.2)
def execIadds (h : Hdr) (sgn : Bool) (o : Op2) (s : State) : Host.Outcome State Fault Refusal :=
  s.run fun _ d => d.intOp (.iadds h sgn o) o (addClamp sgn)

/-- WID of the second source of `lea`; an immediate or a system register is read at W (R147, R150). -/
def leaWidth (w : Nat) : Src2 → Nat
  | .reg _ (.name n) => width n.wide
  | .reg _ (.scal x) => width x.wide
  | _ => w
/-- `lea` (R151). -/
def execLea (h : Hdr) (n : BitVec 3) (sgn : Bool) (o : Op2) (s : State) : Host.Outcome State Fault Refusal :=
  s.run fun _ d => d.value (.lea h n sgn o) (VDst.dst o.d) o.s.flat false fun b t =>
    let w := width o.d.wide
    let wi := leaWidth w o.s
    let x := b.int2 t w o.s
    if b.denied2 t o.s then none else some (wrap w ((x.1 : Int) + valueOf sgn wi x.2 * 2 ^ n.toNat))

/-! ### The scalar group (R154, R155) -/

/-- A scalar instruction of two sources at the width of its destination. Its result is the lowest thread's of Part,
also where that thread's source is denied and others go on: the model's choice (log 87). -/
def Device.scalOp (d : Device) (i : Instr) (o : SOp2) (f : Nat → Nat → Nat → Int) : Device :=
  match i.hdr with
  | none => d
  | some h => d.issue h { reads := i.reads, dests := [SDst.dst o.d], flat := o.s.flat } fun b d =>
      let w := width o.d.wide
      let x := b.int2 b.low w o.s
      let r := Res.ok (wrap w (f w x.1 x.2))
      (d, fun t => if b.denied2 t o.s then .fault .privilege 0 else r)

def execSadd (h : Hdr) (o : SOp2) (s : State) : Host.Outcome State Fault Refusal :=
  s.run fun _ d => d.scalOp (.sadd h o) o fun _ x y => (x : Int) + y
def execSsub (h : Hdr) (o : SOp2) (s : State) : Host.Outcome State Fault Refusal :=
  s.run fun _ d => d.scalOp (.ssub h o) o fun _ x y => (x : Int) - y
def execSmul (h : Hdr) (o : SOp2) (s : State) : Host.Outcome State Fault Refusal :=
  s.run fun _ d => d.scalOp (.smul h o) o fun _ x y => (x : Int) * y
/-- The operations of `sand` (R154, R155). -/
def sandOp (op : BitVec 3) (w x y : Nat) : Int :=
  match op.toNat with
  | 0 => ((x &&& y : Nat) : Int)
  | 1 => ((x ||| y : Nat) : Int)
  | 2 => ((x ^^^ y : Nat) : Int)
  | 3 => shiftLeft w x y
  | 4 => shiftRight w x y
  | _ => shiftArith w x y
def execSand (h : Hdr) (op : BitVec 3) (o : SOp2) (s : State) : Host.Outcome State Fault Refusal :=
  s.run fun _ d => d.scalOp (.sand h op o) o (sandOp op)

/-- `smov` (R155). -/
def execSmov (h : Hdr) (v : SDst) (a : Src1) (s : State) : Host.Outcome State Fault Refusal :=
  s.run fun _ d =>
    let flat := match a with | .reg x => Src.flat x | .wide _ => true
    d.issue h { reads := (Instr.smov h v a).reads, dests := [SDst.dst v], flat := flat } fun b d =>
      let w := width v.wide
      let r := Res.ok (match a with | .reg x => b.int b.low w x | .wide i => i.int w)
      (d, fun t => if (match a with | .reg x => b.denied t x | .wide _ => false) then .fault .privilege 0 else r)

/-- `scmp` writes its predicate for every thread of Part (R155). -/
def execScmp (h : Hdr) (o : ICmp) (s : State) : Host.Outcome State Fault Refusal :=
  s.run fun _ d => d.issue h { reads := (Instr.scmp h o).reads, dests := [.pred o.p.toNat], flat := o.s.flat } fun b d =>
    let w := width o.w64
    let x := b.int2 b.low w o.s
    let r := Res.ok (condInt o.cond o.sgn w x.1 x.2).toNat
    (d, fun t => if b.denied2 t o.s then .fault .privilege 0 else r)

def execSbcast (h : Hdr) (v : SDst) (a : Src) (s : State) : Host.Outcome State Fault Refusal :=
  s.run fun _ d => d.issue h { reads := (Instr.sbcast h v a).reads, dests := [SDst.dst v] } fun b d =>
    (d, fun _ => .ok (b.int b.low (width v.wide) a))

/-- A guard slot as `sget` reads it (R155). -/
def Guard.code : Guard → Nat
  | .unresolved => 0
  | .isTrue => 1
  | .isFalse => 2
/-- `sget` (R155). -/
def execSget (h : Hdr) (v : SDst) (a : Src) (s : State) : Host.Outcome State Fault Refusal :=
  s.run fun _ d => d.issue h { dests := [SDst.dst v], flat := true } fun b d =>
    (d, fun _ =>
      match a with
      | .fmt i => (match b.team.fmts.getD i.toNat none with | some f => .ok f.toNat | none => .fault .formatSlot 0)
      | .slot i => .ok (Guard.code (b.team.guards.getD i.toNat .unresolved))
      | _ => .ok 0)

end Sys2Proof.Machine
end

