-- ==== Sys2Proof/Machine/Fp.lean ====
section
/-! DEFINITION. The meanings of the floating-point instructions (R156 to R160). -/

namespace Sys2Proof.Machine

open Sys2Proof

/-- RoundTo with kind IEEE and the first draw, as the bits of format f (R157). -/
def roundBits (f : Fmt) (r : Rnd) (ds : List Nat) (x : Ex) : Nat := f.encode (roundTo x f r .ieee (ds.headD 0))

/-- A floating-point instruction of two sources in format f of w bits: the exact result rounded once (R157, R158). -/
def Device.fpOp (d : Device) (i : Instr) (f : Fmt) (w : Nat) (long : Bool) (r : Rnd) (o : Op2) (op : Ex → Ex → Ex) : Device :=
  d.rounded i (VDst.dst o.d) o.s.flat long r 1 fun b t ds =>
    let x := b.fp2 t f w o.s
    some (roundBits f r ds (op x.1 x.2))
/-- The same with three sources, the third a name in EXT. -/
def Device.fpOp3 (d : Device) (i : Instr) (f : Fmt) (w : Nat) (long : Bool) (r : Rnd) (o : Op3) : Device :=
  d.rounded i (VDst.dst o.d) false long r 1 fun b t ds =>
    some (roundBits f r ds (((b.fp t f w o.a).mul (b.fp t f w o.b)).add (r == .rdn) (f.decode (b.extName t o.c w))))
/-- An FP32 instruction of one source. -/
def Device.fpOp1 (d : Device) (i : Instr) (long : Bool) (r : Rnd) (v : VDst) (a : Src) (op : Ex → List Nat → Nat) : Device :=
  d.rounded i (VDst.dst v) a.flat long r 1 fun b t ds => some (op (b.fp t fp32 32 a) ds)

def fsubEx (r : Rnd) (x y : Ex) : Ex := x.add (r == .rdn) y.neg

def execFadd (h : Hdr) (r : Rnd) (o : Op2) (s : State) : Host.Outcome State Fault Refusal :=
  s.run fun _ d => d.fpOp (.fadd h r o) fp32 32 false r o (Ex.add (r == .rdn))
def execFsub (h : Hdr) (r : Rnd) (o : Op2) (s : State) : Host.Outcome State Fault Refusal :=
  s.run fun _ d => d.fpOp (.fsub h r o) fp32 32 false r o (fsubEx r)
def execFmul (h : Hdr) (r : Rnd) (o : Op2) (s : State) : Host.Outcome State Fault Refusal :=
  s.run fun _ d => d.fpOp (.fmul h r o) fp32 32 false r o Ex.mul
def execFfma (h : Hdr) (r : Rnd) (o : Op3) (s : State) : Host.Outcome State Fault Refusal :=
  s.run fun _ d => d.fpOp3 (.ffma h r o) fp32 32 false r o
def execFdiv (h : Hdr) (r : Rnd) (o : Op2) (s : State) : Host.Outcome State Fault Refusal :=
  s.run fun _ d => d.fpOp (.fdiv h r o) fp32 32 true r o Ex.div
def execDadd (h : Hdr) (r : Rnd) (o : Op2) (s : State) : Host.Outcome State Fault Refusal :=
  s.run fun _ d => d.fpOp (.dadd h r o) fp64 64 true r o (Ex.add (r == .rdn))
def execDmul (h : Hdr) (r : Rnd) (o : Op2) (s : State) : Host.Outcome State Fault Refusal :=
  s.run fun _ d => d.fpOp (.dmul h r o) fp64 64 true r o Ex.mul
def execDfma (h : Hdr) (r : Rnd) (o : Op3) (s : State) : Host.Outcome State Fault Refusal :=
  s.run fun _ d => d.fpOp3 (.dfma h r o) fp64 64 true r o

/-- `fmin` and `fmax` (R159): no rounding and no draw. -/
def Device.fpPick (d : Device) (i : Instr) (nan max : Bool) (o : Op2) : Device :=
  d.value i (VDst.dst o.d) o.s.flat false fun b t =>
    let x := b.fp2 t fp32 32 o.s
    some (fp32.encode (fpSelect nan max x.1 x.2))
def execFmin (h : Hdr) (nan : Bool) (o : Op2) (s : State) : Host.Outcome State Fault Refusal :=
  s.run fun _ d => d.fpPick (.fmin h nan o) nan false o
def execFmax (h : Hdr) (nan : Bool) (o : Op2) (s : State) : Host.Outcome State Fault Refusal :=
  s.run fun _ d => d.fpPick (.fmax h nan o) nan true o

/-- `fcmp` and `dcmp` (R159). -/
def Device.fpCmp (d : Device) (i : Instr) (f : Fmt) (w : Nat) (o : FCmp) : Device :=
  d.value i (.pred o.p.toNat) o.s.flat false fun b t =>
    let x := b.fp2 t f w o.s
    some (condFp o.cond x.1 x.2).toNat
def execFcmp (h : Hdr) (o : FCmp) (s : State) : Host.Outcome State Fault Refusal :=
  s.run fun _ d => d.fpCmp (.fcmp h o) fp32 32 o
def execDcmp (h : Hdr) (o : FCmp) (s : State) : Host.Outcome State Fault Refusal :=
  s.run fun _ d => d.fpCmp (.dcmp h o) fp64 64 o

/-- `frnd` (R159): Pick with q = 1. -/
def roundIntegral (r : Rnd) (draw : Nat) : Ex → Ex
  | .fin n m e st =>
    if e ≥ 0 then .fin n m e st
    else
      let k := (-e).toNat
      if m % 2 ^ k = 0 then .fin n (m / 2 ^ k) 0 false
      else .fin n (if pick n r draw (m / 2 ^ k) (m % 2 ^ k) k false then m / 2 ^ k + 1 else m / 2 ^ k) 0 false
  | x => x
def execFrnd (h : Hdr) (r : Rnd) (v : VDst) (a : Src) (s : State) : Host.Outcome State Fault Refusal :=
  s.run fun _ d => d.fpOp1 (.frnd h r v a) false r v a fun x ds => fp32.encode (roundIntegral r (ds.headD 0) x)
def execFrcp (h : Hdr) (r : Rnd) (v : VDst) (a : Src) (s : State) : Host.Outcome State Fault Refusal :=
  s.run fun _ d => d.fpOp1 (.frcp h r v a) true r v a fun x ds => roundBits fp32 r ds (Ex.one.div x)
def execFrsq (h : Hdr) (r : Rnd) (v : VDst) (a : Src) (s : State) : Host.Outcome State Fault Refusal :=
  s.run fun _ d => d.fpOp1 (.frsq h r v a) true r v a fun x ds => roundBits fp32 r ds x.rsqrt
def execFsqrt (h : Hdr) (r : Rnd) (v : VDst) (a : Src) (s : State) : Host.Outcome State Fault Refusal :=
  s.run fun _ d => d.fpOp1 (.fsqrt h r v a) true r v a fun x ds => roundBits fp32 r ds x.sqrt
def execFex2 (h : Hdr) (r : Rnd) (v : VDst) (a : Src) (s : State) : Host.Outcome State Fault Refusal :=
  s.run fun _ d => d.fpOp1 (.fex2 h r v a) true r v a fun x ds => roundBits fp32 r ds x.exp2
def execFlg2 (h : Hdr) (r : Rnd) (v : VDst) (a : Src) (s : State) : Host.Outcome State Fault Refusal :=
  s.run fun _ d => d.fpOp1 (.flg2 h r v a) true r v a fun x ds => roundBits fp32 r ds x.lg2
def execFsin (h : Hdr) (r : Rnd) (v : VDst) (a : Src) (s : State) : Host.Outcome State Fault Refusal :=
  s.run fun _ d => d.fpOp1 (.fsin h r v a) true r v a fun x ds => roundBits fp32 r ds x.sin
def execFcos (h : Hdr) (r : Rnd) (v : VDst) (a : Src) (s : State) : Host.Outcome State Fault Refusal :=
  s.run fun _ d => d.fpOp1 (.fcos h r v a) true r v a fun x ds => roundBits fp32 r ds x.cos

/-! ### Packed instructions (R160) -/

def packFmt (bf : Bool) : Fmt := if bf then bf16 else fp16
/-- Two lanes, lane 0 first. -/
def packLanes (lo hi : Nat) : Nat := lo + hi * 65536

/-- A packed instruction of two sources; lane 0 takes the first draw. -/
def Device.packOp (d : Device) (i : Instr) (bf : Bool) (r : Rnd) (o : Op2) (op : Ex → Ex → Ex) : Device :=
  d.rounded i (VDst.dst o.d) o.s.flat false r 2 fun b t ds =>
    let f := packFmt bf
    let x := b.lanes2 t f o.s
    some (packLanes (roundBits f r ds (op x.1.1 x.2.1)) (roundBits f r ds.tail (op x.1.2 x.2.2)))
def execHadd2 (h : Hdr) (bf : Bool) (r : Rnd) (o : Op2) (s : State) : Host.Outcome State Fault Refusal :=
  s.run fun _ d => d.packOp (.hadd2 h bf r o) bf r o (Ex.add (r == .rdn))
def execHmul2 (h : Hdr) (bf : Bool) (r : Rnd) (o : Op2) (s : State) : Host.Outcome State Fault Refusal :=
  s.run fun _ d => d.packOp (.hmul2 h bf r o) bf r o Ex.mul
def execHfma2 (h : Hdr) (bf : Bool) (r : Rnd) (o : Op3) (s : State) : Host.Outcome State Fault Refusal :=
  s.run fun _ d => d.rounded (.hfma2 h bf r o) (VDst.dst o.d) false false r 2 fun b t ds =>
    let f := packFmt bf
    let x := b.lanes t f o.a
    let y := b.lanes t f o.b
    let z := b.extLanes t f (.name o.c)
    some (packLanes (roundBits f r ds ((x.1.mul y.1).add (r == .rdn) z.1)) (roundBits f r ds.tail ((x.2.mul y.2).add (r == .rdn) z.2)))
def execHmax2 (h : Hdr) (bf nan : Bool) (o : Op2) (s : State) : Host.Outcome State Fault Refusal :=
  s.run fun _ d => d.value (.hmax2 h bf nan o) (VDst.dst o.d) o.s.flat false fun b t =>
    let f := packFmt bf
    let x := b.lanes2 t f o.s
    some (packLanes (f.encode (fpSelect nan true x.1.1 x.2.1)) (f.encode (fpSelect nan true x.1.2 x.2.2)))

end Sys2Proof.Machine
end

