-- ==== Sys2Proof/Machine/Convert.lean ====
section
/-! DEFINITION. Element formats and format records (R83, R84, R92 to R94), and the meanings of the conversion instructions (R161 to
R165). -/

namespace Sys2Proof.Machine

open Sys2Proof

/-! ### The format record (R92) and the element formats -/

def recElem (f : W64) : Nat := fld f 4 0
def recScale (f : W64) : Nat := fld f 7 5
def recGeom (f : W64) : Nat := fld f 10 8
def recRndCode (f : W64) : Nat := fld f 13 11
def recRnd (f : W64) : Rnd := Rnd.ofCode (recRndCode f)
def recSat (f : W64) : Sat := if fld f 15 14 = 0 then .finite else if fld f 15 14 = 1 then .inf else .nan
def recZp (f : W64) : Nat := fld f 23 16

/-- A format record is ill-formed (R92, R93). -/
def fmtBad (f : W64) : Bool :=
  let e := recElem f
  let sc := recScale f
  let g := recGeom f
  let z := recZp f
  let s := fld f 15 14
  fld f 63 24 != 0 || s == 3 || recRndCode f > 4 || g > 5 || sc > 3 || e > 19 ||
  !(if e ≤ 3 || e == 5 then sc == 0 && g == 0 && z == 0
    else if e == 4 then sc == 0 && g == 0 && z == 0 && (s == 0 || s == 2)
    else if e ≤ 10 then sc == 0 && g == 0 && z == 0 && s == 0
    else if e ≤ 12 then sc ≥ 1 && g ≥ 2 && z == 0 && s == 0
    else if e == 13 then sc ≥ 1 && g ≥ 2 && z ≤ 15 && s == 0
    else if e == 14 then sc ≥ 1 && g ≥ 2 && z ≤ 7 && s == 0
    else if e == 15 then sc ≥ 1 && (g == 1 || g == 2) && z == 0 && (s == 0 || s == 2)
    else if e == 16 then sc ≥ 1 && (g == 1 || g == 2) && z == 0
    else sc ≥ 1 && (g == 1 || g == 2) && z == 0 && s == 0)

/-- The format of an element code (R83, R84). -/
def elemFmt (c : Nat) : Fmt :=
  match c with
  | 0 => fp32 | 1 => fp19 | 2 => bf16 | 3 => fp16 | 4 => e4m3 | 5 => e5m2 | 6 => e3m2 | 7 => e2m3 | 8 => e2m1
  | 9 => .int (-128) 127 | 10 => .int 0 255 | 11 => .int (-7) 7 | 12 => .int (-3) 3 | 13 => .int 0 15 | 14 => .int 0 7
  | 15 => e4m3 | 16 => e5m2 | 17 => e2m3 | 18 => e3m2 | _ => e2m1
/-- The bits an element takes in memory (R85). -/
def elemBits (c : Nat) : Nat :=
  match c with
  | 0 => 32 | 1 => 32 | 2 => 16 | 3 => 16 | 4 => 8 | 5 => 8 | 6 => 6 | 7 => 6 | 8 => 4 | 9 => 8 | 10 => 8 | 11 => 4 | 12 => 3
  | 13 => 4 | 14 => 3 | 15 => 8 | 16 => 8 | 17 => 6 | 18 => 6 | _ => 4

/-- The code of a represented value: two's complement for integers, FP19 in its container (R81, R163). -/
def elemCode (c : Nat) (x : Ex) : Nat :=
  if c = 1 then fp19.encode x * 2 ^ 13
  else (elemFmt c).encode x % 2 ^ elemBits c

/-- Decode (R83, R84): reserved codes by their substitutes, the zero point subtracted. -/
def elemVal (c zp code : Nat) : Ex :=
  let x := code % 2 ^ elemBits c
  match c with
  | 1 => fp19.decode (x / 2 ^ 13)
  | 9 => .ofInt (signed 8 x)
  | 10 => .ofInt x
  | 11 => .ofInt (if x = 8 then -7 else signed 4 x)
  | 12 => .ofInt (if x = 4 then -3 else signed 3 x)
  | 13 => .ofInt ((x : Int) - zp)
  | 14 => .ofInt ((x : Int) - zp)
  | _ => (elemFmt c).decode x

/-- ToFmt and the zero-point rule of R95: the element code of an exact value under a record. -/
def toElem (f : W64) (draw : Nat) (x : Ex) : Nat :=
  let c := recElem f
  if c = 13 || c = 14 then
    let top : Int := if c = 13 then 15 else 7
    match roundTo x .unbounded (recRnd f) (recSat f) draw with
    | .inf n => if n then 0 else top.toNat
    | .fin n m _ _ => (max 0 (min top ((if n then -(m : Int) else m) + recZp f))).toNat
    | .nan => (min top (recZp f)).toNat
  else elemCode c (roundTo x (elemFmt c) (recRnd f) (recSat f) draw)

/-- An E8M0, UE4M3 or FP32 scale (R84). -/
def scaleVal (kind code : Nat) : Ex :=
  match kind with
  | 1 => .pow2 (if code % 256 = 255 then -127 else ((code % 256 : Nat) : Int) - 127)
  | 2 => if code % 128 = 127 then .ofInt 448 else e4m3.decode (code % 128)
  | 3 => fp32.decode (code % 2 ^ 32)
  | _ => .one

/-! ### `cvt` (R95, R162) -/

def cvtFmt (c : Nat) : Fmt :=
  match c with
  | 0 => fp64 | 1 => fp32 | 2 => fp19 | 3 => fp16 | 4 => bf16
  | 5 => .int (-128) 127 | 6 => .int 0 255 | 7 => .int (-32768) 32767 | 8 => .int 0 65535
  | 9 => .int (-2147483648) 2147483647 | 10 => .int 0 4294967295
  | 11 => .int (-9223372036854775808) 9223372036854775807 | _ => .int 0 18446744073709551615
/-- Signed integer types. -/
def cvtSigned (c : Nat) : Bool := c == 5 || c == 7 || c == 9 || c == 11

/-- The exact value of a source of type c from the bits of its operand. -/
def cvtIn (c : BitVec 4) (x : Nat) : Ex :=
  if c.toNat = 2 then fp19.decode (x / 2 ^ 13 % 2 ^ 19)
  else if cvtIsFloat c then (cvtFmt c.toNat).decode (x % 2 ^ cvtBits c)
  else .ofInt (valueOf (cvtSigned c.toNat) (cvtBits c) x)
/-- The bits written for a represented value of type c: integers extended to the destination. -/
def cvtOut (c : BitVec 4) (x : Ex) : Nat :=
  let f := cvtFmt c.toNat
  if c.toNat = 2 then fp19.encode x * 2 ^ 13
  else if cvtIsFloat c then f.encode x
  else wrap (if cvtWide c then 64 else 32) (match x with | .fin n m _ _ => if n then -(m : Int) else m | _ => 0)

/-- The operand of `cvt` as an exact value: an immediate is read at the type (R108). -/
def Bun.cvtSrc (b : Bun) (t : Nat) (c : BitVec 4) (a : Src) : Ex :=
  match a with
  | .imm v => if cvtIsFloat c then roundTo (.ofInt v.toInt) (cvtFmt c.toNat) .rne .ieee else cvtIn c (wrap 64 v.toInt)
  | a => cvtIn c (b.int t (if cvtWide c then 64 else 32) a)

/-- The converted value (R95): an integer narrowed without `.sat` keeps its low bits. -/
def cvtVal (sat : Bool) (r : Rnd) (draw : Nat) (td ts : BitVec 4) (x : Ex) : Nat :=
  if !cvtIsFloat td && !cvtIsFloat ts && !sat then
    let v : Int := match x with | .fin n m _ _ => if n then -(m : Int) else m | _ => 0
    wrap (if cvtWide td then 64 else 32) (valueOf (cvtSigned td.toNat) (cvtBits td) (wrap 64 v))
  else cvtOut td (roundTo x (cvtFmt td.toNat) r .ieee draw)

def execCvt (h : Hdr) (sat : Bool) (r : Rnd) (td ts : BitVec 4) (v : VDst) (a : Src) (s : State) : Host.Outcome State Fault Refusal :=
  s.run fun _ d => d.rounded (.cvt h sat r td ts v a) (VDst.dst v) a.flat false r 1 fun b t ds =>
    if b.denied t a then none else some (cvtVal sat r (ds.headD 0) td ts (b.cvtSrc t ts a))

/-! ### Conversions by a record (R163, R164) -/

/-- An instruction that computes from the record of a format slot; an unbound slot faults `FORMAT_SLOT` for Part, and so does a
record that `ok` refuses. Under a stochastic record the thread's generator advances once when `draws` (R88). -/
def Device.byRecord (d : Device) (i : Instr) (v : VDst) (flat draws : Bool) (slot : BitVec 3) (ok : W64 → Bool) (den : Bun → Nat → Bool)
    (f : Bun → Nat → W64 → Nat → Nat) : Device :=
  match i.hdr with
  | none => d
  | some h => d.issue h { reads := i.reads, dests := [VDst.dst v], flat := flat } fun b d =>
      match b.team.fmts.getD slot.toNat none with
      | none => (d, fun t => if den b t then .fault .privilege 0 else .fault .formatSlot 0)
      | some rec =>
        if !ok rec then (d, fun t => if den b t then .fault .privilege 0 else .fault .formatSlot 0)
        else
          let rs := draws && recRnd rec == .rs
          (if rs then d.advance b (maskOf fun t => b.part.getLsbD t && !den b t) 1 else d,
           fun t => if den b t then .fault .privilege 0
                    else .ok (f b t rec (if rs then (b.draws t 1).headD 0 else 0)))

/-- The scale operand vS as FP32, or 1 (R163). -/
def Bun.scale (b : Bun) (t : Nat) (sc : Option (BitVec 8)) : Ex :=
  match sc with
  | some v => fp32.decode (b.extName t v 32)
  | none => .one
/-- x / s, NaN for a scale of ±0, ±Inf or NaN (R163). -/
def scaledQuot (x s : Ex) : Ex :=
  match s with
  | .fin _ m _ _ => if m = 0 then .nan else x.div s
  | _ => .nan

def execCvtn (h : Hdr) (v : VDst) (x : Src) (f : BitVec 3) (sc : Option (BitVec 8)) (s : State) : Host.Outcome State Fault Refusal :=
  s.run fun _ d => d.byRecord (.cvtn h v x f sc) v (x.flat && sc.isNone) true f (fun _ => true) (fun b t => b.denied t x) fun b t rec draw =>
    toElem rec draw (scaledQuot (b.fp t fp32 32 x) (b.scale t sc))
def execCvtw (h : Hdr) (v : VDst) (c : Src) (f : BitVec 3) (sc : Option (BitVec 8)) (s : State) : Host.Outcome State Fault Refusal :=
  s.run fun _ d => d.byRecord (.cvtw h v c f sc) v (c.flat && sc.isNone) false f (fun _ => true) (fun b t => b.denied t c) fun b t rec _ =>
    fp32.encode (toF32 ((elemVal (recElem rec) (recZp rec) (b.int t 32 c)).mul (b.scale t sc)))

/-- Emax of R164 for an element code that has one. -/
def emaxOf (c : Nat) : Option Int :=
  match c with
  | 4 => some 8 | 15 => some 8 | 5 => some 15 | 16 => some 15 | 6 => some 4 | 18 => some 4
  | 7 => some 2 | 17 => some 2 | 8 => some 2 | 19 => some 2 | _ => none
/-- The E8M0 code of `.e8m0` (R164). -/
def e8m0Of (emax : Int) (x : Ex) : Nat :=
  match x with
  | .fin _ m _ _ => if m = 0 then 0 else (min (max (x.log2 - emax + 127) 0) 254).toNat
  | _ => 254
/-- x × 2^n with n held to ±1000, past which every FP32 result is the same (R164). -/
def scaleExp (x : Ex) (n : Int) : Ex := x.mul (.pow2 (max (-1000) (min 1000 n)))

def execScl (h : Hdr) (v : VDst) (form : SclForm) (s : State) : Host.Outcome State Fault Refusal :=
  s.run fun _ d =>
    match form with
    | .exp r x n => d.rounded (.scl h v form) (VDst.dst v) (x.flat && n.flat) false r 1 fun b t ds =>
        if b.denied t n then none else some (roundBits fp32 r ds (scaleExp (b.fp t fp32 32 x) (signed 32 (b.int t 32 n))))
    | .e8m0 x f => d.byRecord (.scl h v form) v x.flat false f (fun rec => (emaxOf (recElem rec)).isSome) (fun _ _ => false) fun b t rec _ =>
        e8m0Of ((emaxOf (recElem rec)).getD 0) (b.fp t fp32 32 x)
    | .rebase c n f => d.byRecord (.scl h v form) v (c.flat && n.flat) true f (fun _ => true) (fun b t => b.denied t c || b.denied t n) fun b t rec draw =>
        toElem rec draw ((elemVal (recElem rec) (recZp rec) (b.int t 32 c)).mul (.pow2 (-(min (b.int t 32 n) 255 : Nat))))

/-! ### Packing and classing (R165) -/

/-- An operand of the plain `pk2` as 32 bits: HALF, then ABS and NEG on bit 31; an immediate is read as FP32 (log 23). -/
def Bun.pkBits (b : Bun) (t : Nat) : Src → Nat
  | .name n => (let v := b.name t n; let v := if n.abs then v % 2 ^ 31 else v; if n.neg then v ^^^ 2 ^ 31 else v)
  | .scal x => (let v := b.scalar x; let v := if x.abs then v % 2 ^ 31 else v; if x.neg then v ^^^ 2 ^ 31 else v)
  | a => fp32.encode (b.fp t fp32 32 a)

def execPk2 (h : Hdr) (form : PkForm) (v : VDst) (a c : Src) (s : State) : Host.Outcome State Fault Refusal :=
  s.run fun _ d =>
    let i := Instr.pk2 h form v a c
    let fl := a.flat && c.flat
    match form with
    | .bits => d.value i (VDst.dst v) fl false fun b t => some (packLanes (b.pkBits t a % 65536) (b.pkBits t c % 65536))
    | .f16 r => d.rounded i (VDst.dst v) fl false r 2 fun b t ds =>
        some (packLanes (roundBits fp16 r ds (b.fp t fp32 32 a)) (roundBits fp16 r ds.tail (b.fp t fp32 32 c)))
    | .bf16 r => d.rounded i (VDst.dst v) fl false r 2 fun b t ds =>
        some (packLanes (roundBits bf16 r ds (b.fp t fp32 32 a)) (roundBits bf16 r ds.tail (b.fp t fp32 32 c)))

def execUnpk (h : Hdr) (k : BitVec 2) (v : VDst) (a : Src) (s : State) : Host.Outcome State Fault Refusal :=
  s.run fun _ d => d.value (.unpk h k v a) (VDst.dst v) a.flat false fun b t =>
    let x := b.int t 32 a % 65536
    some (match k.toNat with
      | 0 => fp32.encode (fp16.decode x)
      | 1 => fp32.encode (bf16.decode x)
      | 2 => x
      | _ => wrap 32 (signed 16 x))

/-- The class bit of an operand's bits (R165). -/
def fpClass (ew mw x : Nat) : Nat :=
  let neg := bit x (ew + mw)
  let e := x / 2 ^ mw % 2 ^ ew
  let m := x % 2 ^ mw
  if e = 2 ^ ew - 1 then
    if m = 0 then (if neg then 4 else 512)
    else if bit m (mw - 1) then 2 else 1
  else if e = 0 then
    if m = 0 then (if neg then 32 else 64) else (if neg then 16 else 128)
  else if neg then 8 else 256
def execFcls (h : Hdr) (k : BitVec 2) (v : VDst) (a : Src) (s : State) : Host.Outcome State Fault Refusal :=
  s.run fun _ d => d.value (.fcls h k v a) (VDst.dst v) a.flat false fun b t =>
    some (match k.toNat with
      | 0 => fpClass 8 23 (b.int t 32 a)
      | 1 => fpClass 11 52 (b.int t 64 a)
      | 2 => fpClass 5 10 (b.int t 32 a % 65536)
      | _ => fpClass 8 7 (b.int t 32 a % 65536))

end Sys2Proof.Machine
end

