-- ==== Sys2Proof/Machine/Memory.lean ====
section
/-! DEFINITION. The meanings of the memory, atomic and barrier instructions at issue (R193 to R217, R221). -/

namespace Sys2Proof.Machine

open Sys2Proof

/-- Bytes of an access by SZ (R194). -/
def szBytes (sz : BitVec 3) : Nat :=
  match sz.toNat with
  | 0 => 1 | 1 => 1 | 2 => 2 | 3 => 2 | 4 => 4 | 5 => 8 | _ => 1
/-- The element width of a sub-byte access (R194). -/
def subWidth (w : BitVec 8) : Nat :=
  match w.toNat with
  | 0 => 1 | 1 => 2 | 2 => 3 | 3 => 4 | _ => 6
/-- SZ and the element width in one number. -/
def szCode (sz : BitVec 3) (w : BitVec 8) : Nat := sz.toNat + 8 * (if sz = 6 then subWidth w else 0)
/-- Widen (R194, R198): the loaded bytes as the destination's value. -/
def widen (code bit_ : Nat) (bs : List Byte) : Nat :=
  let x := leNat bs
  match code % 8 with
  | 1 => wrap 32 (signed 8 x)
  | 3 => wrap 32 (signed 16 x)
  | 6 => x / 2 ^ bit_ % 2 ^ (code / 8)
  | _ => x
/-- The bytes a store writes with their bit enables (R177, R199). -/
def storeBytes (code bit_ n v : Nat) : List (Byte × Byte) :=
  if code % 8 = 6 then
    let w := code / 8
    (leBytes n (v % 2 ^ w * 2 ^ bit_)).zip (leBytes n ((2 ^ w - 1) * 2 ^ bit_))
  else (leBytes n v).map fun b => (b, 0xFF)
/-- A byte written under enables (R177, R223). -/
def mergeByte (old : Byte) (x : Byte × Byte) : Byte := (old &&& ~~~x.2) ||| (x.1 &&& x.2)

def ordAcq (o : Ord) : Bool := o == .acq || o == .full
def ordRel (o : Ord) : Bool := o == .rel || o == .full

/-- The bytes of the team's private store at a place. -/
def Device.privRead (d : Device) (b : Bun) (p : Place) : List Byte := p.addrs.map fun a => (d.bunTeam b).priv.read a
def Device.privWrite (d : Device) (b : Bun) (p : Place) (bs : List Byte) : Device :=
  d.modTeam b.core b.slot fun t =>
    { t with priv := (p.addrs.zip bs).foldl (fun s (x : Nat × Byte) => s.set x.1 x.2) t.priv, badPriv := mended t.badPriv p.addrs }
/-- A read of the private store meets an uncorrectable error (R192). -/
def Device.privBad (d : Device) (b : Bun) (p : Place) : Bool := p.addrs.any fun a => (d.bunTeam b).badPriv.contains (a / 4)

/-- Entries for the parts of an access, in order (R221). -/
def Thread.pushParts (x : Thread) (parts : List AccPart) (bound : Option Nat) (k : AccPart → EntryKind) (rank : AccPart → Nat) : Thread :=
  parts.foldl (fun x p => x.push (k p) p.place (rank p) bound p.va) x
/-- A release marker of a scope before, and an acquire marker bound to the entries after (R221). -/
def Thread.fenced (x : Thread) (o : Ord) (scope : Nat) (f : Option Nat → Thread → Thread) : Thread :=
  let mark := if ordRel o then some x.po else none
  let x := if ordRel o then x.push (.release scope false) .none scope none 0 else x
  let first := x.po
  let x := f mark x
  if ordAcq o then x.push (.acquire scope false (some first)) .none scope none 0 else x

/-! ### Loads and stores (R198 to R200) -/

/-- One thread's load at issue (R198): private loads are performed at once (R222), others enter the load set. -/
def Bun.load (b : Bun) (m : Memory) (d : Device) (t q : Nat) (kinds : List Nat) (ri : BitVec 5) (idx : Option Int × Int) (sz : BitVec 3) (w : BitVec 8)
    (scope : Scope) (ord : Ord) : Device × Res :=
  let a : Acc := { kinds := kinds, rd := true, wr := false, n := szBytes sz, sub := if sz = 6 then some (subWidth w) else none, kind := 0 }
  let r := b.team.bufr ri.toNat
  match b.reach d m t r idx a (if scope = .s then 3 else 2) with
  | (d, .dropped) => (d, .ok 0)
  | (d, .bad f) => (d, { fate := f })
  | (d, .ok parts bit_ n) =>
    if recKind r = 2 then
      let p := match parts with | p :: _ => p.place | [] => .none
      if d.privBad b p then (d, .fault .memoryUncorrectable 0) else (d, .ok (widen (szCode sz w) bit_ (d.privRead b p)))
    else
      (d.modBunThread b q fun x => x.fenced ord scope.code fun bound x =>
        x.pushParts parts bound (fun p => .load (b.fls.getD 0 0) p.first n (szCode sz w) bit_) (·.rank), {})

/-- One thread's store at issue (R199). -/
def Bun.store (b : Bun) (m : Memory) (d : Device) (t : Nat) (kinds : List Nat) (o : StOp) : Device × Res :=
  let a : Acc := { kinds := kinds, rd := false, wr := true, n := szBytes o.sz, sub := if o.sz = 6 then some (subWidth o.w) else none,
                   align := if o.sz = 6 then 0 else szBytes o.sz, kind := 1 }
  let r := b.team.bufr o.b.toNat
  match b.reach d m t r (b.idx2 t o.idx) a (if o.scope = .s then 3 else 2) with
  | (d, .dropped) => (d, {})
  | (d, .bad f) => (d, { fate := f })
  | (d, .ok parts bit_ n) =>
    let bs := storeBytes (szCode o.sz o.w) bit_ n (b.int t (if o.sz = 5 then 64 else 32) o.v)
    if recKind r = 2 then
      let p := match parts with | p :: _ => p.place | [] => .none
      (d.privWrite b p (((d.privRead b p).zip bs).map fun x => mergeByte x.1 x.2), {})
    else
      (d.modBunThread b t fun x => x.fenced o.ord o.scope.code fun bound x =>
        x.pushParts parts bound (fun p => .store ((bs.drop p.first).take p.place.addrs.length)) (·.rank), {})

/-- A load instruction: the whole bundle waits while R179 or R191 stalls it. -/
def Device.loads (m : Memory) (d : Device) (i : Instr) (o : LdOp) (kinds : List Nat) : Device :=
  match i.hdr with
  | none => d
  | some h =>
    match d.stalled h o.b o.idx { kinds := kinds, rd := true, wr := false, n := szBytes o.sz, sub := if o.sz = 6 then some (subWidth o.w) else none, kind := 0 } with
    | some (b, why) => d.holdBundle b why
    | none =>
      d.issue h { reads := i.reads, dests := [VDst.dst o.d], flat := o.idx.flat, long := true } fun b d => b.each d fun d t =>
        if b.denied t o.idx then (d, .fault .privilege 0)
        else b.load m d t t kinds o.b (b.idx2 t o.idx) o.sz o.w o.scope o.ord
def Device.stores (m : Memory) (d : Device) (i : Instr) (o : StOp) (kinds : List Nat) : Device :=
  match i.hdr with
  | none => d
  | some h =>
    match d.stalled h o.b o.idx { kinds := kinds, rd := false, wr := true, n := szBytes o.sz, sub := if o.sz = 6 then some (subWidth o.w) else none, kind := 1 } with
    | some (b, why) => d.holdBundle b why
    | none =>
      d.issue h { reads := i.reads, flat := o.idx.flat && o.v.flat } fun b d => b.each d fun d t =>
        if b.denied t o.idx || b.denied t o.v then (d, .fault .privilege 0) else b.store m d t kinds o

def execLd (h : Hdr) (o : LdOp) (s : State) : Host.Outcome State Fault Refusal := s.run fun m d => d.loads m (.ld h o) o [0]
def execLds (h : Hdr) (o : LdOp) (s : State) : Host.Outcome State Fault Refusal := s.run fun m d => d.loads m (.lds h o) o [1, 3]
def execLdp (h : Hdr) (o : LdOp) (s : State) : Host.Outcome State Fault Refusal := s.run fun m d => d.loads m (.ldp h o) o [2]
def execSt (h : Hdr) (o : StOp) (s : State) : Host.Outcome State Fault Refusal := s.run fun m d => d.stores m (.st h o) o [0]
def execSts (h : Hdr) (o : StOp) (s : State) : Host.Outcome State Fault Refusal := s.run fun m d => d.stores m (.sts h o) o [1, 3]
def execStp (h : Hdr) (o : StOp) (s : State) : Host.Outcome State Fault Refusal := s.run fun m d => d.stores m (.stp h o) o [2]

/-- `sld` (R200): one access for the bundle, in the queue of the lowest thread (R221). -/
def execSld (h : Hdr) (sz : BitVec 3) (scope : Scope) (ord : Ord) (v : SDst) (rb : BitVec 5) (idx : Src) (s : State) :
    Host.Outcome State Fault Refusal :=
  s.run fun m d =>
    match d.stalled h rb idx { kinds := [0, 1, 3], rd := true, wr := false, n := szBytes sz, kind := 0 } with
    | some (b, why) => d.holdBundle b why
    | none =>
      d.issue h { reads := (Instr.sld h sz scope ord v rb idx).reads, dests := [SDst.dst v], flat := idx.flat, long := true } fun b d =>
        b.once d fun d t =>
          if b.denied t idx then (d, .fault .privilege 0)
          else b.load m d t t [0, 1, 3] rb (b.idx2 t idx) sz 0 scope ord

/-- `ldc` (R201): through the instruction cache, in no queue. -/
def execLdc (h : Hdr) (sz : BitVec 3) (v : VDst) (disp : BitVec 17) (off : Src) (s : State) : Host.Outcome State Fault Refusal :=
  s.run fun m d => d.issue h { reads := (Instr.ldc h sz v disp off).reads, dests := [VDst.dst v], flat := off.flat, long := true } fun b d =>
    b.each d fun d t =>
      let o := b.idx t off
      let n := szBytes sz
      if b.denied t off then (d, .fault .privilege 0)
      else if o < 0 then (d, .fault .bounds 0)
      else if o.toNat % 120 + n > 120 then (d, .fault .misaligned 0)
      else
        match d.fetchLine m b.core b.team.part (lineOf (staticTarget b.pc disp 0) + o.toNat / 120 * 128) with
        | (d, .park va) => (d.parkRecord b.team.part b.ridge va 3 (d.recOf (b.id t) .pageNotPresent 0 b.pc 0 0), { fate := .park va 3 })
        | (d, .wait) => (d, { fate := .hold })
        | (d, .fault c) => (d, .fault c 0)
        | (d, .ok line) =>
          if malformed (headerOf line) then (d, .fault .malformedLine 0)
          else if headerKind (headerOf line) != 2 then (d, .fault .illegalSlot 0)
          else (d, .ok (widen (szCode sz 0) 0 ((line.drop (8 + o.toNat % 120)).take n)))

/-- `pref` (R202): the line may enter the ridge cache, which no party can tell. -/
def execPref (h : Hdr) (rb : BitVec 5) (idx : Src) (ext : BitVec 8) (s : State) : Host.Outcome State Fault Refusal :=
  s.run fun _ d => d.issue h { reads := (Instr.pref h rb idx ext).reads, flat := idx.flat } fun _ d => (d, fun _ => {})

/-! ### Records and fences (R203 to R205) -/

/-- Puts v into bits h down to l. -/
def setBits {n : Nat} (x : BitVec n) (h l v : Nat) : BitVec n :=
  BitVec.ofNat n (x.toNat - bits x.toNat h l * 2 ^ l + v % 2 ^ (h + 1 - l) * 2 ^ l)
/-- The narrowed record, or the fault (R203). -/
def narrow (x : BitVec 256) (ro : Bool) (off len : Int) : Except Code (BitVec 256) :=
  if off < 0 || len < 0 || off + len > recExtent x then .error .recordWiden
  else if recEsz x ≤ 6 && (recBase x + off.toNat) % 2 ^ recEsz x != 0 then .error .misaligned
  else
    let y := setBits (setBits x 63 0 (recBase x + off.toNat)) 103 64 len.toNat
    .ok (if ro then setBits y 177 176 0 else y)
def execBsub (h : Hdr) (ro : Bool) (len : BsubLen) (bd bs : BitVec 5) (off : Src) (s : State) : Host.Outcome State Fault Refusal :=
  s.run fun _ d => d.issue h { reads := (Instr.bsub h ro len bd bs off).reads, flat := off.flat } fun b d => b.once d fun d t =>
    if b.denied t off then (d, .fault .privilege 0)
    else
      let x := b.team.bufr bs.toNat
      let o := b.idx t off
      let l : Int := match len with
        | .imm n => n.toNat
        | .scal i => (b.pack.scalar i.toNat).toNat
        | .rest => recExtent x - o
      match narrow x ro o l with
      | .error c => (d, .fault c 0)
      | .ok y => (d.modTeam b.core b.slot fun t => { t with recs := lmod t.recs bd.toNat fun _ => y }, {})

def execBget (h : Hdr) (f : BitVec 3) (dst : VSDst) (rb : BitVec 5) (s : State) : Host.Outcome State Fault Refusal :=
  s.run fun _ d => d.issue h { dests := [VSDst.dst dst], flat := true } fun b d =>
    let r := b.team.bufr rb.toNat
    (d, fun _ => .ok (match f.toNat with
      | 0 => recBase r
      | 1 => recExtent r
      | 2 => recStride r
      | _ => fld r 183 160))

/-- `fence` (R205, R221). -/
def execFence (h : Hdr) (scope : Scope) (ord : Ord) (s : State) : Host.Outcome State Fault Refusal :=
  s.run fun _ d => d.issue h { flat := true } fun b d => b.each d fun d t =>
    (d.modBunThread b t fun x => x.push (match ord with
      | .acq => .acquire scope.code false none
      | .rel => .release scope.code false
      | _ => .full scope.code false) .none scope.code none 0, {})

/-! ### Atomics (R206 to R210) -/

/-- The new value of an atomic (R207): operations 0 to 10; 11 `.fadd`; 12 compare and swap; 13 and 14 packed BF16 and FP16. -/
def atomNew (op w old v cmp : Nat) : Nat :=
  let f := if w = 64 then fp64 else fp32
  let lane (g : Fmt) (x y : Nat) : Nat := g.encode (roundTo ((g.decode x).add false (g.decode y)) g .rne .ieee)
  match op with
  | 0 => (old + v) % 2 ^ w
  | 1 => old &&& v
  | 2 => old ||| v
  | 3 => old ^^^ v
  | 4 => min old v
  | 5 => max old v
  | 6 => if signed w old ≤ signed w v then old else v
  | 7 => if signed w old ≥ signed w v then old else v
  | 8 => v
  | 9 => if old ≥ v then 0 else old + 1
  | 10 => if old = 0 || old > v then v else old - 1
  | 11 => lane f old v
  | 12 => if old = cmp then v else old
  | 13 => packLanes (lane bf16 (old % 65536) (v % 65536)) (lane bf16 (old / 65536) (v / 65536))
  | _ => packLanes (lane fp16 (old % 65536) (v % 65536)) (lane fp16 (old / 65536) (v / 65536))

/-- What an atomic asks of its record (R195, R208). -/
def atomAcc (w : Nat) (scope : Scope) : Acc :=
  { kinds := [0, 1, 2, 3], rd := true, wr := true, atom := true, n := w / 8, align := w / 8, scope := some scope.code, kind := 2 }

/-- One thread's atomic at issue; `ret` for a returning one, whose bundle number orders the passes (R209, R225). -/
def Bun.atomic (b : Bun) (m : Memory) (d : Device) (t : Nat) (ret : Bool) (op w : Nat) (scope : Scope) (ord : Ord) (ri : BitVec 5) (idx : Src)
    (v cmp : Nat) : Device × Res :=
  let r := b.team.bufr ri.toNat
  match b.reach d m t r (b.idx2 t idx) (atomAcc w scope) 2 with
  | (d, .dropped) => (d, if ret then .ok 0 else {})
  | (d, .bad f) => (d, { fate := f })
  | (d, .ok parts _ _) =>
    if recKind r = 2 then
      let p := match parts with | p :: _ => p.place | [] => .none
      let old := leNat (d.privRead b p)
      if d.privBad b p then (d, .fault .memoryUncorrectable 0)
      else ((d.privWrite b p (leBytes (w / 8) (atomNew op w old v cmp))).modBunThread b t fun x => x.fenced ord scope.code fun _ x => x,
       if ret then .ok old else {})
    else
      (d.modBunThread b t fun x => x.fenced ord scope.code fun bound x =>
        x.pushParts parts bound (fun p =>
          if ret then .atomic op w (BitVec.ofNat 64 v) (BitVec.ofNat 64 cmp) (b.fls.getD 0 0) b.dev.nextBundle t p.first
          else .reduce op w (BitVec.ofNat 64 v)) (fun _ => scope.code), {})

/-- An atomic instruction: value and compare value of each thread. -/
def Device.atomics (m : Memory) (d : Device) (i : Instr) (dest : Option VDst) (op w : Nat) (scope : Scope) (ord : Ord) (ri : BitVec 5) (idx : Src)
    (flat : Bool) (den : Bun → Nat → Bool) (val : Bun → Nat → Nat × Nat) : Device :=
  match i.hdr with
  | none => d
  | some h =>
    match d.stalled h ri idx (atomAcc w scope) with
    | some (b, why) => d.holdBundle b why
    | none =>
      let d := d.issue h { reads := i.reads, dests := (match dest with | some v => [VDst.dst v] | none => []), flat := flat, long := dest.isSome }
        fun b d => b.each d fun d t =>
          if b.denied t idx || den b t then (d, .fault .privilege 0)
          else b.atomic m d t dest.isSome op w scope ord ri idx (val b t).1 (val b t).2
      { d with nextBundle := d.nextBundle + 1 }

def execAtom (h : Hdr) (op : BitVec 4) (scope : Scope) (ord : Ord) (v : VDst) (rb : BitVec 5) (idx x : Src) (s : State) :
    Host.Outcome State Fault Refusal :=
  s.run fun m d => d.atomics m (.atom h op scope ord v rb idx x) (some v) op.toNat (width v.wide) scope ord rb idx false
    (fun b t => b.denied t x) fun b t => (b.int t (width v.wide) x, 0)
def execAcas (h : Hdr) (scope : Scope) (ord : Ord) (v : VDst) (rb : BitVec 5) (idx : Src) (x : Span) (s : State) :
    Host.Outcome State Fault Refusal :=
  s.run fun m d => d.atomics m (.acas h scope ord v rb idx x) (some v) 12 (width v.wide) scope ord rb idx false (fun _ _ => false)
    fun b t => (b.pack.value (x.first.toNat + 1) t v.wide .whole, b.pack.value x.first.toNat t v.wide .whole)
/-- The bits of a floating-point operand of an atomic: FP32, FP64 or a packed pair. -/
def Bun.fpBits (b : Bun) (t ty w : Nat) (x : Src) : Nat :=
  match ty with
  | 0 => (if w = 64 then fp64 else fp32).encode (b.fp t (if w = 64 then fp64 else fp32) w x)
  | 1 => let l := b.lanes t bf16 x; packLanes (bf16.encode l.1) (bf16.encode l.2)
  | _ => let l := b.lanes t fp16 x; packLanes (fp16.encode l.1) (fp16.encode l.2)
def execAfadd (h : Hdr) (ty : BitVec 4) (scope : Scope) (ord : Ord) (v : VDst) (rb : BitVec 5) (idx x : Src) (s : State) :
    Host.Outcome State Fault Refusal :=
  s.run fun m d => d.atomics m (.afadd h ty scope ord v rb idx x) (some v) (if ty = 0 then 11 else ty.toNat + 12) (width v.wide) scope ord rb idx false
    (fun b t => b.denied t x) fun b t => (b.fpBits t ty.toNat (width v.wide) x, 0)
def execRed (h : Hdr) (op : BitVec 4) (scope : Scope) (ord : Ord) (rb : BitVec 5) (idx x : Src) (s : State) : Host.Outcome State Fault Refusal :=
  s.run fun m d => d.atomics m (.red h op scope ord rb idx x) none op.toNat (width x.isWide) scope ord rb idx (idx.flat && x.flat)
    (fun b t => b.denied t x) fun b t => (if op = 11 then b.fpBits t 0 (width x.isWide) x else b.int t (width x.isWide) x, 0)

/-! ### Barriers at issue (R211 to R216) -/

/-- What a barrier instruction asks of its record (R195, R211). -/
def barAcc : Acc := { kinds := [1, 3], rd := false, wr := false, all := true, n := 16, align := 16, kind := 1 }
/-- The object an index reaches: none when it is dropped (R216). -/
def Bun.object (b : Bun) (m : Memory) (d : Device) (t : Nat) (ri : BitVec 5) (idx : Src) : Device × Except Fate (Option ObjAt) :=
  match b.reach d m t (b.team.bufr ri.toNat) (b.idx2 t idx) barAcc 0 with
  | (d, .dropped) => (d, .ok none)
  | (d, .bad f) => (d, .error f)
  | (d, .ok parts _ _) => (d, .ok (match parts with | p :: _ => some { space := p.place.space, addrs := p.place.addrs } | [] => none))
def objPlace (o : ObjAt) : Place := { space := o.space, addrs := o.addrs }
/-- The rank of a barrier object's accesses: the team's own scratchpad, or another's (R220). -/
def Bun.objRank (b : Bun) (ri : BitVec 5) : Nat := if recKind (b.team.bufr ri.toNat) = 3 then 1 else 0

/-- The words of an object (R211): PHASE, EXPA, ARR, PEND. -/
def objWords (bs : List Byte) : Nat × Nat × Nat × Nat :=
  let x := leNat bs
  (bits x 31 0, bits x 47 32, bits x 63 48, bits x 95 64)
def objBytes (ph expa arr pend high : Nat) : List Byte := leBytes 16 (ph % 2 ^ 32 + expa % 65536 * 2 ^ 32 + arr % 65536 * 2 ^ 48 + pend % 2 ^ 32 * 2 ^ 64 + high * 2 ^ 96)
/-- R212: the phase advances. -/
def advancePhase (x : Nat × Nat × Nat × Nat) : Nat × Nat × Nat × Nat :=
  if x.2.2.1 = x.2.1 && x.2.2.2 = 0 then ((x.1 + 1) % 2 ^ 32, x.2.1, 0, 0) else x
def Device.phaseOf (d : Device) (m : Memory) (o : Option ObjAt) : Nat :=
  match o with
  | some o => (objWords (d.cells m (objPlace o))).1
  | none => 0

/-- `binit` and `bexp` (R214): once for the bundle, operand and entry of the lowest thread. -/
def Device.barStep (m : Memory) (d : Device) (i : Instr) (init : Bool) (ri : BitVec 5) (idx v : Src) : Device :=
  match i.hdr with
  | none => d
  | some h => d.issue h { reads := i.reads, flat := idx.flat && v.flat } fun b d => b.once d fun d t =>
      if b.denied t idx || b.denied t v then (d, .fault .privilege 0)
      else
        let x := b.int t 32 v
        match b.object m d t ri idx with
        | (d, .error f) => (d, { fate := f })
        | (d, .ok o) =>
          if init && (x = 0 || x > 65535) then (d, .fault .barrierMismatch 2)
          else
            match o with
            | none => (d, {})
            | some o => (d.modBunThread b t fun y => y.push (.barrierStep o init (BitVec.ofNat 32 x) b.part) (objPlace o) (b.objRank ri) none 0, {})
def execBinit (h : Hdr) (scope : Scope) (rb : BitVec 5) (idx x : Src) (s : State) : Host.Outcome State Fault Refusal :=
  s.run fun m d => d.barStep m (.binit h scope rb idx x) true rb idx x
def execBexp (h : Hdr) (scope : Scope) (rb : BitVec 5) (idx x : Src) (s : State) : Host.Outcome State Fault Refusal :=
  s.run fun m d => d.barStep m (.bexp h scope rb idx x) false rb idx x

/-- The deadline of a limit L (R216). -/
def Bun.deadline (b : Bun) (t : Nat) (l : BitVec 5) : Option Nat := if l = 0 then none else some (b.cycle t + 2 ^ l.toNat)

/-- `barv` (R215): a whole release, then the arrival; the phase comes to the destination in the arrival move. -/
def execBarv (h : Hdr) (scope : Scope) (v : VDst) (rb : BitVec 5) (idx x : Src) (s : State) : Host.Outcome State Fault Refusal :=
  s.run fun m d =>
    d.issue h { reads := (Instr.barv h scope v rb idx x).reads, dests := [VDst.dst v], flat := idx.flat && x.flat, long := true } fun b d =>
      b.each d fun d t =>
        if b.denied t idx || b.denied t x then (d, .fault .privilege 0)
        else
          match b.object m d t rb idx with
          | (d, .error f) => (d, { fate := f })
          | (d, .ok none) => (d, .ok 0)
          | (d, .ok (some o)) =>
            (d.modBunThread b t fun y => y.releaseW.push (.arrive (some o) (BitVec.ofNat 32 (b.int t 32 x)) (some (b.fls.getD 0 0)) none b.pc b.dev.now t)
              (objPlace o) (b.objRank rb) none 0, {})
/-- The record and the element index that a wait on a barrier object keeps (R325). -/
def Bun.site (b : Bun) (t : Nat) (rb : BitVec 5) (idx : Src) : Nat := rb.toNat + ((b.idx2 t idx).2 % 2 ^ 32).toNat * 2 ^ 32
/-- The step that reads an object meets an uncorrectable error (R192). -/
def Device.objBad (d : Device) (o : Option ObjAt) : Bool := o.any fun o => d.badWord (objPlace o)
/-- `bar` (R215): the thread waits from its issue; its arrival move decides the phase. -/
def execBar (h : Hdr) (l : BitVec 5) (scope : Scope) (rb : BitVec 5) (idx x : Src) (s : State) : Host.Outcome State Fault Refusal :=
  s.run fun m d =>
    d.issue h { reads := (Instr.bar h l scope rb idx x).reads, flat := idx.flat && x.flat } fun b d =>
      b.each d fun d t =>
        if b.denied t idx || b.denied t x then (d, .fault .privilege 0)
        else
          match b.object m d t rb idx with
          | (d, .error f) => (d, { fate := f })
          | (d, .ok none) => (d, {})
          | (d, .ok (some o)) =>
            (d.modBunThread b t fun y => y.releaseW.push (.arrive (some o) (BitVec.ofNat 32 (b.int t 32 x)) none (b.deadline t l) b.pc b.dev.now t)
              (objPlace o) (b.objRank rb) none 0,
             { fate := .wait (.arrival (b.deadline t l) (b.readRows (Instr.bar h l scope rb idx x).reads t) (b.site t rb idx)) })

/-- `bwait` (R216). -/
def execBwait (h : Hdr) (l : BitVec 5) (scope : Scope) (rb : BitVec 5) (idx x : Src) (s : State) : Host.Outcome State Fault Refusal :=
  s.run fun m d =>
    d.issue h { reads := (Instr.bwait h l scope rb idx x).reads, flat := idx.flat && x.flat } fun b d =>
      b.each d fun d t =>
        if b.denied t idx || b.denied t x then (d, .fault .privilege 0)
        else
          match b.object m d t rb idx with
          | (d, .error f) => (d, { fate := f })
          | (d, .ok o) =>
            let ph := b.int t 32 x
            if d.objBad o then (d, .fault .memoryUncorrectable 0)
            else if d.phaseOf m o != ph then (d.modBunThread b t (·.acquire), {})
            else (d, { fate := .wait (.phase o (BitVec.ofNat 32 ph) (b.deadline t l) (b.readRows (Instr.bwait h l scope rb idx x).reads t) (b.site t rb idx)) })
/-- `btry` (R216). -/
def execBtry (h : Hdr) (scope : Scope) (p : BitVec 3) (rb : BitVec 5) (idx x : Src) (s : State) : Host.Outcome State Fault Refusal :=
  s.run fun m d =>
    d.issue h { reads := (Instr.btry h scope p rb idx x).reads, dests := [.pred p.toNat], flat := idx.flat && x.flat, long := true } fun b d =>
      b.each d fun d t =>
        if b.denied t idx || b.denied t x then (d, .fault .privilege 0)
        else
          match b.object m d t rb idx with
          | (d, .error f) => (d, { fate := f })
          | (d, .ok o) =>
            if d.objBad o then (d, .fault .memoryUncorrectable 0)
            else if d.phaseOf m o != b.int t 32 x then (d.modBunThread b t (·.acquire), .ok 1) else (d, .ok 0)

end Sys2Proof.Machine
end

