-- ==== Sys2Proof/Machine/Matrix.lean ====
section
/-! DEFINITION. The arithmetic of a matrix engine: operand layouts, the weight latch, the pairs of formats, and the block state of
an accumulator tile (R85, R90, R96, R97, R243 to R247, R256). -/

namespace Sys2Proof.Machine

open Sys2Proof

/-! ### Formats of operands (R94, R96, R243) -/

/-- The classes of R96. -/
def isFp8 (c : Nat) : Bool := c == 4 || c == 5
def isSFp8 (c : Nat) : Bool := c == 15 || c == 16
def isFp6 (c : Nat) : Bool := 6 ≤ c && c ≤ 8
def isSFp6 (c : Nat) : Bool := 17 ≤ c && c ≤ 19
def isInt8 (c : Nat) : Bool := c == 9 || c == 10
def isIntW (c : Nat) : Bool := 11 ≤ c && c ≤ 14
/-- The pair of an A code and a B code is in the table of R96. -/
def pairOk (a b : Nat) : Bool :=
  (a ≤ 3 && a == b) || (isFp8 a && isFp8 b) || (isSFp8 a && isSFp8 b) || (isFp6 a && isFp6 b) || (isSFp6 a && isSFp6 b) ||
  (isInt8 a && isInt8 b) || ((a == 2 || isFp8 a || isSFp8 a) && isIntW b)
/-- K of one `mma` with an A code (R96, R243). -/
def kOf (a : Nat) : Nat := if a ≤ 1 then 8 else if a ≤ 3 then 16 else if elemBits a = 8 then 32 else 64
/-- RB: the bytes of a row of A (R243). -/
def rowBytes (a : Nat) : Nat := kOf a * elemBits a / 8
/-- L: the names of an A span (R243). -/
def spanLen (a : Nat) : Nat := 64 * rowBytes a / 128
/-- A record may serve as operand A (R94): no square or group geometry, no integer weights. -/
def aOk (f : W64) : Bool := recGeom f ≤ 1 && !isIntW (recElem f)
/-- A record may serve as operand B (R94, R245): geometry none, square or a group. -/
def bOk (f : W64) : Bool := recGeom f != 1

/-- n elements of w bits from packed bytes (R85). -/
def unpackElems (w n : Nat) (bs : List Byte) : List Nat :=
  let x := leNat bs
  (List.range n).map fun i => bits x (w * i + w - 1) (w * i)
/-- Packed bytes of elements of w bits (R85). -/
def packElems (w : Nat) (xs : List Nat) : List Byte :=
  leBytes (w * xs.length / 8) (xs.foldr (fun x a => a * 2 ^ w + x % 2 ^ w) 0)

/-! ### The weight latch (R244, R245) -/

/-- Bytes of one row of B (R244). -/
def bRow (f : W64) : Nat := 8 * elemBits (recElem f)
def scaleSize (f : W64) : Nat := if recScale f = 3 then 4 else 1
def groupOf (geom : Nat) : Nat := if geom = 3 then 32 else if geom = 4 then 64 else 128
/-- Scales of the trailer (R244). -/
def scaleCount (f : W64) : Nat :=
  if recGeom f = 2 then 1 else if recGeom f ≥ 3 then 128 / groupOf (recGeom f) * 64 else 0
/-- Bytes of the tile and its trailer (R244). -/
def latchBytes (f : W64) : Nat := 128 * bRow f + scaleCount f * scaleSize f
/-- The offset from e of byte number i of the tile in a record of a stride (R244). -/
def latchOffset (f : W64) (stride i : Nat) : Nat :=
  if i < 128 * bRow f then i / bRow f * stride + i % bRow f else 128 * stride + (i - 128 * bRow f)
/-- The bytes that one element or one scale shares with byte number i, first and count (R236). -/
def latchGroup (f : W64) (i : Nat) : Nat × Nat :=
  let g := if i < 128 * bRow f then (let w := elemBits (recElem f); if w ≥ 8 then w / 8 else if w = 4 then 1 else 3) else scaleSize f
  let base := if i < 128 * bRow f then 0 else 128 * bRow f
  (base + (i - base) / g * g, g)

/-- Row k of the latch: 64 element codes. -/
def Latch.row (l : Latch) (k : Nat) : List Nat :=
  unpackElems (elemBits (recElem l.fmt)) 64 ((l.bytes.drop (k * bRow l.fmt)).take (bRow l.fmt))
/-- Scale i of the trailer as FP32 bits (R84, R244). -/
def Latch.scale (l : Latch) (i : Nat) : W32 :=
  let n := scaleSize l.fmt
  BitVec.ofNat 32 (fp32.encode (scaleVal (recScale l.fmt) (leNat ((l.bytes.drop (128 * bRow l.fmt + i * n)).take n))))
/-- A `mldw` touched before its wait (R236): bytes replaced by free ones. -/
def Latch.scramble (l : Latch) (draw i : Nat) : Latch :=
  let g := latchGroup l.fmt i
  { l with bytes := imap (fun k x => if g.1 ≤ k && k < g.1 + g.2 then (Config.freeWord (draw + k)).truncate 8 else x) 0 l.bytes }

/-! ### Blocks (R97, R246) -/

/-- A closed block (R97). -/
def Block.empty : Block := { aCode := 0, bCode := 0, steps := 0, aScale := [], rows := [], opened := false }
/-- A tile at placement: every element +0, no open block (R238). -/
def Tile.zero : Tile := { elems := [], block := Block.empty, bad := false }
def Shadow.closed : Shadow := { tile := Tile.zero, slot := none, opener := 0 }
/-- Element (i, j) of a tile. -/
def Tile.get (t : Tile) (i j : Nat) : W32 := (aget t.elems (64 * i + j)).getD 0
/-- Sets element (i, j); +0 is not listed. -/
def Tile.put (t : Tile) (i j : Nat) (v : W32) : Tile :=
  { t with elems := if v = 0 then adel t.elems (64 * i + j) else aset t.elems (64 * i + j) v }

/-- The exact sum, an exact zero being +0 (R97). -/
def sumEx (x y : Ex) : Ex := let z := x.add false y; if z.isZero then .zero false else z

/-- One product of a step for column j (R97). -/
def stepEx (ac bc : Nat) (a : Nat) (b : Option (Nat × List Nat)) (j : Nat) : Ex :=
  match b with
  | none => .zero false
  | some (zp, row) => (elemVal ac 0 a).mul (elemVal bc zp (row.getD j 0))

/-- CloseBlock for one element (R97): the steps supplied to row r, the strip scale, and the element's old value. -/
def closeElem (ac bc : Nat) (r : BlockRow) (aScale : W32) (j : Nat) (acc : W32) : W32 :=
  let p := (List.range 8).foldl (fun (p : Ex) s =>
    let sum := (List.range 16).foldl (fun (x : Ex) i =>
      let k := 16 * s + i
      match r.a[k]?, r.b[k]? with
      | some a, some b => sumEx x (stepEx ac bc a b j)
      | _, _ => x) (.zero false)
    let sum := if r.geom ≥ 3 then sum.mul (f32 (r.grp.getD (16 * s / groupOf r.geom * 64 + j) 0)) else sum
    toF32 (sumEx p (toF32 sum))) (.zero false)
  let scaled := (p.mul (f32 aScale)).mul (if r.geom = 2 then f32 r.scale else .one)
  BitVec.ofNat 32 (fp32.encode (toF32 (sumEx (f32 acc) (toF32 scaled))))

/-- The close of a block: every element of the tile (R97). -/
def Tile.close (t : Tile) : Tile :=
  let k := t.block
  let put := (List.range 64).foldl (fun (u : Tile) i =>
    match k.rows[i]? with
    | none => u
    | some r => (List.range 64).foldl (fun (u : Tile) j =>
        u.put i j (closeElem k.aCode k.bCode r (k.aScale.getD i 0x3F800000) j (t.get i j))) u) t
  { put with block := Block.empty }

/-- The row that a latch opens in a block (R246): BScale and the group scales it holds; without a latch no scales. -/
def BlockRow.open (l : Option Latch) : BlockRow :=
  match l with
  | none => { a := [], b := [], scale := 0x3F800000, geom := 0, grp := [] }
  | some l =>
    { a := [], b := [], geom := recGeom l.fmt, scale := if recGeom l.fmt = 2 then l.scale 0 else 0x3F800000,
      grp := if recGeom l.fmt ≥ 3 then (List.range (scaleCount l.fmt)).map l.scale else [] }

/-- The strip scales of the 64 rows from vS (R243): the low halves for rows 0 to 31, the high halves for rows 32 to 63. -/
def stripScales (kind : Nat) (vs : List W64) : List W32 :=
  (List.range 64).map fun i =>
    let x := ((vs.getD (i % 32) 0).toNat / 2 ^ (32 * (i / 32))) % 2 ^ 32
    if kind = 0 then 0x3F800000 else BitVec.ofNat 32 (fp32.encode (scaleVal kind x))
/-- The tag of row i in vS (R243). -/
def rowTag (vs : List W64) (i : Nat) : Nat := ((vs.getD (i % 32) 0).toNat / 2 ^ (32 * (i / 32) + 16)) % 65536

/-- K steps supplied to a tile (R246). `latch` gives the latch that serves a row; the pair has been checked. -/
def Tile.supply (t : Tile) (f : W64) (frag : List Byte) (vs : List W64) (bCode : Nat) (latch : Nat → Option Latch) (blockEnd : Bool) : Tile :=
  let ac := recElem f
  let k := kOf ac
  let rb := rowBytes ac
  let old := t.block
  let c := old.steps
  let start := c == 0
  let rows := (List.range 64).map fun i =>
    let l := latch i
    let r := if start then BlockRow.open l else old.rows.getD i (BlockRow.open none)
    { r with a := r.a ++ unpackElems (elemBits ac) k ((frag.drop (i * rb)).take rb),
             b := r.b ++ (List.range k).map fun q => l.map fun l => (recZp l.fmt, l.row (c + q)) }
  let block : Block :=
    { aCode := if start then ac else old.aCode, bCode := if start then bCode else old.bCode, steps := c + k,
      aScale := if start then stripScales (recScale f) vs else old.aScale, rows := rows, opened := true }
  let t := { t with block := block }
  if c + k ≥ 128 || blockEnd then t.close else t

/-- The pair of a command against the target's open block (R97, R246). -/
def Block.pairOk (k : Block) (a b : Nat) : Bool := Machine.pairOk a b && (!k.opened || (k.aCode == a && k.bCode == b))

/-! ### Storing a tile (R88, R256) -/

/-- The bytes of row i of a tile under a record (R256), with the draws of the copy of X (R88). -/
def Tile.rowBytes (t : Tile) (f : W64) (draws : List Nat) (i : Nat) : List Byte :=
  packElems (elemBits (recElem f)) ((List.range 64).map fun j => toElem f (draws.getD (64 * i + j) 0) (f32 (t.get i j)))

end Sys2Proof.Machine
end

