-- ==== Sys2Proof/Machine/Engine.lean ====
section
/-! DEFINITION. Engine commands at issue, and the meanings of the matrix, guard and copy instructions (R231, R235, R236, R238 to R266). -/

namespace Sys2Proof.Machine

open Sys2Proof

/-! ### Writes of cells (R188, R223, R236) -/

/-- A write was issued before the command of a record, or by a later command of its queue: it is no touch (R234, R236). -/
def Uncovered.spares (u : Uncovered) : Toucher → Bool
  | .entry i po => u.earlier.contains (i, po)
  | .cmd id e => id < u.id || e == some u.engine
  | .other => true
/-- A scratchpad byte that an uncovered `mldw` reads is touched by a thread store or a copy write: its latch elements become free values
(R236). -/
def Device.touch (d : Device) (grid team : Nat) (addrs : List Nat) (w : Toucher) : Device :=
  d.teams.foldl (fun d (x : Nat × Nat × Team) =>
    if x.2.2.grid != grid then d
    else x.2.2.uncovered.foldl (fun d (u : Uncovered) =>
      let hit := if u.store = team && !u.spares w then (u.bytes.filter fun y => addrs.contains y.1).map (·.2) else []
      if hit.isEmpty then d
      else
        let d := d.modTeam x.1 x.2.1 fun t => { t with uncovered := t.uncovered.map fun (v : Uncovered) =>
          if v.id = u.id then { v with touched := hit ++ v.touched } else v }
        let k := d.draws
        { d with draws := d.draws + 65536 }.modEngine x.1 u.engine fun e =>
          if e.latch.src = u.id then { e with latch := hit.foldl (fun l i => l.scramble k i) e.latch } else e) d) d

/-- Writes bytes at a place; a write to memory sets the key of a line that carries none (R188). A write that is no store and no copy's stands
at the home slice (R225). -/
def Device.setCells (d : Device) (p : Place) (bs : List Byte) (w : Toucher := .other) : Device :=
  match p.space with
  | .phys => (p.addrs.zip bs).foldl (fun d (x : Nat × Byte) => (d.setKeys x.1 1 p.key).wr x.1 x.2)
      (if w = .other then d.cleaned (p.addrs.headD 0) p.addrs.length else d)
  | .scratch g t =>
    (d.setScratch g t (p.addrs.zip bs)).touch g t p.addrs w

/-! ### Read and write sets (R267) -/

/-- A range of a record's offsets in a command's read or write set. -/
structure Extent where
  r   : BitVec 256
  lo  : Int
  len : Nat
  wr  : Bool

/-- Row length of `cpyg` and `cpys`, and the rows of their index record (R263). -/
def copyRows (bi : BitVec 256) : Nat := recExtent bi / 4

/-- The ranges of a command (R267). -/
def CmdOp.extents : CmdOp → List Extent
  | .mldwRec r e f _ =>
    (List.range 128).map (fun k => { r := r, lo := e + k * recStride r, len := bRow f, wr := false }) ++
    [{ r := r, lo := e + 128 * recStride r, len := scaleCount f * scaleSize f, wr := false }]
  | .mtag r e n => [{ r := r, lo := e, len := 16 * n, wr := false }]
  | .mst r e _ f _ _ => (List.range 64).map fun (i : Nat) => { r := r, lo := e + i * recStride r, len := 8 * elemBits (recElem f), wr := true }
  | .cpy bd bs => [{ r := bs, lo := 0, len := recExtent bs, wr := false }, { r := bd, lo := 0, len := min (recExtent bs) (recExtent bd), wr := true }]
  | .cpyr _ bd bs =>
    let n := min (recExtent bs) (recExtent bd)
    [{ r := bs, lo := 0, len := recExtent bs, wr := false }, { r := bd, lo := 0, len := n, wr := false }, { r := bd, lo := 0, len := n, wr := true }]
  | .cpyg bd bs bi =>
    [{ r := bi, lo := 0, len := 4 * copyRows bi, wr := false }, { r := bs, lo := 0, len := recExtent bs, wr := false },
     { r := bd, lo := 0, len := min (copyRows bi * recStride bd) (recExtent bd), wr := true }]
  | .cpys bd bs bi =>
    [{ r := bi, lo := 0, len := 4 * copyRows bi, wr := false },
     { r := bs, lo := 0, len := min (copyRows bi * recStride bs) (recExtent bs), wr := false },
     { r := bd, lo := 0, len := recExtent bd, wr := true }]
  | .cpyc bh => [{ r := bh, lo := 0, len := recExtent bh, wr := false }, { r := bh, lo := 8, len := 4, wr := true }, { r := bh, lo := 12, len := 1, wr := true }]
  | .mldwSpan .. => []
  | .mma .. => []
  | .mzero _ => []
  | .mwr .. => []
/-- PEND of the object that a command counts on (R211, R267). -/
def pendOf (obj : Option (BitVec 256)) : List Extent :=
  match obj with
  | some r => [{ r := r, lo := 8, len := 4, wr := true }]
  | none => []
/-- The ranges of a command with its object. -/
def cmdExtents (op : CmdOp) (obj : Option (BitVec 256)) : List Extent := op.extents ++ pendOf obj

/-- The tile a matrix command writes (R250). -/
def CmdOp.tile : CmdOp → Option Nat
  | .mma _ t _ _ _ _ _ => some t
  | .mzero t => some t
  | .mwr t _ _ => some t
  | _ => none
/-- The tile a matrix command reads or writes (R252). -/
def CmdOp.tileUsed : CmdOp → Option Nat
  | .mst _ _ t _ _ _ => some t
  | op => op.tile
def CmdOp.isMmar : CmdOp → Bool
  | .mma true _ _ _ _ _ _ => true
  | _ => false

/-- The scratchpad bytes an `mldw` reads through a record of kind 1 or 3: (store offset, byte number) (R236). -/
def CmdOp.latchReads : CmdOp → List (Nat × Nat)
  | .mldwRec r e f _ =>
    if recKind r = 0 then []
    else (List.range (latchBytes f)).filterMap fun i =>
      let o := e + latchOffset f (recStride r) i
      if o < 0 || o ≥ recExtent r then none else some (swizzle r (recBase r + o.toNat), i)
  | _ => []

/-! ### A command at issue (R78, R79, R191, R231, R239) -/

/-- The scoreboard ranges of a copy command (R191): records that reach the team's own scratchpad, by store offset. -/
def scoreRanges (t : Team) (op : CmdOp) : List (Nat × Nat × Bool) :=
  op.extents.filterMap fun x => if t.own x.r && x.len != 0 then some (recBase x.r + x.lo.toNat, x.len, x.wr) else none

/-- The write entries of a queue (R219). -/
def Entry.isWrite (e : Entry) : Bool :=
  match e.kind with
  | .store _ => true
  | .atomic .. => true
  | .reduce .. => true
  | .arrive .. => true
  | .barrierStep .. => true
  | _ => false
def Entry.isLoad (e : Entry) : Bool :=
  match e.kind with
  | .load .. => true
  | .spawnLoad .. => true
  | _ => false

/-- The write entries of a grid's threads that reach a team's scratchpad and are not performed yet (R219). -/
def Device.queuedWrites (d : Device) (grid team : Nat) : List (ThreadId × Nat) :=
  (d.teams.filter fun x => x.2.2.grid == grid).flatMap fun x => (imap (fun i (p : Pack) => (imap (fun t (y : Thread) =>
    (y.queue.filter fun (e : Entry) => e.isWrite && e.place.space == .scratch grid team).map fun e => ((⟨x.1, x.2.1, i, t⟩ : ThreadId), e.po))
    0 p.threads).flatten) 0 x.2.2.packs).flatten

/-- The distinct rows that the bundle's threads read for a command (R78). -/
def Bun.rowsRead (b : Bun) (reads : List Nat) : List Nat :=
  ((reads.flatMap fun n => (threadsOf b.mask).filterMap fun t => (b.pack.bind n t).map (·.id))).dedup

/-- The engine takes a command that writes a tile: a tile that no other engine still has commands for is bound to it at once, and
otherwise the binding passes when the command starts (R250; log 39). -/
def Team.bind (t : Team) (es : Nat → Engine) (q : Nat) (op : CmdOp) : Team :=
  match op.tile with
  | none => t
  | some a =>
    match aget t.bindings a with
    | some e =>
      if (es e).queue.any fun (c : Cmd) => c.grid == t.grid && c.team == t.index && c.op.tile == some a then t
      else { t with bindings := aset t.bindings a q }
    | none => { t with bindings := aset t.bindings a q }

/-- The team whose scratchpad an `mldw` reads. -/
def CmdOp.store (op : CmdOp) (t : Team) : Nat := match op with | .mldwRec r _ _ _ => peerOf t r | _ => t.index
/-- A command as its issue makes it (R231, R239): its records and operands stand as at issue. -/
def Bun.newCmd (b : Bun) (id now : Nat) (matrix : Bool) (guard : Option Nat) (reads : List Nat) (op : CmdOp) (obj : Option (BitVec 256)) : Cmd :=
  { id := id, op := op, guard := guard, grid := b.team.grid, team := b.team.index, core := b.core, slot := b.slot, pack := b.index,
    mask := b.mask, pc := b.pc, pos := (threadsOf b.mask).map fun t => (t, match b.thread t with | some x => x.po | none => 0),
    rows := (b.rowsRead reads).map fun r => (b.index, r), fences := if matrix then b.pack.fences.map (·.id) else [], obj := obj,
    seq := b.team.iss + 1, started := false, leave := false, arrived := now, data := [], done := [], toShadow := false, runs := [], swap := none,
    applied := false, chain := (0, 0, 0), sub := none, failing := none,
    undef := matrix && op.tile.isSome && b.team.uncovered.any (fun u => u.tile == op.tile && u.engine != b.pack.quad), idleFrom := now, parked := none, pins := [], aborted := none,
    ranges := if matrix then [] else scoreRanges b.team op }
/-- The team's record of a matrix command that no `mwait` covers yet (R236). -/
def Bun.newUncovered (b : Bun) (id : Nat) (op : CmdOp) : Uncovered :=
  { id := id, pack := b.index, engine := b.pack.quad, tile := op.tile,
    store := op.store b.team, bytes := op.latchReads, touched := [],
    earlier := if op.latchReads.isEmpty then [] else b.dev.queuedWrites b.team.grid (op.store b.team) }
/-- A command enters its queue (R231, R239), and its rows become engine-held (R78). -/
def Device.enqueue (d : Device) (b : Bun) (matrix : Bool) (guard : Option Nat) (reads : List Nat) (op : CmdOp) (obj : Option (BitVec 256)) : Device :=
  let id := d.nextCmd + 1
  let q := b.pack.quad
  let c := b.newCmd id d.now matrix guard reads op obj
  let d := { d with nextCmd := id }.modPack b.core b.slot b.index fun p => (b.rowsRead reads).foldl (fun p r => p.holdRow r 1) p
  if matrix then
    (d.modEngine b.core q fun e => { e with queue := e.queue ++ [c] }).modTeam b.core b.slot fun t =>
      let t := t.bind (d.engine b.core) q op
      { t with uncovered := t.uncovered ++ [b.newUncovered id op] }
  else d.modTeam b.core b.slot fun t => { t with copyQ := t.copyQ ++ [c], iss := t.iss + 1 }

/-- What an engine instruction asks: its own checks, its command, its object, what else changes at issue. -/
structure Order where
  matrix : Bool
  guard  : Option Nat := none
  extra  : Team → List Nat := fun _ => []
  check  : Bun → Option Fate
  op     : Bun → CmdOp
  obj    : Bun → Option (BitVec 256) := fun _ => none
  also   : Bun → Device → Device := fun _ d => d

/-- ISSUE OF AN ENGINE COMMAND, in the order of R239. -/
def Device.command (d : Device) (i : Instr) (flat : Bool) (o : Order) : Device :=
  match i.hdr with
  | none => d
  | some h =>
    match d.bun h flat with
    | none => d
    | some b =>
      let reads := i.reads ++ o.extra b.team
      let guarded := maskOf fun t => b.mask.getLsbD t && b.pack.guard h t
      let b := { b with part := maskOf fun t => guarded.getLsbD t && !b.pack.short t reads }
      let made := b.part != 0 && (!o.matrix || (b.mask == BitVec.allOnes 32 && guarded == b.mask)) && (o.check b).isNone
      if made && o.matrix && (d.engine b.core b.pack.quad).full d.now then d.holdBundle b .engineQueue
      else if made && !o.matrix && b.team.copyQ.length ≥ 16 then d.holdBundle b .copyQueue
      else d.issue h { reads := reads, flat := flat, collective := o.matrix } fun b d =>
        if b.part = 0 then (d, fun _ => {})
        else
          match o.check b with
          | some f => (d, fun _ => { fate := f })
          | none => (o.also b (d.enqueue b o.matrix o.guard reads (o.op b) (o.obj b)), fun _ => {})

/-- The first fault of a list of tests. -/
def firstFate : List (Bool × Fate) → Option Fate
  | [] => none
  | (c, f) :: l => if c then some f else firstFate l
def boundsFate (detail : Nat) : Fate := .fault .bounds detail 0
def formatFate : Fate := .fault .formatSlot 0 0

/-- The tests of R178 and R195 on the bytes a command takes through a record (R245, R255, R256). -/
def recTests (r : BitVec 256) (kinds : List Nat) (wr : Bool) (xs : List Extent) : List (Bool × Fate) :=
  [(!kinds.contains (recKind r), boundsFate 3), (if wr then !recWr r else !recRd r, boundsFate 1), (recEsz r == 7, boundsFate 2),
   (!recOob r && xs.any (fun x => x.len != 0 && (x.lo < 0 || x.lo + x.len > recExtent r)), boundsFate 0)]

/-- The offset e of an index operand, taken from the lowest thread of Part (R176; log 24). -/
def Bun.offset (b : Bun) (r : BitVec 256) (idx : Src) : Int := b.idx b.low idx * 2 ^ recEsz r
def Bun.privileges (b : Bun) (idx : Src) : Bool × Fate := (b.denied b.low idx, .fault .privilege 0 0)

/-! ### Matrix instructions (R242 to R257) -/

/-- The bytes of a span as R243 lays them out. -/
def Bun.spanBytes (b : Bun) (names : List Nat) : List Byte :=
  names.flatMap fun n => (List.range 32).flatMap fun t => leBytes 4 (b.pack.value n t false .whole)

/-- The B slot of `mldw` passes the first test of R245. -/
def slotB (f : Option W64) : Bool := match f with | some f => !fmtBad f && bOk f | none => false

/-- `mldw` (R244, R245): the pack records the slot as its latch format. -/
def execMldw (h : Hdr) (g : Option (BitVec 4)) (form : MldwForm) (f : BitVec 3) (s : State) : Host.Outcome State Fault Refusal :=
  s.run fun _ d =>
    let latch : Bun → Device → Device := fun b d => d.modBunPack b fun p => { p with latch := b.team.fmt f.toNat }
    match form with
    | .record rb idx ts tag =>
      let op := fun (b : Bun) =>
        let r := b.team.bufr rb.toNat
        CmdOp.mldwRec r (b.offset r idx) ((b.team.fmt f.toNat).getD 0)
          (if ts then (b.pack.scalar (tag.toNat % 64)).toNat % 65536 else tag.toNat)
      d.command (.mldw h g form f) idx.flat
        { matrix := true, guard := g.map (·.toNat), op := op, also := latch,
          check := fun b => firstFate ([b.privileges idx, (!slotB (b.team.fmt f.toNat), formatFate)] ++
            recTests (b.team.bufr rb.toNat) [0, 1, 3] false (op b).extents) }
    | .span x tag ext =>
      d.command (.mldw h g form f) false
        { matrix := true, guard := g.map (·.toNat), also := latch,
          op := fun b =>
            let fm := (b.team.fmt f.toNat).getD 0
            .mldwSpan ((b.spanBytes (spanNames x.first x.len ext)).take (latchBytes fm)) fm (b.int b.low 64 tag % 65536),
          check := fun b => firstFate [(!slotB (b.team.fmt f.toNat), formatFate),
            ((spanNames x.first x.len ext).length != (latchBytes ((b.team.fmt f.toNat).getD 0) + 127) / 128, formatFate)] }

/-- The A slot of `mma`, its pair with the latch format and its span (R94, R243, R246). -/
def slotA (f latch : Option W64) (len : Nat) (tag : Bool) : Bool :=
  match f, latch with
  | some f, some l => aOk f && pairOk (recElem f) (recElem l) && len == spanLen (recElem f) && !(tag && recScale f == 3)
  | _, _ => false

/-- `mma` and `mmar` at issue (R243, R246, R248). -/
def Device.mma (d : Device) (i : Instr) (run : Bool) (o : MmaOp) : Device :=
  d.command i false
    { matrix := true, guard := o.g.map (·.toNat), extra := rowOf o,
      check := fun b => firstFate
        [(!slotA (b.team.fmt o.f.toNat) b.pack.latch (spanNames o.sp.first o.sp.len 0).length o.tag, formatFate),
         (run && o.a.toNat ≥ b.dev.lr b.team.grid lrShadow, .fault .shadowAbsent 0 0)],
      op := fun b => .mma run o.a.toNat (b.spanBytes (spanNames o.sp.first o.sp.len 0)) ((b.team.fmt o.f.toNat).getD 0)
        (if rowOf o b.team = [] then [] else (List.range 32).map fun t => BitVec.ofNat 64 (b.extName t o.vs 64)) o.tag o.e }
def execMma (h : Hdr) (o : MmaOp) (s : State) : Host.Outcome State Fault Refusal := s.run fun _ d => d.mma (.mma h o) false o
def execMmar (h : Hdr) (o : MmaOp) (s : State) : Host.Outcome State Fault Refusal := s.run fun _ d => d.mma (.mmar h o) true o

def execMzero (h : Hdr) (g : Option (BitVec 4)) (a : BitVec 4) (s : State) : Host.Outcome State Fault Refusal :=
  s.run fun _ d => d.command (.mzero h g a) true { matrix := true, guard := g.map (·.toNat), check := fun _ => none, op := fun _ => .mzero a.toNat }

def execMwr (h : Hdr) (g : Option (BitVec 4)) (a : BitVec 4) (sp : Span) (row0 : BitVec 8) (s : State) : Host.Outcome State Fault Refusal :=
  s.run fun _ d => d.command (.mwr h g a sp row0) false
    { matrix := true, guard := g.map (·.toNat), check := fun _ => none,
      op := fun b => .mwr a.toNat row0.toNat ((spanNames sp.first sp.len 0).map fun n =>
        (List.range 32).map fun t => BitVec.ofNat 32 (b.pack.value n t false .whole)) }

def execMtag (h : Hdr) (g : Option (BitVec 4)) (rb : BitVec 5) (idx : Src) (n : BitVec 8) (s : State) : Host.Outcome State Fault Refusal :=
  s.run fun _ d =>
    let op := fun (b : Bun) => let r := b.team.bufr rb.toNat; CmdOp.mtag r (b.offset r idx) n.toNat
    d.command (.mtag h g rb idx n) idx.flat
      { matrix := true, guard := g.map (·.toNat), op := op,
        check := fun b => firstFate (b.privileges idx :: recTests (b.team.bufr rb.toNat) [1, 3] false (op b).extents) }

/-- `mst` at issue (R88, R256): under a stochastic record the lowest thread's generator advances 4,096 times. A command of another
engine that no `mwait` covers makes the values undefined (R236). -/
def execMst (h : Hdr) (g : Option (BitVec 4)) (rb : BitVec 5) (idx : Src) (tile : BitVec 4) (f : BitVec 3) (s : State) :
    Host.Outcome State Fault Refusal :=
  s.run fun _ d =>
    let op := fun (b : Bun) =>
      let r := b.team.bufr rb.toNat
      CmdOp.mst r (b.offset r idx) tile.toNat ((b.team.fmt f.toNat).getD 0) (match b.thread b.low with | some x => x.gen | none => 0)
        (b.team.uncovered.any fun u => u.tile == some tile.toNat && u.engine != b.pack.quad)
    d.command (.mst h g rb idx tile f) idx.flat
      { matrix := true, guard := g.map (·.toNat), op := op,
        check := fun b => firstFate ([b.privileges idx, ((match b.team.fmt f.toNat with | some f => recElem f > 10 | none => true), formatFate)] ++
          recTests (b.team.bufr rb.toNat) [0, 1, 3] true (op b).extents),
        also := fun b d => if recRnd ((b.team.fmt f.toNat).getD 0) = .rs then d.advance b (oneBit b.low) 4096 else d }

/-- The physical address of a virtual one, as a translation would give it now; nothing changes. -/
def Device.physOf (d : Device) (m : Memory) (core part va : Nat) : Option Nat :=
  match (d.translate m (ridgeOf core) part va 0).2 with
  | .ok pa _ _ => some pa
  | _ => none
/-- A byte of physical memory lies in n bytes from a virtual address, through whatever pages map them. -/
def Device.aliased (d : Device) (m : Memory) (core part lo n a : Nat) : Bool :=
  (List.range ((lo + n - 1) / 65536 - lo / 65536 + 1)).any fun i =>
    let page := (lo / 65536 + i) * 65536
    match d.physOf m core part page with
    | some pa => pa ≤ a && a < pa + 65536 && lo ≤ page + (a - pa) && page + (a - pa) < lo + n
    | none => false
/-- An entry reaches a byte of a range of the team's command (R231): memory by virtual address or through another mapping of the same
bytes, scratchpads by store offset. -/
def Extent.meets (x : Extent) (d : Device) (m : Memory) (core : Nat) (t : Team) (p : Place) (va : Nat) : Bool :=
  let lo := recBase x.r + x.lo
  if x.len = 0 || p.addrs.isEmpty then false
  else
    match p.space with
    | .phys => recKind x.r == 0 && (((va : Int) < lo + x.len && lo < va + p.addrs.length) ||
        p.addrs.any fun a => d.aliased m core t.part lo.toNat x.len a)
    | .scratch g k => recKind x.r != 0 && g == t.grid && k == peerOf t x.r &&
        p.addrs.any fun a => let o : Int := swizzle x.r a; lo ≤ o && o < lo + x.len
/-- Two ranges of commands of one team share a byte (R232). -/
def Extent.shares (x y : Extent) (t : Team) : Bool :=
  let k := fun (z : Extent) => if recKind z.r = 0 then none else some (peerOf t z.r)
  x.len != 0 && y.len != 0 && k x == k y &&
  (recBase x.r + x.lo : Int) < recBase y.r + y.lo + y.len && (recBase y.r + y.lo : Int) < recBase x.r + x.lo + x.len

/-- `mfnc` (R235, R251). -/
def Bun.marker (b : Bun) (id : Nat) (all : Bool) (names : List Nat) (range : Option Extent) : OpFence :=
  let named := fun (p : Place) (va : Nat) =>
    (all && (match p.space with | .scratch g k => g == b.team.grid && k == b.team.index | .phys => false)) ||
    range.any fun r => recKind r.r != 0 && r.meets b.dev [] b.core b.team p va
  let entries := (List.range b.team.packs.length).flatMap fun i =>
    match b.team.packs[i]? with
    | none => []
    | some p => (List.range p.threads.length).flatMap fun t =>
        match p.threads[t]? with
        | none => []
        | some x => (x.queue.filter fun (e : Entry) => e.isWrite &&
            named e.place e.va).map fun e => (i, t, e.po)
  let pooled := b.dev.pool.flatMap fun (r : Red) => if named r.place r.va
    then (r.owners.filter fun o => o.1.core == b.core && o.1.slot == b.slot).map fun o => (o.1.pack, o.1.thread, o.2.1) else []
  { id := id,
    flights := (b.pack.flights.filter fun (f : Flight) =>
        match f.dst with
        | .row r => all || (match b.pack.row r with | some r => names.contains r.name | none => false)
        | _ => false).map fun f => (b.index, f.id),
    entries := if all || range.isSome then entries ++ pooled else [], all := all, range := range.map (·.r),
    copies := (b.team.copyQ.filter fun (c : Cmd) =>
        (match c.op with | .cpyc _ => all || range.isSome | _ => false) ||
        (cmdExtents c.op c.obj).any fun x => x.wr && ((all && b.team.own x.r) || range.any fun r => r.shares x b.team)).map (·.id) }

def execMfnc (h : Hdr) (a : Option Src) (ext : BitVec 8) (s : State) : Host.Outcome State Fault Refusal :=
  s.run fun _ d => d.issue h { flat := true } fun b d => b.once d fun d _ =>
    let add := fun (all : Bool) names range =>
      ({ d with nextCmd := d.nextCmd + 1 }.modBunPack b fun p => { p with fences := p.fences ++ [b.marker (d.nextCmd + 1) all names range] }, ({} : Res))
    match a with
    | none => add true [] none
    | some (.bufr i) =>
      let r := b.team.bufr i.toNat
      if recKind r != 1 && recKind r != 3 then (d, .fault .bounds 3)
      else add false [] (some { r := r, lo := 0, len := recExtent r, wr := false })
    | some x => add false (x.reads ext) none

/-- A command of a core's matrix engines has retired: no queue holds it (R252). -/
def Device.retired (d : Device) (core : Nat) (ids : List Nat) : Bool :=
  !(d.core core).engines.any fun (e : Engine) => e.queue.any fun (c : Cmd) => ids.contains c.id
/-- The shadow of a tile is open under a slot that is resolved: its commit or discard has not taken place (R249, R252). With an opener
given, only the shadow that this command opened counts. -/
def Team.closing (t : Team) (tile : Nat) (opener : Option Nat) : Bool :=
  match t.shadows[tile]? with
  | some ⟨_, some g, k⟩ => t.guards.getD g .unresolved != .unresolved && opener.all (· == k)
  | _ => false
/-- The commands that a completed wait covers leave the list of R236. -/
def Team.cover (t : Team) (ids : List Nat) : Team := { t with uncovered := t.uncovered.filter fun (u : Uncovered) => !ids.contains u.id }

/-- `mwait` (R252). -/
def execMwait (h : Hdr) (a : Option (BitVec 4)) (s : State) : Host.Outcome State Fault Refusal :=
  s.run fun _ d => d.issue h { flat := true } fun b d =>
    let queued := (d.core b.core).engines.flatMap fun (e : Engine) => e.queue.filter fun (c : Cmd) => c.grid == b.team.grid && c.team == b.team.index
    if b.part = 0 then (d, fun _ => {})
    else match a with
    | none =>
      let ids := (b.team.uncovered.filter fun (u : Uncovered) => u.pack == b.index).map (·.id)
      if d.retired b.core ids then
        (d.modTeam b.core b.slot (·.cover ids) |> fun d => (threadsOf b.part).foldl (fun d t => d.modBunThread b t (·.acquire)) d, fun _ => {})
      else (d, fun _ => { fate := .wait (.mwait ids) })
    | some a =>
      let ids := ((queued.filter fun (c : Cmd) => c.op.tileUsed == some a.toNat).map (·.id)) ++
        (b.team.uncovered.filter fun (u : Uncovered) => u.tile == some a.toNat).map (·.id)
      if d.retired b.core ids && !b.team.closing a.toNat none then
        (d.modTeam b.core b.slot (·.cover ids) |> fun d => (threadsOf b.part).foldl (fun d t => d.modBunThread b t (·.acquire)) d, fun _ => {})
      else (d, fun _ => { fate := .wait (if b.team.closing a.toNat none then .mwaitTile ids a.toNat (b.team.shadows.getD a.toNat Shadow.closed).opener
                                   else .mwait ids) })

/-- `mrd` (R253): the tile as it stands; before the `mwait` of a command that writes it the values are undefined (R236). -/
def execMrd (h : Hdr) (v : SpanD) (a : BitVec 4) (row0 : Src) (ext : BitVec 8) (s : State) : Host.Outcome State Fault Refusal :=
  s.run fun _ d => d.issue h { reads := (Instr.mrd h v a row0 ext).reads, dests := spanDsts v false ext, flat := row0.flat, long := true,
                               collective := true } fun b d =>
    let r := b.idx b.low row0
    if b.part = 0 then (d, fun _ => {})
    else if r < 0 || r > 56 || r % 8 != 0 then (d, fun _ => .fault .bounds 0)
    else
      let tile := b.team.tiles.getD a.toNat Tile.zero
      let undef := b.team.uncovered.any fun (u : Uncovered) => u.tile == some a.toNat
      if tile.bad then (d, fun _ => .fault .memoryUncorrectable 0)
      else (if undef then { d with draws := d.draws + 512 } else d,
       fun t => { vals := (List.range 16).map fun n =>
        if undef then (Config.freeWord (d.draws + 32 * n + t)).toNat % 2 ^ 32
        else (tile.get (r.toNat + n / 2) (32 * (n % 2) + t)).toNat })

/-- `mstat` (R257): what the manual states no value for is free. -/
def execMstat (h : Hdr) (form : MstatForm) (v : SDst) (s : State) : Host.Outcome State Fault Refusal :=
  s.run fun _ d => d.issue h { dests := [SDst.dst v], flat := true } fun b d => b.once d fun d _ =>
    match form with
    | .q =>
      let q := (d.engine b.core b.pack.quad).queue
      (d, .ok (q.length % 64 + (q.filter fun (c : Cmd) => c.grid == b.team.grid && c.team == b.team.index).length % 64 * 256))
    | .b a =>
      let k := (b.team.tiles.getD a.toNat Tile.zero).block
      let sh := (b.team.shadows.getD a.toNat Shadow.closed).slot
      let f := d.draw
      ((if k.opened && sh.isSome then d else f.1),
       .ok (k.steps % 128 + k.opened.toNat * 128 + (if k.opened then k.aCode * 256 + k.bCode * 8192 else bits f.2.toNat 17 8 * 256) +
        (match sh with | some g => 2 ^ 18 + g * 2 ^ 20 | none => bits f.2.toNat 23 20 * 2 ^ 20)))
    | .m => (d.modTeam b.core b.slot fun t => { t with miss := 0 }, .ok (min b.team.miss 0xFFFFFFFF))

/-- The slot under which a tile's shadow is open. -/
def Team.openSlot (t : Team) (a : Nat) : Option Nat := (t.shadows[a]?).bind (·.slot)
/-- The tile whose open shadow holds an unshadowed command at its queue head (R248). -/
def CmdOp.shutBy : CmdOp → Option Nat
  | .mma false a _ _ _ _ _ => some a
  | .mzero a => some a
  | .mwr a _ _ => some a
  | .mst _ _ a _ _ _ => some a
  | _ => none
/-- The guard and shadow conditions of a matrix command at its queue head (R248, R249): none to wait, false to discard, true to start. -/
def Cmd.verdict (c : Cmd) (t : Team) : Option Bool :=
  let g := match c.guard with | some g => t.guards.getD g .unresolved | none => .isTrue
  if g = .isFalse then some false
  else
    match c.op with
    | .mma true a _ _ _ _ _ => if (t.openSlot a).isSome && t.openSlot a != c.guard then none else some true
    | op => if g = .unresolved || (op.shutBy.bind t.openSlot).isSome then none else some true
/-- The guard slot on which a command waits at its queue head: its own, or the one under which a shadow in its way is open (R248, R249). -/
def Cmd.waitsOn (c : Cmd) (t : Team) : Option Nat :=
  if (c.verdict t).isSome then none
  else
    match c.op with
    | .mma true a _ _ _ _ _ => t.openSlot a
    | op => match c.guard with
      | some g => if t.guards.getD g .unresolved = .unresolved then some g else op.shutBy.bind t.openSlot
      | none => op.shutBy.bind t.openSlot
/-- Commands of a team that wait no longer on a guard slot, since their team stands as `t`: their idle time starts anew (R327). -/
def Device.freed (d : Device) (core : Nat) (before t : Team) : Device :=
  d.modCore core fun c => { c with engines := c.engines.map fun (e : Engine) => { e with queue := e.queue.map fun (k : Cmd) =>
    if k.grid = t.grid && k.team = t.index && (k.verdict before).isNone && (k.verdict t).isSome then { k with idleFrom := d.now } else k } }

/-! ### Guard slots (R258, R259) -/

/-- `gset` (R249, R259). -/
def execGset (h : Hdr) (g : BitVec 4) (a : Src) (s : State) : Host.Outcome State Fault Refusal :=
  s.run fun _ d => d.issue h { reads := (Instr.gset h g a).reads, flat := a.flat } fun b d => b.once d fun d t =>
    if b.denied t a then (d, .fault .privilege 0)
    else if b.team.guards.getD g.toNat .unresolved != .unresolved then (d, .fault .guardState 0)
    else
      let v := b.int t (if a.isWide then 64 else 32) a != 0
      let set := fun (t : Team) =>
        { t with guards := lmod t.guards g.toNat fun _ => if v then .isTrue else .isFalse,
                 resolvedAt := lmod t.resolvedAt g.toNat fun _ => d.nextCmd + 1 }
      ((d.modTeam b.core b.slot set).freed b.core b.team (set b.team), {})

/-- `gclr` (R259): with the slot resolved the pack first waits. -/
def execGclr (h : Hdr) (g : BitVec 4) (s : State) : Host.Outcome State Fault Refusal :=
  s.run fun _ d =>
    match d.bun h true with
    | none => d
    | some b =>
      let part := maskOf fun t => b.mask.getLsbD t && b.pack.guard h t
      if part != 0 && b.team.guards.getD g.toNat .unresolved != .unresolved && d.slotBusy b.core b.team g.toNat then d.holdBundle b (.guardSlot g.toNat)
      else d.issue h { flat := true } fun b d => b.once d fun d _ =>
        (d.modTeam b.core b.slot fun t => { t with guards := lmod t.guards g.toNat fun _ => .unresolved }, {})

def execGtst (h : Hdr) (resolved : Bool) (p : BitVec 3) (g : BitVec 4) (s : State) : Host.Outcome State Fault Refusal :=
  s.run fun _ d => d.issue h { dests := [.pred p.toNat], flat := true } fun b d =>
    let x := b.team.guards.getD g.toNat .unresolved
    (d, fun _ => .ok (if resolved then x != .unresolved else x == .isTrue).toNat)

/-! ### Copy instructions (R260 to R266) -/

/-- The object record of a copy: EXT bit 5 says that bO is given (R260). -/
def Team.object (t : Team) (bo : BitVec 6) : Option (BitVec 256) := if bo.getLsbD 5 then some (t.bufr (bo.toNat % 32)) else none
/-- The tests of R261 in their order. -/
def copyTests (bd bs : BitVec 256) (bi : Option (BitVec 256)) (bo : Option (BitVec 256)) : List (Bool × Fate) :=
  [(recKind bd == 2 || recKind bs == 2 || bi.any (fun r => recKind r ≥ 2), boundsFate 3),
   (!recRd bs || bi.any (fun r => !recRd r) || !recWr bd, boundsFate 1),
   (bo.any (fun r => !((recKind r == 1 || recKind r == 3) && recRd r && recWr r && recAtom r && recBase r % 16 == 0 && recExtent r ≥ 16)), boundsFate 3),
   (bi.any (fun r => recEsz r != 2), boundsFate 2)]
/-- The destination holds n bytes or drops the rest (R262). -/
def fitTest (n : Nat) (r : BitVec 256) : Bool × Fate := (!recOob r && n > recExtent r, boundsFate 0)

def execCpy (h : Hdr) (bd bs : BitVec 5) (bo : BitVec 6) (s : State) : Host.Outcome State Fault Refusal :=
  s.run fun _ d => d.command (.cpy h bd bs bo) true
    { matrix := false, obj := fun b => b.team.object bo, op := fun b => .cpy (b.team.bufr bd.toNat) (b.team.bufr bs.toNat),
      check := fun b => firstFate (copyTests (b.team.bufr bd.toNat) (b.team.bufr bs.toNat) none (b.team.object bo) ++
        [fitTest (recExtent (b.team.bufr bs.toNat)) (b.team.bufr bd.toNat)]) }
def execCpyg (h : Hdr) (bd bs bi : BitVec 5) (bo : BitVec 6) (s : State) : Host.Outcome State Fault Refusal :=
  s.run fun _ d => d.command (.cpyg h bd bs bi bo) true
    { matrix := false, obj := fun b => b.team.object bo,
      op := fun b => .cpyg (b.team.bufr bd.toNat) (b.team.bufr bs.toNat) (b.team.bufr bi.toNat),
      check := fun b => firstFate (copyTests (b.team.bufr bd.toNat) (b.team.bufr bs.toNat) (some (b.team.bufr bi.toNat)) (b.team.object bo) ++
        [fitTest (copyRows (b.team.bufr bi.toNat) * recStride (b.team.bufr bd.toNat)) (b.team.bufr bd.toNat)]) }
def execCpys (h : Hdr) (bd bs bi : BitVec 5) (bo : BitVec 6) (s : State) : Host.Outcome State Fault Refusal :=
  s.run fun _ d => d.command (.cpys h bd bs bi bo) true
    { matrix := false, obj := fun b => b.team.object bo,
      op := fun b => .cpys (b.team.bufr bd.toNat) (b.team.bufr bs.toNat) (b.team.bufr bi.toNat),
      check := fun b => firstFate (copyTests (b.team.bufr bd.toNat) (b.team.bufr bs.toNat) (some (b.team.bufr bi.toNat)) (b.team.object bo)) }
/-- `cpyc` (R265): its header record is of kind 0 or 1 with RD and WR, and holds at least the header. -/
def execCpyc (h : Hdr) (bh : BitVec 5) (s : State) : Host.Outcome State Fault Refusal :=
  s.run fun _ d => d.command (.cpyc h bh) true
    { matrix := false, op := fun b => .cpyc (b.team.bufr bh.toNat),
      check := fun b =>
        let r := b.team.bufr bh.toNat
        firstFate [(recKind r ≥ 2, boundsFate 3), (!recRd r || !recWr r, boundsFate 1), (recExtent r < 64, boundsFate 0)] }
/-- Bytes of an element of `cpyr` (R264). -/
def cpyrSize (op : Nat) : Nat := if op = 1 then 2 else 4
def execCpyr (h : Hdr) (op : BitVec 3) (bd bs : BitVec 5) (bo : BitVec 6) (s : State) : Host.Outcome State Fault Refusal :=
  s.run fun _ d => d.command (.cpyr h op bd bs bo) true
    { matrix := false, obj := fun b => b.team.object bo, op := fun b => .cpyr op.toNat (b.team.bufr bd.toNat) (b.team.bufr bs.toNat),
      check := fun b => firstFate (copyTests (b.team.bufr bd.toNat) (b.team.bufr bs.toNat) none (b.team.object bo) ++
        [(recExtent (b.team.bufr bs.toNat) % cpyrSize op.toNat != 0, boundsFate 2),
         fitTest (recExtent (b.team.bufr bs.toNat)) (b.team.bufr bd.toNat)]) }

/-- `cseq` (R266). -/
def execCseq (h : Hdr) (done : Bool) (dst : VSDst) (s : State) : Host.Outcome State Fault Refusal :=
  s.run fun _ d => d.issue h { dests := [VSDst.dst dst], flat := true } fun b d =>
    (d, fun _ => .ok (if done then b.team.doneSeq else b.team.iss).toNat)
/-- The condition of `cpyw` (R266). -/
def seqPassed (done s : W32) : Bool := (done - s).toNat < 2 ^ 31
/-- `cpyw` (R266). -/
def execCpyw (h : Hdr) (a : Src) (s : State) : Host.Outcome State Fault Refusal :=
  s.run fun _ d => d.issue h { reads := (Instr.cpyw h a).reads, flat := a.flat } fun b d => b.each d fun d t =>
    if b.denied t a then (d, .fault .privilege 0)
    else
      let q := BitVec.ofNat 32 (b.int t 32 a)
      if seqPassed b.team.doneSeq q then (d.modBunThread b t (·.acquire), {})
      else (d, { fate := .wait (.cpyw q) })

end Sys2Proof.Machine
end

