-- ==== Sys2Proof/Machine/Route.lean ====
section
/-! DEFINITION. Blocks of bytes that the device itself moves for a team, and the meanings of the routing instructions (R269 to R293). -/

namespace Sys2Proof.Machine

open Sys2Proof

/-! ### Blocks by virtual address -/

/-- The places of n bytes at a virtual address, line by line, with the faults of R187, R188 and R192; a part that is a whole line
is written under its own key (R188). The error is a miss or a fault, with the address it met. -/
def Device.placeBlock (d : Device) (m : Memory) (ridge p va n kind : Nat) : Device × Except (Option Code × Nat) (List AccPart) :=
  let r := d.translateAll m ridge p kind (if n = 0 then [] else lineParts va n)
  let d := r.1
  let one (x : Nat × Nat × Nat × Tr) : Except (Option Code × Nat) AccPart :=
    match x.2.2.2 with
    | .miss => .error (none, x.2.1)
    | .fault c => .error (some c, x.2.1)
    | .ok pa w _ =>
      match d.placeFault pa x.2.2.1 w (kind == 0) (kind == 1 && x.2.2.1 == 128 && pa % 128 == 0) with
      | some c => .error (some c, x.2.1)
      | none => .ok { first := x.1, rank := 2, va := x.2.1,
                      place := { space := .phys, addrs := (List.range x.2.2.1).map (pa + ·), key := leafKey w,
                                 home := (homeRidge pa (leafLocal w) (leafHome w)).getD 8, kind := ordOf w } }
  (d, r.2.foldl (fun (acc : Except (Option Code × Nat) (List AccPart)) x =>
    match acc with
    | .error e => .error e
    | .ok ps => match one x with | .error e => .error e | .ok p => .ok (ps ++ [p])) (.ok []))

/-- The places of n bytes at offset e of a record of kind 0 (by translation) or 1 and 3 (scratchpad), all within its extent; a read of a
scratchpad word with an uncorrectable error fails (R192). -/
def Device.recBlock (d : Device) (m : Memory) (ridge : Nat) (t : Team) (r : BitVec 256) (e n kind : Nat) :
    Device × Except (Option Code × Nat) (List AccPart) :=
  if recKind r = 0 then d.placeBlock m ridge t.part (recBase r + e) n kind
  else
    let p : Place := { space := .scratch t.grid (peerOf t r), addrs := (List.range n).map fun i => swizzle r (recBase r + e + i) }
    if kind = 0 && d.badWord p then (d, .error (some .memoryUncorrectable, 0))
    else (d, .ok [{ first := 0, rank := 0, va := recBase r + e, place := p }])

/-- The die links carry a core's access to every part of a block (R16, R345). -/
def Device.allJoined (d : Device) (core : Nat) (ps : List AccPart) : Bool := ps.all fun p => d.joined core p.place
/-- Reads a block. -/
def Device.readParts (d : Device) (m : Memory) (ps : List AccPart) : List Byte := ps.flatMap fun p => d.cells m p.place
/-- Writes a block: whole lines take the writer's key (R188). `w` says what writes (R236). -/
def Device.writeParts (d : Device) (ps : List AccPart) (bs : List Byte) (w : Toucher := .other) : Device :=
  ps.foldl (fun d p =>
    let x := (bs.drop p.first).take p.place.addrs.length
    let d := match p.place.space, p.place.addrs with
      | .phys, a :: _ => if a % 128 = 0 && p.place.addrs.length = 128 then d.setKeys a 128 p.place.key else d
      | _, _ => d
    d.setCells p.place x w) d

/-! ### Reassembly entries and tickets (R277, R285) -/

def Device.entry (d : Device) (core e : Nat) : REntry := nth (d.core core).entries e REntry.fresh
def Device.modEntry (d : Device) (core e : Nat) (f : REntry → REntry) : Device :=
  d.modCore core fun c => { c with entries := lmod c.entries e f }
/-- The ticket of entry e, 32 × core + index, in generation g (R285). -/
def ticketOf (e : Nat) (g : W32) : Nat := e / 32 + e % 32 * 2 ^ 9 + g.toNat * 2 ^ 32
/-- The entry that a valid ticket names (R285). -/
def Bun.ticket (b : Bun) (x : Nat) : Option Nat :=
  let e := bits x 13 9
  let r := b.dev.entry b.core e
  if bits x 31 14 = 0 && bits x 8 0 = b.core && r.state != .free && r.gen.toNat == bits x 63 32 && r.grid == b.team.grid && r.team == b.team.index
  then some e else none
/-- The fields of the control word of `rsv` (R289). -/
def scRows (sc : W64) : Nat := fld sc 6 0
def scK (sc : W64) : Nat := fld sc 10 8 + 1
def scN (sc : W64) : Nat := fld sc 29 16 + 1
def scSlot (sc : W64) : Nat := fld sc 14 12

/-- Takes the lowest-numbered free entry of a core: the device and the ticket, or none (R277, R289). `gen` is the copy of X of R88. -/
def Device.reserve (d : Device) (core : Nat) (grid team : Nat) (bd bs : BitVec 256) (sc fmt gen : W64) : Option (Device × Nat) :=
  match (List.range 32).find? fun e => (d.entry core e).state == .free with
  | none => none
  | some e =>
    let g := (d.entry core e).gen
    let g' : W32 := if g.toNat = 2 ^ 32 - 1 then 1 else g + 1
    some (d.modEntry core e fun _ =>
      { REntry.fresh with
        state := .reserved, gen := g', grid := grid, team := team, rows := scRows sc, k := scK sc, n := scN sc, dst := bd, staging := bs, fmt := fmt,
        tmo := fld sc 63 32, renorm := bit sc.toNat 11, rng := gen,
        weights := List.replicate (scRows sc * scK sc) 0, choices := List.replicate (scRows sc * scK sc) .pending },
      core + e * 512 + g'.toNat * 2 ^ 32)

/-- `rsv` and `rsv.try` (R88, R289). -/
def execRsv (h : Hdr) (tr : Bool) (v : BitVec 6) (bd bs : BitVec 5) (sc : BitVec 6) (s : State) : Host.Outcome State Fault Refusal :=
  s.run fun _ d =>
    let d' := d.issue h { dests := [.scal v.toNat true], flat := true } fun b d => b.once d fun d t =>
      let x := b.pack.scalar sc.toNat
      let rd := b.team.bufr bd.toNat
      let rs := b.team.bufr bs.toNat
      if fld x 31 30 != 0 || bit x.toNat 15 || bit x.toNat 7 || scRows x > 64 then (d, .fault .routeDescriptor 0)
      else
        match b.team.fmt (scSlot x) with
        | none => (d, .fault .formatSlot 0)
        | some f =>
          if recElem f > 10 then (d, .fault .formatSlot 0)
          else if recKind rd != 0 || recKind rs != 0 then (d, .fault .bounds 3)
          else if !recWr rd || !recRd rs || !recWr rs then (d, .fault .bounds 1)
          else if recExtent rs < 4 * scN x * scK x * scRows x then (d, .fault .bounds 0)
          else
            match d.reserve b.core b.team.grid b.team.index rd rs x f (match b.thread t with | some y => y.gen | none => 0) with
            | some (d, ticket) => (if recRnd f = .rs then d.advance b (oneBit t) (scRows x * scN x) else d, .ok ticket)
            | none => if tr then (d, .ok 0) else (d, { fate := .wait (.rsv d.nextBundle rd rs x f v.toNat) })
    { d' with nextBundle := d'.nextBundle + 1 }

/-- `route` at issue (R290): the checks and the release markers; the table is read by ROUTE_TABLE_READ. -/
def execRoute (h : Hdr) (tk : BitVec 6) (bt bk : BitVec 5) (s : State) : Host.Outcome State Fault Refusal :=
  s.run fun _ d => d.issue h { flat := true, collective := true } fun b d =>
    if b.part = 0 then (d, fun _ => {})
    else
      let rt := b.team.bufr bt.toNat
      let rk := b.team.bufr bk.toNat
      match b.ticket (b.pack.scalar tk.toNat).toNat with
      | none => (d, fun _ => .fault .routeDescriptor 0)
      | some e =>
        let x := d.entry b.core e
        if x.state != .reserved then (d, fun _ => .fault .routeDescriptor 0)
        else if recKind rt > 1 || recKind rk != 0 then (d, fun _ => .fault .bounds 3)
        else if !recRd rt then (d, fun _ => .fault .bounds 1)
        else if recExtent rt < 8 * x.k * x.rows then (d, fun _ => .fault .bounds 0)
        else
          ((threadsOf b.part).foldl (fun d t => d.modBunThread b t (·.releaseW)) d, fun _ =>
            { fate := .wait (.route { entry := 32 * b.core + e, gen := x.gen, stage := 0, sent := 0, k := x.k, plan := [], bt := rt, bk := rk }) })

/-- What a thread that parked at its `rret` keeps of that execution: its return has claimed its choice (R51, R278). -/
def claimMark : Nat := 2 ^ 40
/-- `rret` at issue (R291): the release marker; the entry is met by RRET_CLAIM. -/
def execRret (h : Hdr) (rb : BitVec 5) (i : Src) (s : State) : Host.Outcome State Fault Refusal :=
  s.run fun _ d => d.issue h { reads := (Instr.rret h rb i).reads, flat := i.flat } fun b d => b.each d fun d t =>
    let n := b.int t 32 i
    if b.denied t i then (d, .fault .privilege 0)
    else if n ≥ b.team.taken.length then (d, .fault .routeDescriptor 0)
    else
      let again := match b.thread t with | some x => x.again == [claimMark] | none => false
      (d.modBunThread b t (·.releaseW), { fate := .wait (.rret (b.team.bufr rb.toNat) n (if again then 3 else 0) (b.readRows (Instr.rret h rb i).reads t)) })

/-- `rwait` (R281, R292). -/
def execRwait (h : Hdr) (tk : BitVec 6) (s : State) : Host.Outcome State Fault Refusal :=
  s.run fun _ d => d.issue h { flat := true } fun b d =>
    match b.ticket (b.pack.scalar tk.toNat).toNat with
    | none => (d, fun _ => .fault .routeDescriptor 0)
    | some e =>
      let x := d.entry b.core e
      if x.state = .reserved then (d, fun _ => .fault .routeDescriptor 0)
      else if x.state = .complete then ((threadsOf b.part).foldl (fun d t => d.modBunThread b t (·.acquire)) d, fun _ => {})
      else (d, fun _ => { fate := .wait (.rwait (32 * b.core + e) x.gen) })

/-- The miss mask of an entry (R281): rows with a dropped or timed-out choice. -/
def REntry.value (x : REntry) (f : Nat) : Nat :=
  match f with
  | 0 => min x.drop 0xFFFFFFFF
  | 1 => min x.tmoCount 0xFFFFFFFF
  | 2 => min x.late 0xFFFFFFFF
  | 3 => min x.dup 0xFFFFFFFF
  | 4 => x.miss.toNat
  | _ => match x.state with | .reserved => 0 | .routed => 1 | _ => 2
def execRstat (h : Hdr) (f : BitVec 3) (dst : VSDst) (tk : BitVec 6) (s : State) : Host.Outcome State Fault Refusal :=
  s.run fun _ d => d.issue h { dests := [VSDst.dst dst], flat := true } fun b d =>
    match b.ticket (b.pack.scalar tk.toNat).toNat with
    | none => (d, fun _ => .fault .routeDescriptor 0)
    | some e => (d, fun _ => .ok ((d.entry b.core e).value f.toNat))

/-- `rfree` (R292): it waits while the stores of a combination that has begun are not performed. -/
def execRfree (h : Hdr) (tk : BitVec 6) (s : State) : Host.Outcome State Fault Refusal :=
  s.run fun _ d => d.issue h { flat := true } fun b d =>
    if b.part = 0 then (d, fun _ => {})
    else
      match b.ticket (b.pack.scalar tk.toNat).toNat with
      | none => (d, fun _ => .fault .routeDescriptor 0)
      | some e =>
        let x := d.entry b.core e
        (d.modEntry b.core e REntry.release,
         fun _ => if x.parked.isEmpty then {} else { fate := .wait (.rfree (32 * b.core + e) x.gen) })

/-- `stile` (R293): the record writes are store entries of the lowest thread of Part. -/
def execStile (h : Hdr) (v : SDst) (rb : Option (BitVec 5)) (s : State) : Host.Outcome State Fault Refusal :=
  s.run fun _ d =>
    match d.bun h true with
    | none => d
    | some b0 =>
      let r := b0.team.bufr ((rb.map (·.toNat)).getD 0)
      let n := 32 * b0.team.taken.length
      let part := maskOf fun t => b0.mask.getLsbD t && b0.pack.guard h t
      if rb.isSome && part != 0 && recKind r = 1 && n ≤ recExtent r &&
         b0.team.scored [(recBase r, n)] true then d.holdBundle b0 (.scoreboard [(recBase r, n)] true)
      else d.issue h { dests := [SDst.dst v], flat := true } fun b d => b.once d fun d t =>
        match rb with
        | none => (d, .ok b.team.taken.length)
        | some _ =>
          if recKind r != 1 then (d, .fault .bounds 3)
          else if !recWr r then (d, .fault .bounds 1)
          else if n > recExtent r then (d, .fault .bounds 0)
          else
            let put := fun (x : Thread) i =>
              x.push (.store ((leBytes 32 (b.team.taken.getD i 0).toNat).map fun y => (y, 0xFF)))
                { space := .scratch b.team.grid b.team.index, addrs := (List.range 32).map fun k => swizzle r (recBase r + 32 * i + k) } 0 none
                (recBase r + 32 * i)
            (d.modBunThread b t fun x => (List.range b.team.taken.length).foldl put x, .ok b.team.taken.length)

/-- `sflush` (R293). -/
def execSflush (h : Hdr) (a : Src) (s : State) : Host.Outcome State Fault Refusal :=
  s.run fun _ d => d.issue h { reads := (Instr.sflush h a).reads, flat := a.flat } fun b d => b.once d fun d t =>
    if b.denied t a then (d, .fault .privilege 0)
    else
      let n := b.int t 32 a
      let q := d.part b.team.part
      match aget q.stations n with
      | some st =>
        if n < q.stCnt.toNat && st.active then
          (d.modPart b.team.part fun q => { q with stations := aset q.stations n { st with flushReq := true } }, {})
        else (d, .fault .routeDescriptor 0)
      | none => (d, .fault .routeDescriptor 0)

end Sys2Proof.Machine
end

