-- ==== Sys2Proof/Machine/System.lean ====
section
/-! DEFINITION. The meanings of the system instructions and the hints (R28 to R31, R41, R75, R116 to R118, R284 to R301). -/

namespace Sys2Proof.Machine

open Sys2Proof

/-! ### Registers and handlers (R286, R294 to R296) -/

/-- The numbers of R286. -/
def sysAssigned (i : Nat) : Bool := i ≤ 11 || i == 16 || i == 17 || (32 ≤ i && i ≤ 34)
def VSDst.isScal : VSDst → Bool
  | .s _ => true
  | .v _ => false

/-- What a thread's read of register i comes to (R286, R295). -/
def Bun.readSys (b : Bun) (t i : Nat) : Res :=
  if !sysAssigned i then .fault .illegalOpcode 0 else if b.sysDenied t i then .fault .privilege 0 else .ok (b.sysReg t i)

/-- The operands of a `csr` permit a uniform execution: its register, whose number may stand in a scalar or an immediate, is the same for
every thread (R43, R294). -/
def Device.csrFlat (d : Device) (h : Hdr) : CsrForm → Bool
  | .direct i => !sysVaries i.toNat
  | .ind a => a.flat && (match d.bun h true with | some b => !sysVaries (b.int 0 (if a.isWide then 64 else 32) a) | none => false)

/-- `csr` and `csr.i` (R294, R295): with a scalar destination once, from the lowest thread of Part. -/
def execCsr (h : Hdr) (dst : VSDst) (form : CsrForm) (s : State) : Host.Outcome State Fault Refusal :=
  s.run fun _ d =>
    d.issue h { reads := (Instr.csr h dst form).reads, dests := [VSDst.dst dst], flat := d.csrFlat h form } fun b d =>
      let one := fun t =>
        match form with
        | .direct i => b.readSys t i.toNat
        | .ind a => if b.denied t a then .fault .privilege 0 else b.readSys t (b.int t (if a.isWide then 64 else 32) a)
      (d, fun t => one (if VSDst.isScal dst then b.low else t))

/-- The clamps of `sys.fair` (R41), `sys.budget` (R295) and `sys.quota` (R75). -/
def clampTo (lo hi x : Nat) : Nat := max lo (min hi x)
def Team.quotaMax (t : Team) (d : Device) : Nat := 128 * bits (d.lr t.grid lrPword) 6 0
/-- `csw` (R295). -/
def execCsw (h : Hdr) (n : BitVec 8) (a : Src) (s : State) : Host.Outcome State Fault Refusal :=
  s.run fun _ d => d.issue h { reads := (Instr.csw h n a).reads, flat := a.flat } fun b d =>
    if n = 17 then
      b.each d fun d t =>
        let x := b.int t 64 a
        if !b.inHandler t then (d, .fault .privilege 0)
        else if !isPc (BitVec.ofNat 64 x) then (d, .fault .badTarget 0)
        else (d.modBunThread b t fun y => { y with fpc := BitVec.ofNat 64 x }, {})
    else b.once d fun d t =>
      let x := b.int t (if a.isWide then 64 else 32) a
      if b.denied t a || !b.privileged then (d, .fault .privilege 0)
      else if n = 32 then (d.modPart b.team.part fun q => { q with fair := clampTo 8 1024 x }, {})
      else if n = 33 then (d.modPart b.team.part fun q => { q with budget := clampTo 1024 1048576 x }, {})
      else (d.modTeam b.core b.slot fun y => { y with quota := min (y.quotaMax d) x }, {})

/-- `tret` (R296, R323). -/
def execTret (h : Hdr) (k : BitVec 2) (s : State) : Host.Outcome State Fault Refusal :=
  s.run fun _ d => (d.issue h { flat := true } fun b d => b.each d fun d t =>
    if !b.inHandler t then (d, .fault .privilege 0)
    else (d.modBunPack b fun p => p.tret t k.toNat (b.cycle t + 1), { fate := .left })).coopAfter d.cur

/-! ### Rows in memory (R297) -/

/-- The record tests of `nsave` and `nload` on n entries from e (R176, R297). -/
def saveTests (b : Bun) (r : BitVec 256) (idx : Src) (wr : Bool) (n : Nat) : Option Fate :=
  let e := b.offset r idx
  firstFate [((threadsOf b.part).any fun t => !b.inHandler t, .fault .privilege 0 0), b.privileges idx, (recKind r > 1, boundsFate 3),
    (if wr then !recWr r else !recRd r, boundsFate 1), ((recBase r + e) % 256 != 0, .fault .misaligned 0 0),
    (e < 0 || e + 256 * n > recExtent r, boundsFate 0)]

/-- `nsave` and `nload` wait for what R297 names, their threads at barrier (R38): values pending for the pack (`nsave`), and the lowest
thread's earlier entries, the release marker of the accesses. Scratchpad bytes meet the range scoreboard (R191). -/
def Device.saveHold (d : Device) (b : Bun) (r : BitVec 256) (idx : Src) (wr : Bool) (n : Nat) : Option HoldWhy :=
  let o := b.idx ((lowest b.mask).getD 0) idx * 2 ^ recEsz r
  let xs := [(recBase r + o.toNat, 256 * n)]
  if d.valuesWait b.core b.slot b.index b.pack b.mask wr then some (.values wr)
  else if recKind r = 1 && o ≥ 0 && b.team.scored xs wr then some (.scoreboard xs wr)
  else none

/-- The bundle of a collective system instruction, when it will execute (R288). -/
def Device.wholeBun (d : Device) (h : Hdr) : Option Bun :=
  match d.bun h false with
  | none => none
  | some b =>
    let part := maskOf fun t => b.mask.getLsbD t && b.pack.guard h t
    if b.mask = BitVec.allOnes 32 && part = b.mask then some { b with part := part } else none

/-- What a block move that does not reach its place comes to (R240 does not apply: the thread itself parks or faults, R196). -/
def Device.blockFate (d : Device) (b : Bun) (kind : Nat) (x : Option Code × Nat) : Device × Fate :=
  match x with
  | (none, va) => (d.parkRecord b.team.part b.ridge va kind (d.recOf (b.id b.low) .pageNotPresent 0 b.pc 0 0), .park va kind)
  | (some c, va) => (d, .fault c 0 va)

def execNsave (h : Hdr) (v : SDst) (rb : BitVec 5) (idx : Src) (s : State) : Host.Outcome State Fault Refusal :=
  s.run fun m d =>
    let need := match d.wholeBun h with
      | none => none
      | some b =>
        let r := b.team.bufr rb.toNat
        if (saveTests b r idx true b.pack.entries.length).isNone then (d.saveHold b r idx true b.pack.entries.length).map fun w => (b, w) else none
    match need with
    | some (b, w) => d.holdBundle b w
    | none => d.issue h { reads := (Instr.nsave h v rb idx).reads, dests := [SDst.dst v], flat := idx.flat, collective := true } fun b d => b.once d fun d _ =>
        let r := b.team.bufr rb.toNat
        let es := b.pack.entries
        match saveTests b r idx true es.length with
        | some f => (d, { fate := f })
        | none =>
          if b.pack.rows.any fun r => r.live && r.bad != 0 then (d, .fault .memoryUncorrectable 0) else
          match d.recBlock m b.ridge b.team r (b.offset r idx).toNat (256 * es.length) 1 with
          | (d, .error x) => let y := d.blockFate b 1 x; (y.1, { fate := y.2 })
          | (d, .ok ps) => (d.writeParts ps es.flatten, .ok es.length)

/-- Loads entries in order up to the first fault: the pack, and the fault (R297). -/
def Pack.loadRows (p : Pack) (now maxlive : Nat) : List (List Byte) → Pack × Option Code
  | [] => (p, none)
  | x :: rest =>
    let lo := EntryF.ofBytes x
    if lo.reserved || lo.high then (p, some .spillLimit)
    else if lo.wide then
      match rest with
      | [] => (p, some .spillLimit)
      | y :: rest =>
        let hi := EntryF.ofBytes y
        if hi.reserved || !hi.high || !hi.wide || hi.name != lo.name then (p, some .spillLimit)
        else if p.rowTotal now + 2 > maxlive then (p, some .nameLimit)
        else Pack.loadRows (p.takeRow lo (some hi)) now maxlive rest
    else if p.rowTotal now + 1 > maxlive then (p, some .nameLimit)
    else Pack.loadRows (p.takeRow lo none) now maxlive rest

/-- Bytes in entries of 256. -/
def chunk256 : Nat → List Byte → List (List Byte)
  | 0, _ => []
  | n + 1, bs => bs.take 256 :: chunk256 n (bs.drop 256)

/-- `nload` (R297): the rows are taken from the quota together (R69, R70; log 25). -/
def execNload (h : Hdr) (rb : BitVec 5) (idx : Src) (sn : BitVec 6) (s : State) : Host.Outcome State Fault Refusal :=
  s.run fun m d =>
    let need := match d.wholeBun h with
      | none => none
      | some b =>
        let r := b.team.bufr rb.toNat
        let n := (b.pack.scalar sn.toNat).toNat
        if (saveTests b r idx false n).isNone && n ≤ 256 then
          match d.saveHold b r idx false n with
          | some w => some (b, w)
          | none =>
            match d.recBlock m b.ridge b.team r (b.offset r idx).toNat (256 * n) 0 with
            | (d, .ok ps) =>
              let q := b.pack.loadRows d.now (d.maxlive b.team.grid) (chunk256 n (d.readParts m ps))
              let rows := q.1.resident - b.pack.resident
              if rows > b.team.quota - b.team.inUse + b.pack.granted then some (b, .allocation rows) else none
            | _ => none
        else none
    match need with
    | some (b, w) => d.holdBundle b w
    | none => d.issue h { reads := (Instr.nload h rb idx sn).reads, flat := idx.flat, collective := true } fun b d => b.once d fun d _ =>
        let r := b.team.bufr rb.toNat
        let n := (b.pack.scalar sn.toNat).toNat
        match saveTests b r idx false n with
        | some f => (d, { fate := f })
        | none =>
          if n > 256 then (d, .fault .spillLimit 0)
          else
            match d.recBlock m b.ridge b.team r (b.offset r idx).toNat (256 * n) 0 with
            | (d, .error x) => let y := d.blockFate b 0 x; (y.1, { fate := y.2 })
            | (d, .ok ps) =>
              let q := (d.bunPack b).loadRows d.now (d.maxlive b.team.grid) (chunk256 n (d.readParts m ps))
              (d.modBunPack b fun _ => { q.1 with granted := 0 }, match q.2 with | some c => .fault c 0 | none => {})

/-! ### Time, counters, identity, code and marks (R298 to R301) -/

/-- A clock in a cycle (R298). -/
def Bun.clock (b : Bun) (clk : Bool) (cycle : Nat) : Nat :=
  if clk then (cycle - (b.dev.core b.core).born) % 2 ^ 64 else b.dev.clock.read cycle % 2 ^ 64

/-- `tstamp` (R298): with `.fence` the value comes by TSTAMP_FENCE_SAMPLE after a whole full marker. -/
def execTstamp (h : Hdr) (clk fence : Bool) (dst : VSDst) (s : State) : Host.Outcome State Fault Refusal :=
  s.run fun _ d => d.issue h { dests := [VSDst.dst dst], flat := true, long := fence } fun b d =>
    if fence then
      b.each d fun d t =>
        (d.modBunThread b t (·.fullW), { fate := .wait (.tstamp clk (b.fls.getD 0 0) (!VSDst.isScal dst || t == b.low)) })
    else (d, fun t => .ok (b.clock clk (b.cycle (if VSDst.isScal dst then b.low else t))))

/-- `cntr` (R298): a scalar destination takes the value of the lowest thread of Part. -/
def execCntr (h : Hdr) (form : CntrForm) (n : Src) (s : State) : Host.Outcome State Fault Refusal :=
  s.run fun _ d =>
    let dests := match form with
      | .one _ v => [VSDst.dst v]
      | .all v ext => spanDsts v true ext
    d.issue h { reads := (Instr.cntr h form n).reads, dests := dests, flat := n.flat } fun b d =>
      (d, fun t =>
        let i := b.int t (if n.isWide then 64 else 32) n
        if b.denied t n then .fault .privilege 0
        else if i > 7 then .fault .bounds 0
        else
          let c := d.counter b.team.part b.ridge i
          match form with
          | .one f _ => .ok (match f.toNat with | 0 => c.1 | 1 => c.2.1 | _ => c.2.2).toNat
          | .all _ _ => { vals := [c.1.toNat, c.2.1.toNat, c.2.2.toNat] })

/-- The physical cluster mask of the identity header (R28): the disabled cluster of each ridge is fixed at manufacture. -/
def clMask : Nat := (List.range 8).foldl (fun a n => a + (65535 - 2 ^ (Config.disabledCluster n).val) * 2 ^ (16 * n)) 0
/-- The identity header (R28, R31). -/
def identHeader : Nat := 0x0FA4 + 0x0B01 * 2 ^ 16 + 0x10 * 2 ^ 32 + 0x01 * 2 ^ 40 + 0x0040 * 2 ^ 48 + clMask * 2 ^ 64
/-- The capability entries at 0x40 to 0x80 (R29, R31). -/
def capEntry (i : Nat) : Nat :=
  (i + 1) + 1 * 2 ^ 16 + (if i < 4 then 0x50 + 0x10 * i else 0) * 2 ^ 32 +
  (match i with | 2 => 10 + 24 * 2 ^ 8 | 3 => 8 | _ => 0) * 2 ^ 64
/-- 8 bytes of the identity window at an aligned offset (R28 to R31, R299); what no rule gives is free. -/
def identity (off : Nat) : Nat :=
  if off < 0x20 then identHeader / 2 ^ (8 * off) % 2 ^ 64
  else if 0x40 ≤ off && off < 0x90 then capEntry ((off - 0x40) / 16) / 2 ^ (8 * (off % 16)) % 2 ^ 64
  else leNat ((List.range 8).map fun i => Config.identityByte (off + i))

def execProbe (h : Hdr) (dst : VSDst) (off : Src) (s : State) : Host.Outcome State Fault Refusal :=
  s.run fun _ d => d.issue h { reads := (Instr.probe h dst off).reads, dests := [VSDst.dst dst], flat := off.flat } fun b d =>
    (d, fun t =>
      let o := b.int t (if off.isWide then 64 else 32) off
      if b.denied t off then .fault .privilege 0
      else if o % 8 != 0 then .fault .misaligned 0
      else if o > 0x0FF8 then .fault .bounds 0
      else .ok (identity o))

/-- `icinv` (R300): the release markers; the lines are dropped by ICINV_DROP. -/
def execIcinv (h : Hdr) (rb : Option (BitVec 5)) (s : State) : Host.Outcome State Fault Refusal :=
  s.run fun _ d =>
    let d' := d.issue h { flat := true } fun b d =>
      let r := b.team.bufr ((rb.map (·.toNat)).getD 0)
      if b.part = 0 then (d, fun _ => {})
      else if rb.isSome && recKind r != 0 then (d, fun _ => .fault .bounds 3)
      else
        ((threadsOf b.part).foldl (fun d t => d.modBunThread b t (·.releaseW)) d,
         fun _ => { fate := .wait (.icinv d.nextBundle (rb.map fun _ => (recBase r, recExtent r))) })
    { d' with nextBundle := d'.nextBundle + 1 }

/-- A 32-byte record in the sample ring of a partition (R301, R338): dropped when the ring is full, or when it cannot be written
(log 26). -/
def Device.sample (d : Device) (m : Memory) (p ridge : Nat) (x : Nat) : Device :=
  let q := d.part p
  let cnt := fld q.reg 351 320
  let drop := fun (d : Device) => d.modPart p fun q => { q with srDrop := if q.srDrop.toNat = 2 ^ 64 - 1 then q.srDrop else q.srDrop + 1 }
  if fld q.reg 363 359 = 0 || cnt = 0 then d
  else if (q.srWr - q.srRd).toNat ≥ cnt then drop d
  else
    match d.vwrite m ridge p (fld q.reg 447 384 + 32 * (q.srWr.toNat % cnt)) (leBytes 32 x) with
    | (d, .ok _) => d.modPart p fun q => { q with srWr := q.srWr + 1 }
    | (d, .error _) => drop d
/-- The fields of R301. -/
def sampleBits (pack core part stall kind value grid pc time : Nat) : Nat :=
  pack * 2 ^ 8 + core * 2 ^ 16 + part * 2 ^ 28 + stall * 2 ^ 32 + kind * 2 ^ 39 + value * 2 ^ 48 + grid * 2 ^ 64 + pc * 2 ^ 128 + time * 2 ^ 192

/-- `mark` (R301). -/
def execMark (h : Hdr) (n : BitVec 17) (s : State) : Host.Outcome State Fault Refusal :=
  s.run fun m d => d.issue h { flat := true } fun b d => b.once d fun d _ =>
    (d.sample m b.team.part b.ridge (sampleBits b.index b.core b.team.part 0 1 (n.toNat % 65536) b.team.grid b.pc.toNat d.time), {})

/-! ### Hints (R116 to R118) -/

/-- `hnear` (R117): reads are spent, and no party can tell more. -/
def execHnear (h : Hdr) (c : BitVec 2) (rb : BitVec 5) (idx : Src) (s : State) : Host.Outcome State Fault Refusal :=
  s.run fun _ d => d.issue h { reads := (Instr.hnear h c rb idx).reads, flat := idx.flat } fun _ d => (d, fun _ => {})

/-- Teams of a grid that have not retired (R118, R309). -/
def Grid.unretired (g : Grid) : Nat :=
  match g.station with
  | some _ => g.live + g.launches.length
  | none => lrTeams g.record - g.nextTeam + g.live
/-- `hest` (R118). -/
def execHest (h : Hdr) (v : VDst) (s : State) : Host.Outcome State Fault Refusal :=
  s.run fun _ d => d.issue h { dests := [VDst.dst v], flat := true } fun b d =>
    (d, fun _ => .ok (min 0xFFFFFFFF (match b.grid with | some g => g.unretired | none => 0)))

/-- The destinations of an unimplemented hint (R116): a value name or a span with CNT above 0, cut at v255. The names of a span, and a name
whose WID names no width, are 32 bits wide: the model's choice (log 85). -/
def HintWord.dests (w : HintWord) : List Dst :=
  let x := w.opd.toNat
  let kind := bits x 19 17
  let cnt := bits x 8 5
  if (kind != 0 && kind != 5) || cnt = 0 then []
  else if kind = 0 then [.name (bits x 16 9) (bits x 4 3 == 1) cnt]
  else (rawNames w.opd w.ext).map fun n => .name n false cnt
/-- An unimplemented hint (R116). -/
def execUnimplementedHint (h : Hdr) (w : HintWord) (s : State) : Host.Outcome State Fault Refusal :=
  s.run fun _ d => d.issue h { reads := (Instr.unimplementedHint h w).reads, dests := HintWord.dests w,
                               flat := (Instr.unimplementedHint h w).reads.isEmpty } fun _ d =>
    (d, fun _ => { vals := (HintWord.dests w).map fun _ => 0 })

end Sys2Proof.Machine
end

