-- ==== Sys2Proof/Machine/Waits.lean ====
section
/-! DEFINITION. The moves of issue and names, and the ends of a thread's waits (R37 to R46, R61, R66 to R76, R137, R139, R141, R216, R252,
R266, R292, R316). -/

namespace Sys2Proof.Machine

open Sys2Proof

/-! ### Asynchronous faults (R316) -/

/-- The threads of a pack's mask that have not exited. -/
def Device.present (d : Device) (ids : List ThreadId) : List ThreadId :=
  ids.filter fun i => match d.thread i with | some x => !x.gone | none => false

/-- An earlier event of the same source waits for a thread that can take it (R328). -/
def Device.preceded (d : Device) (f : PendFault) : Bool :=
  f.src != .none && d.teams.any fun y => y.2.2.saving.isNone && y.2.2.packs.any fun (p : Pack) => p.threads.any fun (x : Thread) =>
    x.pend.any fun (g : PendFault) => g.src == f.src && g.event < f.event
/-- A fault that each of the threads, all of one team, takes at its next boundary (R315, R316). Where no thread is left to take it a
system fault is only recorded, naming the lowest of them (R314); after an earlier event of its source it waits there for its record
(R328). -/
def Device.postAs (d : Device) (src : Source) (sys : Bool) (ids : List ThreadId) (c : Code) (detail : Nat) (fpc : Option W64) (addr : Nat) : Device :=
  let f : ThreadId → PendFault := fun i =>
    { code := c, detail := detail, fpc := fpc, addr := addr, writes := true, asSys := sys, event := d.nextEvent, low := (i.pack, i.thread), lost := false, src := src }
  let d := { d with nextEvent := d.nextEvent + 1 }
  match d.present ids, ids with
  | i :: is, _ => (i :: is).foldl (fun d j => d.modThread j fun x => { x with pend := x.pend ++ [f i] }) d
  | [], i :: _ =>
    (match d.team i.core i.slot with
     | some t =>
       if t.stopping then d
       else if d.preceded (f i) then d.modThread i fun x => { x with pend := x.pend ++ [f i] }
       else d.eventRecord i.core i.slot (f i) false
     | none => d)
  | [], [] => d
def Device.post (d : Device) (src : Source) (ids : List ThreadId) (c : Code) (detail : Nat) (fpc : Option W64) (addr : Nat) : Device :=
  d.postAs src false ids c detail fpc addr

/-- A system fault for a team's lowest thread, whatever the class of its code; with no team of the grid resident, or once the grid has
retired, it is only recorded (R280, R316). -/
def Device.postTeam (d : Device) (src : Source) (grid team : Nat) (c : Code) (addr : Nat) : Device :=
  let low := fun (d : Device) (x : Nat × Nat × Team) =>
    let ids := d.teamIds x.1 x.2.1
    d.postAs src true (if (d.present ids).isEmpty then ids.take 1 else (d.present ids).take 1) c 0 none addr
  match d.find grid team with
  | some x => low d x
  | none =>
    match d.teams.find? fun x => x.2.2.grid == grid with
    | some x => low d x
    | none =>
      match d.grid grid with
      | none => d.emit (grid / 2 ^ 60) { addr := addr, team := team, grid := grid, cls := 1, kind := 2, code := c.num }
      | some g => if g.terminated then d else d.emit g.part { addr := addr, team := team, grid := grid, cls := 1, kind := 2, code := c.num }

/-- A held bundle all of whose threads have left it is gone, and rows granted to it are free. -/
def Pack.dropHold (p : Pack) : Pack := if p.hold.isSome && p.heldMask = 0 then { p with hold := none, granted := 0 } else p
/-- An engine reset that some receiver of the team meets with HPC = 0 or in handler mode: the team is lost (R315). -/
def Device.losing (d : Device) (core slot : Nat) (f : PendFault) : Bool :=
  f.code == .engineReset &&
  match d.team core slot with
  | none => false
  | some t => t.packs.any fun (p : Pack) => p.threads.any fun (x : Thread) => (x.pend.any fun (g : PendFault) => g.event == f.event) &&
      (d.lr t.grid (fun r => (lrHpc r).toNat) == 0 || x.handler != .off || x.pend.head?.any fun (g : PendFault) => g.event != f.event)
/-- A receiver that another fault put in handler mode after the event's record was written loses the team all the same: the lost team
writes its own record (R315, R320). -/
def Device.losesLate (d : Device) (i : ThreadId) (f : PendFault) : Bool :=
  !f.writes && !f.lost && f.code == .engineReset &&
  match d.team i.core i.slot, d.thread i with
  | some t, some x => d.lr t.grid (fun r => (lrHpc r).toNat) == 0 || x.handler != .off
  | _, _ => false
/-- ASYNC_FAULT_DELIVERY (R316, R328): the thread's oldest pending fault, at its next boundary; while its team is being saved it
stays pending (R324). -/
def Device.deliver (d : Device) (i : ThreadId) : Device :=
  match d.thread i with
  | none => d
  | some x =>
    match x.pend with
    | [] => d
    | f :: rest =>
      if x.lane > d.now || (match d.team i.core i.slot with | some t => t.saving.isSome | none => true) || d.preceded f then d
      else
        let told := d.eventRecord i.core i.slot f (d.losing i.core i.slot f)
        (((told.modThread i fun x => { x with pend := rest }).raise i f.code f.detail (f.fpc.getD x.pc) f.addr true (d.losesLate i f))).modPack
          i.core i.slot i.pack Pack.dropHold
def execAsyncFaultDelivery (i : ThreadId) (s : State) : Host.Outcome State Fault Refusal := s.run fun _ d => d.deliver i

/-! ### Issue and joins -/

def execBundleStart (core q : Nat) (s : State) : Host.Outcome State Fault Refusal :=
  s.run fun m d => d.bundleStart m core (q % 4)

/-- JOIN_RELEASE (R46). -/
def execJoinRelease (p : PackId) (s : State) : Host.Outcome State Fault Refusal :=
  s.run fun _ d => d.modPack p.core p.slot p.pack (Pack.release · d.now)

/-- A flight whose values are due arrives, when its instruction has them all (R45, R61). -/
def Pack.arrive (p : Pack) (now id : Nat) : Pack :=
  match p.flights.find? fun (f : Flight) => f.id == id && f.ready.any (· ≤ now) with
  | some f => p.finish f.group
  | none => p
def execPendingValueArrive (p : PackId) (flight : Nat) (s : State) : Host.Outcome State Fault Refusal :=
  s.run fun _ d => d.modPack p.core p.slot p.pack (·.arrive d.now flight)

/-! ### Rows (R66 to R76) -/

/-- ROW_FREE (R66). -/
def execRowFree (p : PackId) (row : Nat) (s : State) : Host.Outcome State Fault Refusal :=
  s.run fun _ d => d.modPack p.core p.slot p.pack fun p => { p with rows := p.rows.filter fun (r : Row) => !(r.id == row && r.free d.now) }

/-- ROWS_GRANTED (R70). -/
def execRowsGranted (core slot : Nat) (s : State) : Host.Outcome State Fault Refusal :=
  s.run fun _ d => d.modTeam core slot Team.grant

/-- A row, or the half of a pair that is still resident, may be evicted (R71); one without a count is about to be freed. -/
def Pack.evictable (p : Pack) (now : Nat) (r : Row) : Bool :=
  r.resident != 0 && r.live && r.held == 0 && !p.rowPending r.id && r.busy ≤ now
/-- The most recently allocated evictable row: of a pair the high row first. -/
def Pack.newest (p : Pack) (now : Nat) : Option (Nat × Bool) :=
  if p.noEvict then none
  else (p.rows.reverse.find? (p.evictable now)).map fun r => (r.id, r.wide && r.evHi.isNone)

def Team.blockedPacks (t : Team) : List Nat :=
  (List.range t.packs.length).filter fun i => match t.packs[i]? with | some p => !p.retired && p.blocked | none => false
def Team.elder (t : Team) : Option Nat := leastBy t.stampOf t.blockedPacks

/-- The condition of R71: a thread still on its lane is ready until its cycle has passed (R42), and rows that are due are freed first. -/
def Team.deadlocked (t : Team) (now : Nat) : Bool :=
  !t.blockedPacks.isEmpty &&
  (List.range t.packs.length).all (fun i =>
    match t.packs[i]? with
    | some p => p.retired || p.blocked || p.threads.all fun (x : Thread) => !x.ready && x.lane ≤ now
    | none => true) &&
  decide ((t.freeing now).grant = t.freeing now)
/-- The elder of the eviction round in progress while its need is not covered, and otherwise the blocked pack with the lowest stamp
when the team is in deadlock (R71, R74). -/
def Team.evictFor (t : Team) (now : Nat) : Option Nat :=
  match t.round with
  | some e => if t.blockedPacks.contains e then some e else if t.deadlocked now then t.elder else none
  | none => if t.deadlocked now then t.elder else none
/-- The victim of R71. -/
def Team.victim (t : Team) (now elder : Nat) : Option Evict :=
  let holds := (List.range t.packs.length).filter fun i => i != elder && (match t.packs[i]? with | some p => (p.newest now).isSome | none => false)
  let blocked := holds.filter t.blockedPacks.contains
  match leastBy (fun i => 2 ^ 64 - t.stampOf i) (if blocked.isEmpty then holds else blocked) with
  | none => none
  | some v =>
    match t.packs[v]? with
    | none => none
    | some p => (p.newest now).map fun r => { elder := elder, victim := v, row := r.1, high := r.2, page := none }

/-- ALLOCATION_DEADLOCK (R71): the elder of the round keeps the lowest stamp from then on (R74). -/
def execAllocationDeadlock (core slot : Nat) (s : State) : Host.Outcome State Fault Refusal :=
  s.run fun _ d => d.modTeam core slot fun t =>
    if t.evict.isSome then t
    else
      let e := t.evictFor d.now
      { t with round := e, evict := e.bind (t.victim d.now),
               packs := imap (fun i (p : Pack) => if e = some i then { p with elder := true } else p) 0 t.packs }

/-- Entries of the pack's spill area in use (R72). -/
def Pack.spilled (p : Pack) : Nat := p.rows.foldl (fun a r => a + r.evLo.isSome.toNat + r.evHi.isSome.toNat) 0
/-- The place of a row in the pack's allocation order, counted in single rows (R77). -/
def Pack.rankOf (p : Pack) (id : Nat) : Nat := (p.rows.takeWhile fun (r : Row) => r.id != id).foldl (fun a r => a + r.size) 0
/-- SpillEntry(s, p, e) (R76). -/
def Device.spillEntry (d : Device) (t : Team) (pack e : Nat) : Nat :=
  d.lr t.grid lrSpb + ((t.spillSlot * t.packs.length + pack) * d.maxlive t.grid + e) * 256

/-- The fault of an eviction (R72): every thread of the owner pack, and no row of it is evictable until one has issued. -/
def Device.evictFault (d : Device) (core slot : Nat) (e : Evict) (c : Code) : Device :=
  let d := (d.modTeam core slot fun t => { t with evict := none }).modPack core slot e.victim fun p => { p with noEvict := true }
  let ids := maskIds core slot e.victim (BitVec.allOnes 32)
  if c = .memoryUncorrectable then d.post .none ids c 0 none 0 else d.post .none ids .spillLimit c.num none 0

/-- ROW_EVICT (R72). A park record names the pack's thread 0 and its PC, the model's choice (log 80). -/
def execRowEvict (core slot : Nat) (s : State) : Host.Outcome State Fault Refusal :=
  s.run fun m d =>
    match d.team core slot with
    | none => d
    | some t =>
      match t.evict with
      | none => d
      | some e =>
        match t.packs[e.victim]? with
        | none => d
        | some p =>
          match p.row e.row with
          | none => d.modTeam core slot fun t => { t with evict := none }
          | some r =>
            if e.page.isSome then d
            else if !p.evictable d.now r then d.modTeam core slot fun t => { t with evict := none }
            else if r.bad != 0 then d.evictFault core slot e .memoryUncorrectable
            else
              let k := p.spilled
              match d.placeBlock m (ridgeOf core) t.part (d.spillEntry t e.victim k) 256 1 with
              | (d, .error (none, va)) =>
                (d.parkRecord t.part (ridgeOf core) va 1 (d.recOf ⟨core, slot, e.victim, 0⟩ .pageNotPresent 0 (BitVec.ofNat 64 (p.pcOf 0)) 0 0)).modTeam
                  core slot fun t => { t with evict := some { e with page := some (va / 65536 * 65536) } }
              | (d, .error (some c, _)) => d.evictFault core slot e c
              | (d', .ok ps) =>
                if !d.allJoined core ps then d
                else
                let d := d'.writeParts ps (r.entry e.high (p.rankOf r.id + e.high.toNat))
                let d := d.modPack core slot e.victim fun p => p.modRow r.id fun r => if e.high then { r with evHi := some k } else { r with evLo := some k }
                (d.modPack core slot e.elder fun p => { p with granted := p.granted + 1 }).modTeam core slot fun t => { t with evict := none }

/-- A count as it stands once the reads spent while the row was evicted are taken from it (R62, R72). -/
def Row.owing (r : Row) (counts : List Nat) : List Nat :=
  imap (fun t c => if c = 15 then 15 else c - r.owed.count t) 0 counts
/-- The last evicted row of a pack: its number, the half and the entry (R72). -/
def Pack.lastEvicted (p : Pack) : Option (Nat × Bool × Nat) :=
  let k := p.spilled
  if k = 0 then none
  else
    match p.rows.find? fun (r : Row) => r.evHi == some (k - 1) with
    | some r => some (r.id, true, k - 1)
    | none => (p.rows.find? fun (r : Row) => r.evLo == some (k - 1)).map fun r => (r.id, false, k - 1)

/-- Puts back a row's value, counts, bindings and mark as the entry gives them (R72, R76); reads that waits spent meanwhile are then
taken from its counts (R62). -/
def Pack.putBack (p : Pack) (id : Nat) (high : Bool) (e : EntryF) : Pack :=
  match p.row id with
  | none => p
  | some r0 =>
    { p with restorePage := none, granted := p.granted - 1,
             rows := p.rows.map fun (r : Row) =>
               if r.id = id then
                 let back := { r with lo := if high then r.lo else e.vals, hi := if high then e.vals else r.hi, count := e.count, bound := e.bound,
                                      cur := e.cur, evLo := if high then r.evLo else none, evHi := if high then none else r.evHi }
                 if back.evicted then back else { back with count := back.owing e.count, owed := [] }
               else if r.name = r0.name then { r with bound := r.bound &&& ~~~e.bound, cur := r.cur && !e.cur } else r }

/-- A restore that meets a fault ends the grid (R72). Its record names the pack's thread 0 and its PC, the model's choice (log 80). -/
def Device.restoreFault (d : Device) (p : PackId) (c : Code) : Device :=
  match d.team p.core p.slot with
  | none => d
  | some t =>
    let pc := match d.pack p.core p.slot p.pack with | some x => BitVec.ofNat 64 (x.pcOf 0) | none => 0
    let code := if c = .memoryUncorrectable then c else .spillLimit
    d.terminate t.grid (d.recOf ⟨p.core, p.slot, p.pack, 0⟩ code (if c = .memoryUncorrectable then 0 else c.num) pc 0 0)

/-- ROW_RESTORE (R72): a need of one row that R70 has served. -/
def execRowRestore (q : PackId) (s : State) : Host.Outcome State Fault Refusal :=
  s.run fun m d =>
    match d.team q.core q.slot, d.pack q.core q.slot q.pack with
    | some t, some p =>
      match p.lastEvicted with
      | none => d
      | some (id, high, k) =>
        if p.granted = 0 || p.restorePage.isSome then d
        else
          match d.placeBlock m (ridgeOf q.core) t.part (d.spillEntry t q.pack k) 256 0 with
          | (d, .error (none, va)) =>
            (d.parkRecord t.part (ridgeOf q.core) va 0 (d.recOf ⟨q.core, q.slot, q.pack, 0⟩ .pageNotPresent 0 (BitVec.ofNat 64 (p.pcOf 0)) 0 0)).modPack
              q.core q.slot q.pack fun p => { p with restorePage := some (va / 65536 * 65536) }
          | (d, .error (some c, _)) => d.restoreFault q c
          | (d', .ok ps) =>
            if !d.allJoined q.core ps then d
            else
            let d := d'
            let e := EntryF.ofBytes (d.readParts m ps)
            d.modPack q.core q.slot q.pack (·.putBack id high e)
    | _, _ => d

/-! ### Ends of waits -/

/-- What a thread waits for; a wait that is set aside or of a team that is being saved is not tested (R322, R323), and none begins before the
thread's own cycle of its bundle (R43). -/
def Device.waitOf (d : Device) (i : ThreadId) : Option Wait :=
  match d.team i.core i.slot, d.pack i.core i.slot i.pack, d.thread i with
  | some t, some p, some x =>
    if t.saving.isSome || p.sliceDone || x.lane > d.now + 1 then none
    else match x.status with
      | .atBarrier w => some w
      | _ => none
  | _, _, _ => none
/-- The same for the waits that complete before any save (R302). -/
def Device.waitNow (d : Device) (i : ThreadId) : Option Wait :=
  match d.thread i with
  | some x => if x.lane > d.now + 1 then none else (match x.status with | .atBarrier w => some w | _ => none)
  | none => none

/-- The wake of a thread whose phase has passed; one that has waited to its limit wakes no more (R216). -/
def Device.barrierWake (d : Device) (m : Memory) (i : ThreadId) : Device :=
  match d.waitOf i with
  | some (.phase obj ph lim rs _) =>
    if d.phaseOf m obj != ph.toNat && !lim.any (· ≤ d.now) then (d.spendRows i rs).modThread i (·.wakeAcquire) else d
  | _ => d
/-- BARRIER_WAKE (R216, R230). -/
def execBarrierWake (i : ThreadId) (s : State) : Host.Outcome State Fault Refusal := s.run fun m d => d.barrierWake m i
/-- The threads of a resident team that wait on a phase with a limit. -/
def Device.limited (d : Device) : List (ThreadId × Nat) :=
  d.teams.flatMap fun x => (imap (fun i (p : Pack) => (imap (fun t (y : Thread) =>
    match y.status with
    | .atBarrier (.phase _ _ (some l) _ _) => [((⟨x.1, x.2.1, i, t⟩ : ThreadId), l)]
    | _ => []) 0 p.threads).flatten) 0 x.2.2.packs).flatten
/-- Before a cycle passes: the threads that reach their limit in it, and whose phase has passed, have woken (R216). -/
def Device.wakeLast (d : Device) (m : Memory) : Device :=
  (d.limited.filter fun x => x.2 ≤ d.now + 1).foldl (fun d x => d.barrierWake m x.1) d

/-- BARRIER_TIMEOUT (R216): a thread whose phase passed before its limit has woken by then (`Device.wakeLast`). -/
def execBarrierTimeout (i : ThreadId) (s : State) : Host.Outcome State Fault Refusal :=
  s.run fun _ d =>
    let go (lim : Option Nat) : Device :=
      match lim, d.thread i with
      | some l, some x => if l ≤ d.now then d.raise i .barrierTimeout 0 x.pc 0 false true else d
      | _, _ => d
    match d.waitOf i with
    | some (.phase _ _ lim _ _) => go lim
    | some (.arrival lim _ _) => go lim
    | _ => d

/-- SLEEP_WAKE (R137). -/
def execSleepWake (i : ThreadId) (s : State) : Host.Outcome State Fault Refusal :=
  s.run fun _ d =>
    match d.waitOf i with
    | some (.sleep n) => if n ≤ d.now then d.modThread i (·.wake) else d
    | _ => d

/-- CWAIT_WAKE (R141). -/
def execCwaitWake (i : ThreadId) (s : State) : Host.Outcome State Fault Refusal :=
  s.run fun _ d =>
    match d.waitOf i, d.team i.core i.slot with
    | some (.cwait q), some t => if cwaitDone t.cmp q then d.modThread i (·.wakeAcquire) else d
    | _, _ => d

/-- MWAIT_WAKE (R252). -/
def execMwaitWake (i : ThreadId) (s : State) : Host.Outcome State Fault Refusal :=
  s.run fun _ d =>
    match d.waitOf i, d.team i.core i.slot with
    | some (.mwait ids), some _ =>
      if d.retired i.core ids then (d.modTeam i.core i.slot (·.cover ids)).modThread i (·.wakeAcquire) else d
    | some (.mwaitTile ids a k), some t =>
      if d.retired i.core ids && !t.closing a (some k) then (d.modTeam i.core i.slot (·.cover ids)).modThread i (·.wakeAcquire) else d
    | _, _ => d

/-- CPYW_WAKE (R266). -/
def execCpywWake (i : ThreadId) (s : State) : Host.Outcome State Fault Refusal :=
  s.run fun _ d =>
    match d.waitOf i, d.team i.core i.slot with
    | some (.cpyw q), some t => if seqPassed t.doneSeq q then d.modThread i (·.wakeAcquire) else d
    | _, _ => d

/-- RWAIT_WAKE (R281, R292). -/
def execRwaitWake (i : ThreadId) (s : State) : Host.Outcome State Fault Refusal :=
  s.run fun _ d =>
    match d.waitOf i with
    | some (.rwait e gen) =>
      let x := d.entry (e / 32) (e % 32)
      if x.gen = gen && x.state = .complete then d.modThread i (·.wakeAcquire) else d
    | _ => d

/-- SPAWN_HOLD_RELEASE (R139): the thread executes its `spawn` again. -/
def execSpawnHoldRelease (i : ThreadId) (s : State) : Host.Outcome State Fault Refusal :=
  s.run fun _ d =>
    match d.waitOf i, d.team i.core i.slot with
    | some .spawnHold, some t => if t.children < 2 ^ 31 - 1 then d.modThread i fun x => { x with status := .ready } else d
    | _, _ => d

/-- TSTAMP_FENCE_SAMPLE (R298): the whole full marker has retired. -/
def execTstampFenceSample (i : ThreadId) (s : State) : Host.Outcome State Fault Refusal :=
  s.run fun _ d =>
    match d.waitNow i, d.thread i with
    | some (.tstamp clk flight wr), some x =>
      if x.queue.any fun (e : Entry) => (match e.kind with | .full _ true => true | _ => false) then d
      else
        let v := if clk then (d.now - (d.core i.core).born) % 2 ^ 64 else d.time
        d.modPack i.core i.slot i.pack fun p =>
          (p.completeFlight flight i.thread (if wr then some v else none)).modThread i.thread (·.wake)
    | _, _ => d

/-- ICINV_DROP (R300): every release marker of the bundle has retired; every core drops its lines, and the threads go on. -/
def Device.dropLines (d : Device) (part : Nat) (range : Option (Nat × Nat)) : Device :=
  { d with cores := d.cores.map fun (c : Nat × Core) =>
      (c.1, { c.2 with icache := c.2.icache.filter fun x =>
        !(x.1 / 2 ^ 60 == part &&
          (match range with | none => true | some (b, n) => x.1 % 2 ^ 60 < b + n && b < x.1 % 2 ^ 60 + 128)) }) }

end Sys2Proof.Machine
end

