-- ==== Sys2Proof/Machine/Orders.lean ====
section
/-! DEFINITION. The moves of the ordering machine (R192, R209 to R217, R219 to R230) and the end of `icinv` (R300). -/

namespace Sys2Proof.Machine

open Sys2Proof

/-! ### Conditions -/

/-- Two places share a cell. -/
def Place.overlaps (p q : Place) : Bool := p.space == q.space && p.addrs.any q.addrs.contains
/-- The entries of a thread before a program-order number. -/
def Thread.before (x : Thread) (po : Nat) : List Entry := x.queue.filter fun (e : Entry) => e.po < po
def Thread.entry (x : Thread) (po : Nat) : Option Entry := x.queue.find? fun (e : Entry) => e.po == po
def Thread.drop (x : Thread) (po : Nat) : Thread := { x with queue := x.queue.filter fun (e : Entry) => e.po != po }

def Entry.isRelease (e : Entry) : Bool := match e.kind with | .release .. => true | _ => false
def Entry.isFull (e : Entry) : Bool := match e.kind with | .full .. => true | _ => false
/-- An acquire or full marker: it holds every later load and write entry (R226). -/
def Entry.gates (e : Entry) : Bool :=
  match e.kind with
  | .acquire .. => true
  | .full .. => true
  | _ => false
def Entry.isAtomic (e : Entry) : Bool := match e.kind with | .atomic .. => true | _ => false
def Entry.isReduce (e : Entry) : Bool := match e.kind with | .reduce .. => true | _ => false

/-- The ordering kind of the entry allows it to leave (R224). -/
def Entry.mayLeave (e : Entry) (earlier : List Entry) : Bool :=
  match e.place.kind with
  | .strong => !earlier.any fun (o : Entry) => o.isWrite || o.isRelease || o.isFull
  | .release => !earlier.any (·.isRelease)
  | .unordered => true

/-- An atomic entry of the same bundle and address, or an arrival of the same bundle on the same object, of a lower thread index still
waits (R209, R215, R225). -/
def Pack.passWaits (p : Pack) (e : Entry) : Bool :=
  match e.kind with
  | .atomic _ _ _ _ _ bundle rank _ =>
    p.threads.any fun (x : Thread) => x.queue.any fun (o : Entry) =>
      match o.kind with
      | .atomic _ _ _ _ _ b r _ => b == bundle && r < rank && o.place.space == e.place.space && o.place.addrs == e.place.addrs
      | _ => false
  | .arrive _ _ _ _ _ bundle rank =>
    p.threads.any fun (x : Thread) => x.queue.any fun (o : Entry) =>
      match o.kind with
      | .arrive _ _ _ _ _ b r => b == bundle && r < rank && o.place.space == e.place.space && o.place.addrs == e.place.addrs
      | _ => false
  | _ => false

/-- The thread's own cycle in the bundle that issued the entry with a program-order number has come (R43). -/
def Thread.reached (x : Thread) (now po : Nat) : Bool := po < x.since || x.lane ≤ now + 1
/-- R224 for a write entry of thread i. -/
def Device.leaves (d : Device) (i : ThreadId) (x : Thread) (e : Entry) : Bool :=
  let earlier := x.before e.po
  x.reached d.now e.po && e.isWrite && !earlier.any (fun (o : Entry) => o.gates || (o.isWrite && o.place.overlaps e.place)) &&
  (match e.bound with | some b => !x.has b | none => true) && e.mayLeave earlier && d.joined i.core e.place &&
  (match d.pack i.core i.slot i.pack with | some p => !p.passWaits e | none => false)

/-- A reduction of the thread, earlier than a number, is in the pool (R228). -/
def Device.pooled (d : Device) (i : ThreadId) (lo hi rank : Nat) (place : Option Place) : Bool :=
  d.pool.any fun (r : Red) => (match place with | some p => r.place.overlaps p | none => true) &&
    r.owners.any fun o => o.1 == i && lo ≤ o.2.1 && o.2.1 < hi && o.2.2 ≤ rank

/-- The rank of an entry (R220): one that reaches a saved team's image is of rank d (R217, R230). -/
def Device.rankOf (d : Device) (e : Entry) : Nat :=
  match e.place.space with
  | .scratch g t => if (d.imageOf g t).isSome then max e.rank 2 else e.rank
  | .phys => e.rank
/-- R226: the retirement conditions of a marker of scope sc. -/
def Device.released (d : Device) (i : ThreadId) (x : Thread) (po sc : Nat) : Bool :=
  !(x.before po).any (fun (e : Entry) => (e.isWrite || e.isLoad) && d.rankOf e ≤ sc) && !d.pooled i 0 po sc none
def Device.acquired (d : Device) (x : Thread) (po sc : Nat) : Bool :=
  !(x.before po).any fun (e : Entry) => (e.isLoad || e.isAtomic) && d.rankOf e ≤ sc
def Device.retires (d : Device) (i : ThreadId) (x : Thread) (e : Entry) : Bool :=
  x.reached d.now e.po &&
  match e.kind with
  | .release sc _ => d.released i x e.po sc
  | .acquire sc _ none => d.acquired x e.po sc
  | .acquire _ _ (some b) => !(x.before e.po).any (fun (o : Entry) => b ≤ o.po) && !d.pooled i b e.po 3 none
  | .full sc _ => d.released i x e.po sc && d.acquired x e.po sc
  | _ => false

/-- R227 for a load of thread i. -/
def Device.mayLoad (d : Device) (i : ThreadId) (x : Thread) (e : Entry) : Bool :=
  x.reached d.now e.po && !(x.before e.po).any (fun (o : Entry) =>
    o.gates || (o.place.overlaps e.place && (match o.kind with | .store _ => false | _ => true))) &&
  !d.pooled i 0 e.po 3 (some e.place) && d.joined i.core e.place

/-! ### What an entry does (R225) -/

/-- Dirty lines that a colour of a ridge cache holds: no more than its 6 MiB; the oldest one beyond has been written back (R24; log 72). -/
def fitColour (colour : Nat) (ls : List (Nat × Nat × List Byte)) : List (Nat × Nat × List Byte) :=
  let mine := ls.filter fun x => x.2.1 == colour
  if mine.length ≤ 49152 then ls else ls.filter fun x => mine.getLast?.all fun y => y.1 != x.1
/-- The line of a store may stay dirty in the ridge cache of the storing core, in the colour that the partition's mask gives it, with the
home slice's older bytes (R190, R192). -/
def Device.soil (d : Device) (m : Memory) (ridge part pa : Nat) : Device :=
  let l := pa / 128
  if !keyed pa then d
  else
    let d := { d with ridges := d.ridges.map fun (r : Nat × Ridge) =>
      if r.1 = ridge then r else (r.1, { r.2 with dirty := r.2.dirty.filter fun x => x.1 != l }) }
    if (d.ridge ridge).dirty.any (fun x => x.1 == l) then d
    else
      let k := d.draws
      let d := { d with draws := k + 1 }
      let c := d.fillColour part pa
      if Config.staysDirty k then d.modRidge ridge fun r => { r with dirty := fitColour c ((l, c, d.rdBytes m (l * 128) 128) :: r.dirty) } else d

/-- The partition of a resident thread. -/
def Device.partOf (d : Device) (i : ThreadId) : Nat := match d.team i.core i.slot with | some t => t.part | none => 0
/-- A write of a whole line (R188, R192). -/
def Place.line (p : Place) : Bool := p.space == .phys && p.addrs.length == 128 && p.addrs.headD 0 % 128 == 0
/-- A store is performed (R177, R188, R192, R223, R225). -/
def Device.doStore (d : Device) (m : Memory) (i : ThreadId) (e : Entry) (bs : List (Byte × Byte)) : Device :=
  let first := e.place.addrs.headD 0
  if (e.place.space = .phys && !e.place.line && d.isBad first (max 1 e.place.addrs.length)) || d.metImage e.place true = some .memoryUncorrectable then
    match d.team i.core i.slot with
    | some t => d.postTeam (.thread i) t.grid t.index .memoryUncorrectable e.va
    | none => d
  else
    let d := if e.place.space != .phys then d else if e.rank < 3 then d.soil m (ridgeOf i.core) (d.partOf i) first else d.cleaned first e.place.addrs.length
    let d := if e.place.line then d.setKeys first 128 e.place.key else d
    d.setCells e.place (((d.cells m e.place).zip bs).map fun x => mergeByte x.1 x.2) (.entry i e.po)

/-- A move brings thread t's value, or none where the access faults; a scalar's value stands for every thread that waits for it (R105).
The instruction completes with its last value (log 96). -/
def Pack.giveFlight (p : Pack) (id t : Nat) (v : Option Nat) : Pack :=
  match p.flights.find? (fun (g : Flight) => g.id == id && g.mask.getLsbD t) with
  | none => p
  | some f =>
    let ts := match f.dst with
      | .scal _ _ => threadsOf f.mask
      | _ => [t]
    match v with
    | none => (ts.foldl (fun p t => p.completeFlight id t none) p).finish f.group
    | some v =>
      ({ p with flights := p.flights.map fun (g : Flight) =>
          if g.id = id then { g with vals := g.vals ++ (ts.filter g.mask.getLsbD).map fun t => (t, BitVec.ofNat 64 v) } else g }).finish f.group
def Device.give (d : Device) (i : ThreadId) (id : Nat) (v : Option Nat) : Device :=
  d.modPack i.core i.slot i.pack (·.giveFlight id i.thread v)

/-- An access finds an uncorrectable error when it is performed (R192). -/
def Device.spoilt (d : Device) (p : Place) : Bool := p.space == .phys && d.isBad (p.addrs.headD 0) (max 1 p.addrs.length)

/-- The threads that a fault of a load reaches: every one that waits for its scalar (R200), or the loading one. -/
def Device.loaders (d : Device) (i : ThreadId) (flight : Nat) : List ThreadId :=
  match (d.pack i.core i.slot i.pack).bind fun p => p.flights.find? fun (f : Flight) => f.id == flight && f.mask.getLsbD i.thread with
  | some f => (match f.dst with | .scal _ _ => maskIds i.core i.slot i.pack f.mask | _ => [i])
  | none => [i]
/-- What an entry meets at its place when it is performed: a home ridge that is no longer TRUSTED (R187, R353), a line that has taken
another key since (R188), or, when it reads, an uncorrectable error of memory or of a scratchpad word (R192). -/
def Device.met (d : Device) (p : Place) (reads : Bool) : Option Code :=
  if p.space != .phys then (if reads && d.badWord p then some .memoryUncorrectable else d.metImage p reads)
  else if p.home < 8 && !d.trusted p.home then some .dieQuarantined
  else if d.alias (p.addrs.headD 0) (max 1 p.addrs.length) p.key (!reads && p.line) then some .keyAlias
  else if reads && d.spoilt p then some .memoryUncorrectable
  else none

/-- The arrival of `bar` and `barv` on an object (R212, R215, R225). -/
def Device.doArrive (d : Device) (m : Memory) (i : ThreadId) (p : Place) (count : W32) (flight limit : Option Nat) (pc : W64) : Device :=
  let bs := d.cells m p
  let w := objWords bs
  let high := bits (leNat bs) 127 96
  let bad : Option Nat := if count.toNat != w.2.1 then some 0 else if w.2.2.1 = w.2.1 then some 1 else none
  let waiting := match d.thread i with
    | some x => (match x.status with | .atBarrier (.arrival ..) => true | _ => false) &&
                !x.queue.any fun (e : Entry) => (match e.kind with | .arrive _ _ none .. => true | _ => false)
    | none => false
  match bad with
  | some detail =>
    match flight with
    | some f => (d.give i f none).post (.thread i) [i] .barrierMismatch detail (some pc) 0
    | none => if waiting then d.raise i .barrierMismatch detail pc 0 false true else d.post (.thread i) [i] .barrierMismatch detail (some pc) 0
  | none =>
    let w' := advancePhase (w.1, w.2.1, (w.2.2.1 + 1) % 65536, w.2.2.2)
    let d := d.setCells p (objBytes w'.1 w'.2.1 w'.2.2.1 w'.2.2.2 high)
    match flight with
    | some f => d.give i f (some w.1)
    | none =>
      let next (rs : List Nat) (site : Nat) : Status := .atBarrier (.phase (some { space := p.space, addrs := p.addrs }) (BitVec.ofNat 32 w.1) limit rs site)
      match d.thread i with
      | none => d
      | some x =>
        if waiting then
          let (rs, st) := match x.status with | .atBarrier w => (w.reads, w.site) | _ => ([], 0)
          if w'.1 != w.1 then (d.spendRows i rs).modThread i (·.wakeAcquire) else d.modThread i fun x => { x with status := next rs st }
        else match x.aside with
          | some (.atBarrier (.arrival _ rs st), pc, again, start) => d.modThread i fun x => { x with aside := some (next rs st, pc, again, start) }
          | _ => d

/-- The step of `binit` or `bexp` (R214). -/
def Device.doStep (d : Device) (m : Memory) (p : Place) (init : Bool) (v : W32) : Device :=
  if init then d.setCells p (objBytes 0 v.toNat 0 0 0)
  else
    let bs := d.cells m p
    let x := objWords bs
    let x' := advancePhase (x.1, x.2.1, x.2.2.1, (x.2.2.2 + v.toNat) % 2 ^ 32)
    d.setCells p (objBytes x'.1 x'.2.1 x'.2.2.1 x'.2.2.2 (bits (leNat bs) 127 96))

/-- STORE_LEAVE (R224, R225): a write entry leaves its queue and is performed. -/
def execStoreLeave (i : ThreadId) (po : Nat) (s : State) : Host.Outcome State Fault Refusal :=
  s.run fun m d =>
    match d.thread i with
    | none => d
    | some x =>
      match x.entry po with
      | none => d
      | some e =>
        if !d.leaves i x e then d
        else
          let d := d.modThread i (·.drop po)
          match e.kind with
          | .store bs =>
            (match d.met e.place false with
             | some c => d.post (.thread i) [i] c 0 none e.va
             | none => d.doStore m i e bs)
          | .atomic op w v cmp flight _ _ _ =>
            (match d.met e.place true with
             | some c => (d.give i flight none).post (.thread i) [i] c 0 none e.va
             | none =>
               let old := leNat (d.cells m e.place)
               (d.setCells e.place (leBytes (w / 8) (atomNew op w old v.toNat cmp.toNat))).give i flight (some old))
          | .reduce op w v => { d with pool := d.pool ++ [{ owners := [(i, e.po, e.rank)], place := e.place, va := e.va, op := op, width := w, v := v }] }
          | .arrive _ count flight limit pc _ _ =>
            (match d.met e.place true with
             | some c => (match flight with | some f => d.give i f none | none => d).post (.thread i) [i] c 0 none e.va
             | none => d.doArrive m i e.place count flight limit pc)
          | .barrierStep _ init v part =>
            (match d.met e.place (!init) with
             | some c => d.post (.thread i) (maskIds i.core i.slot i.pack part) c 0 none e.va
             | none => d.doStep m e.place init v)
          | _ => d

/-- MARKER_RETIRE (R226). -/
def execMarkerRetire (i : ThreadId) (po : Nat) (s : State) : Host.Outcome State Fault Refusal :=
  s.run fun _ d =>
    match d.thread i with
    | none => d
    | some x =>
      match x.entry po with
      | some e => if d.retires i x e then d.modThread i (·.drop po) else d
      | none => d

/-- The bytes of a load that parts performed so far have brought (R180). -/
def Flight.bytesOf (f : Flight) (t n : Nat) : List Byte :=
  (List.range n).map fun k => match f.parts.find? (fun y => y.1 == t && y.2.1 == k) with | some y => y.2.2 | none => 0
/-- The bytes a load takes: its cells under the earlier stores of its thread (R227). -/
def Device.loadBytes (d : Device) (m : Memory) (x : Thread) (e : Entry) : List Byte :=
  let stores := (x.before e.po).filter fun (o : Entry) => o.place.space == e.place.space
  e.place.addrs.map fun a =>
    stores.foldl (fun b (o : Entry) =>
      match o.kind with
      | .store bs => (match (o.place.addrs.zip bs).find? (fun y => y.1 == a) with | some y => mergeByte b y.2 | none => b)
      | _ => b) (d.cell m e.place.space a)

/-- The status of a thread that a step of its `rret` changes: the one in force, or the one set aside at a slice end (R302, R322). -/
def Thread.inRret (x : Thread) (f : BitVec 256 → Nat → Nat → List Nat → Option Status) : Thread :=
  let g := fun (s : Status) => match s with
    | .atBarrier (.rret r i k rs) => f r i k rs
    | _ => none
  match g x.status with
  | some s => { x with status := s, again := match s with | .parked .. => [claimMark] | _ => x.again }
  | none =>
    match x.aside with
    | some (s, pc, again, start) =>
      (match g s with
       | some s' => { x with aside := some (s', pc, (match s' with | .parked .. => [claimMark] | _ => again), start) }
       | none => x)
    | none => x
/-- The fields of a taken record: core, entry, generation, row and choice (R274). -/
def taken (r : BitVec 256) : Nat × Nat × Nat × Nat × Nat := (fld r 72 64, fld r 77 73, fld r 159 128, fld r 47 40, fld r 55 48)
/-- A part of a return met no translation: the thread parks, and keeps its claim (R51, R278). -/
def Device.parkRret (d : Device) (i : ThreadId) (part va kind : Nat) : Device :=
  let pc := match d.thread i with | some x => x.pc | none => 0
  (d.parkRecord part (ridgeOf i.core) va kind (d.recOf i .pageNotPresent 0 pc 0 0)).modThread i
    fun x => x.inRret fun _ _ _ _ => some (.parked va kind false)
/-- The loads of a return have brought its row: it is stored to staging, by device-scope stores of the thread; of a reservation freed in
the meantime nothing is stored, and RRET_ARRIVAL finds it late (R278, R292; log 99). -/
def Device.rretStage (d : Device) (m : Memory) (i : ThreadId) (n : Nat) (bs : List Byte) : Device :=
  match d.team i.core i.slot, d.thread i with
  | some t, some x =>
    let (core, e, gen, row, c) := taken (t.taken.getD n 0)
    let y := nth (d.core core).entries e REntry.fresh
    if y.state = .free || y.gen.toNat != gen then d.modThread i fun x => x.inRret fun r i _ rs => some (.atBarrier (.rret r i 1 rs))
    else match d.placeBlock m (ridgeOf i.core) t.part (recBase y.staging + 4 * y.n * (y.k * row + c)) (4 * y.n) 1 with
    | (d, .error (none, va)) => d.parkRret i t.part va 1
    | (d, .error (some code, va)) => d.raise i code 0 x.pc va false true
    | (d, .ok ps) => d.modThread i fun x =>
        (x.pushParts ps none (fun p => .store (((bs.drop p.first).take p.place.addrs.length).map fun b => (b, 0xFF))) (·.rank)).inRret
          fun r i _ rs => some (.atBarrier (.rret r i 2 rs))
  | _, _ => d
/-- A thread whose return waits for the loads of a flight: the number of its record (R278). -/
def Thread.returning (x : Thread) (flight : Nat) : Option Nat :=
  let g := fun (s : Status) => match s with
    | .atBarrier (.rret _ i k _) => if k = 4 + flight then some i else none
    | _ => none
  match g x.status with
  | some i => some i
  | none => (x.aside.map (·.1)).bind g

/-- LOAD_PERFORM (R180, R192, R198, R227): one part; with the last part the value arrives. -/
def execLoadPerform (i : ThreadId) (po : Nat) (s : State) : Host.Outcome State Fault Refusal :=
  s.run fun m d =>
    match d.thread i with
    | none => d
    | some x =>
      match x.entry po with
      | none => d
      | some e =>
        match e.kind with
        | .load flight first size code bit_ =>
          if !d.mayLoad i x e then d
          else
            let bs := d.loadBytes m x e
            let rest := x.queue.any fun (o : Entry) => o.po != po && (match o.kind with | .load f _ _ _ _ => f == flight | _ => false)
            match d.met e.place true with
            | some c =>
              let d := d.modThread i fun x => { x with queue := x.queue.filter fun (o : Entry) => match o.kind with | .load f _ _ _ _ => f != flight | _ => true }
              (d.give i flight none).post (.thread i) (d.loaders i flight) c 0 none e.va
            | none =>
              let d := (d.modThread i (·.drop po)).modPack i.core i.slot i.pack fun p =>
                { p with flights := p.flights.map fun (f : Flight) =>
                    if f.id = flight && f.mask.getLsbD i.thread then
                      { f with parts := f.parts ++ (imap (fun k b => (i.thread, first + k, b)) 0 bs) } else f }
              if rest then d
              else
                match d.pack i.core i.slot i.pack with
                | none => d
                | some p =>
                  match p.flights.find? (fun (f : Flight) => f.id == flight && f.mask.getLsbD i.thread) with
                  | none => d
                  | some f =>
                    let got := f.bytesOf i.thread size
                    match x.returning flight with
                    | some n => (d.give i flight none).rretStage m i n got
                    | none => d.give i flight (some (widen code bit_ got))
        | _ => d

/-! ### Reductions (R210, R228) -/

/-- REDUCTION_COMBINE (R210, R228): entries i and j of the pool become one. -/
def execReductionCombine (i j : Nat) (s : State) : Host.Outcome State Fault Refusal :=
  s.run fun _ d =>
    match d.pool[i]?, d.pool[j]? with
    | some x, some y =>
      if i != j && x.place.space == y.place.space && x.place.addrs == y.place.addrs && x.place.site == y.place.site && x.op == y.op && x.width == y.width && x.op != 9 && x.op != 10 then
        let z : Red := { x with owners := x.owners ++ y.owners, v := BitVec.ofNat 64 (atomNew x.op x.width x.v.toNat y.v.toNat 0) }
        { d with pool := (lmod d.pool i fun _ => z).eraseIdx j }
      else d
    | _, _ => d

/-- REDUCTION_APPLY (R228). -/
def execReductionApply (i : Nat) (s : State) : Host.Outcome State Fault Refusal :=
  s.run fun m d =>
    match d.pool[i]? with
    | none => d
    | some x =>
      let d := { d with pool := d.pool.eraseIdx i }
      match d.met x.place true with
      | some c => x.owners.foldl (fun d o => d.post (.thread o.1) [o.1] c 0 none x.va) d
      | none => d.setCells x.place (leBytes (x.width / 8) (atomNew x.op x.width (leNat (d.cells m x.place)) x.v.toNat 0))

/-! ### The end of `icinv` (R300) -/

/-- The threads of the pack that wait for one bundle's `icinv`. -/
def Pack.icinvs (p : Pack) : List (Nat × Option (Nat × Nat) × Nat) :=
  (List.range p.threads.length).filterMap fun t =>
    match p.thread t with
    | some x => (match x.status with | .atBarrier (.icinv b r) => some (b, r, t) | _ => none)
    | none => none
def Thread.releasing (x : Thread) : Bool := x.queue.any fun (e : Entry) => match e.kind with | .release _ true => true | _ => false

/-- ICINV_DROP (R300): the release markers of a bundle's threads have retired. -/
def execIcinvDrop (q : PackId) (s : State) : Host.Outcome State Fault Refusal :=
  s.run fun _ d =>
    match d.team q.core q.slot, d.pack q.core q.slot q.pack with
    | some t, some p =>
      p.icinvs.foldl (fun d (x : Nat × Option (Nat × Nat) × Nat) =>
        let ts := (p.icinvs.filter fun y => y.1 == x.1).map (·.2.2)
        if ts.any fun u => (match p.thread u with | some y => y.releasing | none => false) then d
        else (d.dropLines t.part x.2.1).modThread ⟨q.core, q.slot, q.pack, x.2.2⟩ (·.wake)) d
    | _, _ => d

/-- ICINV_MANAGEMENT_EQUIVALENT (R300). -/
def execIcinvManagementEquivalent (part : Nat) (s : State) : Host.Outcome State Fault Refusal :=
  s.run fun _ d => d.dropLines part none

end Sys2Proof.Machine
end

