-- ==== Sys2Proof/Machine/Launch.lean ====
section
/-! DEFINITION. From launch to issue: launch queues, acceptance, placement, `spawn` and retirement (R20 to R23, R34 to R37, R52, R88,
R137 to R141, R303 to R312). -/

namespace Sys2Proof.Machine

open Sys2Proof

/-! ### Completion points (R139, R303) -/

/-- The completion point and the numbers above it after n is done: it moves up while the next number is done. -/
def passDone : Nat → Nat → List Nat → Nat × List Nat
  | 0, c, l => (c, l)
  | k + 1, c, l => let n := (c + 1) % 2 ^ 32; if l.contains n then passDone k n (l.filter (· != n)) else (c, l)
def Queue.finish (q : Queue) (n : W32) : Queue :=
  let r := passDone (q.done.length + 1) q.compl.toNat (n.toNat :: q.done)
  { q with compl := BitVec.ofNat 32 r.1, done := r.2 }
/-- A child of the team has retired or been refused (R139, R140). -/
def Team.finishChild (t : Team) (n : W32) : Team :=
  let r := passDone (t.childDone.length + 1) t.cmp.toNat (n.toNat :: t.childDone)
  { t with cmp := BitVec.ofNat 32 r.1, childDone := r.2 }

/-- Changes a team of a grid, resident or saved. -/
def Device.modTeamAny (d : Device) (grid team : Nat) (f : Team → Team) : Device :=
  match d.find grid team with
  | some (c, s, _) => d.modTeam c s f
  | none => d.modGrid grid fun g => { g with saved := g.saved.map fun (s : Saved) => if s.team.index = team then { s with team := f s.team } else s }

/-- A grid's launch is over, retired or refused: its queue and its parent count it (R37, R140, R308). -/
def Device.finishLaunch (d : Device) (fe : Nat) (queue : Option (Nat × W32)) (parent : Option (Nat × Nat × W32)) : Device :=
  let d := match queue with
    | some (q, n) => d.modFront fe fun f => { f with queues := lmod f.queues q (·.finish n) }
    | none => d
  match parent with
  | some (g, t, n) => d.modTeamAny g t (·.finishChild n)
  | none => d

/-! ### The checks of R308 -/

/-- Reads n bytes of a partition through a ridge; the error is a miss or a fault, with the address. -/
def Device.readBlock (d : Device) (m : Memory) (ridge p va n : Nat) : Device × Except (Option Code × Nat) (List Byte) :=
  match d.placeBlock m ridge p va n 0 with
  | (d, .error e) => (d, .error e)
  | (d, .ok ps) => (d, .ok (d.readParts m ps))
/-- The ridge on which a front end's accesses are translated: that of its partition's first cluster (log 12). -/
def Device.feRidge (d : Device) (p : Nat) : Nat := (d.part p).clusters.1 / 15

/-- Records of 32 bytes in a byte string. -/
def chunk32 : Nat → List Byte → List (BitVec 256)
  | 0, _ => []
  | n + 1, bs => BitVec.ofNat 256 (leNat (bs.take 32)) :: chunk32 n (bs.drop 32)

/-- A launch before its acceptance. -/
structure Launch where
  fe     : Nat
  lrec   : Nat
  record : BitVec 2048
  queue  : Option (Nat × W32)
  parent : Option (Nat × Nat × W32)
  depth  : Nat
  privileged : Bool
  station : Option Nat
  wrec   : List (BitVec 256)

/-- Check 2 of R308. -/
def lrRange (f : FrontEnd) (r : BitVec 2048) : Bool :=
  fld r 2047 1600 == 0 && fld r 831 781 == 0 && fld r 775 773 == 0 && fld r 703 702 == 0 && fld r 671 665 == 0 && fld r 655 654 == 0 &&
  fld r 631 626 == 0 && fld r 623 621 == 0 && fld r 615 613 == 0 && fld r 607 600 == 0 &&
  lrShadow r ≤ lrTiles r && lrTiles r ≤ 16 && lrBcnt r ≤ 32 && 1 ≤ lrQuota r && lrQuota r ≤ 8192 && lrDepn r ≤ 4 &&
  lrSpe r < 2 ^ 40 && lrBptr r % 32 == 0 && (List.range 4).all (fun i => lrDep r i / 2 ^ 36 == 0) &&
  (List.range (lrDepn r)).all fun i => (nth f.queues (bits (lrDep r i) 35 32) Queue.fresh).reg
/-- R22. -/
def pwordOk (r : BitVec 2048) : Bool :=
  let w := lrPword r
  w / 2 ^ 31 == 0 && !bit w 23 && !bit w 15 && !bit w 7 && bits w 6 0 ≤ 64 && bits w 14 8 ≤ 64 && bits w 22 16 ≤ 64 && bits w 30 24 ≤ 64 &&
  granulesOf w ≤ 64 && lrQuota r ≤ 128 * bits w 6 0 && lrScratch r ≤ 16384 * bits w 14 8 && lrTiles r + lrShadow r ≤ bits w 22 16 &&
  32 * lrPacks r * lrPriv r ≤ 16384 * bits w 30 24
/-- R68, R76. -/
def spillOk (r : BitVec 2048) : Option Code :=
  if lrQuota r < lrMaxlive r || lrMaxlive r = 0 || lrMaxlive r > 256 then some .nameLimit
  else if lrSpb r % 256 != 0 || lrSlots r = 0 || lrSpe r < lrSlots r * lrPacks r * lrMaxlive r * 256 then some .spillLimit
  else none

/-- Checks 2 to 7 of R308: the code and detail of the first failure. -/
def Launch.check (l : Launch) (f : FrontEnd) (bufs : List (BitVec 256)) : Option (Code × Nat) :=
  let r := l.record
  if !lrRange f r then some (.bounds, 4)
  else if !pwordOk r then some (.bounds, 5)
  else
    match spillOk r with
    | some c => some (c, 0)
    | none =>
      match (List.range 8).find? fun i => lrFbound r i && fmtBad (lrFmt r i) with
      | some i => some (.formatSlot, i)
      | none =>
        match (List.range bufs.length).find? fun i => recBad (bufs.getD i 0) (bits (lrPword r) 14 8) (lrPriv r) with
        | some i => some (.bounds, 0x100 + i)
        | none => if bufs.any (fun b => recKind b == 3) && lrTeams r % 4 != 0 then some (.bounds, 6) else none

/-- The dependences of a record hold; one on an unregistered queue does not block (R305, R309). -/
def FrontEnd.depsHold (f : FrontEnd) (r : BitVec 2048) : Bool :=
  (List.range (min 4 (lrDepn r))).all fun i =>
    let q := nth f.queues (bits (lrDep r i) 35 32) Queue.fresh
    !q.reg || (q.compl.toNat + 2 ^ 32 - bits (lrDep r i) 31 0) % 2 ^ 32 < 2 ^ 31

/-! ### Acceptance (R305, R308, R309) -/

/-- The refusal record of R308. -/
def Device.refusal (d : Device) (l : Launch) (gid : Nat) (c : Code) (detail : Nat) : Device :=
  d.record l.fe (leBytes 64 (c.num + 1 * 2 ^ 32 + l.fe * 2 ^ 40 + (match l.queue with | some (q, _) => q | none => 15) * 2 ^ 44 +
    detail * 2 ^ 48 + gid * 2 ^ 64 + l.lrec % 2 ^ 64 * 2 ^ 128 + d.time * 2 ^ 192))

/-- The records of a station's grid: the WREC records replace the highest slots (R271). -/
def placeWrec (bufs wrec : List (BitVec 256)) : List (BitVec 256) :=
  if wrec.isEmpty then bufs
  else (List.range 32).map fun i => if 32 - wrec.length ≤ i then wrec.getD (i - (32 - wrec.length)) 0 else bufs.getD i 0

/-- The front end accepts a record and refuses it, or creates its grid (R308, R309): the identifier, and whether it was created. `bad` is
the outcome of check 1. -/
def Device.accept (d : Device) (l : Launch) (bufs : List (BitVec 256)) (bad : Option Code) : Device × Nat × Bool :=
  let d := d.modFront l.fe fun f => { f with grids := f.grids + 1, accepts := f.accepts + 1 }
  let f := d.front l.fe
  let gid := l.fe * 2 ^ 60 + f.grids
  match (match bad with | some c => some (c, 0) | none => l.check f bufs) with
  | some (c, detail) => ((d.refusal l gid c detail).finishLaunch l.fe l.queue l.parent, gid, false)
  | none =>
    let g : Grid :=
      { fe := l.fe, part := l.fe, depth := l.depth, record := l.record, bufs := placeWrec bufs l.wrec, lrec := l.lrec, queue := l.queue,
        parent := l.parent, privileged := l.privileged, station := l.station, order := f.accepts,
        held := l.parent.isSome && !f.depsHold l.record, nextTeam := 0, launches := [], saved := [], slots := [], live := 0,
        terminated := false, recorded := false }
    ({ d with grids := aset d.grids gid g }, gid, true)

/-- The BPTR array of a record (R305, R306). -/
def Device.readBufs (d : Device) (m : Memory) (p : Nat) (r : BitVec 2048) : Device × Except (Option Code × Nat) (List (BitVec 256)) :=
  match d.readBlock m (d.feRidge p) p (lrBptr r) (32 * lrBcnt r) with
  | (d, .error e) => (d, .error e)
  | (d, .ok bs) => (d, .ok (chunk32 (lrBcnt r) bs))

/-- A front end's park record (R305, R317). -/
def Device.fePark (d : Device) (p va : Nat) : Device :=
  d.parkRecord p (d.feRidge p) va 0 { kind := 6, code := 0x0A }

/-- The partition is running and its front end accepts and places (R321, R329, R334, R337, R355). -/
def Part.serving (q : Part) : Bool := q.active && !q.suspended && !q.saving && q.resetting.isNone && !q.stopped
/-- The col on which a front end is (R26). -/
def frontDie (p : Nat) : Nat := 8 + p / 8
/-- The same, of a module that R352 does not hold, with the front end's col TRUSTED (R26, R345). -/
def Device.serving (d : Device) (p : Nat) : Bool := (d.part p).serving && !d.module.heldBy && d.trusted (frontDie p)

/-- The code of a resolution that is a fault (R317). -/
def parkCode (n : Nat) : Option Code := if n = 0x0A then some .pageNotPresent else if n = 0x0B then some .pagePermission else none

/-- The launch of a submitted child. -/
def Submit.launch (x : Submit) (g : Grid) : Launch :=
  { fe := g.fe, lrec := x.lrec, record := x.record, queue := none, parent := some (x.grid, x.team, x.seq), depth := g.depth + 1,
    privileged := g.privileged, station := none, wrec := [] }
def Submit.same (x y : Submit) : Bool := y.grid == x.grid && y.team == x.team && y.seq == x.seq
/-- The value of a pending destination of a saved team: it arrives after the restore (R80, R145). -/
def Pack.lateFlight (p : Pack) (now id t v : Nat) : Pack :=
  { p with flights := p.flights.map fun (f : Flight) =>
      if f.id = id && f.mask.getLsbD t then { f with ready := some now, vals := f.vals ++ [(t, BitVec.ofNat 64 v)] } else f }
/-- A submitted child is accepted: the grid is created, or the record is refused (R140, R308). -/
def Device.takeChild (d : Device) (x : Submit) (g : Grid) (bufs : List (BitVec 256)) (bad : Option Code) : Device :=
  let d := { d with submits := d.submits.filter fun y => !x.same y }
  let resident := (d.find x.grid x.team).isSome
  (d.accept (x.launch g) bufs bad).1.modTeamAny x.grid x.team fun t =>
    t.modPack x.thread.pack fun p =>
      if resident then p.giveFlight x.flight x.thread.thread (some x.seq.toNat) else p.lateFlight d.now x.flight x.thread.thread x.seq.toNat

/-- A child is accepted at its submission (R140, R309); while its BPTR array waits for the walker it stays submitted. -/
def Device.acceptChild (d : Device) (m : Memory) (x : Submit) : Device :=
  match d.grid x.grid with
  | none => d
  | some g =>
    match x.waiting with
    | some n => (match parkCode n with | some c => d.takeChild x g [] (some c) | none => d)
    | none =>
      match d.readBufs m g.part x.record with
      | (d, .error (none, va)) =>
        let d := d.fePark g.part va
        { d with submits := d.submits.map fun y => if x.same y then { y with waiting := some (va / 65536 * 65536) } else y }
      | (d, .error (some c, _)) => d.takeChild x g [] (some c)
      | (d, .ok bufs) => d.takeChild x g bufs none

/-- Spawns of a front end that were issued before one and are not submitted yet (R53). -/
def Device.spawnsBefore (d : Device) (fe order : Nat) : Bool :=
  d.teams.any fun x => x.2.2.fe == fe && x.2.2.packs.any fun (p : Pack) => p.threads.any fun (y : Thread) => y.queue.any fun (e : Entry) =>
    match e.kind with
    | .spawnLoad _ _ _ n => n < order
    | _ => false
/-- SPAWN_SUBMIT (R53, R140, R221, R223): one part of the load of the launch record is performed once the release marker has retired; the
move that performs the last part submits the child, after every spawn issued before it. -/
def execSpawnSubmit (i : ThreadId) (po : Nat) (s : State) : Host.Outcome State Fault Refusal :=
  s.run fun m d =>
    match d.thread i, d.team i.core i.slot with
    | some x, some t =>
      match x.entry po with
      | none => d
      | some e =>
        match e.kind with
        | .spawnLoad flight first q n =>
          let others := x.queue.any fun (o : Entry) => o.po != po && (match o.kind with | .spawnLoad f _ _ _ => f == flight | _ => false)
          if !d.mayLoad i x e || (x.before po).any (·.isRelease) || (!others && d.spawnsBefore t.fe n) then d
          else
            match d.met e.place true with
            | some c =>
              let d := d.modThread i fun x => { x with queue := x.queue.filter fun (o : Entry) => match o.kind with | .spawnLoad f _ _ _ => f != flight | _ => true }
              ((d.give i flight none).modTeam i.core i.slot (·.finishChild q)).post (.thread i) [i] c 0 none e.va
            | none =>
            let bs := d.loadBytes m x e
            let d := (d.modThread i (·.drop po)).modPack i.core i.slot i.pack fun p =>
              { p with flights := p.flights.map fun (f : Flight) =>
                  if f.id = flight && f.mask.getLsbD i.thread then { f with parts := f.parts ++ imap (fun k b => (i.thread, first + k, b)) 0 bs } else f }
            if others then d
            else
              let got := match (d.pack i.core i.slot i.pack).bind fun p => p.flights.find? fun (f : Flight) => f.id == flight && f.mask.getLsbD i.thread with
                | some f => f.bytesOf i.thread 256
                | none => []
              let y : Submit := { thread := i, grid := t.grid, team := t.index, seq := q, flight := flight, lrec := e.va - first,
                                  record := BitVec.ofNat 2048 (leNat got), waiting := none }
              let first := d.submits.all fun (z : Submit) => z.grid / 2 ^ 60 != t.grid / 2 ^ 60
              let d := { d with submits := d.submits ++ [y] }
              if first && d.serving t.part then d.acceptChild m y else d
        | _ => d
    | _, _ => d

/-- What a queue's head comes to at the front end. -/
inductive Head where
  | blocked
  | ready (record : BitVec 2048) (bufs : List (BitVec 256)) (bad : Option Code)

/-- Reads the head of a queue and tests its dependences (R305). -/
def Device.head (d : Device) (m : Memory) (fe q : Nat) : Device × Head :=
  let x := nth (d.front fe).queues q Queue.fresh
  let park (d : Device) (va : Nat) : Device × Head :=
    ((d.fePark fe va).modFront fe fun f => { f with queues := lmod f.queues q fun y => { y with waiting := some (va / 65536 * 65536) } }, .blocked)
  if !x.reg || x.faulted || x.rd = x.wr then (d, .blocked)
  else if x.waiting.isSome then (d, match x.waiting.bind parkCode with | some c => .ready 0 [] (some c) | none => .blocked)
  else
    match d.readBlock m (d.feRidge fe) fe (x.regBase.toNat + 256 * (x.rd.toNat % x.regCnt)) 256 with
    | (d, .error (none, va)) => park d va
    | (d, .error (some c, _)) => (d, .ready 0 [] (some c))
    | (d, .ok bs) =>
      let r := BitVec.ofNat 2048 (leNat bs)
      match d.readBufs m fe r with
      | (d, .error (none, va)) => park d va
      | (d, .error (some c, _)) => (d, .ready r [] (some c))
      | (d, .ok bufs) => if (d.front fe).depsHold r then (d, .ready r bufs none) else (d, .blocked)

/-- LAUNCH_ACCEPT (R305, R309): a child that was submitted and not yet accepted, else the head record by priority and round-robin. -/
def execLaunchAccept (fe : Nat) (s : State) : Host.Outcome State Fault Refusal :=
  s.run fun m d =>
    if !d.serving fe then d
    else
      match d.submits.find? fun (y : Submit) => y.grid / 2 ^ 60 == fe with
      | some y => d.acceptChild m y
      | none =>
        let order := (List.range 16).map fun k => ((d.front fe).last + 1 + k) % 16
        let r := order.foldl (fun (acc : Device × List (Nat × Nat × Head)) q =>
          let h := acc.1.head m fe q
          (h.1, match h.2 with | .blocked => acc.2 | x => acc.2 ++ [(q, (nth (d.front fe).queues q Queue.fresh).prio, x)])) (d, [])
        match leastBy (fun (x : Nat × Nat × Head) => 3 - x.2.1) r.2 with
        | some (q, _, .ready rec bufs bad) =>
          let x := nth (r.1.front fe).queues q Queue.fresh
          let l : Launch := { fe := fe, lrec := x.regBase.toNat + 256 * (x.rd.toNat % x.regCnt), record := rec, queue := some (q, x.rd + 1),
                              parent := none, depth := 0, privileged := x.privileged, station := none, wrec := [] }
          let d := r.1.modFront fe fun f => { f with last := q, queues := lmod f.queues q fun y => { y with rd := y.rd + 1, waiting := none } }
          (d.accept l bufs bad).1
        | _ => r.1

/-! ### Placement (R20, R23, R310 to R312) -/

/-- Resident packs of a core (R20, R37), and granules in use. -/
def Core.packs (c : Core) : Nat := c.teams.foldl (fun a t => a + (t.2.packs.filter fun (p : Pack) => !p.retired).length) 0
def Device.granules (d : Device) (core : Nat) : Nat :=
  (d.core core).teams.foldl (fun a t => a + granulesOf (d.lr t.2.grid lrPword)) 0
/-- The conditions of R311 on a core. -/
def Device.coreFits (d : Device) (g : Grid) (core : Nat) : Bool :=
  d.trusted (ridgeOf core) && d.granules core + granulesOf (lrPword g.record) ≤ Config.granules &&
  (d.core core).packs + lrPacks g.record ≤ Config.maxPacks && (d.core core).teams.length < Config.maxTeams && (d.core core).sliceFor.isNone
/-- The lowest free spill slot of a grid (R76). -/
def Grid.freeSlot (g : Grid) : Option Nat := (List.range (g.slots.length + 1)).find? fun s => s < lrSlots g.record && !g.slots.contains s
/-- The lowest free resident team index of a core. -/
def Core.freeIndex (c : Core) : Nat := ((List.range 16).find? fun i => (aget c.teams i).isNone).getD 0
/-- The home quadrant of a new pack (R20). -/
def Core.quadrant (c : Core) (more : List Nat) : Nat :=
  let n := fun q => (more.filter (· == q)).length + c.teams.foldl (fun a t => a + (t.2.packs.filter fun (p : Pack) => p.quad == q && !p.retired).length) 0
  (leastBy n (List.range 4)).getD 0
/-- The home quadrants of n packs in order. -/
def Core.quadrants (c : Core) : Nat → List Nat
  | 0 => []
  | n + 1 => let l := c.quadrants n; l ++ [c.quadrant l]

/-- A thread at launch (R35, R88). -/
def Thread.launch (launched : Bool) (pc x : W64) : Thread :=
  { pc := if launched then pc else 0, status := if launched then .ready else .exited, handler := .off, fault := 0, fpc := 0, preds := 0,
    gen := x, lane := 0, was := 0, since := 0, holds := [], po := 0, queue := [], pend := [], again := [], start := launched, aside := none, resume := none }
/-- A pack at launch (R36, R56, R312). -/
def Pack.launch (r : BitVec 2048) (team i quad stamp : Nat) : Pack :=
  { threads := (List.range 32).map fun t => Thread.launch (t < lrThreads r) (lrKpc r) (seedGenerator (lrSeed r) team i t),
    scal := BitVec.ofNat 64 (lrParam r) :: List.replicate 63 0, rows := [], nextId := 1, flights := [], stack := [], serial := none, fair := 0,
    cursor := 0, quad := quad, stamp := stamp, lastStart := none, yielded := false, rotated := false, lanes := [], hold := none, granted := 0, elder := false,
    noEvict := false, latch := none, fences := [], retired := false, asideStack := [], asideSerial := none, asideHold := none, inSlice := false, sliceDone := false,
    restorePage := none }
/-- A team at placement (R139, R175, R238, R312). -/
def Team.launch (g : Grid) (gid index slot : Nat) (quads : List Nat) (stamp : Nat) (taken : List (BitVec 256)) : Team :=
  let r := g.record
  { grid := gid, part := g.part, fe := g.fe, index := index,
    packs := imap (fun i q => Pack.launch r index i q (stamp + i)) 0 quads,
    recs := (List.range 32).map fun i => g.bufs.getD i 0,
    fmts := (List.range 8).map fun i => if lrFbound r i then some (lrFmt r i) else none,
    quota := lrQuota r, guards := List.replicate 16 .unresolved, tiles := List.replicate 16 Tile.zero, shadows := List.replicate 16 Shadow.closed,
    bindings := [], resolvedAt := List.replicate 16 0, uncovered := [], scratch := [], badScr := [], badPriv := [], priv := [], spn := 0, cmp := 0, childDone := [], iss := 0,
    doneSeq := 0, miss := 0, copyQ := [], spillSlot := slot, evict := none, round := none, taken := taken, station := g.station, saving := none, stopping := false }

/-- The team enters a core: its packs take stamps and home quadrants in ascending index (R20, R36). -/
def Device.seat (d : Device) (core : Nat) (make : Nat → List Nat → Nat → Team) (packs : Nat) : Device :=
  let c := d.core core
  let i := c.freeIndex
  let t := make i (c.quadrants packs) c.age
  d.modCore core fun c => { c with age := c.age + packs, teams := aset c.teams i t }

/-- The cores of a partition from its cursor, wrapping (R311). -/
def Device.cursorCores (d : Device) (p : Nat) : List Nat :=
  let q := d.part p
  let lo := 4 * q.clusters.1
  let n := 4 * (q.clusters.2 + 1 - q.clusters.1)
  let c := (d.front p).cursor
  let start := if lo ≤ c && c < lo + n then c - lo else 0
  (List.range n).map fun k => lo + (start + k) % n
def Device.moveCursor (d : Device) (p core : Nat) : Device :=
  let q := d.part p
  d.modFront p fun f => { f with cursor := if core ≥ 4 * q.clusters.2 + 3 then 4 * q.clusters.1 else core + 1 }

/-- The grid has a team to place (R275, R310). -/
def Grid.toPlace (g : Grid) : Bool :=
  !g.terminated && !g.held && (match g.station with | some _ => !g.launches.isEmpty | none => g.nextTeam < lrTeams g.record)
/-- A grid whose teams are placed four at a time (R311); each launch of a station places one (R271). -/
def Grid.fours (g : Grid) : Bool := g.station.isNone && g.bufs.any fun b => recKind b == 3

/-- The grid whose team comes next (R310): highest PRIO, then the one accepted first. -/
def Device.nextGrid (d : Device) (fe : Nat) : Option (Nat × Grid) :=
  leastBy (fun (x : Nat × Grid) => (3 - lrPrio x.2.record) * 2 ^ 64 + x.2.order)
    (d.grids.filter fun x => x.2.fe == fe && !x.2.terminated && (x.2.toPlace || !x.2.saved.isEmpty))

/-- Places the grid's next team on a core (R312). -/
def Device.placeOn (d : Device) (gid : Nat) (g : Grid) (core : Nat) : Device :=
  match g.freeSlot with
  | none => d
  | some slot =>
    let taken := match g.launches with | l :: _ => l | [] => []
    let d := d.seat core (fun _ quads stamp => Team.launch g gid g.nextTeam slot quads stamp taken) (lrPacks g.record)
    (d.modGrid gid fun g => { g with nextTeam := g.nextTeam + 1, live := g.live + 1, slots := insertNat slot g.slots, launches := g.launches.drop 1 }).moveCursor
      g.fe core

/-- Places teams of a grid on cores in order. -/
def Device.placeAll (d : Device) (gid : Nat) : List Nat → Device
  | [] => d
  | c :: cs =>
    match d.grid gid with
    | some g => (d.placeOn gid g c).placeAll gid cs
    | none => d

/-- Children whose dependences have come to hold (R309). -/
def Device.unhold (d : Device) (fe : Nat) : Device :=
  { d with grids := d.grids.map fun (x : Nat × Grid) => if x.2.fe = fe && x.2.held && (d.front fe).depsHold x.2.record then (x.1, { x.2 with held := false }) else x }

/-- TEAM_PLACE (R310, R311). -/
def execTeamPlace (fe : Nat) (s : State) : Host.Outcome State Fault Refusal :=
  s.run fun _ d =>
    if !d.serving fe then d
    else
      let d := d.unhold fe
      match d.nextGrid fe with
      | none => d
      | some (gid, g) =>
        if !g.saved.isEmpty then d
        else if g.fours then
          match ((d.cursorCores fe).map clusterOf).dedup.find? fun c => (List.range 4).all fun j => d.coreFits g (4 * c + j) with
          | some c => if g.slots.length + 4 ≤ lrSlots g.record then d.placeAll gid [4 * c, 4 * c + 1, 4 * c + 2, 4 * c + 3] else d
          | none => d
        else
          match (d.cursorCores fe).find? (d.coreFits g) with
          | some c => d.placeOn gid g c
          | none => d

/-! ### Retirement (R37, R54) -/

/-- No entry of the team remains in the ordering machine. -/
def Device.drained (d : Device) (core slot : Nat) (t : Team) : Bool :=
  t.packs.all (fun (p : Pack) => p.threads.all fun (x : Thread) => x.queue.isEmpty) &&
  !d.pool.any fun (r : Red) => r.owners.any fun o => o.1.core == core && o.1.slot == slot
/-- Commands of a team that are queued or in flight. -/
def Device.teamCmds (d : Device) (core : Nat) (t : Team) : List Cmd :=
  ((d.core core).engines.flatMap fun (e : Engine) => e.queue.filter fun (c : Cmd) => c.grid == t.grid && c.team == t.index) ++ t.copyQ

/-- A command waits at its queue head on an unresolved guard slot of its team (R268). -/
def Team.guardWaits (t : Team) (c : Cmd) : Bool :=
  !c.started && c.grid == t.grid && c.team == t.index && (c.waitsOn t).any fun g => t.guards.getD g .unresolved == .unresolved
/-- The commands of a team that a save keeps as images (R268): (engine, command). -/
def Device.images (d : Device) (core : Nat) (t : Team) : List (Nat × Cmd) :=
  (imap (fun q (e : Engine) => (q, e)) 0 (d.core core).engines).flatMap fun (x : Nat × Engine) =>
    match x.2.queue with
    | c :: _ => if t.guardWaits c then (x.2.queue.filter fun (k : Cmd) => k.grid == t.grid && k.team == t.index).map fun k => (x.1, k) else []
    | [] => []

/-- TEAM_RETIRE (R37); a team that has been stopped leaves the commands that wait on its guard slots (R268, R320). The teams of a partition
under reset go with the reset (R334). -/
def execTeamRetire (core slot : Nat) (s : State) : Host.Outcome State Fault Refusal :=
  s.run fun _ d =>
    match d.team core slot with
    | none => d
    | some t =>
      let t := { t with packs := t.packs.map Pack.retire }
      let left := if t.stopping then (d.images core t).map (·.2.id) else []
      let told := t.saving.isSome || t.events.isEmpty          -- a fault that waits is delivered, or recorded, first (R314)
      if (d.part t.part).resetting.isNone && told && t.packs.all (·.retired) && (d.teamCmds core t).all (fun (c : Cmd) => left.contains c.id) && d.drained core slot t then
        ((d.flushFaults core slot).removeTeam core slot).modGrid t.grid fun g => { g with live := g.live - 1 }
      else d

/-- Every team of the grid has retired, and none is still to come (R37, R271, R320). -/
def Device.gridDone (d : Device) (gid : Nat) (g : Grid) : Bool :=
  g.live == 0 && g.launches.isEmpty && g.saved.isEmpty && (g.terminated || g.station.isSome || g.nextTeam == lrTeams g.record) &&
  (match g.station with
   | some n => (match aget (d.part g.part).stations n with | some s => !(s.active && s.grid == gid) | none => true)
   | none => true) &&
  !(d.grids.any fun x => match x.2.parent with | some (p, _, _) => p == gid | none => false) && !(d.submits.any fun (y : Submit) => y.grid == gid)

/-- GRID_RETIRE (R37). -/
def execGridRetire (fe grid : Nat) (s : State) : Host.Outcome State Fault Refusal :=
  s.run fun _ d =>
    match d.grid grid with
    | none => d
    | some g =>
      if g.fe = fe && d.gridDone grid g then ({ d with grids := adel d.grids grid }).finishLaunch fe g.queue g.parent else d

end Sys2Proof.Machine
end

