-- ==== Sys2Proof/Machine/Commands.lean ====
section
/-! DEFINITION. Queued engine commands: when they start, how they end, power leave, shadows, and the reset of a matrix engine (R78, R231
to R235, R238 to R252, R266, R283, R315, R324, R327). -/

namespace Sys2Proof.Machine

open Sys2Proof

/-! ### Commands by name -/

def CmdId.core : CmdId → Nat
  | .matrix c _ _ => c
  | .copy c _ _ => c
/-- A command in its queue. -/
def Device.cmd (d : Device) : CmdId → Option Cmd
  | .matrix core q id => (d.engine core q).queue.find? fun (c : Cmd) => c.id == id
  | .copy core slot id => match d.team core slot with | some t => t.copyQ.find? fun (c : Cmd) => c.id == id | none => none
def Device.modCmd (d : Device) (k : CmdId) (f : Cmd → Cmd) : Device :=
  match k with
  | .matrix core q id => d.modEngine core q fun e => { e with queue := e.queue.map fun (c : Cmd) => if c.id = id then f c else c }
  | .copy core slot id => d.modTeam core slot fun t => { t with copyQ := t.copyQ.map fun (c : Cmd) => if c.id = id then f c else c }
/-- The engine has made a move (R327). -/
def Device.moved (d : Device) : CmdId → Device
  | .matrix core q _ => d.modEngine core q fun e => { e with lastMove := d.now }
  | .copy _ _ _ => d

/-- The rows of a command are released (R78); they can be free from the next cycle on (R66). -/
def Device.releaseRows (d : Device) (c : Cmd) : Device :=
  c.rows.foldl (fun d (r : Nat × Nat) => d.modPack c.core c.slot r.1 fun p => p.unholdRow r.2 (d.now + 1)) d

/-- The next command of a matrix queue reaches the head (R241). -/
def Engine.next (e : Engine) (now : Nat) : Engine := { e with queue := match e.queue with | c :: cs => { c with arrived := now } :: cs | [] => [] }
/-- A command leaves its queue; what comes to the head arrives there now. -/
def Device.unqueue (d : Device) (k : CmdId) : Device :=
  match k with
  | .matrix core q id => d.modEngine core q fun e =>
      let rest := e.queue.filter fun (c : Cmd) => c.id != id
      if (match e.queue with | c :: _ => c.id == id | [] => false) then ({ e with queue := rest }).next d.now else { e with queue := rest }
  | .copy core slot id => d.modTeam core slot fun t => { t with copyQ :=
      match t.copyQ with
      | c :: c' :: cs => if c.id = id then { c' with arrived := d.now } :: cs else t.copyQ.filter fun (x : Cmd) => x.id != id
      | l => l.filter fun (x : Cmd) => x.id != id }
/-- A matrix command is discarded (R78, R249). -/
def Device.discard (d : Device) (k : CmdId) : Device :=
  match d.cmd k with
  | some c => (d.releaseRows c).unqueue k
  | none => d

/-- The queue in which a command stands, as a source of events (R328). -/
def CmdId.source : CmdId → Source
  | .matrix core q _ => .engine core q
  | .copy core slot _ => .copyQueue core slot
/-- The parties of a command: its issuing threads. -/
def Cmd.ids (c : Cmd) : List ThreadId := maskIds c.core c.slot c.pack c.mask

/-- A command aborts after its issue (R233, R240, R316): it makes no other move, and every thread of its bundle receives the fault. A
copy stays queued, without its scoreboard range, until it retires in order. -/
def Device.abort (d : Device) (k : CmdId) (code : Code) (detail addr : Nat) : Device :=
  match d.cmd k with
  | none => d
  | some c =>
    let d := (d.releaseRows c).post (CmdId.source k) c.ids code detail (some c.pc) addr
    match k with
    | .matrix _ _ _ => d.unqueue k
    | .copy _ _ _ => d.modCmd k fun c => { c with rows := [], aborted := some (code, detail), applied := true, ranges := [], pins := [], parked := none }

/-- A translation is not present: the command waits for the walker (R240). -/
def Device.parkCmd (d : Device) (k : CmdId) (c : Cmd) (part va kind : Nat) : Device :=
  (d.parkRecord part (ridgeOf c.core) va kind (d.recOf ⟨c.core, c.slot, c.pack, (lowest c.mask).getD 0⟩ .pageNotPresent 0 c.pc 0 0)).modCmd k
    fun c => { c with parked := some (va / 65536 * 65536, kind) }
/-- A fault of R240: the command aborts; an entry of a chain first has its code written to ERR (R265), and the pins are given back. -/
def Device.fail (d : Device) (k : CmdId) (c : Cmd) (code : Code) (addr : Nat) : Device :=
  if c.sub.isSome && c.failing.isNone then d.modCmd k fun c => { c with failing := some (code, addr, true), parked := none, pins := [] }
  else match c.failing with
    | some (code, addr, true) => d.abort k code 0 addr
    | _ => d.abort k code 0 addr
/-- What a move comes to that did not reach its place. -/
def Device.cmdError (d : Device) (k : CmdId) (c : Cmd) (part kind : Nat) (e : Option Code × Nat) : Device :=
  match e with
  | (none, va) => d.parkCmd k c part va kind
  | (some code, va) => d.fail k c code va

/-! ### Sizes of write sets, and finished commands (R232, R267) -/

/-- The numbers of the write set of a store or copy: rows and bytes a row (R256, R262 to R264). -/
def CmdOp.writes : CmdOp → Nat × Nat
  | .mst _ _ _ f _ _ => (64, 8 * elemBits (recElem f))
  | .cpy bd bs => (1, min (recExtent bs) (recExtent bd))
  | .cpyr _ bd bs => (1, min (recExtent bs) (recExtent bd))
  | .cpyg bd _ bi => (copyRows bi, recStride bd)
  | .cpys _ bs bi => (copyRows bi, recStride bs)
  | _ => (0, 0)
/-- Every move of the command is done (R232). -/
def Cmd.finished (c : Cmd) : Bool :=
  c.applied || (match c.op with
    | .mst .. | .cpy .. | .cpyr .. | .cpyg .. | .cpys .. => c.started && (let n := c.op.writes.1 * c.op.writes.2; (List.range n).all c.done.contains)
    | _ => false)

/-! ### Pieces of a read or write set -/

/-- A run of consecutive numbers of a set: the first number, the record, the offset of its byte and how many. -/
structure Seg where
  n   : Nat
  r   : BitVec 256
  off : Int
  len : Nat

/-- The part of a run with numbers from start on, len of them. -/
def Seg.cut (s : Seg) (start len : Nat) : Seg :=
  let lo := max s.n start
  let hi := min (s.n + s.len) (start + len)
  { s with n := lo, off := s.off + (lo - s.n : Nat), len := hi - lo }
/-- The run as a range of a command's set. -/
def Seg.extent (wr : Bool) (s : Seg) : Extent := { r := s.r, lo := s.off, len := s.len, wr := wr }
/-- The part of a run within the record's extent. -/
def Seg.clip (s : Seg) : Seg :=
  let lo := max s.off 0
  let hi := min (s.off + s.len) (recExtent s.r)
  { s with n := s.n + (lo - s.off).toNat, off := lo, len := (hi - lo).toNat }

/-- The index x(r) of `cpyg` and `cpys` as the index bytes read give it (R263); index bytes are numbered from 2^40. -/
def Cmd.index (c : Cmd) (r : Nat) : Nat := leNat ((List.range 4).map fun b => (aget c.data (2 ^ 40 + 4 * r + b)).getD 0)
def Cmd.indexed (c : Cmd) (r : Nat) : Bool := (List.range 4).all fun b => (aget c.data (2 ^ 40 + 4 * r + b)).isSome

/-- The runs of a command's read set (R244, R255, R262 to R264, R267); those of `cpyg` follow from the indices read. -/
def Cmd.reads (c : Cmd) : List Seg :=
  match c.op with
  | .mldwRec r e f _ =>
    (List.range 128).map (fun k => { n := k * bRow f, r := r, off := e + k * recStride r, len := bRow f }) ++
    [{ n := 128 * bRow f, r := r, off := e + 128 * recStride r, len := scaleCount f * scaleSize f }]
  | .mtag r e n => [{ n := 0, r := r, off := e, len := 16 * n }]
  | .cpy _ bs => [{ n := 0, r := bs, off := 0, len := c.op.writes.2 }]
  | .cpyr _ _ bs => [{ n := 0, r := bs, off := 0, len := c.op.writes.2 }]
  | .cpyg bd bs bi =>
    { n := 2 ^ 40, r := bi, off := 0, len := 4 * copyRows bi } ::
    ((List.range (copyRows bi)).filter c.indexed).map fun r =>
      { n := r * recStride bd, r := bs, off := (c.index r * recStride bs : Nat), len := if c.index r ≥ 2 ^ 31 then 0 else recStride bd }
  | .cpys _ bs bi =>
    { n := 2 ^ 40, r := bi, off := 0, len := 4 * copyRows bi } ::
    (List.range (copyRows bi)).map fun r => { n := r * recStride bs, r := bs, off := (r * recStride bs : Nat), len := recStride bs }
  | _ => []

/-- A command waits for the records that a number's write needs: all bytes below a bound have been read. -/
def Cmd.has (c : Cmd) (n : Nat) : Bool := (aget c.data n).isSome
def Cmd.bytesOf (c : Cmd) (n : Nat) : List Byte := (List.range n).map fun i => (aget c.data i).getD 0

/-- The runs of a write set, with the numbers as they are counted (R256, R262, R263). -/
def Cmd.targets (c : Cmd) : List Seg :=
  match c.op with
  | .mst r e _ f _ _ => (List.range 64).map fun i => { n := i * (8 * elemBits (recElem f)), r := r, off := e + i * recStride r, len := 8 * elemBits (recElem f) }
  | .cpy bd _ => [{ n := 0, r := bd, off := 0, len := c.op.writes.2 }]
  | .cpyr _ bd _ => [{ n := 0, r := bd, off := 0, len := c.op.writes.2 }]
  | .cpyg bd _ bi => (List.range (copyRows bi)).map fun r => { n := r * recStride bd, r := bd, off := (r * recStride bd : Nat), len := recStride bd }
  | .cpys bd bs bi => ((List.range (copyRows bi)).filter c.indexed).map fun r =>
      { n := r * recStride bs, r := bd, off := (c.index r * recStride bd : Nat), len := recStride bs }
  | _ => []

/-! ### Pins (R283) -/

/-- The pages with PIN = 1 of a range, by the translations as they stand: page and size. -/
def Device.pinPages (d : Device) (m : Memory) (core part va n : Nat) : List (Nat × Nat) :=
  ((lineParts va (max n 1)).filterMap fun x =>
    match (d.translate m (ridgeOf core) part x.2.1 0).2 with
    | .ok _ w size => if leafPin w then some (x.2.1 / 2 ^ pageBits size * 2 ^ pageBits size, size) else none
    | _ => none).dedup
/-- A start translates the ranges that a station team's command reads: the ridge's TLB holds their translations (R181, R283). -/
def Device.warm (d : Device) (m : Memory) (t : Team) (core : Nat) (xs : List Extent) : Device :=
  if t.station.isNone then d
  else (xs.filter fun x => !x.wr && recKind x.r == 0 && x.len != 0).foldl (fun d x =>
    (d.translateAll m (ridgeOf core) t.part 0 (lineParts (recBase x.r + x.lo.toNat) x.len)).1) d
/-- An invalidation of the page that holds an address waits (R283): the page is that of the translation that waits to be dropped. -/
def Device.staleAt (d : Device) (core part va : Nat) : Bool :=
  (d.ridge (ridgeOf core)).stale.any fun y => y.1 % 16 == part &&
    (y.1 / 16 / 65536 == va / 65536 || (d.ridge (ridgeOf core)).tlb.any fun e => tlbHit e part va && tlbHit e part (y.1 / 16))
/-- A range lies in a page whose invalidation waits, and the command holds no pin on it (R283). -/
def Device.stalePage (d : Device) (c : Cmd) (part va n : Nat) : Bool :=
  (lineParts va (max n 1)).any fun x =>
    d.staleAt c.core part x.2.1 && !c.pins.any fun p => p.1 / 2 ^ pageBits p.2 == x.2.1 / 2 ^ pageBits p.2
/-- The pins that a command of a station team takes on the pages of ranges it reads; none on a page whose invalidation waits (R283). -/
def Device.pinsFor (d : Device) (m : Memory) (t : Team) (core : Nat) (xs : List Extent) : List (Nat × Nat) :=
  if t.station.isNone then []
  else (xs.flatMap fun x => if x.wr || recKind x.r != 0 || x.len = 0 then []
    else (d.pinPages m core t.part (recBase x.r + x.lo.toNat) x.len).filter fun p => !d.staleAt core t.part p.1).dedup

/-- Adds read bytes to a command. -/
def Cmd.take (c : Cmd) (n : Nat) (bs : List Byte) : Cmd := { c with data := imap (fun i b => (n + i, b)) 0 bs ++ c.data }

/-- Reads one run: bytes outside the extent read zero. The error is a miss or a fault. -/
def Device.readSeg (d : Device) (m : Memory) (t : Team) (core : Nat) (s : Seg) : Device × Except (Option Code × Nat) (List Byte) :=
  let k := s.clip
  if s.len = 0 then (d, .ok [])
  else if k.len = 0 then (d, .ok (List.replicate s.len 0))
  else
    match d.recBlock m (ridgeOf core) t k.r k.off.toNat k.len 0 with
    | (d, .error e) => (d, .error e)
    | (d, .ok ps) => (d, .ok (List.replicate (k.n - s.n) 0 ++ d.readParts m ps ++ List.replicate (s.n + s.len - (k.n + k.len)) 0))

/-! ### Heavy commands (R241) -/

/-- Bytes that a copy moves. -/
def CmdOp.bytes : CmdOp → Nat
  | .cpy _ bs => recExtent bs
  | .cpyr _ _ bs => recExtent bs
  | .cpyg bd _ bi => copyRows bi * recStride bd
  | .cpys _ bs bi => copyRows bi * recStride bs
  | _ => 0
def CmdOp.heavy : CmdOp → Bool
  | .mldwRec .. => true
  | .mldwSpan .. => true
  | .mma .. => true
  | op => op.bytes ≥ 65536
def CmdOp.isChain : CmdOp → Bool
  | .cpyc _ => true
  | _ => false

/-- The command whose moves come now: the entry that a chain performs, or the command itself (R265). -/
def Cmd.view (c : Cmd) : Cmd := match c.sub with | some (op, obj) => { c with op := op, obj := obj } | none => c
/-- A heavy command, or a heavy entry of a chain, that has no leave yet (R241). -/
def Cmd.needsLeave (c : Cmd) : Bool := c.view.op.heavy && !c.leave && c.aborted.isNone && c.failing.isNone

/-- The heads of the queues of a ridge. -/
def Device.heads (d : Device) (ridge : Nat) : List (CmdId × Cmd) :=
  (d.cores.filter fun c => ridgeOf c.1 == ridge).flatMap fun (x : Nat × Core) =>
    ((imap (fun q (e : Engine) => match e.queue with | c :: _ => [(CmdId.matrix x.1 q c.id, c)] | [] => []) 0 x.2.engines).flatten) ++
    (x.2.teams.flatMap fun (t : Nat × Team) => match t.2.copyQ with | c :: _ => [(CmdId.copy x.1 t.1 c.id, c)] | [] => [])

/-- POWER_LEAVE_GRANT (R241): in the order in which heavy commands, and heavy entries of chains, reached the heads of their queues. -/
def execPowerLeaveGrant (k : CmdId) (s : State) : Host.Outcome State Fault Refusal :=
  s.run fun _ d =>
    match leastBy (fun (x : CmdId × Cmd) => x.2.arrived * 2 ^ 64 + x.2.id) ((d.heads (ridgeOf (CmdId.core k))).filter fun x => x.2.needsLeave) with
    | some x => if x.1 == k then d.modCmd k fun c => { c with leave := true, idleFrom := d.now } else d
    | none => d

/-! ### Starting (R231, R235, R246, R248 to R250) -/

/-- The tag-table entry that serves a tag: the lowest with it (R247, R255). -/
def Engine.tagged (e : Engine) (tag : Nat) : Option TagEntry := e.table.find? fun (x : TagEntry) => x.tag == tag
/-- The `mldw` of a tag-table entry for a team: record, offset and format (R247, R255). -/
def TagEntry.load (x : TagEntry) (t : Team) : BitVec 256 × Int × Option W64 :=
  let r := t.bufr x.recIx
  (r, signed 64 x.idx.toNat * 2 ^ recEsz r, t.fmt x.fmt)
/-- The runs of rows with equal tags: (rows, tag) (R247). -/
def runsOf : List Nat → List (Nat × Nat)
  | [] => []
  | t :: ts =>
    match runsOf ts with
    | (n, u) :: rs => if t = u then (n + 1, u) :: rs else (1, t) :: (n, u) :: rs
    | [] => [(1, t)]
/-- The loads into the latch that the runs of a tagged command make, from a starting tag on (R247). -/
def swapsOf (e : Engine) (t : Team) : List (Nat × Nat) → Nat → List CmdOp
  | [], _ => []
  | (_, tag) :: rest, cur =>
    if tag = 0xFFFF || tag = cur then swapsOf e t rest cur
    else match e.tagged tag with
      | none => swapsOf e t rest cur
      | some x => let y := x.load t; .mldwRec y.1 y.2.1 (y.2.2.getD 0) tag :: swapsOf e t rest tag
/-- The tags of a command's rows, as runs (R247). -/
def CmdOp.tagRuns : CmdOp → List (Nat × Nat)
  | .mma _ _ _ _ vs true _ => runsOf ((List.range 64).map (rowTag vs))
  | _ => []
/-! ### Command chains (R265) -/

/-- An entry of a chain read from its 32 bytes. -/
structure ChainE where
  len  : Nat
  soff : Nat
  doff : Nat
  obj  : Nat
  src  : Nat
  dst  : Nat
  op   : Nat
  bad  : Bool
def ChainE.of (bs : List Byte) : ChainE :=
  let x := leNat bs
  { len := bits x 255 192, soff := bits x 191 128, doff := bits x 127 64, obj := bits x 31 24, src := bits x 23 16, dst := bits x 15 8,
    op := bits x 7 0, bad := bits x 7 0 > 1 || bits x 63 32 != 0 }

/-- The command that an entry performs, with its object, or the fault of its checks (R203, R261, R264). -/
def ChainE.command (e : ChainE) (t : Team) : Except Code (CmdOp × Option (BitVec 256)) :=
  match narrow (t.bufr e.dst) false e.doff e.len with
  | .error c => .error c
  | .ok bd =>
    match narrow (t.bufr e.src) false e.soff e.len with
    | .error c => .error c
    | .ok bs =>
      let obj := if e.obj = 0xFF then none else some (t.bufr e.obj)
      match firstFate (copyTests bd bs none obj ++ [(e.op == 1 && e.len % 4 != 0, boundsFate 2)]) with
      | some (.fault c _ _) => .error c
      | some _ => .error .bounds
      | none => .ok (if e.op = 1 then .cpyr 0 bd bs else .cpy bd bs, obj)

/-- The header and the entries that a chain has still to perform as they stand now, the one in progress apart, up to one that stops the walk:
what it may read and write (R265, R267). Entries appended later, and records changed by then, are not foreseen (log 46). -/
def Cmd.chainLeft (c : Cmd) (d : Device) (m : Memory) (t : Team) (bh : BitVec 256) : Nat × List (CmdOp × Option (BitVec 256)) :=
  let get := fun (off n : Nat) => match (d.readSeg m t c.core { n := 0, r := bh, off := off, len := n }).2 with
    | .ok bs => some bs
    | .error _ => none
  match get 0 64 with
  | none => (0, [])
  | some hd =>
    let x := leNat hd
    let cap := bits x 31 0
    let h := (if c.chain.2.1 = 0 then bits x 95 64 else c.chain.1) + c.sub.isSome.toNat
    if !(cap != 0 && cap &&& (cap - 1) = 0 && cap ≤ 2 ^ 20) || 64 + 32 * cap > recExtent bh then (0, [])
    else
      let n := min cap ((bits x 63 32 + 2 ^ 32 - h % 2 ^ 32) % 2 ^ 32)
      let es := (List.range n).map fun i => match get (64 + 32 * ((h + i) % 2 ^ 32 % cap)) 32 with
        | some bs => let e := ChainE.of bs; if e.bad then none else (match e.command t with | .ok y => some y | .error _ => none)
        | none => none
      (n, (es.takeWhile (·.isSome)).filterMap fun y => y)
/-- The command with the index bytes of `cpyg` and `cpys` as they stand now (R263). -/
def Cmd.foreseen (c : Cmd) (d : Device) (m : Memory) (t : Team) : Cmd :=
  let put (bi : BitVec 256) : Cmd :=
    match (d.readSeg m t c.core { n := 2 ^ 40, r := bi, off := 0, len := 4 * copyRows bi }).2 with
    | .ok bs => c.take (2 ^ 40) bs
    | .error _ => c
  match c.op with
  | .cpyg _ _ bi => put bi
  | .cpys _ _ bi => put bi
  | _ => c
/-- The header of a chain in its read set, and HEAD and ERR in its write set (R267). -/
def chainExtents (bh : BitVec 256) : List Extent :=
  [{ r := bh, lo := 0, len := 64, wr := false }, { r := bh, lo := 8, len := 4, wr := true }, { r := bh, lo := 12, len := 1, wr := true }]
/-- The read and write set of a command as it would start now: for `cpyg` and `cpys` the bytes that the indices as they stand name, for
`cpyc` what its entries as they stand name, and for a tagged `mma` the bytes of its swaps (R247, R263, R265, R267). -/
def Cmd.sets (c : Cmd) (d : Device) (m : Memory) (e : Engine) (t : Team) : List Extent :=
  let exact := (c.foreseen d m t).reads.map (Seg.extent false) ++ (c.foreseen d m t).targets.map (Seg.extent true) ++ pendOf c.obj
  (match c.op with
   | .cpyg .. => exact
   | .cpys .. => exact
   | .cpyc bh => chainExtents bh ++ (c.chainLeft d m t bh).2.flatMap fun y => cmdExtents y.1 y.2
   | op => cmdExtents op c.obj) ++
  (swapsOf e t c.op.tagRuns e.latch.tag).flatMap CmdOp.extents

/-- R231: what the issuing threads' earlier entries must have done for a set. -/
def Device.ordered (d : Device) (m : Memory) (c : Cmd) (t : Team) (xs : List Extent) : Bool :=
  let meets := fun (y : Extent) (p : Place) va => y.meets d m c.core t p va
  c.pos.all fun (p : Nat × Nat) =>
    match d.thread ⟨c.core, c.slot, c.pack, p.1⟩ with
    | none => true
    | some x =>
      (x.before p.2).all (fun (e : Entry) =>
        !e.gates && !(e.isWrite && xs.any fun y => meets y e.place e.va) && !(e.isLoad && xs.any fun y => y.wr && meets y e.place e.va)) &&
      !d.pool.any fun (r : Red) => (r.owners.any fun o => o.1 == ⟨c.core, c.slot, c.pack, p.1⟩ && o.2.1 < p.2) && xs.any fun y => meets y r.place r.va

/-- R250: no other engine to which the tile is bound still holds a command that writes it. -/
def Device.bindingFree (d : Device) (core q : Nat) (c : Cmd) (t : Team) : Bool :=
  match c.op.tile with
  | none => true
  | some a =>
    match aget t.bindings a with
    | none => true
    | some b => b == q || !(d.engine core b).queue.any fun (x : Cmd) => x.grid == c.grid && x.team == c.team && x.op.tile == some a

/-- The target of a `mma` or `mmar`: the tile, or the shadow (R246, R248). -/
def Cmd.useShadow (c : Cmd) (t : Team) : Bool :=
  match c.op with
  | .mma true a _ _ _ _ _ =>
    (match (t.shadows.getD a Shadow.closed).slot with
     | some g => some g == c.guard
     | none => (match c.guard with | some g => t.guards.getD g .unresolved == .unresolved | none => false))
  | _ => false
def Team.target (t : Team) (a : Nat) (shadow : Bool) : Tile :=
  if shadow && (t.shadows.getD a Shadow.closed).slot.isSome then (t.shadows.getD a Shadow.closed).tile else t.tiles.getD a Tile.zero

/-- The bytes that a copy has yet to write, PEND of its object among them; those of a `cpys` row whose index is not read may lie anywhere
in its record (R263, R267). -/
def Cmd.left (c : Cmd) : List Extent :=
  ((c.targets.flatMap fun (s : Seg) => if c.done.isEmpty then [s] else
      (List.range s.len).filterMap fun i => if c.done.contains (s.n + i) then none else some { s with n := s.n + i, off := s.off + i, len := 1 }).map
    (Seg.extent true)) ++
  (match c.op with
   | .cpys bd _ bi => if (List.range (copyRows bi)).all c.indexed then [] else [{ r := bd, lo := 0, len := recExtent bd, wr := true }]
   | _ => []) ++ pendOf c.obj
/-- The same of a chain: HEAD and ERR, and what the entry in progress and those that follow as they stand write. -/
def Cmd.leftNow (c : Cmd) (d : Device) (m : Memory) (t : Team) : List Extent :=
  match c.op with
  | .cpyc bh =>
    ((chainExtents bh).filter (·.wr)) ++ (if c.sub.isSome then c.view.left else []) ++
    (c.chainLeft d m t bh).2.flatMap fun y => (cmdExtents y.1 y.2).filter (·.wr)
  | _ => c.left
/-- An earlier copy of the queue has yet to write a byte of some places (R232). -/
def Device.behind (d : Device) (m : Memory) (t : Team) (c : Cmd) (ps : List AccPart) : Bool :=
  (t.copyQ.takeWhile fun (x : Cmd) => x.id != c.id).any fun (x : Cmd) =>
    !x.finished && t.copyQ.any (·.id == c.id) && (x.leftNow d m t).any fun y => ps.any fun p => y.meets d m c.core t p.place p.va

/-- MATRIX_COMMAND_START (R231): of a matrix command at its queue head, or of a copy command. -/
def execMatrixCommandStart (k : CmdId) (s : State) : Host.Outcome State Fault Refusal :=
  s.run fun m d =>
    match d.cmd k with
    | none => d
    | some c =>
      match d.team c.core c.slot with
      | none => d
      | some t =>
        if c.started || c.aborted.isSome then d
        else
          match k with
          | .copy _ _ _ =>
            let xs := c.sets d m (Engine.fresh 0) t
            if (c.op.heavy && !c.leave) || !d.ordered m c t xs then d
            else
              let d := d.warm m t c.core xs
              let pins := d.pinsFor m t c.core xs
              (d.releaseRows c).modCmd k fun c => { c with started := true, rows := [], pins := pins }
          | .matrix core q id =>
            let e := d.engine core q
            let waiting := match d.pack c.core c.slot c.pack with | some p => p.fences.any fun (f : OpFence) => c.fences.contains f.id | none => false
            if (match e.queue with | x :: _ => x.id != id | [] => true) || e.outUntil.any (d.now < ·) || waiting then d
            else
              match c.verdict t with
              | none => d
              | some false => d.discard k
              | some true =>
                if (c.op.heavy && !c.leave) || !d.bindingFree core q c t || !d.ordered m c t (c.sets d m e t) then d
                else
                  let sh := c.useShadow t
                  let bCode := recElem e.latch.fmt
                  let bad := match c.op with
                    | .mma _ a _ f _ _ _ => !(t.target a sh).block.pairOk (recElem f) bCode
                    | _ => false
                  if bad then d.abort k .formatSlot 0 0
                  else
                    let xs := c.sets d m e t
                    let d := d.warm m t c.core xs
                    let pins := d.pinsFor m t c.core xs
                    let d := (d.releaseRows c).modCmd k fun c => { c with started := true, rows := [], toShadow := sh, chain := (bCode, 0, 0), pins := pins }
                    let d := match c.op.tile with
                      | some a => d.modTeam c.core c.slot fun t =>
                          { t with bindings := aset t.bindings a q,
                                   shadows := if sh then lmod t.shadows a fun s => match s.slot with
                                     | some _ => s
                                     | none => { tile := t.tiles.getD a Tile.zero, slot := c.guard, opener := id } else t.shadows }
                      | none => d
                    d.moved k

/-! ### Shadows (R249) -/

/-- The shadows open under a resolved slot whose earlier `mmar` commands have all been applied. -/
def Device.closable (d : Device) (core : Nat) (t : Team) (g : Nat) : Bool :=
  t.guards.getD g .unresolved != .unresolved &&
  !(d.core core).engines.any fun (e : Engine) => e.queue.any fun (c : Cmd) =>
    c.grid == t.grid && c.team == t.index && c.op.isMmar && c.guard == some g && c.id < t.resolvedAt.getD g 0

/-- SHADOW_RESOLVE (R249): commit or discard, and the head commands whose slot is false are discarded. -/
def execShadowResolve (core slot : Nat) (g : BitVec 4) (s : State) : Host.Outcome State Fault Refusal :=
  s.run fun _ d =>
    match d.team core slot with
    | none => d
    | some t =>
      if t.guards.getD g.toNat .unresolved = .unresolved then d
      else
        let d := if !d.closable core t g.toNat then d
          else
            let commit := t.guards.getD g.toNat .unresolved == .isTrue
            let close := fun (t : Team) =>
              { t with tiles := imap (fun i (x : Tile) => match t.shadows[i]? with
                                  | some s => if s.slot == some g.toNat && commit then s.tile else x
                                  | none => x) 0 t.tiles,
                       shadows := t.shadows.map fun (s : Shadow) => if s.slot == some g.toNat then Shadow.closed else s }
            (d.modTeam core slot close).freed core t (close t)
        (List.range 4).foldl (fun d q =>
          match (d.engine core q).queue with
          | c :: _ =>
            if c.grid = t.grid && c.team = t.index && c.guard = some g.toNat && !c.started && t.guards.getD g.toNat .unresolved = .isFalse
            then d.discard (.matrix core q c.id) else d
          | [] => d) d

/-! ### Retirement (R232, R233, R235, R266) -/

/-- COMMAND_RETIRE (R232, R266): in queue order. -/
def execCommandRetire (k : CmdId) (s : State) : Host.Outcome State Fault Refusal :=
  s.run fun _ d =>
    match d.cmd k with
    | none => d
    | some c =>
      if !c.finished then d
      else
        match k with
        | .matrix core q id =>
          if (match (d.engine core q).queue with | x :: _ => x.id != id | [] => true) then d
          else
            let part := match d.team c.core c.slot with | some t => t.part | none => 0
            ((d.unqueue k).moved k).count part (ridgeOf core) 4 1
        | .copy core slot id =>
          match d.team core slot with
          | none => d
          | some t =>
            if (match t.copyQ with | x :: _ => x.id != id | [] => true) then d
            else (d.unqueue k).modTeam core slot fun t => { t with doneSeq := c.seq }

/-- A range that a copy writes takes in a byte of the marker's named set (R235). -/
def OpFence.names (f : OpFence) (t : Team) (x : Extent) : Bool :=
  (f.all && t.own x.r) || f.range.any fun r => ({ r := r, lo := 0, len := recExtent r, wr := false } : Extent).shares x t
/-- OPERAND_READY_RETIRE (R235). -/
def execOperandReadyRetire (q : PackId) (fence : Nat) (s : State) : Host.Outcome State Fault Refusal :=
  s.run fun m d =>
    match d.team q.core q.slot, d.pack q.core q.slot q.pack with
    | some t, some p =>
      match p.fences.find? fun (f : OpFence) => f.id == fence with
      | none => d
      | some f =>
        let flying := f.flights.any fun x => match t.packs[x.1]? with | some p => p.flights.any fun (g : Flight) => g.id == x.2 | none => false
        let queued := f.entries.any fun x =>
          let i : ThreadId := ⟨q.core, q.slot, x.1, x.2.1⟩
          (match d.thread i with | some y => y.has x.2.2 | none => false) || d.pool.any fun (r : Red) => r.owners.any fun o => o.1 == i && o.2.1 == x.2.2
        let copying := t.copyQ.any fun (c : Cmd) => f.copies.contains c.id && !c.finished && (c.leftNow d m t).any fun x => f.names t x
        if flying || queued || copying then d
        else d.modPack q.core q.slot q.pack fun p => { p with fences := p.fences.filter fun (g : OpFence) => g.id != fence }
    | _, _ => d

/-! ### Resetting one matrix engine (R327) -/

/-- The teams of a core that a reset of engine q affects: (slot, team). -/
def Device.affected (d : Device) (core q : Nat) : List (Nat × Team) :=
  (d.core core).teams.filter fun (x : Nat × Team) =>
    ((d.engine core q).queue.any fun (c : Cmd) => c.grid == x.2.grid && c.team == x.2.index) || x.2.bindings.any fun b => b.2 == q

/-- R327. A team that is being saved takes its fault after the restore: its image is marked LOST (R324, R326). -/
def Device.resetEngine (d : Device) (core q : Nat) : Device :=
  let teams := d.affected core q
  let d := (d.engine core q).queue.foldl (fun d (c : Cmd) => d.releaseRows c) d
  let d := d.modEngine core q fun e =>
    { queue := [], latch := { bytes := [], fmt := BitVec.ofNat 64 (recElem e.latch.fmt), tag := 0xFFFF, src := 0 }, table := [], lastMove := d.now,
      outUntil := some (d.now + 50 * Config.cyclesPerUs) }
  teams.foldl (fun d (x : Nat × Team) =>
    let d := d.modTeam core x.1 fun t =>
      { t with tiles := List.replicate 16 Tile.zero, shadows := List.replicate 16 Shadow.closed,
               saving := t.saving.map fun (s : Saving) => { s with lost := true } }
    if x.2.saving.isSome then d else d.post (.engine core q) (d.teamIds core x.1) .engineReset 0 none 0) d

/-- ENGRST (R33, R327). -/
def Device.onEngrst (d : Device) (core q : Nat) : Device := if core < Config.cores && q < 4 then d.resetEngine core q else d
def execEngrst (core q : Nat) (s : State) : Host.Outcome State Fault Refusal := s.run fun _ d => d.onEngrst core q

/-- ENGINE_HANG_TIMEOUT (R327): no move for 10 ms with a command that waits neither on a guard slot nor on power leave. -/
def execEngineHangTimeout (core q : Nat) (s : State) : Host.Outcome State Fault Refusal :=
  s.run fun _ d =>
    let e := d.engine core q
    match e.queue with
    | [] => d
    | c :: _ =>
      let held := match d.team c.core c.slot with
        | some t => !c.started && ((c.verdict t).isNone || c.needsLeave)
        | none => false
      if !held && max e.lastMove (max c.arrived c.idleFrom) + 10 * Config.cyclesPerMs ≤ d.now then d.resetEngine core q else d

/-- ENGINE_RETURN_TO_SERVICE (R327): within 50 µs of the reset. -/
def execEngineReturnToService (core q : Nat) (s : State) : Host.Outcome State Fault Refusal :=
  s.run fun _ d => d.modEngine core q fun e => { e with outUntil := none }

end Sys2Proof.Machine
end

