-- ==== Sys2Proof/Machine/Cross.lean ====
section
/-! DEFINITION. The meanings of the cross-thread instructions (R166 to R171). -/

namespace Sys2Proof.Machine

open Sys2Proof

/-- A cross-thread instruction: long-latency and never uniform (R149, R167). -/
def Device.crossOp (d : Device) (i : Instr) (dst : Dst) (den : Bun → Nat → Bool) (f : Bun → Nat → Nat) : Device :=
  match i.hdr with
  | none => d
  | some h => d.issue h { reads := i.reads, dests := [dst], long := true, cross := true } fun b d =>
      (d, fun t => if den b t then .fault .privilege 0 else .ok (f b t))

/-- The source thread of `shfl` (R168). -/
def shflFrom (m : BitVec 2) (t l : Nat) : Int :=
  match m.toNat with
  | 0 => (l % 32 : Nat)
  | 1 => (t : Int) + signed 32 l
  | 2 => ((t : Int) + signed 32 l) % 32
  | _ => (t ^^^ (l % 32) : Nat)

def execShfl (h : Hdr) (m : BitVec 2) (v : VDst) (a l : Src) (s : State) : Host.Outcome State Fault Refusal :=
  s.run fun _ d => d.crossOp (.shfl h m v a l) (VDst.dst v) (fun b t => b.denied t l) fun b t =>
    let w := width v.wide
    let j := shflFrom m t (b.int t 32 l)
    b.int (if 0 ≤ j && j ≤ 31 && b.part.getLsbD j.toNat then j.toNat else t) w a

/-- The threads of Part whose source is true (R169). -/
def Bun.truths (b : Bun) (a : Src) : Mask := maskOf fun t => b.part.getLsbD t && b.int t 32 a != 0

def execVote (h : Hdr) (m : BitVec 2) (dst : VPDst) (a : Src) (s : State) : Host.Outcome State Fault Refusal :=
  s.run fun _ d => d.crossOp (.vote h m dst a) (VPDst.dst dst) (fun _ _ => false) fun b _ =>
    match m.toNat with
    | 0 => (b.truths a == b.part).toNat
    | 1 => (b.truths a != 0).toNat
    | 2 => (b.ts.all fun t => b.int t 32 a == b.int b.low 32 a).toNat
    | _ => popc (b.truths a)

def execBallot (h : Hdr) (dst : VSDst) (a : Src) (s : State) : Host.Outcome State Fault Refusal :=
  s.run fun _ d => d.crossOp (.ballot h dst a) (VSDst.dst dst) (fun _ _ => false) fun b _ => (b.truths a).toNat

/-- Op of `redux` and `scan` at W bits (R170). -/
def reduceOp (op : BitVec 4) (w x y : Nat) : Nat :=
  let f := if w = 64 then fp64 else fp32
  match op.toNat with
  | 0 => (x + y) % 2 ^ w
  | 1 => min x y
  | 2 => max x y
  | 3 => if signed w x ≤ signed w y then x else y
  | 4 => if signed w x ≥ signed w y then x else y
  | 5 => x &&& y
  | 6 => x ||| y
  | 7 => x ^^^ y
  | 8 => f.encode (roundTo ((f.decode x).add false (f.decode y)) f .rne .ieee)
  | 9 => f.encode (fpSelect false false (f.decode x) (f.decode y))
  | _ => f.encode (fpSelect false true (f.decode x) (f.decode y))
/-- Identity (R170). -/
def reduceId (op : BitVec 4) (w : Nat) : Nat :=
  let f := if w = 64 then fp64 else fp32
  match op.toNat with
  | 1 => 2 ^ w - 1
  | 5 => 2 ^ w - 1
  | 3 => 2 ^ (w - 1) - 1
  | 4 => 2 ^ (w - 1)
  | 8 => 2 ^ (w - 1)
  | 9 => f.encode (.inf false)
  | 10 => f.encode (.inf true)
  | _ => 0

/-- Combine (R170). -/
def combineOpt (f : Nat → Nat → Nat) : Option Nat → Option Nat → Option Nat
  | none, y => y
  | x, none => x
  | some x, some y => some (f x y)
/-- One level of the tree: neighbours combined. -/
def treeLevel (f : Nat → Nat → Nat) : List (Option Nat) → List (Option Nat)
  | x :: y :: l => combineOpt f x y :: treeLevel f l
  | l => l
/-- The fixed tree over 32 threads (R170). -/
def reduceTree (f : Nat → Nat → Nat) (l : List (Option Nat)) : Nat :=
  ((treeLevel f (treeLevel f (treeLevel f (treeLevel f (treeLevel f l))))).headD none).getD 0

def Bun.column (b : Bun) (w : Nat) (a : Src) : List (Option Nat) :=
  (List.range 32).map fun t => if b.part.getLsbD t then some (b.int t w a) else none

def execRedux (h : Hdr) (op : BitVec 4) (v : VDst) (a : Src) (s : State) : Host.Outcome State Fault Refusal :=
  s.run fun _ d => d.crossOp (.redux h op v a) (VDst.dst v) (fun _ _ => false) fun b _ =>
    let w := width v.wide
    reduceTree (reduceOp op w) (b.column w a)

/-- `scan` up to thread t in ascending order: what is accumulated from the threads below n. -/
def scanAcc (f : Nat → Nat → Nat) (l : List (Option Nat)) (n : Nat) : Option Nat := (l.take n).foldl (combineOpt f) none
def execScan (h : Hdr) (op : BitVec 4) (excl : Bool) (v : VDst) (a : Src) (s : State) : Host.Outcome State Fault Refusal :=
  s.run fun _ d => d.crossOp (.scan h op excl v a) (VDst.dst v) (fun _ _ => false) fun b t =>
    let w := width v.wide
    (scanAcc (reduceOp op w) (b.column w a) (if excl then t else t + 1)).getD (reduceId op w)

/-- The insertion of R171 into scores and indices. -/
def topkInsert (c : Ex) (bits_ x : Nat) (l : List (Nat × Nat)) : List (Nat × Nat) :=
  if c.isNan then l
  else
    let before := l.takeWhile fun p => !((fp32.decode p.1).isNan || (fp32.decode p.1).lt c)
    if before.length = l.length then l
    else before ++ (bits_, x) :: (l.drop before.length).dropLast

/-- `topk` (R171): never uniform, short-latency. -/
def execTopk (h : Hdr) (k : BitVec 3) (v : SpanD) (form : TopkForm) (s : State) : Host.Outcome State Fault Refusal :=
  s.run fun _ d =>
    let i := Instr.topk h k v form
    let n := k.toNat + 1
    let ext := match form with | .fresh _ _ e => e | _ => 0
    d.issue h { reads := i.reads, dests := spanDsts v false ext } fun b d =>
      (d, fun t =>
        let c := match form with | .fresh c _ _ => b.fp t fp32 32 c | .ins _ c _ _ => b.fp t fp32 32 c
        let x := match form with
          | .fresh _ x _ => b.int t 32 x
          | .ins _ _ ixn x => if ixn then b.extName t x 32 else x.toNat
        let l := match form with
          | .fresh _ _ _ => List.replicate n (0xFF800000, 0xFFFF)
          | .ins ol _ _ _ => (List.range n).map fun j =>
              (b.pack.value (ol.first.toNat + j) t false .whole, b.pack.value (ol.first.toNat + n + j) t false .whole)
        let r := topkInsert c (fp32.encode c) x l
        if (match form with | .fresh _ x _ => b.denied t x | _ => false) then .fault .privilege 0
        else { vals := r.map (·.1) ++ r.map (·.2) })

end Sys2Proof.Machine
end

