-- ==== Sys2Proof/Machine/Moves.lean ====
section
/-! DEFINITION. The read and write moves of engine commands and the walk of a command chain (R177, R231 to R236, R243 to R247, R254 to
R256, R261 to R265, R283). -/

namespace Sys2Proof.Machine

open Sys2Proof

/-! ### What a move waits for -/

/-- The places of runs, as they translate now. -/
def Device.placesOf (d : Device) (m : Memory) (t : Team) (core kind : Nat) (segs : List Seg) : List AccPart :=
  segs.flatMap fun (s : Seg) =>
    if s.clip.len = 0 then []
    else match (d.recBlock m (ridgeOf core) t s.r s.clip.off.toNat s.clip.len kind).2 with
      | .ok ps => ps
      | .error _ => []
/-- The place of the object that a copy counts on (R211, R261). -/
def objectPart (t : Team) (obj : Option (BitVec 256)) : List AccPart :=
  match obj with
  | none => []
  | some r => [{ first := 0, rank := 0, va := recBase r, place := { space := .scratch t.grid (peerOf t r), addrs := (List.range 16).map fun i => swizzle r (recBase r + i) } }]
/-- A move on some runs may be made: the issuing threads' earlier entries for their bytes (R231) and the writes of earlier copies of the
queue (R232) come first, and so does an invalidation of a page without the command's pin (R283); and the die links carry it (R345). -/
def Device.mayMove (d : Device) (m : Memory) (t : Team) (c : Cmd) (wr : Bool) (segs : List Seg) : Bool :=
  d.ordered m c t (segs.map (Seg.extent wr)) &&
  !d.behind m t c (d.placesOf m t c.core wr.toNat segs ++ (if wr then objectPart t c.obj else [])) &&
  (d.placesOf m t c.core wr.toNat segs).all (fun p => d.joined c.core p.place) &&
  (wr || !segs.any fun (s : Seg) => recKind s.r == 0 && d.stalePage c t.part (recBase s.r + s.off.toNat) s.len)

/-! ### Read moves -/

/-- Reads runs in order up to the first error. -/
def Device.readSegs (d : Device) (m : Memory) (t : Team) (core : Nat) : List Seg → Cmd → Device × Except (Option Code × Nat) Cmd
  | [], c => (d, .ok c)
  | s :: ss, c =>
    match d.readSeg m t core s with
    | (d, .error e) => (d, .error e)
    | (d, .ok bs) => Device.readSegs d m t core ss (c.take s.n bs)

/-- The latch that an `mldw` leaves: elements, scales, format and tag (R245); bytes touched meanwhile are undefined (R236). -/
def Device.newLatch (d : Device) (t : Team) (id : Nat) (bytes : List Byte) (f : W64) (tag : Nat) : Device × Latch :=
  let touched := match t.uncovered.find? fun (u : Uncovered) => u.id == id with | some u => u.touched | none => []
  let l : Latch := { bytes := bytes, fmt := f, tag := tag, src := id }
  if touched.isEmpty then (d, l)
  else ({ d with draws := d.draws + 65536 }, touched.foldl (fun l i => l.scramble d.draws i) l)

/-- What the next run of a tagged `mma` comes to (R247): no products, with its misses, the latch as it stands, or a load into it first. -/
inductive RunStep where
  | none (misses : Nat)
  | serve
  | swap (op : CmdOp) (f : W64)
  | abort (c : Code) (detail : Nat)
def Engine.runStep (e : Engine) (t : Team) (tag : Nat) : RunStep :=
  if tag = 0xFFFF then .none 0
  else if e.latch.tag = tag then .serve
  else
    match e.tagged tag with
    | none => .none 1
    | some x =>
      match (x.load t).2.2 with
      | none => .abort .formatSlot 0
      | some f =>
        let op := CmdOp.mldwRec (x.load t).1 (x.load t).2.1 f tag
        if !slotB (some f) then .abort .formatSlot 0
        else
          match firstFate (recTests (x.load t).1 [0, 1, 3] false op.extents) with
          | some (.fault c detail _) => .abort c detail
          | some _ => .abort .bounds 0
          | none => .swap op f

/-- A run is served by a latch whose B code makes the pair of the command's start; another pair aborts the command (R247). -/
def Device.serveRun (d : Device) (k : CmdId) (c : Cmd) (n : Nat) (l : Latch) : Device :=
  match c.op with
  | .mma _ _ _ f _ _ _ =>
    if pairOk (recElem f) (recElem l.fmt) && recElem l.fmt == c.chain.1 then d.modCmd k fun c => { c with runs := c.runs ++ [(n, some l)], data := [], swap := none }
    else d.abort k .formatSlot 0 0
  | _ => d
/-- The next run of a tagged `mma`, or a part of the load that it makes first (R232, R247). The load's latch stays, whatever comes of
the run; its record stands as when the load issued (R255). -/
def Device.nextRun (d : Device) (m : Memory) (t : Team) (k : CmdId) (q : Nat) (c : Cmd) (start len : Nat) : Device :=
  match c.op.tagRuns[c.runs.length]? with
  | none => d
  | some (n, tag) =>
    match (match c.swap with | some (.mldwRec r e f tag) => RunStep.swap (.mldwRec r e f tag) f | _ => (d.engine c.core q).runStep t tag) with
    | .none misses =>
      (((d.modCmd k fun c => { c with runs := c.runs ++ [(n, none)] }).modTeam c.core c.slot fun t =>
        { t with miss := min 0xFFFFFFFF (t.miss + misses) }).count t.part (ridgeOf c.core) 9 misses).moved k
    | .serve => (d.serveRun k c n (d.engine c.core q).latch).moved k
    | .abort code detail => d.abort k code detail 0
    | .swap op f =>
      let v : Cmd := { c with op := op }
      let segs := (v.reads.map fun (s : Seg) => s.cut start len).filter fun (s : Seg) => s.len != 0 && !c.has s.n
      if !d.mayMove m t v false segs then d
      else
        match d.readSegs m t c.core segs c with
        | (d, .error er) => d.cmdError k c t.part 0 er
        | (d, .ok c') =>
          let pins := d.pinsFor m t c.core (segs.map (Seg.extent false))
          let d := d.modCmd k fun x => { x with data := c'.data, pins := (pins ++ x.pins).dedup, swap := some op }
          if (List.range (latchBytes f)).all c'.has then
            let l : Latch := { bytes := c'.bytesOf (latchBytes f), fmt := f, tag := tag, src := c.id }
            ((d.modEngine c.core q fun e => { e with latch := l }).serveRun k c n l).moved k
          else d.moved k

/-- The bytes of an `mst` under the draws of its copy of X (R88, R256); undefined ones are free (R236). -/
def Device.tileBytes (d : Device) (t : Team) (tile : Nat) (f gen : W64) (undef : Bool) : Device × List Byte :=
  let draws := if recRnd f = .rs then drawsFrom 4096 gen else []
  let x := t.tiles.getD tile Tile.zero
  if undef then
    ({ d with draws := d.draws + 32768 }, (List.range (64 * 8 * elemBits (recElem f))).map fun i => (Config.freeWord (d.draws + i)).truncate 8)
  else (d, (List.range 64).flatMap fun i => x.rowBytes f draws i)

/-- The runs that a read move of a copy reads, with rows of `cpyg` out of bounds as zeros (R263). -/
def Cmd.readRuns (c : Cmd) (start len : Nat) : List Seg :=
  ((c.reads.map fun (s : Seg) => s.cut start len).filter fun (s : Seg) => s.len != 0 && !c.has s.n)
/-- A run lies in a row that is not wholly in bounds (R263). -/
def Cmd.rowOut (c : Cmd) (s : Seg) : Bool :=
  match c.op with
  | .cpyg bd bs _ => s.n < 2 ^ 40 && c.index (s.n / max 1 (recStride bd)) * recStride bs + recStride bd > recExtent bs
  | .cpys _ bs _ => s.n < 2 ^ 40 && s.off + s.len > recExtent bs
  | _ => false
/-- Such a row aborts the command (OOB 0), or reads zeros (R263). -/
def CmdOp.outAborts : CmdOp → Bool
  | .cpyg _ bs _ => !recOob bs
  | .cpys _ bs _ => !recOob bs
  | _ => false
/-- What one run of a write move does: skipped, dropped, an abort, or bytes to write. -/
inductive Put where
  | skip | abort | write (s : Seg)
def Cmd.put (c : Cmd) (s : Seg) : Put :=
  match c.op with
  | .cpys bd bs _ =>
    let r := if recStride bs = 0 then 0 else s.n / recStride bs
    if c.index r ≥ 2 ^ 31 then .skip
    else if c.index r * recStride bd + recStride bs > recExtent bd then (if recOob bd then .skip else .abort)
    else .write s
  | _ => .write s

/-- A row of `cpys` aborts the command when its turn to be written comes (R263). -/
def Cmd.rowAborts (c : Cmd) (r : Nat) : Bool :=
  match c.put { n := r * c.op.writes.2, r := 0, off := 0, len := 0 } with
  | .abort => true
  | _ => false
/-- Rows are read, and written, in ascending order: every number of a row below those of some runs has had its move, or has it with them. No row
is read past one that aborts (R263; log 98). -/
def Cmd.rowsInOrder (c : Cmd) (segs : List Seg) (had : Nat → Bool) : Bool :=
  let l := max 1 c.op.writes.2
  let lower := segs.all fun (s : Seg) => s.n ≥ 2 ^ 40 ||
    (List.range (s.n / l * l)).all fun n => had n || segs.any fun (y : Seg) => y.n ≤ n && n < y.n + y.len
  match c.op with
  | .cpyg .. => lower
  | .cpys .. => lower && segs.all fun (s : Seg) => s.n ≥ 2 ^ 40 || (List.range (s.n / l)).all fun r => c.indexed r && !c.rowAborts r
  | _ => true
/-- A number of the read set has been read, or belongs to a row of `cpyg` that reads nothing (R263). -/
def Cmd.hadRead (c : Cmd) (n : Nat) : Bool :=
  c.has n || (match c.op with
    | .cpyg bd _ _ => c.indexed (n / max 1 (recStride bd)) && c.index (n / max 1 (recStride bd)) ≥ 2 ^ 31
    | _ => false)
/-- The address that a run starts at, for a record of R319. -/
def Seg.va (s : Seg) : Nat := if recKind s.r = 0 then ((recBase s.r + s.off) % 2 ^ 64).toNat else 0
/-- The numbers from start on of the rows of `cpyg` whose index is 2^31 or more: zeros (R263). -/
def Cmd.zeroRows (c : Cmd) (start len : Nat) : List (Nat × Byte) :=
  match c.op with
  | .cpyg bd _ bi => ((List.range (copyRows bi)).filter fun r => c.indexed r && c.index r ≥ 2 ^ 31).flatMap fun r =>
      (List.range (recStride bd)).filterMap fun i =>
        let n := r * recStride bd + i
        if start ≤ n && n < start + len && !c.has n then some (n, (0 : Byte)) else none
  | _ => []

/-- The moves of an entry of a chain may be made once its conditions have come about (R231, R241, R265). -/
def Cmd.open_ (c : Cmd) : Bool := c.started && !c.view.finished && c.parked.isNone && c.failing.isNone && (!c.op.isChain || c.chain.2.1 = 6)

/-- ENGINE_READ_MOVE (R232): numbers start to start + len − 1 of the read set. -/
def execEngineReadMove (k : CmdId) (start len : Nat) (s : State) : Host.Outcome State Fault Refusal :=
  s.run fun m d =>
    match d.cmd k with
    | none => d
    | some c0 =>
      match d.team c0.core c0.slot with
      | none => d
      | some t =>
        let c := c0.view
        if !c0.open_ then d
        else
          match c.op, k with
          | .mst _ _ tile f gen undef, _ =>
            if c.has 0 then d
            else
              let r := d.tileBytes t tile f gen undef
              (r.1.modCmd k fun c => c.take 0 r.2).moved k
          | .mma _ _ _ _ _ true _, .matrix _ q _ => d.nextRun m t k q c start len
          | _, _ =>
            let segs := c.readRuns start len
            let within := segs.takeWhile fun (s : Seg) => !(c.op.outAborts && c.rowOut s)
            let runs := match c.op with
              | .cpyg _ bs _ => within.map fun (s : Seg) => if c.rowOut s then { s with off := recExtent bs } else s
              | _ => within
            if !c.rowsInOrder segs c.hadRead || !d.mayMove m t c false runs then d
            else
              match d.readSegs m t c.core runs c with
              | (d, .error er) => d.cmdError k c0 t.part 0 er
              | (d, .ok c') =>
                match segs.find? fun (s : Seg) => c.op.outAborts && c.rowOut s with
                | some s => d.fail k c0 .bounds s.va
                | none =>
                  let pins := d.pinsFor m t c.core (runs.map (Seg.extent false))
                  (d.modCmd k fun x => { x with data := c.zeroRows start len ++ c'.data, pins := (pins ++ x.pins).dedup }).moved k

/-! ### Write moves -/

/-- A copy's bytes are counted on its object in the same move: it writes PEND (R212, R233, R267). -/
def Device.countOn (d : Device) (m : Memory) (t : Team) (who : Toucher) (obj : Option (BitVec 256)) (n : Nat) : Device :=
  match obj with
  | none => d
  | some r =>
    if n = 0 then d
    else
      let p : Place := { space := .scratch t.grid (peerOf t r), addrs := (List.range 16).map fun i => swizzle r (recBase r + i) }
      let bs := d.cells m p
      let w := objWords bs
      let w' := advancePhase (w.1, w.2.1, w.2.2.1, (w.2.2.2 + 2 ^ 32 - n % 2 ^ 32) % 2 ^ 32)
      (d.setCells p (objBytes w'.1 w'.2.1 w'.2.2.1 w'.2.2.2 (bits (leNat bs) 127 96))).touch t.grid (peerOf t r) ((p.addrs.drop 8).take 4) who

/-- Writes one run, the part outside the extent dropped: the bytes written, or a miss or a fault. -/
def Device.writeSeg (d : Device) (m : Memory) (t : Team) (core : Nat) (who : Toucher) (s : Seg) (bs : List Byte) : Device × Except (Option Code × Nat) Nat :=
  let k := s.clip
  if k.len = 0 then (d, .ok 0)
  else
    match d.recBlock m (ridgeOf core) t k.r k.off.toNat k.len 1 with
    | (d, .error e) => (d, .error e)
    | (d, .ok ps) =>
      let d := ps.foldl (fun d p => if p.place.space = .phys then d.soil m (ridgeOf core) t.part (p.place.addrs.headD 0) else d) d
      (d.writeParts ps ((bs.drop (k.n - s.n)).take k.len) who, .ok k.len)

/-- `cpyr` on one element (R159, R264). -/
def cpyrNew (op dst src : Nat) : Nat :=
  let add := fun (f : Fmt) => f.encode (roundTo ((f.decode dst).add false (f.decode src)) f .rne .ieee)
  match op with
  | 0 => add fp32
  | 1 => add bf16
  | 2 => (dst + src) % 2 ^ 32
  | 3 => fp32.encode (fpSelect false true (fp32.decode dst) (fp32.decode src))
  | _ => fp32.encode (fpSelect false false (fp32.decode dst) (fp32.decode src))
def cpyrBytes (op : Nat) (dst src : List Byte) : List Byte :=
  let n := cpyrSize op
  (List.range (src.length / n)).flatMap fun i =>
    leBytes n (cpyrNew op (leNat ((dst.drop (n * i)).take n)) (leNat ((src.drop (n * i)).take n)))

/-- Writes the runs of a write move up to the first that fails or aborts the command: the bytes written, the numbers done, and the miss or
the fault (R240, R263). -/
def Device.writeSegs (d : Device) (m : Memory) (t : Team) (c : Cmd) (who : Toucher) :
    List Seg → Nat → List Nat → Device × Nat × List Nat × Option (Option Code × Nat)
  | [], n, ns => (d, n, ns, none)
  | s :: ss, n, ns =>
    let on := ns ++ (List.range s.len).map (s.n + ·)
    match c.put s with
    | .skip => Device.writeSegs d m t c who ss n on
    | .abort => (d, n, ns, some (some .bounds, s.va))
    | .write s =>
      let src := (List.range s.len).map fun i => (aget c.data (s.n + i)).getD 0
      let r : Device × Except (Option Code × Nat) (List Byte) := match c.op with
        | .cpyr op _ _ => (match d.readSeg m t c.core s with
            | (d, .ok dst) => (d, .ok (cpyrBytes op dst src))
            | x => x)
        | _ => (d, .ok src)
      match r with
      | (d, .error e) => (d, n, ns, some e)
      | (d, .ok bs) =>
        match d.writeSeg m t c.core who s bs with
        | (d, .error e) => (d, n, ns, some e)
        | (d, .ok k) => Device.writeSegs d m t c who ss (n + (match c.op with | .cpyr op _ _ => k / cpyrSize op * cpyrSize op | _ => k)) on

/-- The sixteen names of `mwr` in the layout of R253 (R254). -/
def Tile.putRows (x : Tile) (row0 : Nat) (vals : List (List W32)) : Tile :=
  (List.range 16).foldl (fun x n => (List.range 32).foldl (fun (x : Tile) u =>
    x.put (row0 + n / 2) (32 * (n % 2) + u) ((vals.getD n []).getD u 0)) x) x

/-- The elements that a test names become undefined (R236): free values from draw k on. -/
def Tile.free (x : Tile) (k : Nat) (p : Nat → Bool) : Tile :=
  { x with elems := (List.range 4096).filterMap fun i =>
      let v := if p i then (Config.freeWord (k + i)).truncate 32 else (aget x.elems i).getD 0
      if v = 0 then none else some (i, v) }
/-- A tile as a command that wrote it leaves it, when what the command writes is undefined (R236). -/
def Tile.spoil (x : Tile) (undef : Bool) (k : Nat) (p : Nat → Bool) : Tile := if undef then x.free k p else x
/-- The whole write move of a matrix command that writes engine or tile state (R236, R245 to R248, R254, R255). -/
def Device.applyMatrix (d : Device) (core q id : Nat) (c : Cmd) (t : Team) : Option Device :=
  let e := d.engine core q
  let done (d : Device) : Option Device := some (d.modCmd (.matrix core q id) fun c => { c with applied := true })
  let latch (d : Device) (bytes : List Byte) (f : W64) (tag : Nat) : Option Device :=
    let r := d.newLatch t id bytes f tag
    done (r.1.modEngine core q fun e => { e with latch := r.2 })
  let k := d.draws
  let tile (f : Team → Team) : Option Device :=
    done ((if c.undef then { d with draws := d.draws + 16384 } else d).modTeam c.core c.slot f)
  match c.op with
  | .mldwRec _ _ f tag => if (List.range (latchBytes f)).all c.has then latch d (c.bytesOf (latchBytes f)) f tag else none
  | .mldwSpan bytes f tag => latch d bytes f tag
  | .mtag _ _ n =>
    if !(List.range (16 * n)).all c.has then none
    else
      let entry := fun i =>
        let x := leNat ((c.bytesOf (16 * n)).drop (16 * i) |>.take 16)
        if bits x 63 45 != 0 || bits x 39 35 != 0 || bits x 31 16 != 0 || bits x 15 0 = 0xFFFF then none
        else some ({ idx := BitVec.ofNat 64 (bits x 127 64), recIx := bits x 44 40, fmt := bits x 34 32, tag := bits x 15 0 } : TagEntry)
      done (d.modEngine core q fun e => { e with table := (List.range n).filterMap entry })
  | .mzero a => tile fun t => { t with tiles := lmod t.tiles a fun _ => Tile.zero.spoil c.undef k fun _ => true }
  | .mwr a row0 vals =>
    let go := fun (x : Tile) => (x.putRows row0 vals).spoil c.undef k fun i => row0 ≤ i / 64 && i / 64 < row0 + 8
    tile fun t => { t with tiles := lmod t.tiles a go }
  | .mma _ a frag f vs tagged blockEnd =>
    if tagged && c.runs.length != c.op.tagRuns.length then none
    else
      let rows := c.runs.flatMap fun r => List.replicate r.1 r.2
      let serve : Nat → Option Latch := fun i => if tagged then rows.getD i none else some e.latch
      let frag := if c.undef then imap (fun i _ => (Config.freeWord (k + 4096 + i)).truncate 8) 0 frag else frag
      let go := fun (x : Tile) => let y := x.supply f frag vs c.chain.1 serve blockEnd; y.spoil (c.undef && !y.block.opened) k fun _ => true
      tile fun t => if c.toShadow && (t.shadows.getD a Shadow.closed).slot.isSome
        then { t with shadows := lmod t.shadows a fun (s : Shadow) => { s with tile := go s.tile } }
        else { t with tiles := lmod t.tiles a go }
  | _ => none

/-- The engine of a matrix command. -/
def CmdId.engine : CmdId → Option Nat
  | .matrix _ q _ => some q
  | .copy .. => none
/-- A command that reads a tile or shadow meets an uncorrectable error in it (R192). -/
def Cmd.meetsBad (c : Cmd) (t : Team) : Bool :=
  match c.op with
  | .mma _ a .. => if c.toShadow && (t.shadows.getD a Shadow.closed).slot.isSome then (t.shadows.getD a Shadow.closed).tile.bad else (t.tiles.getD a Tile.zero).bad
  | .mst _ _ a .. => (t.tiles.getD a Tile.zero).bad
  | _ => false
/-- ENGINE_WRITE_MOVE (R232): numbers start to start + len − 1 of the write set whose sources have been read. -/
def execEngineWriteMove (k : CmdId) (start len : Nat) (s : State) : Host.Outcome State Fault Refusal :=
  s.run fun m d =>
    match d.cmd k with
    | none => d
    | some c0 =>
      match d.team c0.core c0.slot with
      | none => d
      | some t =>
        let c := c0.view
        if !c0.open_ then d
        else if c.meetsBad t then d.fail k c0 .memoryUncorrectable 0
        else
          match k, c.op with
          | _, .cpyc _ => d
          | .matrix core q id, .mldwRec .. => ((d.applyMatrix core q id c t).getD d).moved k
          | .matrix core q id, .mldwSpan .. => ((d.applyMatrix core q id c t).getD d).moved k
          | .matrix core q id, .mtag .. => ((d.applyMatrix core q id c t).getD d).moved k
          | .matrix core q id, .mzero _ => ((d.applyMatrix core q id c t).getD d).moved k
          | .matrix core q id, .mwr .. => ((d.applyMatrix core q id c t).getD d).moved k
          | .matrix core q id, .mma .. => ((d.applyMatrix core q id c t).getD d).moved k
          | _, op =>
            let width := match op with | .cpyr o _ _ => cpyrSize o | _ => 1
            let lo := (start + width - 1) / width * width
            let hi := (start + len) / width * width
            let segs := (c.targets.map fun (s : Seg) => s.cut lo (hi - lo)).filter fun (s : Seg) => s.len != 0
            let fresh := segs.all fun (s : Seg) => (List.range s.len).all fun i => !c.done.contains (s.n + i) && c.has (s.n + i)
            let who : Toucher := .cmd c.id (CmdId.engine k)
            if segs.isEmpty || !fresh || !c.rowsInOrder segs c.done.contains || !d.mayMove m t c true segs then d
            else
              let r := d.writeSegs m t c who segs 0 []
              match if r.2.1 = 0 then none else (objectPart t c.obj).findSome? fun p => d.met p.place true with
              | some code => d.fail k c0 code 0
              | none =>
                let d := r.1.modCmd k fun c => { c with done := r.2.2.1 ++ c.done }
                let d := match k with
                  | .copy _ _ _ => (d.countOn m t who c.obj r.2.1).count t.part (ridgeOf c.core) 6 r.2.1
                  | .matrix _ _ _ => d
                match r.2.2.2 with
                | some e => d.cmdError k c0 t.part 1 e
                | none => d.moved k

/-! ### Command chains (R265) -/

/-- One move on bytes of a chain's header or ring (R232): a read. -/
def Device.chainRead (d : Device) (m : Memory) (t : Team) (k : CmdId) (c : Cmd) (bh : BitVec 256) (off len : Nat) (f : Device → Nat → Device) : Device :=
  let g : Seg := { n := 0, r := bh, off := off, len := len }
  if !d.mayMove m t c false [g] then d
  else
    match d.readSeg m t c.core g with
    | (_, .error e) => d.cmdError k c t.part 0 e
    | (d, .ok bs) => f d (leNat bs)
/-- The same for a write. -/
def Device.chainWrite (d : Device) (m : Memory) (t : Team) (k : CmdId) (c : Cmd) (bh : BitVec 256) (off : Nat) (bs : List Byte) (f : Device → Device) :
    Device :=
  let g : Seg := { n := 0, r := bh, off := off, len := bs.length }
  if !d.mayMove m t c true [g] then d
  else
    match d.writeSeg m t c.core (.cmd c.id none) g bs with
    | (_, .error e) => d.cmdError k c t.part 1 e
    | (d, .ok _) => f d
/-- The walk goes on in a phase: 0 reads HEAD, 1 clears ERR, 2 reads TAIL, 3 reads CAP, 4 reads the entry, 5 awaits what its moves
wait for, 6 makes them, and then writes HEAD (R265). -/
def Device.phase (d : Device) (k : CmdId) (h p cap : Nat) : Device := d.modCmd k fun c => { c with chain := (h, p, cap) }
/-- The walk stops: ERR is to hold a code (R265). -/
def Device.chainStop (d : Device) (k : CmdId) (code : Code) : Device := d.modCmd k fun c => { c with failing := some (code, 0, false) }

/-- The entry read from its 32 bytes begins, or stops the walk (R191, R203, R261, R265): its records stand as they are now. -/
def Device.chainBegin (d : Device) (t : Team) (k : CmdId) (h cap bytes : Nat) : Device :=
  let e := ChainE.of (leBytes 32 bytes)
  if e.bad then d.chainStop k .illegalOpcode
  else
    match e.command t with
    | .error code => d.chainStop k code
    | .ok (op, obj) => d.modCmd k fun c =>
        { c with chain := (h, 5, cap), sub := some (op, obj), arrived := d.now, leave := false, data := [], done := [],
                 ranges := c.ranges ++ scoreRanges t op }

/-- CHAIN_ENTRY (R265): the next move of a chain's own walk. An entry's reads and writes are moves of their own, as those of a `cpy`
or `cpyr` are (R232). -/
def execChainEntry (k : CmdId) (s : State) : Host.Outcome State Fault Refusal :=
  s.run fun m d =>
    match d.cmd k with
    | none => d
    | some c =>
      match d.team c.core c.slot, c.op with
      | some t, .cpyc bh =>
        if !c.started || c.applied || c.parked.isSome then d
        else
          let ends (d : Device) : Device := d.modCmd k fun c => { c with applied := true, failing := none }
          let (h, p, cap) := c.chain
          match c.failing with
          | some (code, addr, aborts) =>
            d.chainWrite m t k c bh 12 [BitVec.ofNat 8 code.num] fun d => if aborts then d.abort k code 0 addr else ends d
          | none =>
            match p with
            | 0 => d.chainRead m t k c bh 8 4 fun d x => d.phase k x 1 0
            | 1 => d.chainWrite m t k c bh 12 [0] fun d => d.phase k h 2 0
            | 2 => d.chainRead m t k c bh 4 4 fun d x => if x = h then ends d else d.phase k h 3 0
            | 3 => d.chainRead m t k c bh 0 4 fun d x =>
                if !(x != 0 && x &&& (x - 1) = 0 && x ≤ 2 ^ 20) || 64 + 32 * x > recExtent bh then d.chainStop k .bounds else d.phase k h 4 x
            | 4 => d.chainRead m t k c bh (64 + 32 * (h % cap)) 32 fun d x => d.chainBegin t k h cap x
            | 5 => if c.needsLeave || !d.ordered m c.view t (cmdExtents c.view.op c.view.obj) then d else d.phase k h 6 cap
            | _ =>
              if !c.view.finished then d
              else d.chainWrite m t k c bh 8 (leBytes 4 ((h + 1) % 2 ^ 32)) fun d =>
                d.modCmd k fun c => { c with chain := ((h + 1) % 2 ^ 32, 2, 0), sub := none, leave := false, data := [], done := [] }
      | _, _ => d

end Sys2Proof.Machine
end

