-- ==== Sys2Proof/Machine/Reassembly.lean ====
section
/-! DEFINITION. Records on their way to a station, station teams, returns and reassembly (R88, R272 to R282, R289 to R292). -/

namespace Sys2Proof.Machine

open Sys2Proof

/-! ### The threads of a collective wait -/

/-- The threads of a pack in some waits. -/
def Pack.waiting (p : Pack) (f : Wait → Bool) : Mask :=
  maskOf fun t => match p.thread t with | some x => (match x.status with | .atBarrier w => f w | _ => false) | none => false
def PackId.ids (q : PackId) (m : Mask) : List ThreadId := maskIds q.core q.slot q.pack m
/-- Every thread of a mask is changed. -/
def Device.modMask (d : Device) (q : PackId) (m : Mask) (f : Thread → Thread) : Device :=
  d.modPack q.core q.slot q.pack fun p => { p with threads := imap (fun t x => if m.getLsbD t then f x else x) 0 p.threads }
/-- A fault of an instruction that waits is raised for each of its threads; a system fault writes one record (R290, R315). -/
def Device.raiseMask (d : Device) (q : PackId) (m : Mask) (c : Code) (detail addr : Nat) : Device :=
  (threadsOf m).foldl (fun d t =>
    let i : ThreadId := ⟨q.core, q.slot, q.pack, t⟩
    match d.thread i with
    | some x => d.raise i c detail x.pc addr false (lowest m == some t)
    | none => d) d

/-- The `route` of a pack, with its threads. -/
def Pack.routing (p : Pack) : Option (Mask × Routing) :=
  let m := p.waiting fun w => match w with | .route .. => true | _ => false
  match lowest m with
  | none => none
  | some t =>
    match p.thread t with
    | some x => (match x.status with | .atBarrier (.route r) => some (m, r) | _ => none)
    | none => none

/-! ### Station rings (R274, R275) -/

def Ring.untaken (r : Ring) : Nat := r.wr - r.rd
def Station.pol (s : Station) : Nat := fld s.desc 209 208
def Station.cap (s : Station) : Nat := fld s.desc 207 192
def Station.maxt (s : Station) : Nat := fld s.desc 223 216
def Station.flush (s : Station) : Nat := fld s.desc 191 160
def Station.qcap (s : Station) : Nat := fld s.desc 159 128
def Station.qbase (s : Station) : Nat := fld s.desc 127 64
def Station.lrec (s : Station) : Nat := fld s.desc 63 0
def Station.ocap (s : Station) : Nat := fld s.desc 351 320
def Station.obase (s : Station) : Nat := fld s.desc 319 256
def Station.nw (s : Station) : Nat := fld s.desc 228 224
def Station.wrec (s : Station) : Nat := fld s.desc 447 384
/-- A of R274: untaken records of a reservation. -/
def Station.held (s : Station) (o : Nat × Nat × W32) : Nat := ((s.queue.owners ++ s.spill.owners).filter (· == o)).length
/-- A record enters a ring. -/
def Ring.push (r : Ring) (now : Nat) (o : Nat × Nat × W32) : Ring := { r with wr := r.wr + 1, times := r.times ++ [now], owners := r.owners ++ [o] }
/-- The oldest n records of a ring are taken. -/
def Ring.take (r : Ring) (n : Nat) : Ring := { r with rd := r.rd + n, times := r.times.drop n, owners := r.owners.drop n }
def Device.modStation (d : Device) (p n : Nat) (f : Station → Station) : Device :=
  d.modPart p fun q => match aget q.stations n with | some s => { q with stations := aset q.stations n (f s) } | none => q

/-- What R274 decides for a record: a ring (true the overflow ring), dropped, or to wait. -/
inductive Spot where
  | ring (ovf : Bool) | dropped | stall
def Station.spot (s : Station) (o : Nat × Nat × W32) : Spot :=
  if s.held o < s.cap && s.queue.untaken < s.qcap then .ring false
  else if s.pol = 1 then (if s.spill.untaken < s.ocap then .ring true else .dropped)
  else if s.pol = 2 then .stall
  else .dropped

/-- The reservation that a `route` named still holds the entry: an `rfree` of another pack ends it (R292). -/
def Device.routes (d : Device) (r : Routing) : Bool :=
  let x := d.entry (r.entry / 32) (r.entry % 32)
  x.state != .free && x.gen == r.gen
/-- A choice is dropped: the count and the miss mask rise (R274, R281). -/
def REntry.dropAt (x : REntry) (i : Nat) : REntry :=
  { x with choices := lmod x.choices i fun _ => .dropped, drop := x.drop + 1, miss := x.miss ||| BitVec.ofNat 64 (2 ^ (i / x.k)) }
def Device.dropChoice (d : Device) (part i : Nat) (r : Routing) : Device :=
  (if d.routes r then d.modEntry (r.entry / 32) (r.entry % 32) (·.dropAt i) else d).count part (ridgeOf (r.entry / 32)) 10 1

/-- The record of R274. -/
def recordBits (token station core e choice row seq : Nat) (gen : W32) (ovf : Bool) : BitVec 256 :=
  BitVec.ofNat 256 (seq % 2 ^ 32 + ovf.toNat * 2 ^ 32 + row * 2 ^ 40 + choice * 2 ^ 48 + (core + e * 512) * 2 ^ 64 + gen.toNat * 2 ^ 128 +
    station * 2 ^ 176 + token % 2 ^ 64 * 2 ^ 192)

/-- What the enqueueing of a `route` comes to (R274). -/
inductive Sent where
  | done
  | stalled (at_ : Nat)
  | held (at_ : Nat)              -- its store passes no die link now (R345)
  | waits (at_ page : Nat)

/-- Where the next record of a ring goes, and its number there (R274). -/
def Station.slot (s : Station) (ovf : Bool) : Nat × Nat :=
  if ovf then (s.obase + 32 * (s.spill.wr % s.ocap), s.spill.wr) else (s.qbase + 32 * (s.queue.wr % s.qcap), s.queue.wr)
def Station.push (s : Station) (ovf : Bool) (now : Nat) (o : Nat × Nat × W32) : Station :=
  if ovf then { s with spill := s.spill.push now o } else { s with queue := s.queue.push now o }

/-- Enqueues the records of a `route` from number i on, under the generation of its reservation (R273, R274; log 99). -/
def Device.send (m : Memory) (p : Nat) (x : Routing) : Nat → Nat → Device → Device × Sent
  | 0, _, d => (d, .done)
  | n + 1, i, d =>
    let core := x.entry / 32
    let e := x.entry % 32
    match x.plan.getD i none with
    | none => Device.send m p x n (i + 1) d
    | some st =>
      let o := (core, e, x.gen)
      match aget (d.part p).stations st with
      | none => Device.send m p x n (i + 1) (d.dropChoice p i x)
      | some s =>
        if !s.active then Device.send m p x n (i + 1) (d.dropChoice p i x)
        else
          match s.spot o with
          | .dropped => Device.send m p x n (i + 1) (d.dropChoice p i x)
          | .stall => (d, .stalled i)
          | .ring ovf =>
            let w := recordBits (recBase x.bk + i / x.k * recStride x.bk) st core e (i % x.k) (i / x.k) (s.slot ovf).2 x.gen ovf
            match d.placeBlock m (ridgeOf core) p (s.slot ovf).1 32 1 with
            | (d, .error (none, va)) => (d, .waits i va)
            | (d, .error (some c, va)) =>
              let d := d.emit p { addr := va, grid := s.grid, cls := 1, kind := 4, code := c.num }
              Device.send m p x n (i + 1) (d.dropChoice p i x)
            | (d, .ok ps) =>
              if !d.allJoined core ps then (d, .held i)
              else Device.send m p x n (i + 1) ((d.writeParts ps (leBytes 32 w.toNat)).modStation p st fun s => s.push ovf d.now o)

/-- A `route` goes on enqueueing; when every record is written, dropped or spilled, its threads go on (R290). -/
def Device.routeOn (d : Device) (m : Memory) (q : PackId) (p : Nat) (mask : Mask) (r : Routing) : Device :=
  let set := fun (d : Device) stage k => d.modMask q mask fun t => { t with status := .atBarrier (.route { r with stage := stage, sent := k }) }
  match d.send m p r (r.plan.length - r.sent) r.sent with
  | (d, .done) => d.modMask q mask (·.wake)
  | (d, .stalled k) => set d 1 k
  | (d, .held k) => set d 2 k
  | (d, .waits k va) =>
    set (d.parkRecord p (ridgeOf q.core) va 1 (d.recOf ⟨q.core, q.slot, q.pack, (lowest mask).getD 0⟩ .pageNotPresent 0
      (match d.thread ⟨q.core, q.slot, q.pack, (lowest mask).getD 0⟩ with | some x => x.pc | none => 0) 0 0)) (256 + va / 65536 * 65536) k

/-- An entry of a routing table (R272): weight, reserved bits, SKIP and STATION. -/
def tableEntry (bs : List Byte) (i : Nat) : W32 × Bool × Bool × Nat :=
  let x := leNat ((bs.drop (8 * i)).take 8)
  (BitVec.ofNat 32 (bits x 63 32), bits x 31 17 != 0, bit x 16, bits x 15 0)

/-- An entry all of whose rows are combined is complete (R281). -/
def REntry.settle (x : REntry) : REntry := if x.state = .routed && (List.range x.rows).all x.combined.contains then { x with state := .complete } else x

/-- The reads of a `route`'s table, loads of its pack, overlap a range that a copy command writes (R191, R290). -/
def Team.tableHeld (t : Team) (x : REntry) (bt : BitVec 256) : Bool := t.own bt && t.scored [(recBase bt, 8 * (x.k * x.rows))] false

/-- ROUTE_TABLE_READ (R191, R273, R290). -/
def execRouteTableRead (q : PackId) (s : State) : Host.Outcome State Fault Refusal :=
  s.run fun m d =>
    match d.team q.core q.slot, d.pack q.core q.slot q.pack with
    | some t, some p =>
      match p.routing with
      | none => d
      | some (mask, r) =>
        let x := d.entry (r.entry / 32) (r.entry % 32)
        if r.stage != 0 || p.sliceDone || t.tableHeld x r.bt || (threadsOf mask).any (fun u => match p.thread u with | some y => y.releasing | none => false) then d
        else
          if x.state != .reserved || x.gen != r.gen || x.grid != t.grid || x.team != t.index then d.raiseMask q mask .routeDescriptor 0 0
          else
            let n := x.k * x.rows
            match d.recBlock m (ridgeOf q.core) t r.bt 0 (8 * n) 0 with
            | (d, .error (none, va)) =>
              let pc := match p.thread ((lowest mask).getD 0) with | some y => y.pc | none => 0
              (d.parkRecord t.part (ridgeOf q.core) va 0 (d.recOf ⟨q.core, q.slot, q.pack, (lowest mask).getD 0⟩ .pageNotPresent 0 pc 0 0)).modMask q mask
                fun y => { y with status := .parked va 0 false, again := [] }
            | (d, .error (some c, va)) => d.raiseMask q mask c 0 va
            | (d', .ok ps) =>
              if !d'.allJoined q.core ps then d
              else
              let d := d'
              let bs := d.readParts m ps
              let row : List (W32 × Bool × Bool × Nat) := (List.range n).map (tableEntry bs)
              let bad := row.any fun y => !y.2.2.1 && (y.2.1 || y.2.2.2 ≥ (d.part t.part).stCnt.toNat ||
                (match aget (d.part t.part).stations y.2.2.2 with | some s => !s.active | none => true))
              if bad then d.raiseMask q mask .routeDescriptor 0 0
              else
                let d := d.modEntry (r.entry / 32) (r.entry % 32) fun x =>
                  { x with state := .routed, start := some d.now, weights := row.map fun (y : W32 × Bool × Bool × Nat) => y.1, stations := row.map fun (y : W32 × Bool × Bool × Nat) => y.2.2.2,
                           choices := (row.zip x.choices).map fun (y : (W32 × Bool × Bool × Nat) × Choice) => if y.1.2.2.1 then .skipped else y.2 }.settle
                d.routeOn m q t.part mask
                  { r with k := x.k, plan := row.map fun (y : W32 × Bool × Bool × Nat) => if y.2.2.1 then none else some y.2.2.2 }
    | _, _ => d

/-- ROUTE_STALL_RESUME (R274): a `route` that waits under POL 2 tries its record again. -/
def execRouteStallResume (q : PackId) (s : State) : Host.Outcome State Fault Refusal :=
  s.run fun m d =>
    match d.team q.core q.slot, d.pack q.core q.slot q.pack with
    | some t, some p =>
      (match p.routing with
       | some (mask, r) => if r.stage != 1 || p.sliceDone || t.saving.isSome then d else d.routeOn m q t.part mask r
       | _ => d)
    | _, _ => d

/-- RECORD_STORE_RESOLVE (R274): the page of a record's store has been resolved: the store is made anew, or its choice becomes dropped. -/
def execRecordStoreResolve (q : PackId) (s : State) : Host.Outcome State Fault Refusal :=
  s.run fun m d =>
    match d.team q.core q.slot, d.pack q.core q.slot q.pack with
    | some t, some p =>
      match p.routing with
      | none => d
      | some (mask, r) =>
        if p.sliceDone || t.saving.isSome || r.stage < 2 || r.stage ≥ 256 then d
        else if r.stage = 2 then d.routeOn m q t.part mask r
        else
          match (r.plan.getD r.sent none).bind fun n => aget (d.part t.part).stations n with
          | none => d.routeOn m q t.part mask r
          | some st =>
            let ovf := match st.spot (r.entry / 32, r.entry % 32, r.gen) with | .ring o => o | _ => false
            let d := d.emit t.part { addr := (st.slot ovf).1, grid := st.grid, cls := 1, kind := 4, code := r.stage - 2 }
            (d.dropChoice t.part r.sent r).routeOn m q t.part mask { r with sent := r.sent + 1 }
    | _, _ => d

/-! ### Station teams (R275) -/

/-- FLUSH_TIMER_EXPIRY (R275); no timer launches a team while the partition is suspended (R321). -/
def execFlushTimerExpiry (part station : Nat) (s : State) : Host.Outcome State Fault Refusal :=
  s.run fun _ d => d.modStation part station fun s =>
    let due := fun (r : Ring) => match r.times with | t :: _ => t + s.flush ≤ d.now | [] => false
    if s.active && s.flush != 0 && (due s.queue || due s.spill) then { s with timerHit := true } else s

/-- A `route` enqueues into the station: it has a record for it still to write and waits for the translation of a record's store, which
is no stall (R274). -/
def Device.enqueueing (d : Device) (part station : Nat) : Bool :=
  d.teams.any fun x => x.2.2.part == part && x.2.2.packs.any fun (p : Pack) => p.threads.any fun (y : Thread) =>
    (y.status :: (y.aside.map (·.1)).toList).any fun s => match s with
      | .atBarrier (.route r) => r.stage ≥ 2 && (r.plan.drop r.sent).contains (some station)
      | _ => false
/-- STATION_TEAM_LAUNCH (R275): a team takes up to 64 records, the queue ring's before the overflow ring's. -/
def execStationTeamLaunch (part station : Nat) (s : State) : Host.Outcome State Fault Refusal :=
  s.run fun m d =>
    match aget (d.part part).stations station with
    | none => d
    | some st =>
      match d.grid st.grid with
      | none => d
      | some g =>
        let any := st.queue.untaken + st.spill.untaken != 0
        if !d.serving part || !st.active || g.terminated || g.unretired ≥ st.maxt || !any || d.enqueueing part station ||
           !(st.queue.untaken ≥ 64 || st.timerHit || st.flushReq) then d
        else
          let n := min 64 st.queue.untaken
          let k := min (64 - n) st.spill.untaken
          let vas := ((List.range n).map fun i => st.qbase + 32 * ((st.queue.rd + i) % st.qcap)) ++
                     ((List.range k).map fun i => st.obase + 32 * ((st.spill.rd + i) % st.ocap))
          let r := vas.foldl (fun (acc : Device × Option (List (BitVec 256))) va =>
            match acc.2 with
            | none => acc
            | some l => (match acc.1.readBlock m (acc.1.feRidge part) part va 32 with
                | (d, .ok bs) => (d, some (l ++ [BitVec.ofNat 256 (leNat bs)]))
                | (d, .error _) => (d, none))) (d, some [])
          match r with
          | (d, none) => d
          | (d, some recs) =>
            (d.modGrid st.grid fun g => { g with launches := g.launches ++ [recs] }).modStation part station fun s =>
              { s with queue := s.queue.take n, spill := s.spill.take k, flushReq := false, timerHit := false }

/-! ### Returns (R278, R291) -/

/-- RRET_CLAIM (R278, R291). -/
def execRretClaim (i : ThreadId) (s : State) : Host.Outcome State Fault Refusal :=
  s.run fun _ d =>
    match d.waitNow i, d.thread i, d.team i.core i.slot with
    | some (.rret r n st rs), some x, some t =>
      if x.releasing || !(st == 0 || st == 3) then d
      else
        let (core, e, gen, row, c) := taken (t.taken.getD n 0)
        let y := d.entry core e
        let discard (d : Device) : Device := (d.spendRows i rs).modThread i (·.wake)
        if core ≥ Config.cores || !d.trusted (ridgeOf core) then discard d
        else if y.state = .free then discard d
        else if y.gen.toNat != gen then discard (d.modEntry core e fun y => { y with late := y.late + 1 })
        else if row ≥ y.rows || c ≥ y.k then d.raise i .routeDescriptor 0 x.pc 0 false true
        else if y.state = .complete then discard (d.modEntry core e fun y => { y with late := y.late + 1 })
        else
          let at_ := y.k * row + c
          let claimed (d : Device) : Device := d.modThread i fun x => { x with status := .atBarrier (.rret r n 1 rs) }
          if st = 3 then claimed d
          else match y.choices.getD at_ .skipped with
          | .arrived | .claimed => discard (d.modEntry core e fun y => { y with dup := y.dup + 1 })
          | .dropped | .skipped | .timedOut => discard (d.modEntry core e fun y => { y with late := y.late + 1 })
          | .pending =>
            claimed (d.modEntry core e fun y => { y with choices := lmod y.choices at_ fun _ => .claimed })
    | _, _, _ => d

/-- The loads of a claimed return's row through bY: entries of the thread (R278, R291). Bytes outside the extent are read as zeros. -/
def Device.rretLoad (d : Device) (m : Memory) (i : ThreadId) (t : Team) (x : Thread) (r : BitVec 256) (n : Nat) (y : REntry) : Device :=
  let seg : Seg := { n := 0, r := r, off := (n * recStride r : Nat), len := 4 * y.n }
  let k := seg.clip
  if k.len = 0 then d.rretStage m i n (List.replicate (4 * y.n) 0)
  else
    match d.recBlock m (ridgeOf i.core) t r k.off.toNat k.len 0 with
    | (d, .error (none, va)) => d.parkRret i t.part va 0
    | (d, .error (some code, va)) => d.raise i code 0 x.pc va false true
    | (d, .ok ps) =>
      d.modPack i.core i.slot i.pack fun p =>
        let f := p.nextId
        { p with nextId := f + 1, flights := p.flights ++ ([{ id := f, group := f, dst := .none, name := none, mask := oneBit i.thread, ready := none, fixed := false, vals := [], parts := [] }] : List Flight) }.modThread
          i.thread fun x => (x.pushParts ps none (fun p => .load f (k.n + p.first) (4 * y.n) 5 0) (·.rank)).inRret
            fun r i _ rs => some (.atBarrier (.rret r i (4 + f) rs))

/-- The loads of a claimed return overlap a range that a copy command writes (R191). -/
def Team.rowHeld (t : Team) (r : BitVec 256) (n len : Nat) : Bool := t.own r && t.scored [(recBase r + n * recStride r, 4 * len)] false

/-- RRET_ARRIVAL (R278, R291): a claimed return makes its loads; once its staging stores have been performed, its choice arrives, or it
has become late. -/
def execRretArrival (i : ThreadId) (s : State) : Host.Outcome State Fault Refusal :=
  s.run fun m d =>
    match d.waitNow i, d.thread i, d.team i.core i.slot with
    | some (.rret r n k rs), some x, some t =>
      let (core, e, gen, row, c) := taken (t.taken.getD n 0)
      let y := d.entry core e
      let gone := y.state == .free || y.gen.toNat != gen
      let late (d : Device) : Device := if y.state = .free then d else d.modEntry core e fun y => { y with late := y.late + 1 }
      if k = 1 then
        if gone then ((late d).spendRows i rs).modThread i (·.wake)
        else if recKind r > 1 then d.raise i .bounds 3 x.pc 0 false true
        else if !recRd r then d.raise i .bounds 1 x.pc 0 false true
        else if !recOob r && n * recStride r + 4 * y.n > recExtent r then d.raise i .bounds 0 x.pc 0 false true
        else if t.rowHeld r n y.n then d
        else d.rretLoad m i t x r n y
      else if k = 2 && !x.queue.any (·.isWrite) then
        ((if gone then late d
          else d.modEntry core e fun y =>
            match y.choices.getD (y.k * row + c) .skipped with
            | .claimed => { y with choices := lmod y.choices (y.k * row + c) fun _ => .arrived }
            | _ => { y with late := y.late + 1 }).spendRows i rs).modThread i (·.wake)
      else d
    | _, _, _ => d

/-! ### Timeouts and combinations (R279 to R281) -/

def Choice.open_ (c : Choice) : Bool := c == .pending || c == .claimed

/-- RESERVATION_TIMEOUT (R279). -/
def execReservationTimeout (core entry : Nat) (s : State) : Host.Outcome State Fault Refusal :=
  s.run fun _ d =>
    let x := d.entry core entry
    match x.start with
    | none => d
    | some t0 =>
      if x.state = .routed && x.tmo != 0 && t0 + x.tmo ≤ d.now then
        let out := (List.range x.choices.length).filter fun i => (x.choices.getD i .skipped).open_
        d.modEntry core entry fun x =>
          { x with choices := x.choices.map (fun c => if c.open_ then .timedOut else c), tmoCount := x.tmoCount + out.length,
                   miss := out.foldl (fun a i => a ||| BitVec.ofNat 64 (2 ^ (i / x.k))) x.miss }
      else d

/-- Element j of a combined row (R280): the weights and values of its arrived choices in ascending choice. -/
def combine (renorm : Bool) (ys : List (W32 × W32)) : Ex :=
  let r := ys.foldl (fun (a : Ex × Ex) y =>
    (toF32 ((a.1).add false ((f32 y.1).mul (f32 y.2))), toF32 ((a.2).add false (f32 y.1)))) (.zero false, .zero false)
  if renorm then toF32 (r.1.div r.2) else r.1
/-- The bytes of a combined row (R88, R280): `ys` are the arrived choices' weights and staging bytes. The bits of
the last byte that no element fills are not written (R177), the model's choice (log 81). -/
def REntry.rowBytes (x : REntry) (row : Nat) (ys : List (W32 × List Byte)) : List Byte :=
  let draws := if recRnd x.fmt = .rs then (drawsFrom (x.n * (row + 1)) x.rng).drop (x.n * row) else []
  let w := elemBits (recElem x.fmt)
  let v := (List.range x.n).foldl (fun a j =>
    let e := combine x.renorm (ys.map fun y => (y.1, BitVec.ofNat 32 (leNat ((y.2.drop (4 * j)).take 4))))
    a + toElem x.fmt (draws.getD j 0) e % 2 ^ w * 2 ^ (w * j)) 0
  leBytes ((x.n * w + 7) / 8) v

/-- The destination stores of a row are performed, or have met a fault: an entry that was to be freed once they are is free (R292). -/
def Device.rowDone (d : Device) (core e row : Nat) : Device :=
  d.modEntry core e fun x =>
    let y := { x with combined := insertNat row x.combined, parked := x.parked.filter (·.1 != row) }.settle
    if y.freeing && y.parked.isEmpty then { REntry.fresh with gen := y.gen } else y

/-- Reads the staging rows of a row's arrived choices. -/
def Device.staged (d : Device) (m : Memory) (core part : Nat) (x : REntry) (row : Nat) : Device × Except (Option Code × Nat) (List (W32 × List Byte)) :=
  (List.range x.k).foldl (fun (acc : Device × Except (Option Code × Nat) (List (W32 × List Byte))) c =>
    match acc.2 with
    | .error _ => acc
    | .ok l =>
      let at_ := x.k * row + c
      if x.choices.getD at_ .skipped != .arrived then acc
      else
        match acc.1.readBlock m (ridgeOf core) part (recBase x.staging + 4 * x.n * at_) (4 * x.n) with
        | (d, .error e) => (d, .error e)
        | (d, .ok bs) => (d, .ok (l ++ [(x.weights.getD at_ 0, bs)]))) (d, .ok [])

/-- The die links carry the reads of a row's staging (R345). -/
def Device.stagedJoined (d : Device) (m : Memory) (core part : Nat) (x : REntry) (row : Nat) : Bool :=
  (List.range x.k).all fun c =>
    let at_ := x.k * row + c
    x.choices.getD at_ .skipped != .arrived ||
    (match (d.placeBlock m (ridgeOf core) part (recBase x.staging + 4 * x.n * at_) (4 * x.n) 0).2 with | .ok ps => d.allJoined core ps | .error _ => true)

/-- A row's combination fails: a system fault for the owning grid (R280, R316). -/
def Device.rowFault (d : Device) (core e row : Nat) (c : Code) (va : Nat) : Device :=
  let x := d.entry core e
  (d.postTeam .none x.grid x.team c va).rowDone core e row

/-- The elements of a combined row that lie in bounds: an element that passes the extent in part is out as a whole (R176, R280). -/
def REntry.fits (x : REntry) (off : Nat) : Nat :=
  let w := elemBits (recElem x.fmt)
  ((List.range (x.n + 1)).filter fun k => k = 0 || off + (w * k + 7) / 8 ≤ recExtent x.dst).length - 1
/-- The bytes of the first n elements of w bits with their bit enables (R177, R223): bits that no element fills stay as they are. -/
def enabled (w n : Nat) (bs : List Byte) : List (Byte × Byte) := (bs.take ((w * n + 7) / 8)).zip (leBytes ((w * n + 7) / 8) (2 ^ (w * n) - 1))
/-- The stores of a combined row: device-scope writes with bit enables. -/
def Device.storeRow (d : Device) (m : Memory) (ps : List AccPart) (xs : List (Byte × Byte)) : Device :=
  d.writeParts ps (((d.readParts m ps).zip xs).map fun y => mergeByte y.1 y.2)

/-- ROW_COMBINE (R280): a row none of whose choices is pending, or one whose page is to be walked again. -/
def execRowCombine (core entry row : Nat) (s : State) : Host.Outcome State Fault Refusal :=
  s.run fun m d =>
    let x := d.entry core entry
    let begun := x.parked.find? fun y => y.1 == row
    if x.state != .routed || row ≥ x.rows || x.combined.contains row || begun.any (fun y => y.2 % 65536 != 1) ||
       (List.range x.k).any (fun c => (x.choices.getD (x.k * row + c) .skipped).open_) || (begun.isNone && x.freeing) ||
       !d.stagedJoined m core (x.grid / 2 ^ 60) x row then d
    else
      let part := x.grid / 2 ^ 60
      let waits (d : Device) (va kind : Nat) : Device :=
        (d.parkRecord part (ridgeOf core) va kind { kind := 6, code := 0x0A, grid := x.grid, team := x.team, core := core }).modEntry core entry
          fun x => { x with parked := (row, va / 65536 * 65536) :: x.parked.filter (·.1 != row) }
      match d.staged m core part x row with
      | (d, .error (none, va)) => waits d va 0
      | (d, .error (some c, va)) => d.rowFault core entry row c va
      | (d, .ok ys) =>
        let w := elemBits (recElem x.fmt)
        let off := row * recStride x.dst
        let k := x.fits off
        if !recOob x.dst && k < x.n then d.rowFault core entry row .bounds (recBase x.dst + off)
        else if k = 0 then d.rowDone core entry row
        else
          match d.placeBlock m (ridgeOf core) part (recBase x.dst + off) ((w * k + 7) / 8) 1 with
          | (d, .error (none, va)) => waits d va 1
          | (d, .error (some c, va)) => d.rowFault core entry row c va
          | (d', .ok ps) => if d'.allJoined core ps then (d'.storeRow m ps (enabled w k (x.rowBytes row ys))).rowDone core entry row else d

/-! ### A waiting `rsv` (R289) -/

/-- An `rfree` has waited until the entry is free: its threads go on (R292). -/
def Device.freedWake (d : Device) (q : PackId) (p : Pack) : Device :=
  d.modMask q (p.waiting fun w => match w with
    | .rfree e gen => let x := d.entry (e / 32) (e % 32); x.state == .free || x.gen != gen
    | _ => false) (·.wake)
/-- RSV_ENTRY_FREED (R88, R289, R292): an entry is free; the bundle whose `rsv` has waited longest takes one. -/
def execRsvEntryFreed (q : PackId) (s : State) : Host.Outcome State Fault Refusal :=
  s.run fun _ d =>
    match d.team q.core q.slot, d.pack q.core q.slot q.pack with
    | some t, some p =>
      if t.saving.isSome || p.sliceDone then d
      else
        let d := d.freedWake q p
        let ws := (List.range 32).filterMap fun u => match p.thread u with
          | some x => (match x.status with | .atBarrier (.rsv b bd bs sc f dst) => some (b, u, bd, bs, sc, f, dst, x.gen) | _ => none)
          | none => none
        match leastBy (fun (w : Nat × Nat × BitVec 256 × BitVec 256 × W64 × W64 × Nat × W64) => w.1 * 64 + w.2.1) ws with
        | none => d
        | some (b, u, bd, bs, sc, f, dst, gen) =>
          match d.reserve q.core t.grid t.index bd bs sc f gen with
          | none => d
          | some (d, ticket) =>
            let mask := p.waiting fun w => match w with | .rsv b' _ _ _ _ _ => b' == b | _ => false
            d.modPack q.core q.slot q.pack fun p =>
              { p.setScalar dst true ticket with
                threads := imap (fun v (x : Thread) =>
                  let x := if v = u && recRnd f = .rs then { x with gen := advanceBy (scRows sc * scN sc) x.gen } else x
                  if mask.getLsbD v then x.wake else x) 0 p.threads }
    | _, _ => d

end Sys2Proof.Machine
end

