-- ==== Sys2Proof/Machine/Preempt.lean ====
section
/-! DEFINITION. Slice ends, saves and restores, walks of parked threads and the resolution of parked pages, pins, and the release of
debug stops (R181, R268, R283, R302, R310, R317, R318, R321 to R327, R335). -/

namespace Sys2Proof.Machine

open Sys2Proof

/-! ### Slice ends (R321, R322, R335) -/

/-- The partition is active and not suspended (R321). -/
def Part.running (q : Part) : Bool := q.active && !q.suspended
/-- Slice-end handlers are entered: SHPC is not 0 and the save is no migration stop (R322, R337). -/
def Part.handles (q : Part) : Bool := fld q.reg 127 64 != 0 && q.drainKind != 1

/-- Every core of some receives `SLICE_END` in this cycle and starts its budget counter; without a handler the save is forced at
once (R322). Teams all of whose threads have exited need no handler (R323). -/
def Device.sliceStart (d : Device) (p : Nat) (cores : List Nat) : Device :=
  let q := d.part p
  cores.foldl (fun d c =>
    let d := d.modCore c fun x =>
      if x.sliceFor.isSome then x else { x with sliceFor := some p, budget := some (d.now + (if q.handles then q.budget else 0)) }
    if q.handles then d.coop c else d) d
/-- The saves in progress of a partition become forced, and handlers end (R323, R337). -/
def Device.forceSlice (d : Device) (p : Nat) : Device :=
  { d with cores := d.cores.map fun (c : Nat × Core) =>
      (c.1, { c.2 with budget := if c.2.sliceFor = some p then c.2.budget.map (min d.now) else c.2.budget,
                       teams := c.2.teams.map fun (t : Nat × Team) =>
                         if t.2.part = p then (t.1, { t.2 with saving := t.2.saving.map fun v => { v with forced := true } }) else t }) }
/-- A slice end of the whole partition; one that comes while it is suspended, or while the saves of an earlier slice end or reclaim are
in progress, is ignored (R321). -/
def Device.endSlice (d : Device) (p kind : Nat) : Device :=
  let q := d.part p
  if !q.running || q.saving || !q.loans.isEmpty || q.resetting.isSome then d
  else
    ((d.modPart p fun q => { q with saving := true, drainKind := kind, stopped := q.stopped || kind == 1 }).sliceStart p
      (coresOf q.clusters.1 q.clusters.2)).sliceCheck p

/-- SLICE_TIMER_EXPIRY (R321): SLICE microseconds of package time since the partition last began running. -/
def execSliceTimerExpiry (part : Nat) (s : State) : Host.Outcome State Fault Refusal :=
  s.run fun _ d =>
    let q := d.part part
    let n := fld q.slice 31 0
    if n != 0 && q.runSince + 1000 * n ≤ d.clock.read d.now then d.endSlice part 0 else d
/-- END_SLICE (R321, R331). -/
def execEndSlice (part : Nat) (s : State) : Host.Outcome State Fault Refusal := s.run fun _ d => d.endSlice part 0

/-- Two cluster ranges meet. -/
def Part.meets (a b : Part) : Bool := a.clusters.1 ≤ b.clusters.2 && b.clusters.1 ≤ a.clusters.2
/-- Another running partition's range meets this one's. -/
def Device.crowded (d : Device) (p : Nat) : Bool := d.parts.any fun x => x.1 != p && x.2.running && x.2.meets (d.part p)
/-- RESUME (R321). -/
def Device.onResume (d : Device) (part : Nat) : Device :=
    let q := d.part part
    if !q.active || !q.suspended || q.resetting.isSome then d
    else if d.crowded part then d.modPart part fun q => { q with refused := true }
    else d.modPart part fun q => { q with suspended := false, refused := false, runSince := d.clock.read d.now }
def execResume (part : Nat) (s : State) : Host.Outcome State Fault Refusal := s.run fun _ d => d.onResume part

/-- A pack enters the slice-end handler: every thread that is not exited, together (R322). -/
def Pack.enterSlice (p : Pack) (shpc : W64) : Pack :=
  { p with threads := p.threads.map fun (x : Thread) =>
             if x.gone then x
             else { x with aside := some (x.status, x.pc, x.again, x.start), resume := none, handler := .slice,
                           fault := BitVec.ofNat 64 Code.sliceEnd.num, fpc := x.pc, pc := shpc, status := .ready, again := [], start := true },
           asideStack := p.stack, asideSerial := p.serial, asideHold := p.hold.filter Hold.saves, stack := [], serial := none, hold := none,
           inSlice := true }
/-- SLICE_END_ENTRY (R322, R328): at the pack's next boundary, with no fault pending and no thread in a grid handler. -/
def execSliceEndEntry (i : PackId) (s : State) : Host.Outcome State Fault Refusal :=
  s.run fun _ d =>
    match d.team i.core i.slot, d.pack i.core i.slot i.pack with
    | some t, some p =>
      let q := d.part t.part
      if d.sliceDue i.core t p && q.handles && !d.sliceOver i.core t && t.saving.isNone && !p.retired && p.lanes.all (· ≤ d.now) &&
         p.threads.all (fun (x : Thread) => x.gone || x.pend.isEmpty) then
        (d.modPack i.core i.slot i.pack (·.enterSlice (BitVec.ofNat 64 (fld q.reg 127 64)))).coop i.core
      else d
    | _, _ => d

/-- A forced stop of a pack: threads still in the slice-end handler resume at their `sys.fpc`, and what was set aside returns
(R323). A thread in a grid handler keeps its handler mode (R326). -/
def Pack.force (p : Pack) : Pack :=
  let p := { p with hold := p.hold.filter Hold.saves, granted := 0 }
  if p.inSlice then
    { p with threads := p.threads.map fun (x : Thread) => if x.handler == Handler.slice && x.resume.isNone then { x with resume := some x.fpc } else x }.unslice
  else { p with sliceDone := true }
/-- The waits that end before a save (R197, R302). -/
def Wait.beforeSave : Wait → Bool
  | .rret .. => true
  | .icinv .. => true
  | .tstamp .. => true
  | .values => true
  | _ => false
/-- A pack is at an instruction boundary: no bundle of it is on a lane, and no thread waits in the slice-end handler for an instruction
that completes before a save (R302, R323). -/
def Pack.atBoundary (p : Pack) (now : Nat) : Bool :=
  p.lanes.all (· ≤ now) && p.threads.all fun (x : Thread) => x.handler != .slice || (match x.status with | .atBarrier w => !w.beforeSave | _ => true)
/-- BUDGET_EXPIRY (R323): the counter is at zero and every pack of the partition on the core is at a boundary. -/
def execBudgetExpiry (core : Nat) (s : State) : Host.Outcome State Fault Refusal :=
  s.run fun _ d =>
    match (d.core core).sliceFor, (d.core core).budget with
    | some p, some b =>
      let mine := (d.core core).teams.filter fun (t : Nat × Team) => t.2.part == p && t.2.saving.isNone
      if b ≤ d.now && mine.all (fun (t : Nat × Team) => t.2.packs.all (·.atBoundary d.now)) then
        d.modCore core fun c => { c with budget := none, teams := c.teams.map fun (t : Nat × Team) =>
          if t.2.part = p && t.2.saving.isNone then
            (t.1, { t.2 with packs := t.2.packs.map Pack.force, saving := some { forced := true, drainStart := d.now, lost := false } })
          else t }
      else d
    | _, _ => d

/-! ### Saving (R268, R324, R325) -/

/-- A copy command that has performed no move (R337). -/
def Cmd.unmoved (c : Cmd) : Bool := c.data.isEmpty && c.done.isEmpty && !c.applied && c.chain == (0, 0, 0) && c.aborted.isNone
/-- The commands that a save keeps as images: (engine, command), 4 for a copy (R268, R337). -/
def Device.kept (d : Device) (core : Nat) (t : Team) : List (Nat × Cmd) :=
  d.images core t ++ (if (d.part t.part).drainKind = 1 then (t.copyQ.filter Cmd.unmoved).map fun c => (4, c) else [])

/-- SAVE_DRAIN_TIMEOUT (R324): after 20 µs the matrix commands in flight reset their engines and the copies
abort; a partition under reset drains by R334 instead. -/
def execSaveDrainTimeout (core slot : Nat) (s : State) : Host.Outcome State Fault Refusal :=
  s.run fun _ d =>
    match d.team core slot with
    | none => d
    | some t =>
      match t.saving with
      | none => d
      | some sv =>
        if (d.part t.part).resetting.isSome || sv.drainStart + 20 * Config.cyclesPerUs > d.now then d
        else
          let ids := (d.kept core t).map (·.2.id)
          let d := (List.range 4).foldl (fun d q =>
            if (d.engine core q).queue.any fun (c : Cmd) => c.grid == t.grid && c.team == t.index && !ids.contains c.id then d.resetEngine core q else d) d
          t.copyQ.foldl (fun d (c : Cmd) =>
            if ids.contains c.id || c.aborted.isSome then d else d.abort (.copy core slot c.id) .engineReset 0 0) d

/-- Bits of wait kind, argument, and record and element index of a thread's PC-table entry (R325); a limit's remaining cycles stand above
the phase (log 31). -/
def Wait.image (w : Wait) (now : Nat) : Nat × Nat :=
  match w with
  | .phase _ ph lim _ _ => (1, ph.toNat + (match lim with | some l => (l - now) % 2 ^ 32 | none => 0) * 2 ^ 32)
  | .arrival lim _ _ => (1, (match lim with | some l => (l - now) % 2 ^ 32 | none => 0) * 2 ^ 32)
  | .cwait q => (2, q.toNat)
  | .mwait .. => (3, 0)
  | .mwaitTile _ a _ => (3, a)
  | .cpyw q => (4, q.toNat)
  | .rwait e g => (5, ticketOf e g)
  | .sleep u => (6, (u - now) % 2 ^ 64)
  | .route r => (7, ticketOf r.entry r.gen)
  | .rsv .. => (8, 0)
  | _ => (0, 0)
def Status.code : Status → Nat
  | .ready => 0
  | .atJoin => 1
  | .parked .. => 2
  | .atBarrier _ => 3
  | .exited => 4
  | .stopped => 0
/-- A thread's PC-table entry (R325). -/
def Thread.image (x : Thread) (now : Nat) : List Byte :=
  let w := match x.status with | .atBarrier w => w.image now | _ => (0, 0)
  let site := match x.status with | .atBarrier w => w.site % 2 ^ 64 | _ => 0
  let f := match x.pend with | f :: _ => f.code.num + f.detail % 65536 * 2 ^ 8 + 2 ^ 24 | [] => 0
  let fpc := match x.pend with | f :: _ => (f.fpc.getD x.pc).toNat | [] => 0
  leBytes 64 (x.pc.toNat + (x.status.code + (x.handler != .off).toNat * 8 + w.1 * 16) * 2 ^ 64 + x.fault.toNat % 2 ^ 32 * 2 ^ 96 +
    w.2 * 2 ^ 128 + x.fpc.toNat * 2 ^ 192 + x.gen.toNat * 2 ^ 256 + site * 2 ^ 320 + f * 2 ^ 384 + fpc * 2 ^ 448)

/-- n bytes whose layout is the device's own (R325, R3): free, named by a draw. -/
def ownBytes (k n : Nat) : List Byte := (List.range n).map fun i => (Config.freeWord (k * 2 ^ 32 + i + 2 ^ 80)).truncate 8
def up256 (n : Nat) : Nat := (n + 255) / 256 * 256
/-- Bytes of a byte store from offset 0. -/
def Memory.dump (m : Memory) (n : Nat) : List Byte := (List.range n).map m.read

/-- A pack block (R325); the stack, the serial record, F and C have no stated layout. -/
def Pack.image (p : Pack) (now own : Nat) : List Byte :=
  p.threads.flatMap (·.image now) ++ ownBytes own 512 ++ p.scal.flatMap (fun v => leBytes 8 v.toNat) ++
  ((List.range 7).flatMap fun i => leBytes 4 (maskOf fun t => p.pred t (i + 1)).toNat) ++ List.replicate 228 0
/-- A tile and its block state (R325). -/
def Tile.image (t : Tile) (own : Nat) : List Byte :=
  ((List.range 4096).flatMap fun i => leBytes 4 ((aget t.elems i).getD 0).toNat) ++ ownBytes own 1024

/-- The sizes that lay out a team's image. -/
structure ImageShape where
  packs : Nat
  rows  : Nat
  scratch : Nat
  tiles : Nat
  shadows : Nat
  priv  : Nat
  cmds  : Nat
def ImageShape.names (z : ImageShape) : Nat := 256 + 3328 * z.packs
def ImageShape.recs (z : ImageShape) : Nat := z.names + 256 * z.rows
def ImageShape.scr (z : ImageShape) : Nat := z.recs + 1024
def ImageShape.acc (z : ImageShape) : Nat := z.scr + up256 z.scratch
def ImageShape.prv (z : ImageShape) : Nat := z.acc + 17408 * (z.tiles + z.shadows)
def ImageShape.own (z : ImageShape) : Nat := z.prv + up256 z.priv
def ImageShape.size (z : ImageShape) : Nat := z.own + 64 * z.cmds
def Grid.shape (g : Grid) (t : Team) (cmds : Nat) : ImageShape :=
  let r := g.record
  { packs := t.packs.length, rows := (t.packs.map fun (p : Pack) => p.entries.length).foldl (· + ·) 0, scratch := lrScratch r, tiles := lrTiles r,
    shadows := lrShadow r, priv := 32 * lrPacks r * lrPriv r, cmds := cmds }

/-- The image of a team (R325); `own` names the bytes whose layout is the device's own. -/
def Team.image (t : Team) (g : Grid) (forced lost : Bool) (cmds own now : Nat) : List Byte :=
  let z := g.shape t cmds
  let guards := (List.range 16).foldl (fun a i => a + (match t.guards.getD i .unresolved with | .unresolved => 0 | .isTrue => 1 | .isFalse => 2) * 4 ^ i) 0
  let head := forced.toNat + lost.toNat * 2 + (t.packs.length - 1) * 2 ^ 35 + t.index * 2 ^ 40 + t.grid % 2 ^ 64 * 2 ^ 64 + z.rows * 2 ^ 160 +
    cmds * 2 ^ 208 + t.quota * 2 ^ 224 + t.spn.toNat * 2 ^ 256 + t.cmp.toNat * 2 ^ 288 + t.iss.toNat * 2 ^ 320 + t.doneSeq.toNat * 2 ^ 352 +
    t.miss % 2 ^ 32 * 2 ^ 384 + guards * 2 ^ 416
  leBytes 256 head ++ (imap (fun i (p : Pack) => p.image now (own + i)) 0 t.packs).flatten ++ (t.packs.flatMap fun (p : Pack) => p.entries.flatten) ++
  (t.recs.flatMap fun r => leBytes 32 r.toNat) ++ t.scratch.dump (up256 z.scratch) ++
  (imap (fun i (x : Tile) => x.image (own + 32 + i)) 0 (t.tiles.take z.tiles)).flatten ++
  (imap (fun i (x : Shadow) => x.tile.image (own + 48 + i)) 0 (t.shadows.take z.shadows)).flatten ++
  t.priv.dump (up256 z.priv) ++ ownBytes (own + 64) (64 * cmds)

/-- A pack's rows as a save leaves them: those with a count, each resident, held by no engine; the pack waits on no lane (R80). Its last
bundle start and its yield are no part of an image (R38), and a restored pack has none (log 101). -/
def Pack.freeze (p : Pack) : Pack :=
  { p with rows := (p.rows.filter Row.live).map fun (r : Row) => { r with held := 0, busy := 0, spent := 0, evLo := none, evHi := none },
           hold := none, granted := 0, elder := false, lanes := [], noEvict := false, restorePage := none, lastStart := none, yielded := false, rotated := false,
           sliceDone := false, threads := p.threads.map fun (x : Thread) => { x with lane := 0 } }
/-- Reads a pack's evicted rows back from the spill area; an entry that cannot be read leaves the row's value as it was evicted (R80,
log 32). -/
def Device.unspill (d : Device) (m : Memory) (core : Nat) (t : Team) (i : Nat) (p : Pack) : Pack :=
  (List.range p.spilled).foldl (fun (p : Pack) _ =>
    match p.lastEvicted with
    | none => p
    | some (id, high, k) =>
      match (d.placeBlock m (ridgeOf core) t.part (d.spillEntry t i k) 256 0).2 with
      | .ok ps => p.putBack id high (EntryF.ofBytes (d.readParts m ps))
      | .error _ => p.modRow id fun r => if high then { r with evHi := none } else { r with evLo := none }) p

/-- Everything that a team's save waits for is done (R197, R268, R302, R324). -/
def Device.saveReady (d : Device) (core slot : Nat) (t : Team) : Bool :=
  let ids := (d.kept core t).map (·.2.id)
  t.saving.isSome && !t.stopping && d.drained core slot t && (d.teamCmds core t).all (fun (c : Cmd) => ids.contains c.id) &&
  t.packs.all fun (p : Pack) => p.lanes.all (· ≤ d.now) && p.threads.all fun (x : Thread) =>
    match x.status with
    | .atBarrier w => !w.beforeSave || (w == .values && !x.pend.isEmpty)      -- a fault that waits ends it after the restore (R316, R324)
    | _ => true

/-- Saved teams of a grid, in ascending team index (R310). -/
def insertSaved (s : Saved) : List Saved → List Saved
  | [] => [s]
  | x :: l => if s.team.index < x.team.index then s :: x :: l else x :: insertSaved s l

/-- The save slot of a team (R324); on a core below the first of the range the number is negative (log 55). -/
def Part.saveSlot (q : Part) (core slot : Nat) : Nat :=
  let n : Int := (core - 4 * q.clusters.1 : Int) * 16 + slot
  ((fld q.reg 575 512 : Int) + n * (fld q.reg 607 576 * 4096 : Nat)).toNat
/-- TEAM_SAVE (R324, R325). -/
def execTeamSave (core slot : Nat) (s : State) : Host.Outcome State Fault Refusal :=
  s.run fun m d =>
    match d.team core slot with
    | none => d
    | some t =>
      match d.grid t.grid, t.saving with
      | some g, some sv =>
        if g.terminated || !d.saveReady core slot t then d
        else
          let q := d.part t.part
          let cmds := (d.kept core t).map fun x => (x.1, { x.2 with rows := [], leave := false, parked := none, pins := [], started := false })
          let t := { t with packs := (imap (fun i (p : Pack) => (d.unspill m core t i p).freeze) 0 t.packs), evict := none, saving := none, copyQ := [] }
          let z := g.shape t cmds.length
          let zs := fld q.reg 607 576 * 4096
          let base := q.saveSlot core slot
          let pc := match t.packs with | p :: _ => BitVec.ofNat 64 (p.pcOf 0) | [] => 0
          if z.size > zs then d.terminate t.grid (d.recOf ⟨core, slot, 0, 0⟩ .spillLimit 0 pc 0 0)
          else
            let own := d.draws
            let d := { d with draws := d.draws + 128 }.wrKey0 base (t.image g sv.forced sv.lost cmds.length own d.now)
            let sav : Saved := ⟨t, base, base + z.scr, d.now, sv.lost, cmds, own⟩
            (d.removeTeam core slot).modGrid t.grid fun g => { g with saved := insertSaved sav g.saved }
      | _, _ => d

/-! ### Restoring (R230, R310, R326) -/

/-- A status after a restore: waits with a limit go on with the cycles that remained at the save (R137, R197). -/
def Wait.later (w : Wait) (k : Nat) : Wait :=
  match w with
  | .phase o ph lim rs s => .phase o ph (lim.map (· + k)) rs s
  | .arrival lim rs s => .arrival (lim.map (· + k)) rs s
  | .sleep u => .sleep (u + k)
  | w => w
def Status.later (s : Status) (k : Nat) : Status :=
  match s with
  | .atBarrier w => .atBarrier (w.later k)
  | s => s
def Handler.of (b : Bool) : Handler := if b then .fault else .off

/-- A thread as its PC-table entry gives it (R325, R326). Whether its first fetch is still to come is kept (log 106). -/
def Thread.fromImage (x : Thread) (bs : List Byte) (k : Nat) : Thread :=
  let e := leNat bs
  let st := bits e 66 64
  { x with pc := BitVec.ofNat 64 (bits e 63 0), handler := Handler.of (bit e 67), fault := BitVec.ofNat 64 (bits e 127 96),
           fpc := BitVec.ofNat 64 (bits e 255 192), gen := BitVec.ofNat 64 (bits e 319 256),
           status := if st = x.status.code then x.status.later k else if st = 4 then .exited else .ready,
           pend := if bit e 408 then x.pend else x.pend.drop 1 }
/-- Rows as their entries give them, in ascending RANK; an entry with HIGH set gives a pair's high row, at the rank after its low one (R77,
R80). A row has the model's number of the saved row at its place, and the errors of its slots. -/
def rowsFrom (old : List Row) (next : Nat) (es : List EntryF) : List Row :=
  let sorted := (List.range 256).flatMap fun k => es.filter (·.rank == k)
  imap (fun k (lo : EntryF) =>
    let hi := sorted.find? fun h => h.high && h.name == lo.name && h.rank == lo.rank + 1
    { id := (match old[k]? with | some r => r.id | none => next + k), name := lo.name, wide := lo.wide, lo := lo.vals,
      hi := (match hi with | some h => h.vals | none => List.replicate 32 0), count := lo.count, bound := lo.bound, cur := lo.cur, held := 0,
      busy := 0, spent := 0, evLo := none, evHi := none, bad := (match old[k]? with | some r => r.bad | none => 0), owed := [] })
    0 (sorted.filter (!·.high))
/-- A pack as its block and its names give it. -/
def Pack.fromImage (p : Pack) (block names : List Byte) (k : Nat) : Pack :=
  { p with threads := imap (fun t (x : Thread) =>
             let y := x.fromImage ((block.drop (64 * t)).take 64) k
             { y with preds := BitVec.ofNat 8 ((List.range 7).foldl (fun a i => if bit (leNat ((block.drop (3072 + 4 * i)).take 4)) t then a + 2 ^ (i + 1) else a) 0) })
             0 p.threads,
           scal := imap (fun i _ => BitVec.ofNat 64 (leNat ((block.drop (2560 + 8 * i)).take 8))) 0 p.scal,
           rows := rowsFrom p.rows p.nextId ((chunk256 p.entries.length names).map EntryF.ofBytes), nextId := p.nextId + p.entries.length }
/-- The packs in order, their names one after another. -/
def packsFrom : List Pack → List Byte → List Byte → Nat → List Pack
  | [], _, _, _ => []
  | p :: ps, blocks, names, k =>
    p.fromImage (blocks.take 3328) names k :: packsFrom ps (blocks.drop 3328) (names.drop (256 * p.entries.length)) k
/-- A byte store from its bytes. -/
def Memory.undump (bs : List Byte) : Memory := Memory.setBytes [] 0 bs
/-- A tile from its image: values undefined where the block state, or a command image, has been altered (R325). -/
def Tile.fromImage (t : Tile) (bs : List Byte) (own : Nat) (altered : Bool) : Tile :=
  { t with elems := (List.range 4096).filterMap fun i =>
      let v := if altered || bs.drop 16384 != ownBytes own 1024 then (Config.freeWord (own * 4096 + i + 2 ^ 96)).truncate 32
               else BitVec.ofNat 32 (leNat ((bs.drop (4 * i)).take 4))
      if v = 0 then none else some (i, v) }

/-- The team that a restore writes back (R326). -/
def Saved.thaw (s : Saved) (d : Device) (m : Memory) (g : Grid) : Team :=
  let t := s.team
  let z := g.shape t s.cmds.length
  let at_ := fun o n => (List.range n).map fun i => d.rdSeen m (s.base + o + i)
  let altered := at_ z.own (64 * s.cmds.length) != ownBytes (s.own + 64) (64 * s.cmds.length)
  let h := leNat (at_ 0 256)
  { t with packs := packsFrom t.packs (at_ 256 (3328 * z.packs)) (at_ z.names (256 * z.rows)) (d.now - s.at_),
           recs := imap (fun i _ => BitVec.ofNat 256 (leNat (at_ (z.recs + 32 * i) 32))) 0 t.recs,
           scratch := Memory.undump (at_ z.scr z.scratch),
           tiles := imap (fun i (x : Tile) => if i < z.tiles then x.fromImage (at_ (z.acc + 17408 * i) 17408) (s.own + 32 + i) altered else x) 0 t.tiles,
           shadows := imap (fun i (x : Shadow) => if i < z.shadows then
             { x with tile := x.tile.fromImage (at_ (z.acc + 17408 * (z.tiles + i)) 17408) (s.own + 48 + i) altered } else x) 0 t.shadows,
           priv := Memory.undump (at_ z.prv z.priv),
           quota := bits h 255 224, spn := BitVec.ofNat 32 (bits h 287 256),
           iss := BitVec.ofNat 32 (bits h 351 320), doneSeq := BitVec.ofNat 32 (bits h 383 352), miss := bits h 415 384,
           guards := (List.range 16).map fun i => match bits h (417 + 2 * i) (416 + 2 * i) with | 1 => .isTrue | 2 => .isFalse | _ => .unresolved }

/-- Packs that have not retired take fresh stamps and home quadrants in order (R20, R36, R326). -/
def freshPacks : List Pack → List Nat → Nat → List Pack
  | [], _, _ => []
  | p :: ps, qs, n => if p.retired then p :: freshPacks ps qs n else { p with quad := qs.headD 0, stamp := n } :: freshPacks ps qs.tail (n + 1)

/-- A status whose page was resolved with a fault (R317): the code. -/
def Status.failed : Status → Option Code
  | .parked _ k true => parkCode (k - 16)
  | _ => none
/-- Threads whose parked page was resolved with a fault take it (R317). -/
def Device.takeFailed (d : Device) (ids : List ThreadId) : Device :=
  ids.foldl (fun d i =>
    match d.thread i with
    | some x =>
      (match x.status.failed, x.status with
       | some c, .parked va _ _ => d.raise i c 0 x.pc va false true
       | _, _ => d)
    | none => d) d

/-- The command images of engine q, to be queued again (R268, R326). -/
def Saved.cmdsOf (s : Saved) (d : Device) (q core slot : Nat) : List Cmd :=
  (s.cmds.filter fun x => x.1 == q).map fun x => { x.2 with core := core, slot := slot, arrived := d.now }

/-- A saved team enters a core (R326). -/
def Device.restoreOn (d : Device) (m : Memory) (gid : Nat) (s : Saved) (core : Nat) : Device :=
  match d.grid gid with
  | none => d
  | some g =>
    match g.freeSlot with
    | none => d
    | some slot =>
      let i := (d.core core).freeIndex
      let t := s.thaw d m g
      let n := (t.packs.filter fun (p : Pack) => !p.retired).length
      let t := { t with packs := freshPacks t.packs ((d.core core).quadrants n) (d.core core).age, spillSlot := slot,
                        copyQ := s.cmdsOf d 4 core i }
      let back := fun (d : Device) (q : Nat) (e : Engine) => { e with queue := e.queue ++ s.cmdsOf d q core i }
      let d := d.modCore core fun c => { c with age := c.age + n, teams := aset c.teams i t, engines := imap (back d) 0 c.engines }
      let d := d.modGrid gid fun g => { g with slots := insertNat slot g.slots,
                                               saved := g.saved.filter fun (y : Saved) => y.team.index != s.team.index }
      let d := if s.lost then d.post .none (d.teamIds core i) .engineReset 0 none 0 else d
      (d.takeFailed (d.teamIds core i)).moveCursor g.fe core

/-- The clusters on which saved teams of a group of four may be placed (R311): where a team of the group is resident, its cluster. -/
def Device.groupCluster (d : Device) (fe gid : Nat) (g : Grid) (group : Nat) : Option Nat :=
  match d.teams.find? fun x => x.2.2.grid == gid && x.2.2.index / 4 == group with
  | some x => some (clusterOf x.1)
  | none => ((d.cursorCores fe).map clusterOf).dedup.find? fun c => (List.range 4).all fun j => d.coreFits g (4 * c + j)

/-- TEAM_RESTORE (R310, R326): the saved teams of a grid come before its new ones, in ascending index. -/
def execTeamRestore (fe : Nat) (s : State) : Host.Outcome State Fault Refusal :=
  s.run fun m d =>
    if !d.serving fe then d
    else
      let d := d.unhold fe
      match d.nextGrid fe with
      | none => d
      | some (gid, g) =>
        match g.saved with
        | [] => d
        | x :: _ =>
          if g.fours then
            match d.groupCluster fe gid g (x.team.index / 4) with
            | none => d
            | some c =>
              let group := g.saved.filter fun (y : Saved) => y.team.index / 4 == x.team.index / 4
              if group.all (fun (y : Saved) => d.coreFits g (4 * c + y.team.index % 4)) && g.slots.length + group.length ≤ lrSlots g.record then
                group.foldl (fun d (y : Saved) => d.restoreOn m gid y (4 * c + y.team.index % 4)) d
              else d
          else
            match (d.cursorCores fe).find? (d.coreFits g) with
            | some c => d.restoreOn m gid x c
            | none => d

/-! ### Walks of parked threads, and resolutions (R51, R181, R317) -/

/-- The threads of a partition on a ridge that wait for a walk of a page. -/
def Device.walkers (d : Device) (ridge part va kind : Nat) : List ThreadId :=
  d.teams.flatMap fun x =>
    if x.2.2.part = part && ridgeOf x.1 = ridge then
      (d.teamIds x.1 x.2.1).filter fun i => match d.thread i with
        | some y => (match y.status with | .parked a k w => w && k == kind && a / 65536 == va / 65536 | _ => false)
        | none => false
    else []
/-- The threads park afresh, with a new record (R317). -/
def Device.parkAgain (d : Device) (ridge part va kind : Nat) (ids : List ThreadId) : Device :=
  match ids with
  | [] => d
  | i :: _ =>
    let pc := match d.thread i with | some x => x.pc | none => 0
    ids.foldl (fun d i => d.modThread i fun x => { x with status := match x.status with | .parked a k _ => .parked a k false | s => s })
      (d.parkRecord part ridge va kind (d.recOf i .pageNotPresent 0 pc 0 0))

/-- TLB_MISS_WALK (R51, R181, R317): the walk for threads parked on a page whose resolution is a retry. They execute their instruction
again, or park afresh; where the resolution was a fault they take it. -/
def execTlbMissWalk (ridge part va kind : Nat) (s : State) : Host.Outcome State Fault Refusal :=
  s.run fun m d =>
    match d.walkers ridge part va kind with
    | [] => d
    | ids =>
      if kind ≥ 16 then d.takeFailed ids
      else
        match d.translate m ridge part va kind with
        | (d, .miss) => d.parkAgain ridge part va kind ids
        | (d, _) => ids.foldl (fun d i => d.modThread i fun x => { x with status := .ready }) d

/-- WALK_STOPPED (R181): a replaced routine runs more than 65,536 instructions; the walk ends with no leaf, its writes made. The shipped
routine never does (R183). -/
def execWalkStopped (ridge part va kind : Nat) (s : State) : Host.Outcome State Fault Refusal :=
  s.run fun m d =>
    if (fld (d.part part).reg 63 0 = 0 && (d.ridge ridge).asShipped) || (d.walkers ridge part va kind).isEmpty then d
    else
      match Device.runWalker m ridge 65536 { d with draws := d.draws + 1 } (d.walkEntry part va kind) with
      | (d, .stopped) => d.parkAgain ridge part va kind (d.walkers ridge part va kind)
      | _ => d

/-- A status under the resolution of a page (R317): a retry, or a fault that is taken when the status is in force. -/
def Status.resolve (s : Status) (page n : Nat) : Status :=
  match s with
  | .parked a k w => if a / 65536 * 65536 = page && k < 16 then (if n = 0 then .parked a k true else .parked a (16 + n) true) else .parked a k w
  | .atBarrier (.route r) => .atBarrier (.route { r with stage := if r.stage = 256 + page then 2 + n else r.stage })
  | s => s
def Thread.resolve (x : Thread) (page n : Nat) : Thread :=
  { x with status := x.status.resolve page n, aside := x.aside.map fun a => (a.1.resolve page n, a.2) }
def Team.resolve (t : Team) (page n : Nat) : Team :=
  { t with packs := t.packs.map fun (p : Pack) => { p with threads := p.threads.map fun (x : Thread) => x.resolve page n } }

/-- Every queued command of a partition, with its name. -/
def Device.allCmds (d : Device) (part : Nat) : List (CmdId × Cmd) :=
  (d.cores.flatMap fun (x : Nat × Core) =>
    ((imap (fun q (e : Engine) => e.queue.map fun c => (CmdId.matrix x.1 q c.id, c)) 0 x.2.engines).flatten) ++
    (x.2.teams.flatMap fun (t : Nat × Team) => t.2.copyQ.map fun c => (CmdId.copy x.1 t.1 c.id, c))).filter fun y =>
      match d.grid y.2.grid with | some g => g.part == part | none => false

/-- RESOLVE (R317): outcome 0 retries, 0x0A and 0x0B are the fault; other values are ignored (R331). -/
def Device.onResolve (d : Device) (part va outcome : Nat) : Device :=
    if outcome != 0 && (parkCode outcome).isNone then d
    else
      let page := va / 65536 * 65536
      let code := (parkCode outcome).getD .pageNotPresent
      let d := d.modPart part fun q => { q with parks := q.parks.filter fun (x : Park) => x.page != page }
      -- threads, resident and saved
      let d := { d with
        cores := d.cores.map fun (c : Nat × Core) => (c.1, { c.2 with teams := c.2.teams.map fun (t : Nat × Team) =>
          if t.2.part = part then (t.1, t.2.resolve page outcome) else t }),
        grids := d.grids.map fun (g : Nat × Grid) => if g.2.part = part then
          (g.1, { g.2 with saved := g.2.saved.map fun (s : Saved) => { s with team := s.team.resolve page outcome } }) else g,
        submits := d.submits.map fun (y : Submit) => if y.grid / 2 ^ 60 = part && y.waiting == some page then
          { y with waiting := if outcome = 0 then none else some outcome } else y }
      let d := d.modFront part fun f => { f with queues := f.queues.map fun (q : Queue) => if q.waiting = some page then
        { q with waiting := if outcome = 0 then none else some outcome } else q }
      let d := if outcome = 0 then d else (d.teams.filter fun x => x.2.2.part == part).foldl (fun d x => d.takeFailed (d.teamIds x.1 x.2.1)) d
      -- engine commands
      let d := (d.allCmds part).foldl (fun d (x : CmdId × Cmd) =>
        match x.2.parked with
        | some (p, _) => if p = page then (if outcome = 0 then d.modCmd x.1 fun c => { c with parked := none } else d.fail x.1 x.2 code va) else d
        | none => d) d
      -- evictions and restores of rows
      let d := (d.teams.filter fun x => x.2.2.part == part).foldl (fun d x =>
        let d := match x.2.2.evict with
          | some e => if e.page = some page then
              (if outcome = 0 then d.modTeam x.1 x.2.1 fun t => { t with evict := some { e with page := none } } else d.evictFault x.1 x.2.1 e code) else d
          | none => d
        (List.range x.2.2.packs.length).foldl (fun d i =>
          match d.pack x.1 x.2.1 i with
          | some p => if p.restorePage = some page then
              (if outcome = 0 then d.modPack x.1 x.2.1 i fun p => { p with restorePage := none } else d.restoreFault ⟨x.1, x.2.1, i⟩ code) else d
          | none => d) d) d
      -- stores of combined rows
      d.cores.foldl (fun d (c : Nat × Core) =>
        (List.range 32).foldl (fun d i =>
          let e := d.entry c.1 i
          if e.grid / 2 ^ 60 != part then d
          else if outcome = 0 then d.modEntry c.1 i fun e => { e with parked := e.parked.map fun (x : Nat × Nat) => if x.2 = page then (x.1, page + 1) else x }
          else (e.parked.filter fun (x : Nat × Nat) => x.2 == page).foldl (fun d (x : Nat × Nat) => d.rowFault c.1 i x.1 code va) d) d) d
def execResolve (part va outcome : Nat) (s : State) : Host.Outcome State Fault Refusal := s.run fun _ d => d.onResolve part va outcome

/-! ### Pins and invalidations (R283) -/

/-- The commands on a ridge that hold a pin on a page. -/
def Device.pinned (d : Device) (ridge part va : Nat) : List (CmdId × Cmd) :=
  (d.allCmds part).filter fun x => ridgeOf x.2.core == ridge && x.2.pins.any fun p => p.1 / 2 ^ pageBits p.2 == va / 2 ^ pageBits p.2
/-- The translation leaves a ridge's TLB. -/
def Device.dropTlb (d : Device) (ridge part va : Nat) : Device :=
  d.modRidge ridge fun r => { r with tlb := r.tlb.filter (fun e => !tlbHit e part va), stale := r.stale.filter fun x => x.1 != va * 16 + part }

/-- TLB_INVALIDATION (R181, R283): each ridge drops the translation of a page; it waits while commands hold pins on the page, which they
take where PIN = 1. -/
def execTlbInvalidation (part va : Nat) (s : State) : Host.Outcome State Fault Refusal :=
  s.run fun _ d =>
    (d.ridges.map (·.1)).foldl (fun d r =>
      if (d.pinned r part va).isEmpty then d.dropTlb r part va
      else if (d.ridge r).stale.any fun x => x.1 == va * 16 + part then d
      else d.modRidge r fun x => { x with stale := (va * 16 + part, d.now) :: x.stale }) d

/-- PIN_TIMEOUT (R283): 1 ms after the invalidation began, the commands that still hold the pin abort with `PIN_REVOKED` and it
completes. -/
def execPinTimeout (part va : Nat) (s : State) : Host.Outcome State Fault Refusal :=
  s.run fun _ d =>
    (d.ridges.map (·.1)).foldl (fun d r =>
      if (d.ridge r).stale.any fun x => x.1 == va * 16 + part && x.2 + Config.cyclesPerMs ≤ d.now then
        ((d.pinned r part va).foldl (fun d (x : CmdId × Cmd) => d.fail x.1 x.2 .pinRevoked va) d).dropTlb r part va
      else d) d

/-! ### Debugging (R318) -/

/-- DBGREL (R318, R331): a thread stopped by `DEBUG_BREAK` goes on at NextPC, or at DBGPC. -/
def Device.onDbgrel (d : Device) (part : Nat) (i : ThreadId) (atPc : Bool) : Device :=
    match d.team i.core i.slot, d.thread i with
    | some t, some x =>
      if t.part = part && x.status = .stopped then
        d.modThread i fun x => { x with status := .ready, pc := if atPc then (d.part part).dbgPc else nextPc x.pc }
      else d
    | _, _ => d
def execDbgrel (part : Nat) (i : ThreadId) (atPc : Bool) (s : State) : Host.Outcome State Fault Refusal := s.run fun _ d => d.onDbgrel part i atPc

end Sys2Proof.Machine
end

