-- ==== Sys2Proof/Machine/Host.lean ====
section
/-! DEFINITION. What hosts and system software do: host requests and atomics, resets, package time, registration, queues, stations,
loans, migration, sampling and counters (R25, R32, R33, R189, R229, R237, R269 to R271, R303, R304, R321, R329 to R342, R354, R357). -/

namespace Sys2Proof.Machine

open Sys2Proof

/-! ### Host requests (R189, R229, R237) -/

/-- The col of a port (R25); there are 64 ports. -/
def portDie (port : Nat) : Nat := if port < 32 then 8 else 9
/-- A request that enters at a port reaches the device's dies: the port's col is TRUSTED (R345). -/
def Device.portUp (d : Device) (port : Nat) : Bool := d.trusted (portDie port)
/-- The completion of a host request at its port: 0 an error, otherwise 1 + the value read, little-endian. -/
def Device.reply (d : Device) (port v : Nat) : Device := { d with hostReply := aset d.hostReply port v }
/-- A physical range of view 0 (R186, R189). -/
def viewOk (a n : Nat) : Bool :=
  (List.range (n / 128 + 2)).all fun i =>
    let x := if i = 0 then a else if i * 128 < n then a + i * 128 else a + n - 1
    x < 0x030000000000 && (match regionOf x with | .nothing => false | _ => true)
/-- The fault of an access of view 0: it carries key 0 (R187, R188, R192, R354). -/
def Device.viewFault (d : Device) (a n : Nat) (reads : Bool) : Bool :=
  (List.range (n / 128 + 2)).any fun i =>
    let x := if i = 0 then a else if i * 128 < n then a / 128 * 128 + i * 128 else a + n - 1
    let whole := a ≤ x / 128 * 128 && x / 128 * 128 + 128 ≤ a + n && !reads
    (match homeRidge x false 0, regionOf x with
     | _, .homed r => !d.trusted r
     | some r, _ => !d.trusted r
     | none, _ => false) || d.alias x 1 0 whole || (d.isBad x 1 && !whole)
/-- Reads n bytes for a host; none is an error completion. -/
def Device.hostRead (d : Device) (m : Memory) (view a n : Nat) : Option (Device × List Byte) :=
  if view = 0 then
    if viewOk a n && !d.viewFault a n true then some (d, (List.range n).map fun i => d.rdSeen m (a + i)) else none
  else
    match d.vread m (d.feRidge (view - 1)) (view - 1) a n with
    | (d, .ok bs) => some (d, bs)
    | (_, .error _) => none
def Device.hostWrite (d : Device) (m : Memory) (view a : Nat) (bs : List Byte) : Option Device :=
  if view = 0 then
    if viewOk a bs.length && !d.viewFault a bs.length false then some (d.wrKey0 a bs) else none
  else
    match d.vwrite m (d.feRidge (view - 1)) (view - 1) a bs with
    | (d, .ok _) => some d
    | (_, .error _) => none

/-- A host load or store of memory (R25, R189, R237): performed as it arrives; an error completion has no effect. A request at a col that
is not TRUSTED ends in one (log 74). -/
def Device.hostMemory (d : Device) (m : Memory) (r : HostReq) : Device :=
    if r.port ≥ 64 then d
    else if r.view > 16 || !d.portUp r.port then d.reply r.port 0
    else if r.write then
      (match d.hostWrite m r.view r.addr r.data with
       | some d => d.reply r.port 1
       | none => d.reply r.port 0)
    else
      match d.hostRead m r.view r.addr r.len with
      | some (d, bs) => d.reply r.port (1 + leNat bs)
      | none => d.reply r.port 0

/-- The operations and widths of R229. -/
def hostAtomicOk (r : HostAtomic) : Bool := (r.width == 32 || r.width == 64) && r.op ≤ 12 && r.view ≤ 16
/-- The page of a host atomic has APL 0b01 (R208, R229). -/
def Device.hostApl (d : Device) (m : Memory) (r : HostAtomic) : Bool :=
  r.view != 0 && (match (d.translate m (d.feRidge (r.view - 1)) (r.view - 1) r.addr 2).2 with | .ok _ w _ => leafApl w == 1 | _ => false)
/-- HOST_ATOMIC_READ (R229): the first of two moves. -/
def execHostAtomicRead (r : HostAtomic) (s : State) : Host.Outcome State Fault Refusal :=
  s.run fun m d =>
    if r.port ≥ 64 then d
    else if !hostAtomicOk r || !d.portUp r.port then d.reply r.port 0
    else if d.hostApl m r then d
    else
      match d.hostRead m r.view r.addr (r.width / 8) with
      | some (d, bs) => { d with hostAtoms := d.hostAtoms ++ [{ req := r, old := BitVec.ofNat 64 (leNat bs) }] }
      | none => d.reply r.port 0
/-- The write of a host atomic over the value read: the reply is the old value. -/
def Device.hostAtomEnd (d : Device) (m : Memory) (r : HostAtomic) (old : Nat) : Device :=
  match d.hostWrite m r.view r.addr (leBytes (r.width / 8) (atomNew r.op r.width old (r.value.toNat % 2 ^ r.width) (r.cmp.toNat % 2 ^ r.width))) with
  | some d => d.reply r.port (1 + old)
  | none => d.reply r.port 0
/-- HOST_ATOMIC_WRITE (R208, R229): the second move, or the whole atomic under APL 0b01. -/
def execHostAtomicWrite (r : HostAtomic) (s : State) : Host.Outcome State Fault Refusal :=
  s.run fun m d =>
    if r.port ≥ 64 then d
    else if !hostAtomicOk r || !d.portUp r.port then d.reply r.port 0
    else if d.hostApl m r then
      match d.hostRead m r.view r.addr (r.width / 8) with
      | some (d, bs) => d.hostAtomEnd m r (leNat bs)
      | none => d.reply r.port 0
    else
      match d.hostAtoms.find? fun x => x.req == r with
      | none => d
      | some x => { d with hostAtoms := d.hostAtoms.erase x }.hostAtomEnd m r x.old.toNat

/-! ### Module reset, package time and keys (R33, R340, R345, R354) -/

/-- MRESET (R33, R344, R345): the device as it stands right after a module reset; memory keeps its bytes and no line carries a key (log
33), and a die's one image slot holds what it held. -/
def Device.onMreset (d : Device) : Device :=
  { Device.reset with draws := d.draws, dies := d.dies.map fun (x : Die) => { Die.fresh with image := x.image } }
def execMreset (s : State) : Host.Outcome State Fault Refusal := s.run fun _ d => d.onMreset

/-- The times of every counter brought up to this cycle. -/
def Device.settleCounters (d : Device) : Device :=
  { d with parts := d.parts.map fun (p : Nat × Part) => (p.1, { p.2 with counters := p.2.counters.map fun c => (c.1, c.2.at_ p.1 c.1 d.clock d.now) }) }
/-- PTPSTEP (R33, R340): a signed step, at all cores in one instant. -/
def Device.onPtpstep (d : Device) (ns : BitVec 64) : Device := { d.settleCounters with clock := { d.clock with base := wrap 64 ((d.clock.read d.now : Int) + ns.toInt), at_ := d.now } }
def execPtpstep (ns : BitVec 64) (s : State) : Host.Outcome State Fault Refusal := s.run fun _ d => d.onPtpstep ns
/-- The package clock's port and whether PTP is enabled (R33). -/
def Device.ptpOn (d : Device) (port : Nat) : Bool := bit d.module.ptpCfg.toNat 8 && fld d.module.ptpCfg 5 0 == port
/-- PTP_EVENT_MESSAGE (R340): a timestamp at ingress; on the clock's port the message disciplines its rate, by amounts that the manual
leaves to IEEE 1588 (log 34). -/
def execPtpEventMessage (port : Nat) (oneStep : Bool) (origin : Nat) (s : State) : Host.Outcome State Fault Refusal :=
  s.run fun _ d =>
    let _ := (oneStep, origin)
    if port ≥ 64 then d
    else
      let d := { d with module := { d.module with ingress := aset d.module.ingress port d.time } }
      if d.ptpOn port then
        let r := Config.slew d.draws
        { d.settleCounters with draws := d.draws + 1, clock := { base := d.clock.read d.now, at_ := d.now, num := r.1, den := r.2 + 1 } }
      else d
/-- PTP_EVENT_MESSAGE_EGRESS (R340): a timestamp at egress, at every port. -/
def execPtpEventMessageEgress (port : Nat) (s : State) : Host.Outcome State Fault Refusal :=
  s.run fun _ d => if port < 64 then { d with module := { d.module with egress := aset d.module.egress port d.time } } else d

/-- KEYREGEN (R33, R354): lines that carry the identifier read undefined values until each is written whole. -/
def Device.onKeyregen (d : Device) (key : Nat) : Device :=
    if key = 0 || key > 63 || d.parts.any (fun p => p.2.active && bit (fld p.2.reg 319 256) key) then d
    else
      { d with draws := d.draws + 1,
               lostKeys := (d.keys.filter (·.2 == key)).foldl (fun l x => aset l x.1 d.draws) d.lostKeys }
def execKeyregen (key : Nat) (s : State) : Host.Outcome State Fault Refusal := s.run fun _ d => d.onKeyregen key

/-! ### Resets of a partition (R331, R334) -/

def powerOfTwo (n : Nat) : Bool := n != 0 && n &&& (n - 1) == 0
/-- Step 1 of R334: the front end stops, and every team of the partition stops and drains. -/
def Device.startReset (d : Device) (p kind : Nat) : Device :=
  let q := d.part p
  if q.resetting.isSome then d
  else
    { d.modPart p fun q => { q with resetting := some d.now, resetDone := false, drainKind := kind, saving := false, loans := [] } with
      cores := d.cores.map fun (c : Nat × Core) =>
        (c.1, { c.2 with teams := c.2.teams.map fun (t : Nat × Team) => if t.2.part = p then (t.1, t.2.stop d.now) else t,
                         sliceFor := if c.2.sliceFor = some p then none else c.2.sliceFor,
                         budget := if c.2.sliceFor = some p then none else c.2.budget }) }
/-- PARTITION_RESET (R331, R334): of an inactive partition too. -/
def Device.onPartitionReset (d : Device) (part : Nat) : Device := if part < 16 then d.startReset part 3 else d
def execPartitionReset (part : Nat) (s : State) : Host.Outcome State Fault Refusal := s.run fun _ d => d.onPartitionReset part
/-- DEACTIVATE (R331): a reset, after which the partition is inactive. -/
def Device.onDeactivate (d : Device) (part : Nat) : Device := if part < 16 then d.startReset part 2 else d
def execDeactivate (part : Nat) (s : State) : Host.Outcome State Fault Refusal := s.run fun _ d => d.onDeactivate part

/-- The partition of a grid, by its identifier (R309). -/
def partOfGrid (grid : Nat) : Nat := grid / 2 ^ 60
/-- An entry of the partition is freed, whether or not its grid has retired; its generation stays (R277, R334). -/
def REntry.freeIf (e : REntry) (p : Nat) : REntry :=
  if partOfGrid e.grid = p && e.state != .free then { REntry.fresh with gen := e.gen } else e
/-- The resident teams of a partition. -/
def Device.teamsOf (d : Device) (p : Nat) : List (Nat × Nat × Team) := d.teams.filter fun x => x.2.2.part == p
/-- Steps 3 to 5 of R334: what has not drained is discarded, everything of the partition is freed, and completion is reported. An engine that holds any of its matrix commands resets; a faulted queue
stays faulted (R332; log 59). -/
def Device.endReset (d : Device) (p : Nat) : Device :=
  let ts := d.teamsOf p
  let d := ts.foldl (fun d x =>
    (List.range 4).foldl (fun d q =>
      if (d.engine x.1 q).queue.any fun (c : Cmd) => c.grid == x.2.2.grid && c.team == x.2.2.index then d.resetEngine x.1 q else d) d) d
  let mine := (d.grids.filter fun g => g.2.part == p).map (·.1)
  let d := ts.foldl (fun d x => d.removeTeam x.1 x.2.1) d
  let off := (d.part p).drainKind == 2
  let d := { d with
    pool := d.pool.filter (fun r => !r.owners.any fun o => ts.any fun x => x.1 == o.1.core && x.2.1 == o.1.slot),
    grids := d.grids.filter (fun g => g.2.part != p),
    submits := d.submits.filter (fun y => !mine.contains y.grid),
    ridges := d.ridges.map (fun (r : Nat × Ridge) =>
      (r.1, { r.2 with tlb := r.2.tlb.filter (fun e => e.part != p), stale := r.2.stale.filter (fun x => x.1 % 16 != p) })),
    cores := d.cores.map (fun (c : Nat × Core) => (c.1, { c.2 with entries := c.2.entries.map fun (e : REntry) => e.freeIf p })) }
  (d.modFront p fun f => { f with queues := f.queues.map fun (q : Queue) => { Queue.fresh with base := q.base, cnt := q.cnt, cfg := q.cfg, faulted := q.faulted } }).modPart p
    fun q => { q with resetting := none, resetDone := true, stations := [], parks := [], stopped := false, active := q.active && !off,
                      suspended := q.suspended && !off }
/-- RESET_DRAIN_TIMEOUT (R334): the requests have drained, or 100 µs have passed. -/
def execResetDrainTimeout (part : Nat) (s : State) : Host.Outcome State Fault Refusal :=
  s.run fun _ d =>
    match (d.part part).resetting with
    | none => d
    | some t0 =>
      if t0 + 100 * Config.cyclesPerUs ≤ d.now || (d.teamsOf part).all (fun x => d.drained x.1 x.2.1 x.2.2 && (d.teamCmds x.1 x.2.2).isEmpty)
      then d.endReset part else d

/-! ### Registration (R329, R330) -/

/-- Every field of a registration block is in range (R329). -/
def regOk (r : BitVec 1024) : Bool :=
  fld r 1023 832 == 0 && fld r 831 768 % 4096 == 0 && fld r 767 704 % 4096 == 0 && fld r 703 640 % 4096 == 0 &&
  powerOfTwo (fld r 639 608) && 64 ≤ fld r 639 608 && fld r 639 608 ≤ 65536 && 1 ≤ fld r 607 576 && fld r 607 576 ≤ 2 ^ 20 &&
  fld r 575 512 % 4096 == 0 && fld r 511 448 % 4096 == 0 && fld r 447 384 % 4096 == 0 && fld r 383 364 == 0 &&
  (fld r 363 359 == 0 || (10 ≤ fld r 363 359 && fld r 363 359 ≤ 24)) && fld r 358 352 == 0 &&
  powerOfTwo (fld r 351 320) && 64 ≤ fld r 351 320 && fld r 351 320 ≤ 2 ^ 20 && fld r 255 240 == 0 && fld r 239 224 != 0 &&
  fld r 223 208 < Config.clusters && fld r 207 192 ≤ fld r 223 208 && fld r 63 0 < 65536
/-- ACTIVATE (R329): a module held by R352 activates nothing. -/
def Device.onActivate (d : Device) (part : Nat) : Device :=
    let q := d.part part
    if q.active || q.resetting.isSome || part ≥ 16 then d
    else
      let r := q.reg
      let lo := fld r 207 192
      let hi := fld r 223 208
      let keys := fld r 319 256
      if d.module.heldBy || !regOk r || bit keys 0 ||
         d.parts.any (fun x => x.1 != part && ((x.2.running && x.2.clusters.1 ≤ hi && lo ≤ x.2.clusters.2) ||
           (x.2.active && (fld x.2.reg 319 256 &&& keys) != 0)))
      then d.modPart part fun q => { q with refused := true }
      else d.modPart part fun q => { q with active := true, suspended := false, refused := false, clusters := (lo, hi), runSince := d.clock.read d.now,
                                            stopped := false, saving := false, drainKind := 0, parks := [], loans := [] }
def execActivate (part : Nat) (s : State) : Host.Outcome State Fault Refusal := s.run fun _ d => d.onActivate part

/-- A word of the registration block. -/
def setWord (r : BitVec 1024) (k v : Nat) : BitVec 1024 :=
  BitVec.ofNat 1024 (r.toNat - bits r.toNat (64 * k + 63) (64 * k) * 2 ^ (64 * k) + v % 2 ^ 64 * 2 ^ (64 * k))
/-- A word with the bits h down to l of v. -/
def mergeBits (x v h l : Nat) : Nat := x - bits x h l * 2 ^ l + bits v h l * 2 ^ l
/-- A write to REG (R330, R331): any word while the partition is inactive; else COLOUR, SEXP, SCNT and SAMP alone. -/
def Part.writeReg (q : Part) (k v : Nat) : Part :=
  let old := fld q.reg (64 * k + 63) (64 * k)
  if !q.active then { q with reg := setWord q.reg k v }
  else
    let new := if k = 3 then (if bits v 47 32 = 0 then old else mergeBits old v 47 32)
               else if k = 5 then mergeBits (mergeBits old v 31 0) v 43 39
               else if k = 6 then v % 2 ^ 64 else old
    let q' := { q with reg := setWord q.reg k new }
    if (k = 5 || k = 6) && new != old then { q' with srWr := 0, srDrop := 0 } else q'
/-- REGISTRATION_UPDATE (R330): a write to the block of an active partition, at an offset of REG. -/
def execRegistrationUpdate (part off : Nat) (value : BitVec 64) (s : State) : Host.Outcome State Fault Refusal :=
  s.run fun _ d => if (d.part part).active && off % 8 = 0 && off < 0x80 then d.modPart part (·.writeReg (off / 8) value.toNat) else d

/-! ### Snapshot and migration (R336, R337) -/

/-- SNAPSHOT (R336): the bitmaps swap in one move. -/
def Device.onSnapshot (d : Device) (part : Nat) : Device :=
    if part < 16 && (d.part part).resetting.isNone then d.modPart part fun q => { q with snapIdx := q.bitmap, bitmap := 1 - q.bitmap } else d
def execSnapshot (part : Nat) (s : State) : Host.Outcome State Fault Refusal := s.run fun _ d => d.onSnapshot part
/-- The teams of a partition that no core of a slice end holds, on clusters it has lent, are saved at once without a handler (R337;
log 55). -/
def Device.saveAway (d : Device) (p : Nat) (cores : List Nat) : Device :=
  { d with cores := d.cores.map fun (c : Nat × Core) =>
      if cores.contains c.1 then c
      else (c.1, { c.2 with teams := c.2.teams.map fun (t : Nat × Team) =>
        if t.2.part = p && t.2.saving.isNone then
          (t.1, { t.2 with packs := t.2.packs.map Pack.force, saving := some { forced := true, drainStart := d.now, lost := false } })
        else t }) }
/-- MIGRATION_STOP (R337): the front end stops, and every team is saved without a handler; the registers of its queues stand in its
block (log 35). A slice end or a reclaim in progress becomes a part of it: its handlers end and its saves are forced. -/
def Device.onMigrationStop (d : Device) (part : Nat) : Device :=
    let q := d.part part
    if !q.active || q.resetting.isSome then d
    else if q.suspended then d.modPart part fun q => { q with stopped := true }
    else
      let cores := coresOf q.clusters.1 q.clusters.2
      (((d.modPart part fun q => { q with stopped := true, saving := true, drainKind := 1 }).sliceStart part cores).forceSlice part
        |>.saveAway part (cores ++ q.loans.flatMap fun x => coresOf x.1 x.1)).sliceCheck part
def execMigrationStop (part : Nat) (s : State) : Host.Outcome State Fault Refusal := s.run fun _ d => d.onMigrationStop part
/-- MIGRATION_START (R337): the front end goes on with its queues and restores the saved teams. -/
def Device.onMigrationStart (d : Device) (part : Nat) : Device :=
    let q := d.part part
    if q.active && q.resetting.isNone && !q.saving then d.modPart part fun q => { q with stopped := false } else d
def execMigrationStart (part : Nat) (s : State) : Host.Outcome State Fault Refusal := s.run fun _ d => d.onMigrationStart part

/-! ### Borrowed clusters (R335) -/

/-- LOAN (R331, R335): ignored unless the partner's range is adjacent. -/
def Device.onLoan (d : Device) (part k partner : Nat) : Device := if (d.part part).active && (d.part partner).active && part != partner && k != 0 then d.giveClusters part partner k else d
def execLoan (part k partner : Nat) (s : State) : Host.Outcome State Fault Refusal := s.run fun _ d => d.onLoan part k partner
/-- The clusters of a borrower that no reclaim in progress takes. -/
def Part.unclaimed (b : Part) : Nat × Nat :=
  let cs := ((List.range (b.clusters.2 + 1 - b.clusters.1)).map (b.clusters.1 + ·)).filter fun c => !b.loans.any fun x => x.1 == c
  match cs, cs.getLast? with
  | c :: _, some e => (c, e)
  | _, _ => (1, 0)
/-- The k clusters of the borrower at the lender's end. -/
def endClusters (b l : Nat × Nat) (k : Nat) : List Nat :=
  if b.2 + 1 - b.1 ≤ k then []
  else if l.2 + 1 = b.1 then (List.range k).map (b.1 + ·)
  else if b.2 + 1 = l.1 then (List.range k).map (b.2 + 1 - k + ·)
  else []
/-- RECLAIM (R321, R322, R335): the cores of the reclaimed clusters take `SLICE_END` for the borrower, beside any reclaim in progress. -/
def Device.onReclaim (d : Device) (part k partner : Nat) : Device :=
    let b := d.part partner
    let a := (d.part part).clusters
    let own := b.loans.filter fun x => x.2.1 == part
    let cs := endClusters b.unclaimed (own.foldl (fun r x => (min r.1 x.1, max r.2 x.1)) a) k
    if !(d.part part).active || part = partner || cs.isEmpty || b.resetting.isSome then d
    else
      let d := d.modPart partner fun q => { q with
        loans := q.loans ++ cs.map fun c => (c, part, own.foldl (fun n x => max n (x.2.2 + 1)) 0),
        drainKind := if q.saving then q.drainKind else 0 }
      (d.sliceStart partner (cs.flatMap fun c => coresOf c c)).sliceCheck partner
def execReclaim (part k partner : Nat) (s : State) : Host.Outcome State Fault Refusal := s.run fun _ d => d.onReclaim part k partner

/-! ### Launch queues (R303, R304, R332, R333) -/

/-- The record of R333. -/
def Device.errorRecord (d : Device) (fe value reason low : Nat) : Device :=
  d.emit fe { addr := value, cls := 1, kind := 5, code := Code.bounds.num, detail := reason + low % 16 * 16 + fe % 16 * 256 }
/-- A queue enters the faulted state, with one record (R332, R333); a queue already in it stays. -/
def Device.faultQueue (d : Device) (fe q value reason : Nat) : Device :=
  if (nth (d.front fe).queues q Queue.fresh).faulted then d
  else (d.modFront fe fun f => { f with queues := lmod f.queues q fun y => { y with faulted := true } }).errorRecord fe value reason q
/-- Every byte of a ring translates (R332). -/
def Device.ringOk (d : Device) (m : Memory) (p base n : Nat) : Device × Bool :=
  (List.range ((base + n - 1) / 65536 - base / 65536 + 1)).foldl (fun (acc : Device × Bool) i =>
    if acc.2 then
      match acc.1.translate m (acc.1.feRidge p) p (if i = 0 then base else (base / 65536 + i) * 65536) 0 with
      | (d, .ok _ w _) => (d, leafV w && bit (fld (d.part p).reg 319 256) (leafKey w))
      | (d, _) => (d, false)
    else acc) (d, true)
/-- Records already accepted no longer count for a queue that is registered again or removed. -/
def Device.forgetQueue (d : Device) (fe q : Nat) : Device :=
  { d with grids := d.grids.map fun (g : Nat × Grid) =>
      if g.2.fe = fe && (match g.2.queue with | some (k, _) => k == q | none => false) then (g.1, { g.2 with queue := none }) else g }
/-- QUEUE_REGISTER (R304, R332): the values in QBASE, QCNT and the QCFG written; a write that fails a test is ignored, and the queue enters
the faulted state. -/
def Device.onQueueRegister (d : Device) (m : Memory) (fe q : Nat) (cfg : BitVec 64) : Device :=
    if fe ≥ 16 || q ≥ 16 || d.module.heldBy then d
    else
      let x := nth (d.front fe).queues q Queue.fresh
      let base := x.base.toNat
      let cnt := fld x.cnt 16 0
      if base % 256 != 0 then d.faultQueue fe q base 1
      else if !powerOfTwo cnt || cnt < 16 || cnt > 65536 then d.faultQueue fe q cnt 2
      else
        match d.ringOk m fe base (256 * cnt) with
        | (d, false) => d.faultQueue fe q base 1
        | (d, true) =>
          (d.forgetQueue fe q).modFront fe fun f => { f with queues := lmod f.queues q fun y =>
            { y with cfg := cfg &&& 0x103, reg := true, faulted := false, regBase := y.base, regCnt := cnt, prio := fld cfg 1 0, privileged := bit cfg.toNat 8,
                     wr := 0, rd := 0, compl := 0, done := [], waiting := none } }
def execQueueRegister (fe q : Nat) (cfg : BitVec 64) (s : State) : Host.Outcome State Fault Refusal := s.run fun m d => d.onQueueRegister m fe q cfg
/-- QUEUE_UNREGISTER (R304). -/
def Device.onQueueUnregister (d : Device) (fe q : Nat) : Device := (d.forgetQueue fe q).modFront fe fun f => { f with queues := lmod f.queues q fun y =>
    { y with reg := false, waiting := none } }
def execQueueUnregister (fe q : Nat) (s : State) : Host.Outcome State Fault Refusal := s.run fun _ d => d.onQueueUnregister fe q
/-- QWR (R332): a new write index. -/
def Device.onQwr (d : Device) (fe q : Nat) (value : BitVec 32) : Device :=
    let x := nth (d.front fe).queues q Queue.fresh
    if !x.reg || fe ≥ 16 || q ≥ 16 then d
    else if (value - x.wr).toNat ≥ 2 ^ 31 then d.faultQueue fe q value.toNat 3
    else if (value - x.rd).toNat > x.regCnt then d.faultQueue fe q value.toNat 4
    else d.modFront fe fun f => { f with queues := lmod f.queues q fun y => { y with wr := value } }
def execQwr (fe q : Nat) (value : BitVec 32) (s : State) : Host.Outcome State Fault Refusal := s.run fun _ d => d.onQwr fe q value

/-! ### Stations (R269 to R271, R333) -/

/-- The fields of a descriptor are in range (R270). -/
def descOk (x : BitVec 512) : Bool :=
  let pol := fld x 209 208
  fld x 511 448 == 0 && fld x 383 352 == 0 && fld x 255 229 == 0 && fld x 215 210 == 0 && fld x 447 384 % 32 == 0 && pol != 3 &&
  (if pol = 1 then powerOfTwo (fld x 351 320) && 64 ≤ fld x 351 320 && fld x 351 320 ≤ 2 ^ 20 && fld x 319 256 % 4096 == 0
   else fld x 351 320 == 0 && fld x 319 256 == 0) &&
  fld x 228 224 ≤ 16 && 1 ≤ fld x 223 216 && 1 ≤ fld x 207 192 && fld x 207 192 ≤ 512 &&
  powerOfTwo (fld x 159 128) && 64 ≤ fld x 159 128 && fld x 159 128 ≤ 2 ^ 20 && fld x 127 64 % 4096 == 0 && fld x 63 0 % 64 == 0
/-- An active station with empty rings. -/
def Station.open_ (desc : BitVec 512) (grid : Nat) : Station :=
  let ring : Ring := { wr := 0, rd := 0, times := [], owners := [] }
  { active := true, desc := desc, grid := grid, queue := ring, spill := ring, flushReq := false, timerHit := false }
/-- STATION_ACTIVATE (R269 to R271). -/
def Device.onStationActivate (d : Device) (m : Memory) (part station : Nat) : Device :=
    let q := d.part part
    let busy := match aget q.stations station with | some x => x.active | none => false
    if !q.active || q.resetting.isSome || station ≥ fld q.stCnt 12 0 || busy then d
    else
      let va := q.stBase.toNat + 64 * station
      let bad := fun (d : Device) => d.errorRecord part va 5 station
      match d.readBlock m (d.feRidge part) part va 64 with
      | (d, .error _) => bad d
      | (d, .ok bs) =>
        let x := BitVec.ofNat 512 (leNat bs)
        if !descOk x then bad d
        else
          let nw := fld x 228 224
          match d.readBlock m (d.feRidge part) part (fld x 447 384) (32 * nw) with
          | (d, .error _) => bad d
          | (d, .ok bs) =>
            let wrec := chunk32 nw bs
            if wrec.any fun r => recBad r 0 0 || recKind r != 0 then bad d
            else
              let lrec := fld x 63 0
              let r := d.readBlock m (d.feRidge part) part lrec 256
              let record := BitVec.ofNat 2048 (match r.2 with | .ok bs => leNat bs | .error _ => 0)
              let b := match r.2 with
                | .ok _ => r.1.readBufs m part record
                | .error e => (r.1, .error e)
              let l : Launch := { fe := part, lrec := lrec, record := record, queue := none, parent := none, depth := 0, privileged := false,
                                  station := some station, wrec := wrec }
              let y := match b.2 with
                | .ok bufs => b.1.accept l bufs none
                | .error (c, _) => b.1.accept l [] (some (c.getD .pageNotPresent))
              if y.2.2 then
                let st := Station.open_ x y.2.1
                y.1.modPart part fun q => { q with stations := aset q.stations station st }
              else y.1
def execStationActivate (part station : Nat) (s : State) : Host.Outcome State Fault Refusal := s.run fun m d => d.onStationActivate m part station
/-- STATION_DEACTIVATE (R269). -/
def Device.onStationDeactivate (d : Device) (part station : Nat) : Device := d.modStation part station fun x => { x with active := false }
def execStationDeactivate (part station : Nat) (s : State) : Host.Outcome State Fault Refusal := s.run fun _ d => d.onStationDeactivate part station

/-! ### Stall reasons and samples (R338, R339) -/

/-- Commands that the waiting threads of a pack await, and the head of a full queue its bundle needs (R241). -/
def Device.awaited (d : Device) (core : Nat) (t : Team) (p : Pack) : List Cmd :=
  let ids := p.threads.flatMap fun (x : Thread) => match x.status with
    | .atBarrier (.mwait l) => l
    | .atBarrier (.mwaitTile l _ _) => l
    | _ => []
  let why := p.hold.map (·.why)
  let heads := (d.core core).engines.filterMap fun (e : Engine) => e.queue.head?
  let copies := t.copyQ.head?.toList
  (heads.filter fun (c : Cmd) => ids.contains c.id) ++ (if why = some .engineQueue then (d.engine core p.quad).queue.head?.toList else []) ++
  (if why = some .copyQueue || p.threads.any (fun (x : Thread) => match x.status with | .atBarrier (.cpyw _) => true | _ => false)
   then copies else [])
/-- Every ready thread is held, and none can start (R38): some thread waits in a wait of a kind. -/
def Pack.waits (p : Pack) (f : Wait → Bool) : Bool :=
  !p.threads.any (fun (x : Thread) => x.ready) && p.threads.any fun (x : Thread) => match x.status with | .atBarrier w => f w | _ => false
def Wait.isRoute : Wait → Bool
  | .route .. => true
  | .rsv .. => true
  | .rret .. => true
  | .rwait .. => true
  | _ => false
def Wait.isBarrier : Wait → Bool
  | .phase .. => true
  | .arrival .. => true
  | .cwait .. => true
  | .mwait .. => true
  | .mwaitTile .. => true
  | .cpyw .. => true
  | _ => false

/-- Threads that no thread of the pack can start before: parked on their fetch, with none ready (R39; log 75). -/
def Pack.fetchWaits (p : Pack) : Bool :=
  !p.threads.any (fun (x : Thread) => x.ready) && p.threads.any fun (x : Thread) => match x.status with | .parked _ 3 _ => true | _ => false
/-- Every ready thread of the pack is held by lookahead or by a pending name; one on its lane is not yet (R42, R45). -/
def Device.allHeld (d : Device) (m : Memory) (core : Nat) (t : Team) (p : Pack) : Bool :=
  (List.range p.threads.length).all fun i =>
    match p.thread i with
    | some x => !x.ready || (x.lane ≤ d.now && (x.holds.any (·.2 == 0) ||
        (d.peek m core t.part x.pc).any fun ins => p.waitsFor d.now i ins (rowName ins t)))
    | none => true
/-- A `route` or a claimed return of the pack waits for a range of the team's scoreboard (R191). -/
def Device.recordHeld (d : Device) (t : Team) (p : Pack) : Bool :=
  p.threads.any fun (x : Thread) => match x.status with
    | .atBarrier (.route r) => r.stage == 0 && !x.releasing && t.tableHeld (d.entry (r.entry / 32) (r.entry % 32)) r.bt
    | .atBarrier (.rret r n 1 _) =>
      let (c, e, _, _, _) := taken (t.taken.getD n 0)
      !x.releasing && t.rowHeld r n (d.entry c e).n
    | _ => false
/-- The reasons of R339 in the order of their precedence, each with whether it applies. -/
def Device.reasons (d : Device) (m : Memory) (core : Nat) (t : Team) (i : Nat) (p : Pack) : List (Nat × Bool) :=
  let hold : Option HoldWhy := p.hold.map (·.why)
  let cmds := d.awaited core t p
  let ready := p.threads.any fun (x : Thread) => x.ready
  let power := cmds.any (·.needsLeave)
  let guarded := (match hold with | some (.guardSlot _) => true | _ => false) || cmds.any (t.guardWaits ·)
  [(14, p.threads.any fun (x : Thread) => x.status == .stopped),
   (13, p.rows.any (·.evicted) || (match t.evict with | some e => e.victim == i || e.elder == i | none => false)),
   (2, match hold with | some (.allocation _) => true | _ => false),
   (12, p.fetchWaits),
   (11, (match hold with | some (.scoreboard ..) => true | _ => false) || d.recordHeld t p),
   (5, (hold = some .engineQueue || hold = some .copyQueue) && !power && !guarded),
   (6, power), (8, guarded), (9, p.waits Wait.isRoute),
   (1, ready && hold.isNone && d.allHeld m core t p),
   (3, !ready && p.threads.any fun (x : Thread) => x.status == .atJoin), (4, p.waits Wait.isBarrier),
   (10, !ready && p.threads.any fun (x : Thread) => match x.status with | .parked .. => true | _ => false)]
/-- The stall reason of a pack in this cycle (R339). -/
def Device.stallReason (d : Device) (m : Memory) (core slot : Nat) (t : Team) (i : Nat) (p : Pack) : Nat :=
  let could := (d.formed m core slot i t { p with lanes := [] }).isSome
  if p.lastStart = some d.now then (if p.rotated then 7 else 0)
  else if could && (p.lanes.filter (· > d.now)).length ≥ 2 then 0
  else if could && aget (d.core core).quadStart p.quad = some d.now then 15
  else match (d.reasons m core t i p).find? (·.2) with
    | some r => r.1
    | none => 15

/-- Resident packs of a partition on a core, as 32 × slot + pack, ascending. -/
def Device.packsOf (d : Device) (core p : Nat) : List Nat :=
  (d.core core).teams.flatMap fun (t : Nat × Team) =>
    if t.2.part = p then (List.range t.2.packs.length).filterMap fun i => match t.2.packs[i]? with
      | some x => if x.retired then none else some (32 * t.1 + i)
      | none => none
    else []
/-- The PC of a thread in a cycle: the new one takes effect once its own cycle has passed (R42). -/
def Thread.seen (x : Thread) (now : Nat) : W64 := if x.lane > now then x.was else x.pc
/-- PC_SAMPLE (R338): on the cycles that are multiples of 2^n, the next resident pack of the core. -/
def execPcSample (core part : Nat) (s : State) : Host.Outcome State Fault Refusal :=
  s.run fun m d =>
    let q := d.part part
    let n := fld q.reg 363 359
    if !q.active || n = 0 || d.now % 2 ^ n != 0 || (d.core core).sampled = some d.now || clusterOf core < q.clusters.1 || clusterOf core > q.clusters.2 then d
    else
      let l := d.packsOf core part
      match (l.filter fun x => (d.core core).samplePos ≤ x) ++ l with
      | [] => d
      | k :: _ =>
        match d.team core (k / 32), d.pack core (k / 32) (k % 32) with
        | some t, some p =>
          let d := d.modCore core fun c => { c with samplePos := k + 1, sampled := some d.now }
          let pcs := (p.threads.filter fun (x : Thread) => !x.gone || x.lane > d.now).map fun x => (x.seen d.now).toNat
          let pc := (leastBy (fun x => x) pcs).getD 0
          d.sample m part (ridgeOf core) (sampleBits (k % 32) core part (d.stallReason m core (k / 32) t (k % 32) p) 0 0 t.grid pc d.time)
        | _, _ => d

/-! ### Counters (R331, R341) -/

/-- An enabled counter selects an event other than 0. -/
def Counter.on (c : Counter) : Bool := c.sel % 256 != 0
/-- The counters of a ridge in order: partition, number. -/
def Device.ridgeCounters (d : Device) (r : Nat) : List (Nat × Nat × Counter) :=
  d.parts.flatMap fun p => (p.2.counters.filter fun c => c.1 / 8 == r).map fun c => (p.1, c.1, c.2)
def Device.setPhys (d : Device) (p n : Nat) (b : Bool) : Device :=
  d.modPart p fun q => { q with counters := q.counters.map fun c => if c.1 = n then (c.1, { c.2 with phys := b }) else c }
/-- A selector is written: the counter's times run on, and it takes a physical counter when one is free; once no more than 64 counters of
the ridge are enabled, each of them holds one (R341). -/
def Device.selectCounter (d : Device) (p n sel : Nat) : Device :=
  let d := d.settleCounters
  let c := (aget (d.part p).counters n).getD { sel := 0, count := 0, en := 0, run := 0, seq := 0, phys := false, since := d.now }
  let used := ((d.ridgeCounters (n / 8)).filter fun x => x.2.2.phys && !(x.1 == p && x.2.1 == n)).length
  let d := d.modPart p fun q => { q with counters := aset q.counters n { c with sel := sel, phys := sel % 256 != 0 && used < 64 } }
  let on := (d.ridgeCounters (n / 8)).filter fun x => x.2.2.on
  if on.length ≤ 64 then on.foldl (fun d x => d.setPhys x.1 x.2.1 true) d else d
/-- The 64 of a cyclic list after the last holder. -/
def rotateFrom (l : List (Nat × Nat × Counter)) : List (Nat × Nat × Counter) :=
  let k := match (List.range l.length).filter fun i => match l[i]? with | some x => x.2.2.phys | none => false with
    | [] => 0
    | is => is.foldl max 0 + 1
  ((l.drop k) ++ (l.take k)).take 64
/-- COUNTER_ROTATE (R341): every 1 ms a ridge with more than 64 enabled counters passes its physical counters on, the partitions
ascending. -/
def execCounterRotate (ridge : Nat) (s : State) : Host.Outcome State Fault Refusal :=
  s.run fun _ d =>
    let d := d.settleCounters
    let l := (d.ridgeCounters ridge).filter fun x => x.2.2.on
    if l.length ≤ 64 || (d.ridge ridge).rotated + Config.cyclesPerMs > d.now then d
    else
      let keep := (rotateFrom l).map fun x => (x.1, x.2.1)
      (l.foldl (fun d x => d.setPhys x.1 x.2.1 (keep.contains (x.1, x.2.1))) d).modRidge ridge fun r => { r with rotated := d.now }

/-! ### Plain registers of the management window (R32, R33, R182, R304, R331, R357) -/

/-- A write of a partition block's word with no behaviour of its own (R331). -/
def Device.writePart (d : Device) (p off v : Nat) : Device :=
  let w := BitVec.ofNat 64 v
  let w32 := BitVec.ofNat 32 v
  if off < 0x80 then d.modPart p (·.writeReg (off / 8) v)
  else if 0x100 ≤ off && off < 0x180 then
    (List.range 4).foldl (fun d i => d.selectCounter p ((off - 0x100) / 2 + i) (bits v (16 * i + 15) (16 * i))) d
  else d.modPart p fun q =>
    if off = 0x098 then { q with frRd := w32 }
    else if off = 0x0B0 then { q with srRd := w32 }
    else if off = 0x0C8 then { q with slice := w &&& 0xFFFFFFFF }
    else if off = 0x0D0 then { q with stBase := w }
    else if off = 0x0D8 then { q with stCnt := w &&& 0x1FFF }
    else if off = 0x0F0 then { q with debugReg := w &&& 1 }
    else if off = 0x180 then { q with dbgPc := w }
    else q
/-- A write of a launch queue's entry (R304): QBASE, QCNT and QCFG hold the values written. -/
def Device.writeQueue (d : Device) (fe q off v : Nat) : Device :=
  d.modFront fe fun f => { f with queues := lmod f.queues q fun y =>
    if off = 0x00 then { y with base := BitVec.ofNat 64 v }
    else if off = 0x08 then { y with cnt := BitVec.ofNat 64 v &&& 0x1FFFF }
    else if off = 0x10 then { y with cfg := BitVec.ofNat 64 v &&& 0x103 }
    else y }

end Sys2Proof.Machine
end

