-- ==== Sys2Proof/Machine/Trust.lean ====
section
/-! DEFINITION. Die states, attestation, link keys, quarantine, recovery and the segment-form translator (R16, R192, R343 to R357, R363,
R364). -/

namespace Sys2Proof.Machine

open Sys2Proof

def Device.modDie (d : Device) (n : Nat) (f : Die → Die) : Device := { d with dies := lmod d.dies n f }
def Link.at_ (l : Link) (src dst : Nat) : Bool := l.src == src && l.dst == dst
def Device.link (d : Device) (src dst : Nat) : Option Link := d.links.find? (·.at_ src dst)
def Device.modLink (d : Device) (src dst : Nat) (f : Link → Link) : Device :=
  { d with links := d.links.map fun (l : Link) => if l.at_ src dst then f l else l }

/-! ### Leaving TRUSTED (R345, R352, R353) -/

/-- The partition whose key set holds a line's key. -/
def Device.ownerOf (d : Device) (line : Nat) : Option Nat :=
  match aget d.keys line with
  | some k => (d.parts.find? fun p => p.2.active && bit (fld p.2.reg 319 256) k).map (·.1)
  | none => none
/-- A dirty line is lost: the home slice keeps its older bytes (R192, R353). -/
def Device.loseLine (d : Device) (r : Nat) (x : Nat × Nat × List Byte) : Device :=
  (d.wrBytes (x.1 * 128) x.2.2).modRidge r fun y => { y with dirty := y.dirty.filter fun z => z.1 != x.1 }
/-- Every link of a die stops, and its keys are retired (R353). -/
def Device.retireLinks (d : Device) (n : Nat) : Device :=
  { d with links := d.links.map fun (l : Link) => if l.src = n || l.dst = n then
      { l with keys := [none, none], armed := false, rolling := false, switched := false, accepted := false, badRun := 0, badTimes := [] } else l }
/-- R353 for ridge n, in its order; a second time it finds nothing left to do. -/
def Device.loseRidge (d : Device) (n : Nat) : Device :=
  let d := d.retireLinks n
  let lost := d.teams.filter fun x => ridgeOf x.1 == n
  let owned := fun (e : REntry) => lost.any fun x => x.2.2.grid == e.grid && x.2.2.index == e.team
  let d := lost.foldl (fun d x =>
    let i := match d.present (d.teamIds x.1 x.2.1) with | i :: _ => i | [] => ⟨x.1, x.2.1, 0, 0⟩
    let pc := match d.thread i with | some y => y.pc | none => 0
    d.loseTeam x.1 x.2.1 (some (d.recOf i .dieQuarantined 0 pc 0 0))) d
  let free := fun (c : Nat) (e : REntry) => if e.state != .free && (ridgeOf c == n || owned e) then { REntry.fresh with gen := e.gen } else e
  let d := { d with cores := d.cores.map fun (c : Nat × Core) => (c.1, { c.2 with entries := c.2.entries.map (free c.1) }) }
  let dirty := (d.ridge n).dirty
  let hit := (dirty.filterMap fun x => d.ownerOf x.1).dedup
  let d := dirty.foldl (fun d x => d.loseLine n x) d
  let d := hit.foldl (fun d p => d.emit p { cls := 1, kind := 4, code := Code.dieQuarantined.num }) d
  { d with parts := d.parts.map fun (p : Nat × Part) => (p.1, { p.2 with parks := p.2.parks.filter fun (x : Park) => x.ridge != n }) }
/-- A col leaves TRUSTED: every partition stops as by a reset, with a record, and the module is held (R352). -/
def Device.holdModule (d : Device) : Device :=
  let ps := (d.parts.filter fun p => p.2.active).map (·.1)
  let d := ps.foldl (fun d p => (d.emit p { cls := 1, kind := 4, code := Code.dieQuarantined.num }).startReset p 3) d
  { d with module := { d.module with heldBy := true } }
/-- A die enters QUARANTINED (R345). The links of a col stop and lose their keys; those of a ridge do by R353. -/
def Device.quarantine (d : Device) (n reason : Nat) : Device :=
  let was := (d.die n).state
  let d := d.modDie n fun x => { x with state := .quarantined, reason := reason, session := false, step := 0, memKeys := false }
  let d := { d with module := { d.module with attesting := if d.module.attesting = some n then none else d.module.attesting,
                                              turned := n :: d.module.turned.filter (· != n), asks := d.module.asks.filter (· != n) } }
  if n < 8 then d else if was = .trusted then (d.retireLinks n).holdModule else d.retireLinks n
/-- A die starts again (R345): the cores and the ridge of a ridge die are at their reset; its walker's store keeps its bytes (log 36). -/
def Device.boot (d : Device) (n : Nat) (memKeys : Bool) : Device :=
  let d := if n < 8 then
      { (d.modRidge n fun r => { Ridge.fresh d.now with store := r.store }) with
        cores := (List.range 60).foldl (fun l i => aset l (60 * n + i) (Core.fresh d.now)) d.cores }
    else d
  d.modDie n fun x => { x with state := .booting, session := false, step := 0, memKeys := memKeys }

/-- A QUARANTINED die starts again: what R353 does on a ridge is done first. -/
def Device.restart (d : Device) (n : Nat) : Device := (if n < 8 then d.loseRidge n else d).boot n false

/-- POWER_GOOD (R345): power good, or the release from a die reset. -/
def execPowerGood (die : Nat) (s : State) : Host.Outcome State Fault Refusal :=
  s.run fun _ d =>
    let x := d.die die
    if die ≥ 10 then d
    else if x.state = .off then d.boot die true
    else if x.state = .quarantined && x.reason = 1 then d.restart die
    else d
/-- DIERST (R33, R345, R348, R356): a die whose image was rejected stays QUARANTINED until it is recovered. -/
def Device.onDierst (d : Device) (die : Nat) : Device :=
    if die ≥ 10 then d
    else match (d.die die).state with
      | .trusted => d.quarantine die 1
      | .attesting => (d.quarantine die 1).restart die
      | .quarantined => if (d.die die).reason = 9 then d else d.restart die
      | _ => d
def execDierst (die : Nat) (s : State) : Host.Outcome State Fault Refusal := s.run fun _ d => d.onDierst die
/-- QUAR (R33, R345): a quarantine request. -/
def Device.onQuar (d : Device) (die : Nat) : Device := if die < 10 && (d.die die).state = .trusted then d.quarantine die 8 else d
def execQuar (die : Nat) (s : State) : Host.Outcome State Fault Refusal := s.run fun _ d => d.onQuar die
/-- DIE_QUARANTINE (R353). -/
def execDieQuarantine (die : Nat) (s : State) : Host.Outcome State Fault Refusal :=
  s.run fun _ d => if die < 8 && (d.die die).state = .quarantined then d.loseRidge die else d

/-! ### Boot and recovery (R343, R344, R356, R357) -/

/-- Col 8 waits for its own image: no other die leaves BOOTING (R356). -/
def Device.summitDown (d : Device) : Bool := (d.die 8).state == .quarantined && (d.die 8).reason == 9
/-- The firmware image of a die (R344). -/
def Device.slotImage (d : Device) (n : Nat) : List Byte := (d.die n).image.getD (Config.shippedImage n)
/-- An image that a boot ROM takes: signed, and for Summit's die with a signed manifest (R343, R344). -/
def imageOk (n : Nat) (bs : List Byte) : Bool := Config.signedImage bs && (n != 8 || Config.manifestSigned)
/-- BOOT_MEASURED (R343, R345): the digest that the boot ROM takes of the image in the die's slot is its measurement, and the die asks to
be attested. -/
def execBootMeasured (die : Nat) (digest : BitVec 256) (s : State) : Host.Outcome State Fault Refusal :=
  s.run fun _ d =>
    if die < 10 && digest == Config.sha256 (d.slotImage die) && (d.die die).state = .booting && (die = 8 || !d.summitDown) && imageOk die (d.slotImage die) then
      { d.modDie die fun x => { x with state := .measured, measurement := digest } with
        module := { d.module with asks := d.module.asks ++ [die] } }
    else d
/-- BOOT_IMAGE_REJECTED (R344), with the recovery request of R356. -/
def execBootImageRejected (die : Nat) (s : State) : Host.Outcome State Fault Refusal :=
  s.run fun _ d =>
    if (d.die die).state = .booting && (die = 8 || !d.summitDown) then
      let d := d.quarantine die 9
      ((d.parts.filter fun p => p.2.active).map (·.1)).foldl (fun d p =>
        d.emit p { cls := 1, kind := 4, code := Code.dieQuarantined.num, detail := 0x100 + die }) d
    else d
/-- RCMD (R356, R357): ignored while a recovery is in progress. -/
def Device.onRcmd (d : Device) (die : Nat) : Device := if die < 10 && d.module.rStat != 1 then { d with module := { d.module with rStat := 1, rDie := die } } else d
def execRcmd (die : Nat) (s : State) : Host.Outcome State Fault Refusal := s.run fun _ d => d.onRcmd die
/-- The image that RADDR and RLEN name, fetched through the fabric (R356, R357); none when they name none. -/
def Device.fetchImage (d : Device) (m : Memory) : Option (List Byte) :=
  let a := d.module.rAddr.toNat
  let n := d.module.rLen.toNat
  if a % 4096 = 0 && 1 ≤ n && n ≤ 64 * 2 ^ 20 && regionOf a = .system && regionOf (a + n - 1) = .system then some (d.rdBytes m a n) else none
/-- The reset of a die after its recovery, from whichever state it stands in (R345, R356). -/
def Device.resetDie (d : Device) (n : Nat) : Device := if (d.die n).state = .quarantined then d.restart n else d.onDierst n
/-- Summit's checks of a fetched image for a die: its signature, and its measurement against the manifest (R356). -/
def recoveryOk (die : Nat) (bs : List Byte) : Bool := Config.signedImage bs && Config.sha256 bs == Config.manifest (decide (die < 8))
/-- RECOVERY_COMPLETE (R356), with what the checks come to: the image is fetched, its signature and its measurement are checked, it is
written into the die's slot and the die is reset; or a check fails and the die stays as it is. -/
def execRecoveryComplete (die : Nat) (ok : Bool) (s : State) : Host.Outcome State Fault Refusal :=
  s.run fun m d =>
    if d.module.rStat != 1 || d.module.rDie != die then d
    else
      let done := fun (n : Nat) => { d with module := { d.module with rStat := n } }
      match d.fetchImage m with
      | none => if ok then d else done 3
      | some bs =>
        if ok != recoveryOk die bs then d
        else if ok then ((done 2).modDie die fun x => { x with image := some bs }).resetDie die
        else done 3

/-! ### Attestation (R345 to R348) -/

/-- A step of an attestation fails (R345). -/
def Device.failAttest (d : Device) (die reason : Nat) : Device := d.quarantine die reason
/-- Step k of R347 of the die under attestation: accepted, or the failure's reason. -/
def Device.attest (d : Device) (die k : Nat) (ok : Bool) (reason : Nat) : Device :=
  let x := d.die die
  if x.state != .attesting || d.module.attesting != some die || x.step + 1 != k then d
  else if ok then d.modDie die fun x => { x with step := k }
  else d.failAttest die reason
/-- The order of bring-up (R347). -/
def bringUp : List Nat := [8, 9, 0, 1, 2, 3, 4, 5, 6, 7]
/-- The next die to be attested: at bring-up the first whose turn is not over, after it the one whose request is oldest (R347). -/
def Device.turnOf (d : Device) (die : Nat) : Bool :=
  match bringUp.find? fun n => !d.module.turned.contains n with
  | some n => n == die
  | none => d.module.asks.head? == some die

/-- GET_VERSION (R345, R347): the die enters ATTESTING; SPDM 1.3 is version 0x13. -/
def execGetVersion (die : Nat) (versions : List Nat) (s : State) : Host.Outcome State Fault Refusal :=
  s.run fun _ d =>
    if (d.die die).state != .measured || d.module.attesting.isSome || !d.turnOf die then d
    else
      let d := d.modDie die fun x => { x with state := .attesting, step := 0, since := d.now, attempts := min 255 (x.attempts + 1) }
      { d with module := { d.module with attesting := some die, turned := die :: d.module.turned.filter (· != die),
                                         asks := d.module.asks.filter (· != die) } }.attest die 1 (versions.contains 0x13) 2
/-- GET_CAPABILITIES (R347). -/
def execGetCapabilities (die : Nat) (cert chal meas keyEx encMac : Bool) (s : State) : Host.Outcome State Fault Refusal :=
  s.run fun _ d => d.attest die 2 (cert && chal && meas && keyEx && encMac) 2
/-- NEGOTIATE_ALGORITHMS (R347). -/
def execNegotiateAlgorithms (die : Nat) (rsa3072 sha256 secp384r1 aes256gcm : Bool) (s : State) : Host.Outcome State Fault Refusal :=
  s.run fun _ d => d.attest die 3 (rsa3072 && sha256 && secp384r1 && aes256gcm) 2
/-- GET_DIGESTS (R347). -/
def execGetDigests (die : Nat) (slot0 : Bool) (s : State) : Host.Outcome State Fault Refusal := s.run fun _ d => d.attest die 4 slot0 3
/-- A certificate chain ends at the root that Summit's fuses name, and its leaf names the die's number, its kind and its identity key
(R343, R347). -/
def certOk (die : Nat) (root : BitVec 256) (leaf : Nat × Bool × BitVec 3072) : Bool :=
  root == Config.rootDigest && leaf == (die, decide (die < 8), Config.identityKey die)
/-- GET_CERTIFICATE (R343, R347): the die answers with the chain in its fuses. -/
def execGetCertificate (die : Nat) (root : BitVec 256) (leaf : Nat × Bool × BitVec 3072) (s : State) : Host.Outcome State Fault Refusal :=
  s.run fun _ d => if Config.fusedChain die == (root, leaf) then d.attest die 5 (certOk die root leaf) 3 else d
/-- CHALLENGE (R347). -/
def execChallenge (die : Nat) (verifies : Bool) (s : State) : Host.Outcome State Fault Refusal := s.run fun _ d => d.attest die 6 verifies 4
/-- GET_MEASUREMENTS (R347): signed, and the die's measurement is the manifest's for its kind. -/
def execGetMeasurements (die : Nat) (signed : Bool) (s : State) : Host.Outcome State Fault Refusal :=
  s.run fun _ d => d.attest die 7 (signed && (d.die die).measurement == Config.manifest (decide (die < 8))) (if signed then 5 else 4)
/-- KEY_EXCHANGE (R347). -/
def execKeyExchange (die : Nat) (established : Bool) (s : State) : Host.Outcome State Fault Refusal := s.run fun _ d => d.attest die 8 established 2

/-- Every link direction of the die has its key (R345, R349). -/
def Device.keyed (d : Device) (die : Nat) : Bool := d.links.all fun (l : Link) => (l.src != die && l.dst != die) || l.armed
/-- A die whose session is complete, whose link keys are all installed and whose memory keys stand becomes TRUSTED (R345, R354, R355). -/
def Device.trust (d : Device) (die : Nat) : Device :=
  let x := d.die die
  if x.state = .attesting && x.step = 9 && d.keyed die && (die ≥ 8 || x.memKeys) then
    { d.modDie die fun x => { x with state := .trusted, rolls := 0 } with
      module := { d.module with been := die :: d.module.been.filter (· != die) } }
  else d
/-- FINISH (R345, R347). -/
def execFinish (die : Nat) (completes : Bool) (s : State) : Host.Outcome State Fault Refusal :=
  s.run fun _ d =>
    let x := d.die die
    if x.state != .attesting || x.step != 8 || d.module.attesting != some die then d
    else if !completes then d.failAttest die 2
    else
      let d := d.modDie die fun x => { x with step := 9, session := true }
      { d with module := { d.module with attesting := none } }.trust die
/-- ATTESTATION_TIMEOUT (R345): 250 ms from GET_VERSION. -/
def execAttestationTimeout (die : Nat) (s : State) : Host.Outcome State Fault Refusal :=
  s.run fun _ d =>
    let x := d.die die
    if x.state = .attesting && x.since + 250 * Config.cyclesPerMs ≤ d.now then d.failAttest die 6 else d
/-- RIDGE_REOPEN (R354, R355): Summit has reinstalled the memory keys of a reset ridge. -/
def execRidgeReopen (die : Nat) (s : State) : Host.Outcome State Fault Refusal :=
  s.run fun _ d =>
    let x := d.die die
    if die < 8 && x.state = .attesting && x.step = 9 && d.keyed die then (d.modDie die fun x => { x with memKeys := true }).trust die else d

/-! ### Link keys (R349 to R352) -/

/-- LINK_KEY_INSTALL (R349): a key that Summit draws, within the sessions of both dies. -/
def execLinkKeyInstall (src dst : Nat) (s : State) : Host.Outcome State Fault Refusal :=
  s.run fun _ d =>
    match d.link src dst with
    | none => d
    | some l =>
      if l.armed || !(d.die src).session || !(d.die dst).session then d
      else (({ d with draws := d.draws + 1 }.modLink src dst fun l =>
        { l with keys := [some d.draws, none], sender := false, armed := true, counter := 0, since := d.now }).trust src).trust dst
/-- A direction carries data flits (R345). -/
def Device.carries (d : Device) (l : Link) : Bool := l.armed && d.trusted l.src && d.trusted l.dst
/-- The receiver's key under an identifier (R349). -/
def Link.key (l : Link) (k : Bool) : Option Nat := l.keys.getD k.toNat none
def Link.setKey (l : Link) (k : Bool) (x : Option Nat) : Link := { l with keys := lmod l.keys k.toNat fun _ => x }
/-- The GCM nonce of a flit (R349). -/
def nonce (src dst : Nat) (ctr : BitVec 32) : BitVec 96 := BitVec.ofNat 96 (src % 256 * 2 ^ 88 + dst % 256 * 2 ^ 80 + ctr.toNat)
/-- A flit carries an identifier with an installed key, and its tag is the one of that key (R349, R351). -/
def Link.authentic (l : Link) (key : Bool) (f : Flit) : Bool :=
  match l.key key with
  | some k => Config.gcmTag (Config.linkKey k) (nonce l.src l.dst f.ctr) f.header f.data == f.tag
  | none => false
/-- KEY_ROLLOVER (R350): at the flit limit or after one hour, Summit installs the new key at the receiver. -/
def execKeyRollover (src dst : Nat) (s : State) : Host.Outcome State Fault Refusal :=
  s.run fun _ d =>
    match d.link src dst with
    | none => d
    | some l =>
      if d.carries l && !l.rolling && (l.counter ≥ 2 ^ 32 - 2 ^ 20 || l.since + 3600 * Config.cyclesPerSec ≤ d.now) then
        { d with draws := d.draws + 1 }.modLink src dst fun l =>
          { l.setKey (!l.sender) (some d.draws) with rolling := true, switched := false, accepted := false }
      else d
/-- KEY_SWITCH (R350): at a flit boundary; the counter starts at 0 under the new key (R349). -/
def execKeySwitch (src dst : Nat) (s : State) : Host.Outcome State Fault Refusal :=
  s.run fun _ d =>
    match d.link src dst with
    | none => d
    | some l =>
      if d.carries l && l.rolling && !l.switched then
        d.modLink src dst fun l => { l with sender := !l.sender, switched := true, counter := 0, since := d.now }
      else d
/-- OLD_KEY_RETIRE (R346, R350): the receiver has accepted a flit under the new key. -/
def execOldKeyRetire (src dst : Nat) (s : State) : Host.Outcome State Fault Refusal :=
  s.run fun _ d =>
    match d.link src dst with
    | none => d
    | some l =>
      if d.carries l && l.rolling && l.switched && l.accepted then
        (d.modLink src dst fun l => { l.setKey (!l.sender) none with rolling := false }).modDie src fun x => { x with rolls := min (2 ^ 32 - 1) (x.rolls + 1) }
      else d
/-- FLIT_RECEIVE (R349 to R352): a flit is accepted, or discarded for replay. Before the switch of a rollover no flit carries the new
identifier. The flits that the sender has sent under its key are those with counters up to the highest one accepted. -/
def execFlitReceive (src dst : Nat) (key : Bool) (f : Flit) (s : State) : Host.Outcome State Fault Refusal :=
  s.run fun _ d =>
    match d.link src dst with
    | none => d
    | some l =>
      if !d.carries l then d
      else if l.authentic key f then
        if key != l.sender && l.rolling && !l.switched then d
        else
          d.modLink src dst fun l => { l with badRun := 0, accepted := l.accepted || (l.switched && key == l.sender),
                                              counter := if key == l.sender then max l.counter (f.ctr.toNat + 1) else l.counter }
      else d.modLink src dst fun l =>
        { l with badRun := l.badRun + 1, badTimes := d.now :: l.badTimes.filter fun t => d.now < t + Config.cyclesPerSec }
/-- LINK_FAILURE (R352): 16 failed flits in a row, or 1,024 within one second, quarantine the ridges at the link's ends. -/
def execLinkFailure (src dst : Nat) (s : State) : Host.Outcome State Fault Refusal :=
  s.run fun _ d =>
    match d.link src dst with
    | none => d
    | some l =>
      if d.carries l && (l.badRun ≥ 16 || (l.badTimes.filter fun t => d.now < t + Config.cyclesPerSec).length ≥ 1024) then
        [src, dst].foldl (fun d n => if n < 8 && d.trusted n then d.quarantine n 7 else d) d
      else d

/-! ### Errors of dirty lines (R192) -/

/-- DIRTY_RIDGE_CACHE_LINE_ERROR (R192). -/
def execDirtyRidgeCacheLineError (ridge line : Nat) (s : State) : Host.Outcome State Fault Refusal :=
  s.run fun _ d =>
    match (d.ridge ridge).dirty.find? fun x => x.1 == line with
    | none => d
    | some x =>
      let owner := d.ownerOf line
      let d := d.loseLine ridge x
      match owner with
      | some p => d.emit p { addr := line * 128, cls := 1, kind := 4, code := Code.memoryUncorrectable.num }
      | none => d

/-! ### The segment-form translator (R363, R364) -/

/-- Words that a segment's slots may not hold (R363). -/
def segForbidden : Instr → Bool
  | .bra .. => true
  | .brx .. => true
  | .call .. => true
  | .ret .. => true
  | .split .. => true
  | .join .. => true
  | .brk .. => true
  | .exit .. => true
  | _ => false
/-- The successor word of a segment-form line: NEG, PRED, S1, S0, END, and whether its reserved bits are zero (R363). -/
def segEnd (line : List Byte) : Bool × Nat × Nat × Nat × Nat × Bool :=
  let x := leNat ((line.drop 116).take 12)
  (bit x 67, bits x 66 64, bits x 63 32, bits x 31 2, bits x 1 0, bits x 95 68 == 0)
/-- A line of an image that keeps R363, with the line after it: a constants line, which the image's `ldc` read, or a line of a segment. -/
def segLineOk (line : List Byte) (next : Option (List Byte)) (starts : Nat → Bool) : Bool :=
  let h := headerOf line
  let e := segEnd line
  if headerKind h = 2 then bits h 63 32 == 0 && bits h 29 0 == 0
  else
    headerKind h == 1 && !headerValid h 9 && bits h 63 32 == 0 && e.2.2.2.2.2 &&
    (List.range 9).all (fun i => !headerValid h i || (match decodeBytes (slotBytes line i) with | .ok x => !segForbidden x | .error _ => true)) &&
    (match e.2.2.2.2.1 with
     | 0 => (match next with | some l => headerKind (headerOf l) == 1 | none => false)
     | 1 => starts e.2.2.2.1
     | 2 => starts e.2.2.2.1 && starts e.2.2.1
     | _ => true)
/-- The first line of a segment: a segment line that no line before it continues into (R363). -/
def segStarts (lines : List (List Byte)) (k : Nat) : Bool :=
  (match lines[k]? with | some l => headerKind (headerOf l) == 1 | none => false) &&
  (k = 0 || (match lines[k - 1]? with | some l => headerKind (headerOf l) != 1 || (segEnd l).2.2.2.2.1 != 0 | none => false))
/-- A line that ends by predicate: its two branches stand in a native line of their own. -/
def segForks (line : List Byte) : Bool := headerKind (headerOf line) == 1 && (segEnd line).2.2.2.2.1 == 2
/-- The native line of line k of the image (log 37). -/
def segPos (lines : List (List Byte)) (k : Nat) : Nat := k + ((lines.take k).filter segForks).length
/-- A native line from its slots: a slot 0 that is a branch target, and `nop` where the source has no word. -/
def nativeLine (words : List (List Byte)) (marks : Nat) : List Byte :=
  leBytes 8 (1023 + 2 ^ 10 + marks) ++ words.flatten
def plainHdr : Hdr := ⟨false, 0, 0, false, false⟩
/-- The 12 bytes of an instruction. -/
def codeBytes (i : Instr) : List Byte := leBytes 12 ((encode i).getD 0)
/-- A line displacement, where it reaches (R130). -/
def reach (src dst : Nat) : Option (BitVec 17) :=
  let x := (dst : Int) - src
  if -65536 ≤ x && x ≤ 65535 then some (BitVec.ofInt 17 x) else none
/-- A `bra` in a native line to a slot of another. -/
def braTo (src : Nat) (dst : Nat × Nat) (neg : Bool) (pred : Nat) : Option (List Byte) :=
  (reach src dst.1).map fun x => codeBytes (.bra { plainHdr with gneg := neg, gpred := BitVec.ofNat 3 pred } x (BitVec.ofNat 4 dst.2))

/-- A layout of native lines (log 37): where the native line of a line of the image stands; where a branch of line k to segment t goes; where
the constants line t stands for an `ldc` of line k; the line to which line k goes on where another follows it; and the lines put after
those of line k. -/
structure SegLayout where
  pos   : Nat → Nat
  jump  : Nat → Nat → Nat × Nat
  data  : Nat → Nat → Nat
  skip  : Nat → Option Nat
  after : Nat → Option (List (List Byte))
/-- Every line in order, and nothing between. -/
def SegLayout.plain (lines : List (List Byte)) : SegLayout :=
  { pos := segPos lines, jump := fun _ t => (segPos lines t, 0), data := fun _ t => segPos lines t, skip := fun _ => none, after := fun _ => some [] }

/-- The native word of slot i of line k: the displacement of an `ldc` follows its region. -/
def segWord (y : SegLayout) (lines : List (List Byte)) (k : Nat) (line : List Byte) (i : Nat) : Option (List Byte) :=
  if !headerValid (headerOf line) i then some (codeBytes (.nop plainHdr))
  else
    match decodeBytes (slotBytes line i) with
    | .ok (.ldc h sz d disp off) =>
      let t := (k : Int) + disp.toInt
      if 0 ≤ t && t < lines.length then (reach (y.pos k) (y.data k t.toNat)).map fun x => codeBytes (.ldc h sz d x off)
      else some (slotBytes line i)
    | _ => some (slotBytes line i)
/-- The native lines of line k of the image: a constants line as it stands, a segment line with its end in slot 9, and after it the two
branches of an end by predicate. -/
def segLine (y : SegLayout) (lines : List (List Byte)) (k : Nat) (line : List Byte) : Option (List (List Byte)) :=
  let h := headerOf line
  let e := segEnd line
  let here := y.pos k
  let nop := codeBytes (.nop plainHdr)
  if headerKind h = 2 then some [line]
  else
    let last := match e.2.2.2.2.1 with
      | 0 => (match y.skip k with | some n => braTo here (n, 0) false 0 | none => some nop)
      | 1 => braTo here (y.jump k e.2.2.2.1) false 0
      | 3 => some (codeBytes (.exit plainHdr))
      | _ => some nop
    let patched := (List.range 9).foldl (fun a i => if headerValid h i && bit h (20 + i) then a + 2 ^ (20 + i) else a) 0
    match (List.range 9).mapM (segWord y lines k line), last with
    | some words, some last =>
      let first := nativeLine (words ++ [last]) patched
      if segForks line then
        match braTo (here + 1) (y.jump k e.2.2.1) e.1 e.2.1, braTo (here + 1) (y.jump k e.2.2.2.1) false 0 with
        | some a, some b => some [first, nativeLine (a :: b :: List.replicate 8 nop) 0]
        | _, _ => none
      else some [first]
    | _, _ => none
/-- The native lines of an image from line k on; none where a branch does not reach its segment (log 37). -/
def segTranslate (y : SegLayout) (lines : List (List Byte)) : Nat → List (List Byte) → Option (List (List Byte))
  | _, [] => some []
  | k, l :: ls =>
    match segLine y lines k l, y.after k, segTranslate y lines (k + 1) ls with
    | some a, some b, some c => some (a ++ b ++ c)
    | _, _, _ => none

/-! A longer image is laid out in blocks of lines, each followed by an island: copies of constants lines that its block reads from far
blocks, and branches that pass far jumps on from island to island (log 37). -/

def segBlock : Nat := 4096
/-- The segments that line k names as successors (R363). -/
def segGoes (line : List Byte) : List Nat :=
  let e := segEnd line
  if headerKind (headerOf line) != 1 then []
  else match e.2.2.2.2.1 with
    | 1 => [e.2.2.2.1]
    | 2 => [e.2.2.1, e.2.2.2.1]
    | _ => []
/-- A jump between blocks that are neither the same nor neighbours. -/
def segFar (b t : Nat) : Bool := b + 1 < t || t + 1 < b
/-- The islands that a jump from block b to a far block t passes. -/
def segPasses (b t n : Nat) : Bool := (b ≤ n && n + 2 ≤ t) || (t + 1 ≤ n && n + 1 ≤ b)
/-- The far segments whose jumps pass island n. -/
def segHops (lines : List (List Byte)) (n : Nat) : List Nat :=
  ((imap (fun k l => (segGoes l).filter fun t => segFar (k / segBlock) (t / segBlock) && segPasses (k / segBlock) (t / segBlock) n) 0 lines).flatten).dedup
/-- The constants lines of far blocks that block n reads. -/
def segReads (lines : List (List Byte)) (n : Nat) : List Nat :=
  ((imap (fun k l => (List.range 9).filterMap fun i =>
    if k / segBlock != n || headerKind (headerOf l) != 1 || !headerValid (headerOf l) i then none
    else match decodeBytes (slotBytes l i) with
      | .ok (.ldc _ _ _ disp _) =>
        let t := (k : Int) + disp.toInt
        if 0 ≤ t && t < lines.length && segFar n (t.toNat / segBlock) then some t.toNat else none
      | _ => none) 0 lines).flatten).dedup
/-- The first native line of block n, those of the islands before it counted. -/
def segBase (lines : List (List Byte)) (n : Nat) : Nat :=
  (List.range n).foldl (fun a b => a + (segReads lines b).length + ((segHops lines b).length + 9) / 10) (segPos lines (segBlock * n))
def segAt (lines : List (List Byte)) (k : Nat) : Nat :=
  segBase lines (k / segBlock) + (segPos lines k - segPos lines (k / segBlock * segBlock))
/-- The native line where island n begins. -/
def segIsland (lines : List (List Byte)) (n : Nat) : Nat :=
  segBase lines n + (segPos lines (segBlock * (n + 1)) - segPos lines (segBlock * n))
/-- The branch of island n for a segment. -/
def segHop (lines : List (List Byte)) (n t : Nat) : Nat × Nat :=
  let i := (segHops lines n).idxOf t
  (segIsland lines n + (segReads lines n).length + i / 10, i % 10)
/-- The lines of island n: each branch goes on to the next island on its way, or to its segment. -/
def segIslandLines (lines : List (List Byte)) (n : Nat) : Option (List (List Byte)) :=
  let nop := codeBytes (.nop plainHdr)
  let first := segIsland lines n + (segReads lines n).length
  let one (j : Nat) (t : Nat) : Option (List Byte) :=
    let b := t / segBlock
    braTo (first + j / 10) (if n + 2 < b then segHop lines (n + 1) t else if b + 1 < n then segHop lines (n - 1) t else (segAt lines t, 0)) false 0
  match (imap one 0 (segHops lines n)).mapM id with
  | none => none
  | some ws =>
    some (((segReads lines n).map fun t => lines.getD t []) ++
      (List.range ((ws.length + 9) / 10)).map fun j => nativeLine ((ws.drop (10 * j)).take 10 ++ List.replicate (10 - ((ws.drop (10 * j)).take 10).length) nop) (2 ^ 20 - 2 ^ 11))
def SegLayout.islands (lines : List (List Byte)) : SegLayout :=
  let ends := fun (k : Nat) => k % segBlock == segBlock - 1 || k + 1 == lines.length
  { pos := segAt lines,
    jump := fun k t =>
      let b := k / segBlock
      let c := t / segBlock
      if b + 1 < c then segHop lines b t else if c + 1 < b then segHop lines (b - 1) t else (segAt lines t, 0),
    data := fun k t =>
      if segFar (k / segBlock) (t / segBlock) then segIsland lines (k / segBlock) + (segReads lines (k / segBlock)).idxOf t else segAt lines t,
    skip := fun k => if ends k then some (segAt lines (k + 1)) else none,
    after := fun k => if ends k then segIslandLines lines (k / segBlock) else some [] }
/-- The native lines of an image: in order where every branch and `ldc` reaches, else in blocks with islands (R364; log 37). -/
def segOut (lines : List (List Byte)) : Option (List (List Byte)) :=
  match segTranslate (.plain lines) lines 0 lines with
  | some out => some out
  | none => segTranslate (.islands lines) lines 0 lines
/-- SEGMENT_FORM_TRANSLATOR (R364): reads the lines at src and writes native lines at dst in the code window, or refuses the image and
writes nothing. -/
def execSegmentFormTranslator (part : Nat) (src dst : Nat) (lines : Nat) (s : State) : Host.Outcome State Fault Refusal :=
  s.run fun m d =>
    let q := d.part part
    match d.vread m (d.feRidge part) part src (128 * lines) with
    | (_, .error _) => d
    | (d1, .ok bs) =>
      let ls := (List.range lines).map fun k => (bs.drop (128 * k)).take 128
      let ok := (imap (fun k l => segLineOk l ls[k + 1]? (segStarts ls)) 0 ls).all id
      if dst % 128 != 0 || !ok then d
      else
        match segOut ls with
        | none => d
        | some out =>
          if !(List.range out.length).all (fun k => q.window (dst + 128 * k)) then d
          else
          match d1.vwrite m (d.feRidge part) part dst out.flatten with
          | (d, .ok _) => d
          | (_, .error _) => d

end Sys2Proof.Machine
end

