-- ==== Sys2Proof/Machine/Window.lean ====
section
/-! DEFINITION. The management window: what its words read, what a write to each does, and a host's access to it at a port (R32, R33, R182,
R237, R304, R331, R346, R357). -/

namespace Sys2Proof.Machine

open Sys2Proof

/-! ### What the management window reads (R32, R33, R304, R331, R346, R357) -/

def DieState.num : DieState → Nat
  | .off => 0 | .booting => 1 | .measured => 2 | .attesting => 3 | .trusted => 4 | .quarantined => 5
/-- The trust status word (R346). -/
def Die.word (x : Die) : Nat := x.state.num + x.reason * 2 ^ 8 + x.attempts * 2 ^ 24 + x.rolls * 2 ^ 32
/-- PSTAT (R331). -/
def Part.pstat (q : Part) : Nat :=
  (if !q.active then 0 else if q.suspended then 2 else 1) + q.resetting.isSome.toNat * 4 + q.resetDone.toNat * 8 + q.refused.toNat * 16 +
  q.saving.toNat * 32 + q.snapIdx * 256
/-- A word of a partition block (R331). -/
def Part.readWord (q : Part) (off : Nat) : Nat :=
  if off < 0x80 then fld q.reg (8 * off + 63) (8 * off)
  else if 0x100 ≤ off && off < 0x180 then
    (List.range 4).foldl (fun a i => a + (match aget q.counters ((off - 0x100) / 2 + i) with | some c => c.sel | none => 0) * 2 ^ (16 * i)) 0
  else if off = 0x088 then q.pstat
  else if off = 0x098 then q.frRd.toNat
  else if off = 0x0A0 then q.frWr.toNat
  else if off = 0x0A8 then q.frLost.toNat
  else if off = 0x0B0 then q.srRd.toNat
  else if off = 0x0B8 then q.srWr.toNat
  else if off = 0x0C0 then q.srDrop.toNat
  else if off = 0x0C8 then q.slice.toNat
  else if off = 0x0D0 then q.stBase.toNat
  else if off = 0x0D8 then q.stCnt.toNat
  else if off = 0x0F0 then q.debugReg.toNat
  else if off = 0x180 then q.dbgPc.toNat
  else 0
/-- A word of a launch queue's entry (R304). -/
def Queue.readWord (x : Queue) (off : Nat) : Nat :=
  if off = 0x00 then x.base.toNat
  else if off = 0x08 then x.cnt.toNat
  else if off = 0x10 then x.cfg.toNat
  else if off = 0x18 then x.wr.toNat
  else if off = 0x20 then x.rd.toNat
  else if off = 0x28 then x.reg.toNat + x.faulted.toNat * 2
  else if off = 0x30 then x.compl.toNat
  else 0
/-- What an aligned 8-byte read of the management window returns (R32). -/
def Device.mgmtRead (d : Device) (off : Nat) : Nat :=
  if off % 8 != 0 then 0
  else if off < 0x1000 then identity off
  else if off = 0x1018 then d.module.ptpCfg.toNat
  else if off = 0x1038 then ((List.range 10).all d.module.been.contains).toNat + d.module.heldBy.toNat * 2
  else if 0x1100 ≤ off && off < 0x1150 then (d.die ((off - 0x1100) / 8)).word
  else if off = 0x1200 then d.module.rAddr.toNat
  else if off = 0x1208 then d.module.rLen.toNat
  else if off = 0x1218 then d.module.rStat + d.module.rDie * 256
  else if 0x2000 ≤ off && off < 0x4000 then (d.part ((off - 0x2000) / 0x200)).readWord ((off - 0x2000) % 0x200)
  else if 0x4000 ≤ off && off < 0x8000 then
    (nth (d.front ((off - 0x4000) / 0x400)).queues ((off - 0x4000) % 0x400 / 0x40) Queue.fresh).readWord ((off - 0x4000) % 0x40)
  else if 0x80000 ≤ off && off < 0x100000 then
    leNat ((List.range 8).map fun i => (d.ridge ((off - 0x80000) / 0x10000)).storeByte ((off - 0x80000) % 0x10000 + i))
  else 0


/-! ### What a write does -/

/-- A write of the module control block (R33): WARZ words act on the value written. -/
def Device.writeModule (d : Device) (off v : Nat) : Device :=
  if off = 0x00 then (if bit v 0 then d.onMreset else d)
  else if off = 0x08 then (if bit v 8 then d.onDierst (v % 16) else d)
  else if off = 0x10 then (if bit v 8 then d.onQuar (v % 16) else d)
  else if off = 0x18 then { d with module := { d.module with ptpCfg := BitVec.ofNat 64 v &&& 0x73F } }
  else if off = 0x20 then d.onPtpstep (BitVec.ofNat 64 v)
  else if off = 0x28 then d.onKeyregen (bits v 5 0)
  else if off = 0x30 then (if bit v 16 then d.onEngrst (bits v 8 0) (bits v 10 9) else d)
  else d
/-- PCMD (R331). -/
def Device.partCommand (d : Device) (p cmd : Nat) : Device :=
  if (d.part p).resetting.isSome then d
  else if cmd = 1 then d.onActivate p
  else if cmd = 2 then d.onDeactivate p
  else if cmd = 3 then d.onPartitionReset p
  else if cmd = 4 then d.onSnapshot p
  else if cmd = 5 then d.endSlice p 0
  else if cmd = 6 then d.onResume p
  else if cmd = 7 then d.onMigrationStop p
  else if cmd = 8 then d.onMigrationStart p
  else d
/-- A write of a partition block (R331). -/
def Device.writeBlock (d : Device) (m : Memory) (p off v : Nat) : Device :=
  if off = 0x080 then d.partCommand p (bits v 7 0)
  else if off = 0x090 then d.onResolve p (bits v 56 16 * 65536) (bits v 7 0)
  else if off = 0x0E0 then
    (if bit v 16 then d.onStationActivate m p (bits v 11 0) else if bit v 17 then d.onStationDeactivate p (bits v 11 0) else d)
  else if off = 0x0E8 then
    (if bit v 16 then d.onLoan p (bits v 6 0) (bits v 11 8) else if bit v 17 then d.onReclaim p (bits v 6 0) (bits v 11 8) else d)
  else if off = 0x0F8 then
    (if bit v 24 then d.onDbgrel p ⟨bits v 8 0, bits v 12 9, bits v 17 13, bits v 22 18⟩ (bit v 23) else d)
  else d.writePart p off v
/-- A write of a launch queue's entry (R304): a write to QCFG with REG registers the queue, one with UNREG removes it. -/
def Device.writeEntry (d : Device) (m : Memory) (fe q off v : Nat) : Device :=
  if off = 0x10 && bit v 16 then d.onQueueRegister m fe q (BitVec.ofNat 64 v)
  else if off = 0x10 && bit v 17 then (d.writeQueue fe q off v).onQueueUnregister fe q
  else if off = 0x18 then d.onQwr fe q (BitVec.ofNat 32 v)
  else d.writeQueue fe q off v
/-- An aligned 8-byte write of the management window (R32). -/
def Device.mgmtWrite (d : Device) (m : Memory) (off v : Nat) : Device :=
  if off % 8 != 0 then d
  else if 0x1000 ≤ off && off < 0x1100 then d.writeModule (off - 0x1000) v
  else if off = 0x1200 then { d with module := { d.module with rAddr := BitVec.ofNat 64 v } }
  else if off = 0x1208 then { d with module := { d.module with rLen := BitVec.ofNat 64 v } }
  else if off = 0x1210 then (if bit v 8 then d.onRcmd (v % 16) else d)
  else if 0x2000 ≤ off && off < 0x4000 then d.writeBlock m ((off - 0x2000) / 0x200) ((off - 0x2000) % 0x200) v
  else if 0x4000 ≤ off && off < 0x8000 then d.writeEntry m ((off - 0x4000) / 0x400) ((off - 0x4000) % 0x400 / 0x40) ((off - 0x4000) % 0x40) v
  else if 0x80000 ≤ off && off < 0x100000 then
    d.modRidge ((off - 0x80000) / 0x10000) fun r =>
      { r with store := (List.range 8).foldl (fun l i => aset l ((off - 0x80000) % 0x10000 + i) (BitVec.ofNat 8 (v / 2 ^ (8 * i)))) r.store }
  else d
/-- MGMT_REGISTER_WRITE (R32): a word with no behaviour of its own stores the value; a word with one acts by it; any other write is
ignored. -/
def execMgmtRegisterWrite (off : Nat) (value : BitVec 64) (s : State) : Host.Outcome State Fault Refusal :=
  s.run fun m d => d.mgmtWrite m off value.toNat

/-- A host's access to the management window, as the model's view 17 (R32; log 76): 8 bytes, aligned; any other read returns zero, and such
a write is ignored. -/
def Device.hostWindow (d : Device) (m : Memory) (r : HostReq) : Device :=
  if r.write then (if r.data.length = 8 then d.mgmtWrite m r.addr (leNat r.data) else d).reply r.port 1
  else d.reply r.port (1 + if r.len = 8 then d.mgmtRead r.addr else 0)
/-- HOST_MEMORY_REQUEST (R32, R189, R237). -/
def execHostMemoryRequest (r : HostReq) (s : State) : Host.Outcome State Fault Refusal :=
  s.run fun m d => if r.view = 17 && r.port < 64 then d.hostWindow m r else d.hostMemory m r

end Sys2Proof.Machine
end

