-- ==== Sys2Proof/Machine/Dispatch.lean ====
section
/-! DEFINITION. `exec`: one arm for each constructor of `Instr`, each one call of its meaning. -/

namespace Sys2Proof.Machine

open Sys2Proof

def exec (i : Instr) (s : State) : Host.Outcome State Fault Refusal :=
  match i with
  | .nop x1 => Sys2Proof.Machine.execNop x1 s
  | .bra x1 x2 x3 => Sys2Proof.Machine.execBra x1 x2 x3 s
  | .brx x1 x2 => Sys2Proof.Machine.execBrx x1 x2 s
  | .call x1 x2 x3 x4 => Sys2Proof.Machine.execCall x1 x2 x3 x4 s
  | .ret x1 x2 => Sys2Proof.Machine.execRet x1 x2 s
  | .split x1 x2 x3 => Sys2Proof.Machine.execSplit x1 x2 x3 s
  | .join x1 => Sys2Proof.Machine.execJoin x1 s
  | .brk x1 x2 x3 x4 => Sys2Proof.Machine.execBrk x1 x2 x3 x4 s
  | .exit x1 => Sys2Proof.Machine.execExit x1 s
  | .yield x1 => Sys2Proof.Machine.execYield x1 s
  | .trap x1 x2 => Sys2Proof.Machine.execTrap x1 x2 s
  | .trapDbg x1 x2 => Sys2Proof.Machine.execTrapDbg x1 x2 s
  | .spawn x1 x2 x3 x4 => Sys2Proof.Machine.execSpawn x1 x2 x3 x4 s
  | .cwait x1 x2 => Sys2Proof.Machine.execCwait x1 x2 s
  | .cwaitAll x1 => Sys2Proof.Machine.execCwaitAll x1 s
  | .sleep x1 x2 => Sys2Proof.Machine.execSleep x1 x2 s
  | .mov x1 x2 x3 x4 => Sys2Proof.Machine.execMov x1 x2 x3 x4 s
  | .drop x1 x2 x3 x4 => Sys2Proof.Machine.execDrop x1 x2 x3 x4 s
  | .keep x1 x2 x3 x4 => Sys2Proof.Machine.execKeep x1 x2 x3 x4 s
  | .live x1 x2 x3 => Sys2Proof.Machine.execLive x1 x2 x3 s
  | .iadd x1 x2 => Sys2Proof.Machine.execIadd x1 x2 s
  | .isub x1 x2 => Sys2Proof.Machine.execIsub x1 x2 s
  | .imul x1 x2 => Sys2Proof.Machine.execImul x1 x2 s
  | .imulh x1 x2 x3 => Sys2Proof.Machine.execImulh x1 x2 x3 s
  | .imad x1 x2 => Sys2Proof.Machine.execImad x1 x2 s
  | .imadw x1 x2 x3 => Sys2Proof.Machine.execImadw x1 x2 x3 s
  | .imin x1 x2 x3 => Sys2Proof.Machine.execImin x1 x2 x3 s
  | .imax x1 x2 x3 => Sys2Proof.Machine.execImax x1 x2 x3 s
  | .iabs x1 x2 x3 => Sys2Proof.Machine.execIabs x1 x2 x3 s
  | .and x1 x2 => Sys2Proof.Machine.execAnd x1 x2 s
  | .or x1 x2 => Sys2Proof.Machine.execOr x1 x2 s
  | .xor x1 x2 => Sys2Proof.Machine.execXor x1 x2 s
  | .not x1 x2 x3 => Sys2Proof.Machine.execNot x1 x2 x3 s
  | .shl x1 x2 => Sys2Proof.Machine.execShl x1 x2 s
  | .shr x1 x2 => Sys2Proof.Machine.execShr x1 x2 s
  | .sar x1 x2 => Sys2Proof.Machine.execSar x1 x2 s
  | .bfx x1 x2 x3 => Sys2Proof.Machine.execBfx x1 x2 x3 s
  | .bfi x1 x2 => Sys2Proof.Machine.execBfi x1 x2 s
  | .popc x1 x2 x3 => Sys2Proof.Machine.execPopc x1 x2 x3 s
  | .clz x1 x2 x3 => Sys2Proof.Machine.execClz x1 x2 x3 s
  | .icmp x1 x2 => Sys2Proof.Machine.execIcmp x1 x2 s
  | .sel x1 x2 x3 => Sys2Proof.Machine.execSel x1 x2 x3 s
  | .iadds x1 x2 x3 => Sys2Proof.Machine.execIadds x1 x2 x3 s
  | .lea x1 x2 x3 x4 => Sys2Proof.Machine.execLea x1 x2 x3 x4 s
  | .sadd x1 x2 => Sys2Proof.Machine.execSadd x1 x2 s
  | .ssub x1 x2 => Sys2Proof.Machine.execSsub x1 x2 s
  | .smul x1 x2 => Sys2Proof.Machine.execSmul x1 x2 s
  | .smov x1 x2 x3 => Sys2Proof.Machine.execSmov x1 x2 x3 s
  | .scmp x1 x2 => Sys2Proof.Machine.execScmp x1 x2 s
  | .sbcast x1 x2 x3 => Sys2Proof.Machine.execSbcast x1 x2 x3 s
  | .sget x1 x2 x3 => Sys2Proof.Machine.execSget x1 x2 x3 s
  | .sand x1 x2 x3 => Sys2Proof.Machine.execSand x1 x2 x3 s
  | .fadd x1 x2 x3 => Sys2Proof.Machine.execFadd x1 x2 x3 s
  | .fsub x1 x2 x3 => Sys2Proof.Machine.execFsub x1 x2 x3 s
  | .fmul x1 x2 x3 => Sys2Proof.Machine.execFmul x1 x2 x3 s
  | .ffma x1 x2 x3 => Sys2Proof.Machine.execFfma x1 x2 x3 s
  | .fmin x1 x2 x3 => Sys2Proof.Machine.execFmin x1 x2 x3 s
  | .fmax x1 x2 x3 => Sys2Proof.Machine.execFmax x1 x2 x3 s
  | .fcmp x1 x2 => Sys2Proof.Machine.execFcmp x1 x2 s
  | .frnd x1 x2 x3 x4 => Sys2Proof.Machine.execFrnd x1 x2 x3 x4 s
  | .frcp x1 x2 x3 x4 => Sys2Proof.Machine.execFrcp x1 x2 x3 x4 s
  | .frsq x1 x2 x3 x4 => Sys2Proof.Machine.execFrsq x1 x2 x3 x4 s
  | .fsqrt x1 x2 x3 x4 => Sys2Proof.Machine.execFsqrt x1 x2 x3 x4 s
  | .fex2 x1 x2 x3 x4 => Sys2Proof.Machine.execFex2 x1 x2 x3 x4 s
  | .flg2 x1 x2 x3 x4 => Sys2Proof.Machine.execFlg2 x1 x2 x3 x4 s
  | .fsin x1 x2 x3 x4 => Sys2Proof.Machine.execFsin x1 x2 x3 x4 s
  | .fcos x1 x2 x3 x4 => Sys2Proof.Machine.execFcos x1 x2 x3 x4 s
  | .fdiv x1 x2 x3 => Sys2Proof.Machine.execFdiv x1 x2 x3 s
  | .dadd x1 x2 x3 => Sys2Proof.Machine.execDadd x1 x2 x3 s
  | .dmul x1 x2 x3 => Sys2Proof.Machine.execDmul x1 x2 x3 s
  | .dfma x1 x2 x3 => Sys2Proof.Machine.execDfma x1 x2 x3 s
  | .dcmp x1 x2 => Sys2Proof.Machine.execDcmp x1 x2 s
  | .hadd2 x1 x2 x3 x4 => Sys2Proof.Machine.execHadd2 x1 x2 x3 x4 s
  | .hmul2 x1 x2 x3 x4 => Sys2Proof.Machine.execHmul2 x1 x2 x3 x4 s
  | .hfma2 x1 x2 x3 x4 => Sys2Proof.Machine.execHfma2 x1 x2 x3 x4 s
  | .hmax2 x1 x2 x3 x4 => Sys2Proof.Machine.execHmax2 x1 x2 x3 x4 s
  | .cvt x1 x2 x3 x4 x5 x6 x7 => Sys2Proof.Machine.execCvt x1 x2 x3 x4 x5 x6 x7 s
  | .cvtn x1 x2 x3 x4 x5 => Sys2Proof.Machine.execCvtn x1 x2 x3 x4 x5 s
  | .cvtw x1 x2 x3 x4 x5 => Sys2Proof.Machine.execCvtw x1 x2 x3 x4 x5 s
  | .scl x1 x2 x3 => Sys2Proof.Machine.execScl x1 x2 x3 s
  | .pk2 x1 x2 x3 x4 x5 => Sys2Proof.Machine.execPk2 x1 x2 x3 x4 x5 s
  | .unpk x1 x2 x3 x4 => Sys2Proof.Machine.execUnpk x1 x2 x3 x4 s
  | .fcls x1 x2 x3 x4 => Sys2Proof.Machine.execFcls x1 x2 x3 x4 s
  | .shfl x1 x2 x3 x4 x5 => Sys2Proof.Machine.execShfl x1 x2 x3 x4 x5 s
  | .vote x1 x2 x3 x4 => Sys2Proof.Machine.execVote x1 x2 x3 x4 s
  | .ballot x1 x2 x3 => Sys2Proof.Machine.execBallot x1 x2 x3 s
  | .redux x1 x2 x3 x4 => Sys2Proof.Machine.execRedux x1 x2 x3 x4 s
  | .scan x1 x2 x3 x4 x5 => Sys2Proof.Machine.execScan x1 x2 x3 x4 x5 s
  | .topk x1 x2 x3 x4 => Sys2Proof.Machine.execTopk x1 x2 x3 x4 s
  | .ld x1 x2 => Sys2Proof.Machine.execLd x1 x2 s
  | .st x1 x2 => Sys2Proof.Machine.execSt x1 x2 s
  | .lds x1 x2 => Sys2Proof.Machine.execLds x1 x2 s
  | .sts x1 x2 => Sys2Proof.Machine.execSts x1 x2 s
  | .ldp x1 x2 => Sys2Proof.Machine.execLdp x1 x2 s
  | .stp x1 x2 => Sys2Proof.Machine.execStp x1 x2 s
  | .sld x1 x2 x3 x4 x5 x6 x7 => Sys2Proof.Machine.execSld x1 x2 x3 x4 x5 x6 x7 s
  | .ldc x1 x2 x3 x4 x5 => Sys2Proof.Machine.execLdc x1 x2 x3 x4 x5 s
  | .pref x1 x2 x3 x4 => Sys2Proof.Machine.execPref x1 x2 x3 x4 s
  | .bsub x1 x2 x3 x4 x5 x6 => Sys2Proof.Machine.execBsub x1 x2 x3 x4 x5 x6 s
  | .bget x1 x2 x3 x4 => Sys2Proof.Machine.execBget x1 x2 x3 x4 s
  | .fence x1 x2 x3 => Sys2Proof.Machine.execFence x1 x2 x3 s
  | .atom x1 x2 x3 x4 x5 x6 x7 x8 => Sys2Proof.Machine.execAtom x1 x2 x3 x4 x5 x6 x7 x8 s
  | .acas x1 x2 x3 x4 x5 x6 x7 => Sys2Proof.Machine.execAcas x1 x2 x3 x4 x5 x6 x7 s
  | .afadd x1 x2 x3 x4 x5 x6 x7 x8 => Sys2Proof.Machine.execAfadd x1 x2 x3 x4 x5 x6 x7 x8 s
  | .red x1 x2 x3 x4 x5 x6 x7 => Sys2Proof.Machine.execRed x1 x2 x3 x4 x5 x6 x7 s
  | .binit x1 x2 x3 x4 x5 => Sys2Proof.Machine.execBinit x1 x2 x3 x4 x5 s
  | .barv x1 x2 x3 x4 x5 x6 => Sys2Proof.Machine.execBarv x1 x2 x3 x4 x5 x6 s
  | .bexp x1 x2 x3 x4 x5 => Sys2Proof.Machine.execBexp x1 x2 x3 x4 x5 s
  | .bwait x1 x2 x3 x4 x5 x6 => Sys2Proof.Machine.execBwait x1 x2 x3 x4 x5 x6 s
  | .btry x1 x2 x3 x4 x5 x6 => Sys2Proof.Machine.execBtry x1 x2 x3 x4 x5 x6 s
  | .bar x1 x2 x3 x4 x5 x6 => Sys2Proof.Machine.execBar x1 x2 x3 x4 x5 x6 s
  | .mldw x1 x2 x3 x4 => Sys2Proof.Machine.execMldw x1 x2 x3 x4 s
  | .mma x1 x2 => Sys2Proof.Machine.execMma x1 x2 s
  | .mmar x1 x2 => Sys2Proof.Machine.execMmar x1 x2 s
  | .mfnc x1 x2 x3 => Sys2Proof.Machine.execMfnc x1 x2 x3 s
  | .mwait x1 x2 => Sys2Proof.Machine.execMwait x1 x2 s
  | .mrd x1 x2 x3 x4 x5 => Sys2Proof.Machine.execMrd x1 x2 x3 x4 x5 s
  | .mzero x1 x2 x3 => Sys2Proof.Machine.execMzero x1 x2 x3 s
  | .mwr x1 x2 x3 x4 x5 => Sys2Proof.Machine.execMwr x1 x2 x3 x4 x5 s
  | .mtag x1 x2 x3 x4 x5 => Sys2Proof.Machine.execMtag x1 x2 x3 x4 x5 s
  | .mstat x1 x2 x3 => Sys2Proof.Machine.execMstat x1 x2 x3 s
  | .mst x1 x2 x3 x4 x5 x6 => Sys2Proof.Machine.execMst x1 x2 x3 x4 x5 x6 s
  | .gset x1 x2 x3 => Sys2Proof.Machine.execGset x1 x2 x3 s
  | .gclr x1 x2 => Sys2Proof.Machine.execGclr x1 x2 s
  | .gtst x1 x2 x3 x4 => Sys2Proof.Machine.execGtst x1 x2 x3 x4 s
  | .cpy x1 x2 x3 x4 => Sys2Proof.Machine.execCpy x1 x2 x3 x4 s
  | .cpyg x1 x2 x3 x4 x5 => Sys2Proof.Machine.execCpyg x1 x2 x3 x4 x5 s
  | .cpys x1 x2 x3 x4 x5 => Sys2Proof.Machine.execCpys x1 x2 x3 x4 x5 s
  | .cpyc x1 x2 => Sys2Proof.Machine.execCpyc x1 x2 s
  | .cpyr x1 x2 x3 x4 x5 => Sys2Proof.Machine.execCpyr x1 x2 x3 x4 x5 s
  | .cseq x1 x2 x3 => Sys2Proof.Machine.execCseq x1 x2 x3 s
  | .cpyw x1 x2 => Sys2Proof.Machine.execCpyw x1 x2 s
  | .rsv x1 x2 x3 x4 x5 x6 => Sys2Proof.Machine.execRsv x1 x2 x3 x4 x5 x6 s
  | .route x1 x2 x3 x4 => Sys2Proof.Machine.execRoute x1 x2 x3 x4 s
  | .rret x1 x2 x3 => Sys2Proof.Machine.execRret x1 x2 x3 s
  | .rwait x1 x2 => Sys2Proof.Machine.execRwait x1 x2 s
  | .rstat x1 x2 x3 x4 => Sys2Proof.Machine.execRstat x1 x2 x3 x4 s
  | .stile x1 x2 x3 => Sys2Proof.Machine.execStile x1 x2 x3 s
  | .sflush x1 x2 => Sys2Proof.Machine.execSflush x1 x2 s
  | .rfree x1 x2 => Sys2Proof.Machine.execRfree x1 x2 s
  | .csr x1 x2 x3 => Sys2Proof.Machine.execCsr x1 x2 x3 s
  | .csw x1 x2 x3 => Sys2Proof.Machine.execCsw x1 x2 x3 s
  | .tret x1 x2 => Sys2Proof.Machine.execTret x1 x2 s
  | .nsave x1 x2 x3 x4 => Sys2Proof.Machine.execNsave x1 x2 x3 x4 s
  | .nload x1 x2 x3 x4 => Sys2Proof.Machine.execNload x1 x2 x3 x4 s
  | .tstamp x1 x2 x3 x4 => Sys2Proof.Machine.execTstamp x1 x2 x3 x4 s
  | .cntr x1 x2 x3 => Sys2Proof.Machine.execCntr x1 x2 x3 s
  | .probe x1 x2 x3 => Sys2Proof.Machine.execProbe x1 x2 x3 s
  | .icinv x1 x2 => Sys2Proof.Machine.execIcinv x1 x2 s
  | .mark x1 x2 => Sys2Proof.Machine.execMark x1 x2 s
  | .hnear x1 x2 x3 x4 => Sys2Proof.Machine.execHnear x1 x2 x3 x4 s
  | .hest x1 x2 => Sys2Proof.Machine.execHest x1 x2 s
  | .unimplementedHint x1 x2 => Sys2Proof.Machine.execUnimplementedHint x1 x2 s
  | .bundleStart x1 x2 => Sys2Proof.Machine.execBundleStart x1 x2 s
  | .joinRelease x1 => Sys2Proof.Machine.execJoinRelease x1 s
  | .pendingValueArrive x1 x2 => Sys2Proof.Machine.execPendingValueArrive x1 x2 s
  | .rowFree x1 x2 => Sys2Proof.Machine.execRowFree x1 x2 s
  | .rowsGranted x1 x2 => Sys2Proof.Machine.execRowsGranted x1 x2 s
  | .allocationDeadlock x1 x2 => Sys2Proof.Machine.execAllocationDeadlock x1 x2 s
  | .rowEvict x1 x2 => Sys2Proof.Machine.execRowEvict x1 x2 s
  | .rowRestore x1 => Sys2Proof.Machine.execRowRestore x1 s
  | .storeLeave x1 x2 => Sys2Proof.Machine.execStoreLeave x1 x2 s
  | .markerRetire x1 x2 => Sys2Proof.Machine.execMarkerRetire x1 x2 s
  | .loadPerform x1 x2 => Sys2Proof.Machine.execLoadPerform x1 x2 s
  | .reductionCombine x1 x2 => Sys2Proof.Machine.execReductionCombine x1 x2 s
  | .reductionApply x1 => Sys2Proof.Machine.execReductionApply x1 s
  | .barrierWake x1 => Sys2Proof.Machine.execBarrierWake x1 s
  | .barrierTimeout x1 => Sys2Proof.Machine.execBarrierTimeout x1 s
  | .sleepWake x1 => Sys2Proof.Machine.execSleepWake x1 s
  | .cwaitWake x1 => Sys2Proof.Machine.execCwaitWake x1 s
  | .mwaitWake x1 => Sys2Proof.Machine.execMwaitWake x1 s
  | .cpywWake x1 => Sys2Proof.Machine.execCpywWake x1 s
  | .rwaitWake x1 => Sys2Proof.Machine.execRwaitWake x1 s
  | .rsvEntryFreed x1 => Sys2Proof.Machine.execRsvEntryFreed x1 s
  | .spawnHoldRelease x1 => Sys2Proof.Machine.execSpawnHoldRelease x1 s
  | .spawnSubmit x1 x2 => Sys2Proof.Machine.execSpawnSubmit x1 x2 s
  | .tlbMissWalk x1 x2 x3 x4 => Sys2Proof.Machine.execTlbMissWalk x1 x2 x3 x4 s
  | .walkStopped x1 x2 x3 x4 => Sys2Proof.Machine.execWalkStopped x1 x2 x3 x4 s
  | .matrixCommandStart x1 => Sys2Proof.Machine.execMatrixCommandStart x1 s
  | .engineReadMove x1 x2 x3 => Sys2Proof.Machine.execEngineReadMove x1 x2 x3 s
  | .engineWriteMove x1 x2 x3 => Sys2Proof.Machine.execEngineWriteMove x1 x2 x3 s
  | .commandRetire x1 => Sys2Proof.Machine.execCommandRetire x1 s
  | .operandReadyRetire x1 x2 => Sys2Proof.Machine.execOperandReadyRetire x1 x2 s
  | .powerLeaveGrant x1 => Sys2Proof.Machine.execPowerLeaveGrant x1 s
  | .shadowResolve x1 x2 x3 => Sys2Proof.Machine.execShadowResolve x1 x2 x3 s
  | .chainEntry x1 => Sys2Proof.Machine.execChainEntry x1 s
  | .pinTimeout x1 x2 => Sys2Proof.Machine.execPinTimeout x1 x2 s
  | .engineHangTimeout x1 x2 => Sys2Proof.Machine.execEngineHangTimeout x1 x2 s
  | .engineReturnToService x1 x2 => Sys2Proof.Machine.execEngineReturnToService x1 x2 s
  | .routeTableRead x1 => Sys2Proof.Machine.execRouteTableRead x1 s
  | .routeStallResume x1 => Sys2Proof.Machine.execRouteStallResume x1 s
  | .recordStoreResolve x1 => Sys2Proof.Machine.execRecordStoreResolve x1 s
  | .flushTimerExpiry x1 x2 => Sys2Proof.Machine.execFlushTimerExpiry x1 x2 s
  | .stationTeamLaunch x1 x2 => Sys2Proof.Machine.execStationTeamLaunch x1 x2 s
  | .rretClaim x1 => Sys2Proof.Machine.execRretClaim x1 s
  | .rretArrival x1 => Sys2Proof.Machine.execRretArrival x1 s
  | .reservationTimeout x1 x2 => Sys2Proof.Machine.execReservationTimeout x1 x2 s
  | .rowCombine x1 x2 x3 => Sys2Proof.Machine.execRowCombine x1 x2 x3 s
  | .icinvDrop x1 => Sys2Proof.Machine.execIcinvDrop x1 s
  | .tstampFenceSample x1 => Sys2Proof.Machine.execTstampFenceSample x1 s
  | .teamRetire x1 x2 => Sys2Proof.Machine.execTeamRetire x1 x2 s
  | .gridRetire x1 x2 => Sys2Proof.Machine.execGridRetire x1 x2 s
  | .launchAccept x1 => Sys2Proof.Machine.execLaunchAccept x1 s
  | .teamPlace x1 => Sys2Proof.Machine.execTeamPlace x1 s
  | .asyncFaultDelivery x1 => Sys2Proof.Machine.execAsyncFaultDelivery x1 s
  | .sliceTimerExpiry x1 => Sys2Proof.Machine.execSliceTimerExpiry x1 s
  | .sliceEndEntry x1 => Sys2Proof.Machine.execSliceEndEntry x1 s
  | .budgetExpiry x1 => Sys2Proof.Machine.execBudgetExpiry x1 s
  | .saveDrainTimeout x1 x2 => Sys2Proof.Machine.execSaveDrainTimeout x1 x2 s
  | .teamSave x1 x2 => Sys2Proof.Machine.execTeamSave x1 x2 s
  | .teamRestore x1 => Sys2Proof.Machine.execTeamRestore x1 s
  | .hostMemoryRequest x1 => Sys2Proof.Machine.execHostMemoryRequest x1 s
  | .hostAtomicRead x1 => Sys2Proof.Machine.execHostAtomicRead x1 s
  | .hostAtomicWrite x1 => Sys2Proof.Machine.execHostAtomicWrite x1 s
  | .mreset => Sys2Proof.Machine.execMreset s
  | .dierst x1 => Sys2Proof.Machine.execDierst x1 s
  | .quar x1 => Sys2Proof.Machine.execQuar x1 s
  | .ptpstep x1 => Sys2Proof.Machine.execPtpstep x1 s
  | .keyregen x1 => Sys2Proof.Machine.execKeyregen x1 s
  | .engrst x1 x2 => Sys2Proof.Machine.execEngrst x1 x2 s
  | .activate x1 => Sys2Proof.Machine.execActivate x1 s
  | .deactivate x1 => Sys2Proof.Machine.execDeactivate x1 s
  | .partitionReset x1 => Sys2Proof.Machine.execPartitionReset x1 s
  | .resetDrainTimeout x1 => Sys2Proof.Machine.execResetDrainTimeout x1 s
  | .endSlice x1 => Sys2Proof.Machine.execEndSlice x1 s
  | .resume x1 => Sys2Proof.Machine.execResume x1 s
  | .resolve x1 x2 x3 => Sys2Proof.Machine.execResolve x1 x2 x3 s
  | .stationActivate x1 x2 => Sys2Proof.Machine.execStationActivate x1 x2 s
  | .stationDeactivate x1 x2 => Sys2Proof.Machine.execStationDeactivate x1 x2 s
  | .queueRegister x1 x2 x3 => Sys2Proof.Machine.execQueueRegister x1 x2 x3 s
  | .queueUnregister x1 x2 => Sys2Proof.Machine.execQueueUnregister x1 x2 s
  | .qwr x1 x2 x3 => Sys2Proof.Machine.execQwr x1 x2 x3 s
  | .pcSample x1 x2 => Sys2Proof.Machine.execPcSample x1 x2 s
  | .counterRotate x1 => Sys2Proof.Machine.execCounterRotate x1 s
  | .attestationTimeout x1 => Sys2Proof.Machine.execAttestationTimeout x1 s
  | .keyRollover x1 x2 => Sys2Proof.Machine.execKeyRollover x1 x2 s
  | .keySwitch x1 x2 => Sys2Proof.Machine.execKeySwitch x1 x2 s
  | .oldKeyRetire x1 x2 => Sys2Proof.Machine.execOldKeyRetire x1 x2 s
  | .linkFailure x1 x2 => Sys2Proof.Machine.execLinkFailure x1 x2 s
  | .dieQuarantine x1 => Sys2Proof.Machine.execDieQuarantine x1 s
  | .tlbInvalidation x1 x2 => Sys2Proof.Machine.execTlbInvalidation x1 x2 s
  | .snapshot x1 => Sys2Proof.Machine.execSnapshot x1 s
  | .migrationStop x1 => Sys2Proof.Machine.execMigrationStop x1 s
  | .migrationStart x1 => Sys2Proof.Machine.execMigrationStart x1 s
  | .registrationUpdate x1 x2 x3 => Sys2Proof.Machine.execRegistrationUpdate x1 x2 x3 s
  | .loan x1 x2 x3 => Sys2Proof.Machine.execLoan x1 x2 x3 s
  | .reclaim x1 x2 x3 => Sys2Proof.Machine.execReclaim x1 x2 x3 s
  | .dbgrel x1 x2 x3 => Sys2Proof.Machine.execDbgrel x1 x2 x3 s
  | .rcmd x1 => Sys2Proof.Machine.execRcmd x1 s
  | .mgmtRegisterWrite x1 x2 => Sys2Proof.Machine.execMgmtRegisterWrite x1 x2 s
  | .ptpEventMessage x1 x2 x3 => Sys2Proof.Machine.execPtpEventMessage x1 x2 x3 s
  | .powerGood x1 => Sys2Proof.Machine.execPowerGood x1 s
  | .bootMeasured x1 x2 => Sys2Proof.Machine.execBootMeasured x1 x2 s
  | .bootImageRejected x1 => Sys2Proof.Machine.execBootImageRejected x1 s
  | .getVersion x1 x2 => Sys2Proof.Machine.execGetVersion x1 x2 s
  | .getCapabilities x1 x2 x3 x4 x5 x6 => Sys2Proof.Machine.execGetCapabilities x1 x2 x3 x4 x5 x6 s
  | .negotiateAlgorithms x1 x2 x3 x4 x5 => Sys2Proof.Machine.execNegotiateAlgorithms x1 x2 x3 x4 x5 s
  | .getDigests x1 x2 => Sys2Proof.Machine.execGetDigests x1 x2 s
  | .getCertificate x1 x2 x3 => Sys2Proof.Machine.execGetCertificate x1 x2 x3 s
  | .challenge x1 x2 => Sys2Proof.Machine.execChallenge x1 x2 s
  | .getMeasurements x1 x2 => Sys2Proof.Machine.execGetMeasurements x1 x2 s
  | .keyExchange x1 x2 => Sys2Proof.Machine.execKeyExchange x1 x2 s
  | .finish x1 x2 => Sys2Proof.Machine.execFinish x1 x2 s
  | .linkKeyInstall x1 x2 => Sys2Proof.Machine.execLinkKeyInstall x1 x2 s
  | .flitReceive x1 x2 x3 x4 => Sys2Proof.Machine.execFlitReceive x1 x2 x3 x4 s
  | .ridgeReopen x1 => Sys2Proof.Machine.execRidgeReopen x1 s
  | .recoveryComplete x1 x2 => Sys2Proof.Machine.execRecoveryComplete x1 x2 s
  | .icinvManagementEquivalent x1 => Sys2Proof.Machine.execIcinvManagementEquivalent x1 s
  | .dirtyRidgeCacheLineError x1 x2 => Sys2Proof.Machine.execDirtyRidgeCacheLineError x1 x2 s
  | .segmentFormTranslator x1 x2 x3 x4 => Sys2Proof.Machine.execSegmentFormTranslator x1 x2 x3 x4 s
  | .ptpEventMessageEgress x1 => Sys2Proof.Machine.execPtpEventMessageEgress x1 s

end Sys2Proof.Machine
end

