-- ==== Sys2Proof/Machine/Schedule.lean ====
section
/-! DEFINITION. Which move comes next when the agenda names none (R218; log 1): the moves that may be due, in a fixed order, and the
passing of a cycle (R341); and the state in which a given instruction is fetched next. -/

namespace Sys2Proof.Machine

open Sys2Proof

/-! ### Moves that may be due -/

def threadMoves (d : Device) (i : ThreadId) : List Instr :=
  match d.thread i with
  | none => []
  | some x =>
    (if x.pend.isEmpty then [] else [.asyncFaultDelivery i]) ++
    (match x.status with
     | .parked va k true => [.tlbMissWalk (ridgeOf i.core) (match d.team i.core i.slot with | some t => t.part | none => 0) va k]
     | .atBarrier w =>
       (match w with
        | .phase .. => [.barrierWake i, .barrierTimeout i]
        | .arrival .. => [.barrierTimeout i]
        | .cwait _ => [.cwaitWake i]
        | .mwait _ => [.mwaitWake i]
        | .mwaitTile .. => [.mwaitWake i]
        | .cpyw _ => [.cpywWake i]
        | .rwait _ _ => [.rwaitWake i]
        | .sleep _ => [.sleepWake i]
        | .rret .. => [.rretClaim i, .rretArrival i]
        | .tstamp .. => [.tstampFenceSample i]
        | .spawnHold => [.spawnHoldRelease i]
        | _ => [])
     | _ => []) ++
    x.queue.flatMap fun (e : Entry) =>
      match e.kind with
      | .load .. => [.loadPerform i e.po]
      | .spawnLoad .. => [.spawnSubmit i e.po]
      | .release .. => [.markerRetire i e.po]
      | .acquire .. => [.markerRetire i e.po]
      | .full .. => [.markerRetire i e.po]
      | _ => [.storeLeave i e.po]

def packMoves (d : Device) (core slot i : Nat) (p : Pack) : List Instr :=
  let q : PackId := ⟨core, slot, i⟩
  (if p.retired then [] else [.joinRelease q, .rowRestore q, .sliceEndEntry q]) ++
  (if p.threads.any fun (x : Thread) => match x.status with | .atBarrier (.route ..) => true | .atBarrier (.rsv ..) => true | .atBarrier (.icinv ..) => true | .atBarrier (.rfree ..) => true | _ => false
   then [.routeTableRead q, .routeStallResume q, .recordStoreResolve q, .rsvEntryFreed q, .icinvDrop q] else []) ++
  (p.flights.map fun (f : Flight) => .pendingValueArrive q f.id) ++ (p.rows.map fun (r : Row) => .rowFree q r.id) ++
  (p.fences.map fun (f : OpFence) => .operandReadyRetire q f.id) ++
  (List.range p.threads.length).flatMap fun t => threadMoves d ⟨core, slot, i, t⟩

def cmdMoves (k : CmdId) (c : Cmd) : List Instr :=
  let row := max 1 c.view.op.writes.2
  let n := (List.range c.done.length).find? (fun i => !c.done.contains i) |>.getD c.done.length
  [.powerLeaveGrant k, .matrixCommandStart k, .chainEntry k, .engineReadMove k (2 ^ 40) (2 ^ 40), .engineReadMove k 0 (2 ^ 40),
   .engineWriteMove k n (row - n % row), .commandRetire k]

def teamMoves (d : Device) (core slot : Nat) (t : Team) : List Instr :=
  [.rowsGranted core slot, .allocationDeadlock core slot, .rowEvict core slot] ++
  ((List.range 16).map fun g => .shadowResolve core slot (BitVec.ofNat 4 g)) ++
  (imap (fun i p => packMoves d core slot i p) 0 t.packs).flatten ++
  (t.copyQ.flatMap fun (c : Cmd) => cmdMoves (.copy core slot c.id) c) ++
  [.saveDrainTimeout core slot, .teamSave core slot, .teamRetire core slot]

def entryMoves (core : Nat) (i : Nat) (e : REntry) : List Instr :=
  if e.state = .free then [] else .reservationTimeout core i :: (List.range e.rows).map fun r => .rowCombine core i r

def coreMoves (d : Device) (core : Nat) (c : Core) : List Instr :=
  (imap (fun q (e : Engine) => e.queue.flatMap fun (k : Cmd) => cmdMoves (.matrix core q k.id) k) 0 c.engines).flatten ++
  (c.teams.flatMap fun (t : Nat × Team) => teamMoves d core t.1 t.2) ++ (imap (entryMoves core) 0 c.entries).flatten ++
  ((List.range 4).map fun q => .engineHangTimeout core q) ++
  (imap (fun q (e : Engine) => if e.outUntil.any (· ≤ d.now) then [Instr.engineReturnToService core q] else []) 0 c.engines).flatten ++
  [.budgetExpiry core] ++ (d.parts.map fun p => .pcSample core p.1) ++ ((List.range 4).map fun q => .bundleStart core q)

def partMoves (p : Nat) (q : Part) : List Instr :=
  [.sliceTimerExpiry p, .resetDrainTimeout p] ++
  (q.stations.flatMap fun s => [.flushTimerExpiry p s.1, .stationTeamLaunch p s.1]) ++ [.launchAccept p, .teamRestore p, .teamPlace p]

def otherMoves (d : Device) : List Instr :=
  (if d.pool.isEmpty then [] else [.reductionApply 0]) ++ (d.grids.map fun g => .gridRetire g.2.fe g.1) ++
  (d.ridges.flatMap fun r => .counterRotate r.1 :: r.2.stale.flatMap fun x => [.pinTimeout (x.1 % 16) (x.1 / 16), .tlbInvalidation (x.1 % 16) (x.1 / 16)]) ++
  ((List.range 10).flatMap fun n =>
    if (d.die n).state = .attesting then [.attestationTimeout n] else if (d.die n).state = .quarantined then [.dieQuarantine n] else []) ++
  (d.links.flatMap fun (l : Link) => if l.armed then [.linkFailure l.src l.dst, .keyRollover l.src l.dst, .keySwitch l.src l.dst, .oldKeyRetire l.src l.dst] else [])

/-- The moves that may be due, in order. -/
def Device.candidates (d : Device) : List Instr :=
  otherMoves d ++ (d.parts.flatMap fun p => partMoves p.1 p.2) ++ d.cores.flatMap fun c => coreMoves d c.1 c.2

/-- A move changes the state, the model's own draw counter aside. -/
def State.moves (s : State) (i : Instr) : Bool :=
  match exec i s with
  | .next t => decide ({ t with dev := { t.dev with draws := s.dev.draws } } ≠ s)
  | _ => true
/-- The first move that is due. -/
def State.due (s : State) : Option Instr := s.dev.candidates.find? s.moves

/-! ### The passing of time -/

/-- An uncorrectable error arises (R192; log 77): in a line of memory, in places of a row, in a scratchpad word, a tile, a shadow or a private word. -/
def Device.strike (d : Device) : Option (Nat × List Nat) → Device
  | some (0, [line]) => if 128 * line < 0x030000000000 then { d with bad := line :: d.bad.filter (· != line) } else d
  | some (1, [core, slot, i, id, m]) =>
    d.modPack core slot i fun p => { p with rows := p.rows.map fun (r : Row) => if r.id = id then { r with bad := r.bad ||| BitVec.ofNat 32 m } else r }
  | some (2, [core, slot, w]) => d.modTeam core slot fun t => { t with badScr := w :: t.badScr.filter (· != w) }
  | some (3, [core, slot, k]) => d.modTeam core slot fun t => { t with tiles := lmod t.tiles k fun x => { x with bad := true } }
  | some (5, [core, slot, k]) =>
    d.modTeam core slot fun t => { t with shadows := lmod t.shadows k fun x => { x with tile := { x.tile with bad := true } } }
  | some (4, [core, slot, w]) => d.modTeam core slot fun t => { t with badPriv := w :: t.badPriv.filter (· != w) }
  | _ => d

/-- One cycle of stall reason r on a ridge, for a counter that selects it. -/
def countStall (ridge r : Nat) (c : Nat × Counter) : Nat × Counter :=
  if c.1 / 8 = ridge && c.2.sel % 256 = 5 && bits c.2.sel 11 8 = r && c.2.phys then (c.1, { c.2 with count := c.2.count + 1, seq := c.2.seq + 2 }) else c
/-- Counts one cycle's stall reasons for the counters that select event 5 (R339, R341). -/
def Device.tick (d : Device) (m : Memory) : Device :=
  if d.parts.any (fun p => p.2.counters.any fun c => c.2.sel % 256 == 5 && c.2.phys) then
    d.teams.foldl (fun d x =>
      (List.range x.2.2.packs.length).foldl (fun d i =>
        match x.2.2.packs[i]? with
        | none => d
        | some p =>
          if p.retired then d
          else
            let r := d.stallReason m x.1 x.2.1 x.2.2 i p
            d.modPart x.2.2.part fun q => { q with counters := q.counters.map (countStall (ridgeOf x.1) r) }) d) d
  else d
/-- Cross-thread instructions complete in the cycle after their bundle's last (R149). -/
def Pack.crossed (p : Pack) (now : Nat) : Pack :=
  (p.flights.filter fun (f : Flight) => f.fixed && f.ready.any (· ≤ now)).foldl (fun p (f : Flight) => p.finish f.group) p
def Device.crossed (d : Device) : Device :=
  { d with cores := d.cores.map fun (c : Nat × Core) => (c.1, { c.2 with teams := c.2.teams.map fun (t : Nat × Team) =>
      (t.1, { t.2 with packs := t.2.packs.map (Pack.crossed · d.now) }) }) }
/-- The end of a cycle: an error may have arisen in it (R192), and in the next one cross-thread instructions complete. -/
def Device.nextCycle (d : Device) : Device := { d.strike (Config.upset d.draws) with now := d.now + 1, draws := d.draws + 1 }.crossed
/-- n cycles pass; a wake that is due before a limit comes first (R216). -/
def Device.pass (d : Device) (m : Memory) : Nat → Device
  | 0 => d
  | n + 1 => Device.pass ((d.wakeLast m).tick m).nextCycle m n

/-- The turn a step takes and the state with it taken off the agenda. With nothing on the agenda and no move due, a cycle passes; the
move of such a turn names no die and changes nothing. -/
def State.turn (s : State) : Turn × State :=
  match s.agenda with
  | t :: ts => (t, { s with agenda := ts, dev := s.dev.pass s.mem t.dt })
  | [] =>
    match s.due with
    | some i => ({ dt := 0, move := i }, s)
    | none => ({ dt := 1, move := .quar 10 }, { s with dev := s.dev.pass s.mem 1 })

/-- After the instruction of a bundle has executed, the bundle has had its start (R40, R42). -/
def startsCur (c : Option Cur) : Host.Outcome State Fault Refusal → Host.Outcome State Fault Refusal
  | .next t => .next { t with dev := t.dev.beganCur c }
  | o => o

/-! ### The state in which an instruction is fetched next -/

/-- The launch record of a grid of one team of one pack of 32 threads whose kernel PC is slot 0 of line 0; HPC 0. -/
def loadRecord : BitVec 2048 :=
  0x10040008000001f0000000000000000000000000000000000000000000000000000000001000000000000400000000000000040000000000000000000000000000000000000000000000000000000000000000000
/-- A partition whose code window is the first 4,096 bytes and whose key set is key 1. -/
def loadPart (now : Nat) : Part :=
  { Part.fresh with reg := 0x1000000000000000000000000000000000000000000000000000000000000000000000000000000000000000000000000000000000000000000000000000000000020000000000000000000000000000000000000000000000000000000000000000, active := true, runSince := now }
/-- The physical address of the loaded line: the first line of ridge 0's homed tier (R186). -/
def loadPa : Nat := 0x6000000000
/-- A leaf with V, W, X and D, key 1, LOCAL, home 0, its frame at `loadPa`. -/
def loadLeaf : W64 := 0x600000820F
/-- The code line with the instruction in slot 0, a branch target. -/
def loadLine (nbits w : Nat) : List Byte := leBytes 8 0x401 ++ tableBytes nbits w ++ List.replicate 108 0
/-- The device with one team of partition 0 on core 0, at its kernel PC, translated by a TLB entry of ridge 0 (log 2). -/
def Device.loaded (d : Device) (nbits w : Nat) : Device :=
  let g : Grid := { fe := 0, part := 0, depth := 0, record := loadRecord, bufs := [], lrec := 0, queue := none, parent := none, privileged := false,
                    station := none, order := 1, held := false, nextTeam := 1, launches := [], saved := [], slots := [0], live := 1,
                    terminated := false, recorded := false }
  let t := Team.launch g 1 0 0 [0] 0 []
  let e : TlbEntry := { part := 0, vbase := 0, size := 0, leaf := loadLeaf }
  { d with
    dies := lmod d.dies 0 (fun x => { x with state := .trusted }),
    keys := adel d.keys (loadPa / 128), bad := d.bad.filter (· != loadPa / 128), lostKeys := adel d.lostKeys (loadPa / 128),
    cores := aset d.cores 0 { Core.fresh d.now with teams := [(0, t)], icache := [(0, loadLine nbits w)] },
    ridges := aset d.ridges 0 { Ridge.fresh d.now with tlb := [e] },
    grids := aset d.grids 1 g, fronts := aset d.fronts 0 { FrontEnd.fresh with grids := 1, accepts := 1 },
    parts := aset d.parts 0 (loadPart d.now), cur := none, writes := [] }

end Sys2Proof.Machine
end

