-- ==== Sys2Proof/Machine/Step.lean ====
section
/-! DEFINITION. One step of the machine: the next turn of the agenda, or the model's own choice when the agenda is empty (R218;
log 1). -/

namespace Sys2Proof.Machine

open Sys2Proof

/-- One step: the turn's move, and after a bundle start the instruction it fetched, in the same step. -/
def step (s : State) : Host.Outcome State Fault Refusal :=
  match exec s.turn.1.move s.turn.2 with
  | .next s' =>
    match s'.dev.current with
    | some i => startsCur s'.dev.cur (exec i s')
    | none => .next s'
  | o => o

/-- The state with an instruction in the line at the kernel PC of a team that issues next: the load that brings a program into the
machine, which the host and system software do from outside (log 2). -/
def State.withFetchWord (s : State) (nbits w : Nat) : State :=
  { mem := s.mem.setBytes loadPa (loadLine nbits w), dev := s.dev.loaded nbits w, agenda := [{ dt := 0, move := .bundleStart 0 0 }] }

end Sys2Proof.Machine
end

