-- ==== Sys2Proof/Safety.lean ====
section
/-! DEFINITION. What claims about the machine are stated in: the form the model keeps a pack in, a bundle that nothing stops from
issuing, what the end of a bundle leaves unchanged, and the invariant of every step. -/

namespace Sys2Proof.Machine

open Sys2Proof

/-- The invariant that every step keeps: memory in its canonical form, and no write left over from a step. -/
def State.Inv (s : State) : Prop := s.mem.wf = true ∧ s.dev.writes = []

/-- The form the model keeps a pack in: 32 threads, 64 scalars, rows numbered apart below the next number, 32 places in each. -/
abbrev Pack.WF (p : Pack) : Prop :=
  p.threads.length = 32 ∧ p.scal.length = 64 ∧ 0 < p.nextId ∧ (p.rows.map (·.id)).Nodup ∧
  ∀ r ∈ p.rows, 0 < r.id ∧ r.id < p.nextId ∧ r.lo.length = 32 ∧ r.hi.length = 32 ∧ r.count.length = 32

/-- Thread t's count of name n once the bundle's reads are spent (R62): a persistent count stays. -/
def Bun.left (b : Bun) (u : Use) (n t : Nat) : Nat :=
  if b.mask.getLsbD t && b.pack.count n t != 15 then b.pack.count n t - u.reads.count n else b.pack.count n t

/-- The bundle `b` of the machine issues an instruction of header h and use u with nothing to stop it: the reads fit the counts
(R64), no slot read has an uncorrectable error (R192), the row decision finds its rows (R60, R67, R69), a collective instruction is converged (R44), and no thread executes again
after a park (R51). -/
structure Issues (s : State) (h : Hdr) (u : Use) (b : Bun) : Prop where
  bun    : s.start.bun h u.flat = some b
  wf     : b.pack.WF
  fresh  : ∀ t, t < 32 → b.mask.getLsbD t = true → b.pack.oldRows t = none
  counts : ∀ t, t < 32 → b.mask.getLsbD t = true → b.short u t = false
  sound  : ∀ t, t < 32 → b.mask.getLsbD t = true → b.spoilt u t = false
  room   : ∃ p rows, (b.spentPack u).rowsFor b.pack b.team b.dev.now b.till (s.start.maxlive b.team.grid) (b.writers u) u.dests = .ok p rows
  joint  : u.collective = true → b.mask = BitVec.allOnes 32 ∧ ((∀ t, t < 32 → b.pack.guard b.h t = true) ∨ ∀ t, t < 32 → b.pack.guard b.h t = false)

/-- The state in which the bundle has ended, its pack is q, and nothing else has changed. -/
def State.after (s : State) (b : Bun) (q : Pack) : State :=
  { s with dev := { s.start.modPack b.core b.slot b.index (fun _ => q) with cur := none } }

/-- The threads of the bundle go on at NextPC (R46). -/
def Bun.onward (b : Bun) (_ : Nat) (x : Thread) : Thread := { x with pc := nextPc b.pc }

/-- Name n is a destination of thread t: t takes part, and a live destination of the instruction has the name (R59, R60). -/
def Bun.writesName (b : Bun) (u : Use) (n t : Nat) : Prop :=
  (b.partOf u).getLsbD t = true ∧ ∃ d ∈ u.dests, ∃ w, d.live = some (n, w)
/-- Predicate i is a destination of thread t, written at once (R148). -/
def Bun.writesPred (b : Bun) (u : Use) (i t : Nat) : Prop :=
  u.long = false ∧ (b.partOf u).getLsbD t = true ∧ Dst.pred i ∈ u.dests
/-- Scalar i is a destination, written at once (R155). -/
def Bun.writesScal (b : Bun) (u : Use) (i : Nat) : Prop :=
  u.long = false ∧ b.partOf u ≠ 0 ∧ ∃ w, Dst.scal i w ∈ u.dests

/-- What the end of a bundle leaves of its pack when no thread faults, parks or is held. `go` is what the instruction does to a thread
of the bundle and `pk` to the pack beside its threads and destinations. Every name, count, predicate and scalar that is no
destination, every thread outside the bundle and all else of the pack stays; the reads are spent (R62). -/
structure Ended (b : Bun) (u : Use) (go : Nat → Thread → Thread) (pk : Pack → Pack) (q : Pack) : Prop where
  inside  : ∀ t x, b.mask.getLsbD t = true → b.thread t = some x → ∃ y, q.thread t = some y ∧
    y = { go t x with preds := y.preds, lane := b.cycle t + 1, was := b.pc, since := b.since t, holds := y.holds, again := y.again, start := y.start } ∧
    ∀ i, ¬ b.writesPred u i t → y.pred i = x.pred i
  outside : ∀ t, b.mask.getLsbD t = false → q.thread t = b.thread t
  value   : ∀ n t wide comp, t < 32 → ¬ b.writesName u n t → q.value n t wide comp = b.pack.value n t wide comp
  count   : ∀ n t, t < 32 → ¬ b.writesName u n t → q.count n t = b.left u n t
  scalar  : ∀ i, ¬ b.writesScal u i → q.scalar i = b.pack.scalar i
  flights : ∃ new, q.flights = b.pack.flights ++ new ∧ (u.long = false → new = [])
  rest    : { q with threads := b.pack.threads, scal := b.pack.scal, rows := b.pack.rows, nextId := b.pack.nextId,
                     flights := b.pack.flights, lanes := b.pack.lanes, yielded := b.pack.yielded, hold := b.pack.hold,
                     granted := b.pack.granted, noEvict := b.pack.noEvict, retired := b.pack.retired } = pk b.pack

/-- The names, predicates and scalars that an instruction of one value a thread writes are v (R60, R148, R155). -/
def Bun.Result (b : Bun) (u : Use) (v : Nat → Nat) (q : Pack) : Prop :=
  (∀ n wd c, u.dests = [.name n wd c] → c ≠ 0 → ∀ t, (b.partOf u).getLsbD t = true →
    q.value n t wd .whole = v t % 2 ^ (if wd then 64 else 32) ∧ q.count n t = c) ∧
  (∀ i, u.dests = [.pred i] → i ≠ 0 → i < 8 → ∀ t, (b.partOf u).getLsbD t = true → q.pred t i = (v t != 0)) ∧
  (∀ i wd t, u.dests = [.scal i wd] → i < 64 → lowest (b.partOf u) = some t →
    (q.scalar i).toNat = v t % 2 ^ (if wd then 64 else 32))

/-- A long-latency instruction of one destination is pending under the number k with the values v: those of each thread of Part that
are known, which may arrive from the end of the bundle on, and for a cross-thread operation do in that cycle (R45, R61, R149). -/
def Bun.PendingAs (b : Bun) (u : Use) (v : Nat → List Nat) (k : Nat) (q : Pack) : Prop :=
  b.partOf u ≠ 0 → ∃ f ∈ q.flights, f.id = k ∧ f.group = k ∧ f.fixed = u.cross ∧ f.ready = some b.till ∧ f.mask = b.partOf u ∧
    (∀ t, (b.partOf u).getLsbD t = true → ∀ x, (v t)[0]? = some x → (t, BitVec.ofNat 64 x) ∈ f.vals) ∧
    (∀ n wd c, u.dests = [.name n wd c] → c ≠ 0 → ∀ t, (b.partOf u).getLsbD t = true →
      q.count n t = c ∧ ∃ r, q.bind n t = some r ∧ f.dst = .row r.id) ∧
    (∀ i, u.dests = [.pred i] → f.dst = .pred i) ∧ (∀ i wd, u.dests = [.scal i wd] → f.dst = .scal i wd)
def Bun.Pending (b : Bun) (u : Use) (v : Nat → List Nat) (q : Pack) : Prop := ∃ k, b.PendingAs u v k q

/-- The threads of the bundle go on, and those of Part have drawn n times when the rounding is stochastic (R88). -/
def Bun.drawing (b : Bun) (u : Use) (r : Rnd) (n : Nat) (t : Nat) (x : Thread) : Thread :=
  if r = .rs ∧ (b.partOf u).getLsbD t = true then { x with pc := nextPc b.pc, gen := advanceBy n x.gen } else b.onward t x

/-- Executing i at the bundle b writes v to its one destination at once, and the bundle goes on as `go` says (R45, R46, R148). -/
def Computes (s : State) (b : Bun) (u : Use) (go : Nat → Thread → Thread) (i : Instr) (v : Nat → Nat) : Prop :=
  ∃ q, exec i s = .next (s.after b q) ∧ Ended b u go id q ∧ b.Result u v q

/-- Executing the long-latency instruction i at the bundle b leaves v pending for its one destination, and the bundle goes on as `go`
says (R45, R61). -/
def Sends (s : State) (b : Bun) (u : Use) (go : Nat → Thread → Thread) (i : Instr) (v : Nat → Nat) : Prop :=
  ∃ q, exec i s = .next (s.after b q) ∧ Ended b u go id q ∧ b.Pending u (fun t => [v t]) q

/-- The bundle with its Part settled, as its own execution sees it. -/
def Bun.ready (b : Bun) (u : Use) : Bun := { b with part := b.partOf u }

/-- The state in which the bundle has ended on the device d, and its pack is q. -/
def State.afterOn (s : State) (d : Device) (b : Bun) (q : Pack) : State :=
  s.commit { d.modPack b.core b.slot b.index (fun _ => q) with cur := none }

/-- Executing i, which has no destination, does to the threads and the pack of the bundle b what `go` and `pk` say, and leaves the
device beside that pack as d. -/
def Does (s : State) (b : Bun) (u : Use) (go : Nat → Thread → Thread) (pk : Pack → Pack) (d : Device) (i : Instr) : Prop :=
  ∃ q, exec i s = .next (s.afterOn d b q) ∧ Ended b u go pk q

/-- Executing i writes v to its destinations, in their order, at once (R59, R60). -/
def Gives (s : State) (b : Bun) (u : Use) (i : Instr) (v : Nat → List Nat) : Prop :=
  ∃ q, exec i s = .next (s.after b q) ∧ Ended b u b.onward id q ∧
    ∀ j n wd c, u.dests[j]? = some (.name n wd c) → c ≠ 0 → ∀ t, (b.partOf u).getLsbD t = true →
      q.value n t wd .whole = (v t).getD j 0 % 2 ^ (if wd then 64 else 32) ∧ q.count n t = c

/-- Executing the long-latency instruction i leaves its one destination pending under a number k that its entries in the ordering
machine name, with the values v that are known already; the device beside the pack is left as d (R45, R61, R221). -/
def Awaits (s : State) (b : Bun) (u : Use) (v : Nat → List Nat) (go : Nat → Nat → Thread → Thread) (d : Device) (i : Instr) : Prop :=
  ∃ q k, exec i s = .next (s.afterOn d b q) ∧ Ended b u (go k) id q ∧ b.PendingAs u v k q

/-- The threads of Part do as f says at NextPC, and the others go on. -/
def Bun.together (b : Bun) (u : Use) (f : Nat → Thread → Thread) (t : Nat) (x : Thread) : Thread :=
  if (b.partOf u).getLsbD t then { f t x with pc := nextPc b.pc } else b.onward t x
/-- The threads of Part stand at the barrier with a wait, their PC unchanged (R38). -/
def Bun.waiting (b : Bun) (u : Use) (f : Nat → Thread → Thread) (w : Nat → Wait) (t : Nat) (x : Thread) : Thread :=
  if (b.partOf u).getLsbD t then { f t x with status := .atBarrier (w t) } else b.onward t x
/-- Executing i, which has no destination, does to the threads of the bundle b what `go` says, and its reads are spent but for those of
the threads of m, which wait: they spend theirs when the wait ends (R62). -/
def Waits (s : State) (b : Bun) (u : Use) (go : Nat → Thread → Thread) (m : Mask) (i : Instr) : Prop :=
  ∃ q, exec i s = .next (s.afterOn s.start b (q.refund b.pack m)) ∧ Ended b u go id q
/-- The threads of Part that read a name. -/
def Bun.readers (b : Bun) (u : Use) : Mask := maskOf fun t => (b.partOf u).getLsbD t && !(b.readRows u.reads t).isEmpty
/-- The threads of Part go to a PC of their own (R130, R132). -/
def Bun.jump (b : Bun) (u : Use) (pc : Nat → W64) (t : Nat) (x : Thread) : Thread :=
  if (b.partOf u).getLsbD t then { x with pc := pc t } else b.onward t x

/-- The cycle after the last of some threads' own cycles in the bundle, or a later one (R55). -/
def Bun.lastOf (b : Bun) (m : Mask) (due : Nat) : Nat := (threadsOf m).foldl (fun n t => max n (b.cycle t + 1)) due
/-- The stack when some threads of the bundle leave the n innermost entries that hold them (R47). -/
def Bun.leaving (b : Bun) (m : Mask) (n : Nat) : List JoinEntry :=
  (threadsOf m).foldl (fun st t => leaveStack t (b.cycle t + 1) n st) b.pack.stack
/-- Thread k follows c in serial mode: the next higher thread of M that has not exited (R49). -/
def Pack.follows (p : Pack) (m : Mask) (c k : Nat) : Prop :=
  m.getLsbD k = true ∧ c < k ∧ p.isGone k = false ∧ ∀ t, c < t → t < k → m.getLsbD t = true → p.isGone t = true
/-- No thread of M follows c (R50). -/
def Pack.lastOf (p : Pack) (m : Mask) (c : Nat) : Prop := ∀ t, c < t → m.getLsbD t = true → p.isGone t = true
/-- The pack with every thread outside the bundle as it was before it. -/
def Bun.others (b : Bun) (q : Pack) : Pack :=
  { q with threads := imap (fun t y => if b.mask.getLsbD t then y else (b.thread t).getD y) 0 q.threads }
/-- Serial mode has ended (R50): the threads of M at join, none of which is in the bundle, are ready at NextPC(J), and every other thread
outside the bundle is as it was. -/
def Bun.RunsOn (b : Bun) (q : Pack) (m : Mask) (j : W64) : Prop :=
  ∀ t x, b.mask.getLsbD t = false → b.thread t = some x →
    q.thread t = some (if m.getLsbD t = true ∧ x.status = .atJoin then { x with status := .ready, pc := nextPc j } else x)

/-- Thread t's access reaches the parts, with no miss, no fault and no change of the device: the translations it needs stand in the
ridge's TLB (R180, R181, R196). -/
def Bun.reaches (b : Bun) (s : State) (t : Nat) (ri : BitVec 5) (idx : Src) (a : Acc) (rank : Nat) (parts : List AccPart) (bit n : Nat) : Prop :=
  b.reach s.start s.mem t (b.team.bufr ri.toNat) (b.idx2 t idx) a rank = (s.start, .ok parts bit n)
/-- Thread t's access is dropped under OOB 1 (R196). -/
def Bun.drops (b : Bun) (s : State) (t : Nat) (ri : BitVec 5) (idx : Src) (a : Acc) (rank : Nat) : Prop :=
  b.reach s.start s.mem t (b.team.bufr ri.toNat) (b.idx2 t idx) a rank = (s.start, .dropped)
/-- The access of each thread of Part reaches its parts, or is dropped, as `hit` says. -/
def Bun.lands (b : Bun) (s : State) (u : Use) (ri : BitVec 5) (idx : Src) (a : Acc) (rank : Nat) (hit : Nat → Bool) (parts : Nat → List AccPart)
    (bit n : Nat → Nat) : Prop :=
  ∀ t, (b.partOf u).getLsbD t = true →
    if hit t then b.reaches s t ri idx a rank (parts t) (bit t) (n t) else b.drops s t ri idx a rank
/-- The one part of an access to the team's private store. -/
def onePlace (parts : List AccPart) : Place := match parts with | p :: _ => p.place | [] => .none
/-- The private store with the bytes at a place replaced under their enables (R177). -/
def privStore (m : Memory) (p : Place) (bs : List (Byte × Byte)) : Memory :=
  (p.addrs.zip (((p.addrs.map m.read).zip bs).map fun x => mergeByte x.1 x.2)).foldl (fun s (x : Nat × Byte) => s.set x.1 x.2) m
/-- What a load asks of its record, and what a store asks (R194, R195). -/
def loadAcc (kinds : List Nat) (sz : BitVec 3) (w : BitVec 8) : Acc :=
  { kinds := kinds, rd := true, wr := false, n := szBytes sz, sub := if sz = 6 then some (subWidth w) else none, kind := 0 }
def storeAcc (kinds : List Nat) (sz : BitVec 3) (w : BitVec 8) : Acc :=
  { kinds := kinds, rd := false, wr := true, n := szBytes sz, sub := if sz = 6 then some (subWidth w) else none,
    align := if sz = 6 then 0 else szBytes sz, kind := 1 }
/-- A returning atomic: its destination, operation, width, scope, order, record, index, value and compare value, and whether a source is
denied (R206, R207). -/
structure AtomForm where
  d     : VDst
  op    : Nat
  scope : Scope
  ord   : Ord
  b     : BitVec 5
  idx   : Src
  v     : Nat → Nat
  cmp   : Nat → Nat
  den   : Nat → Bool
/-- The forms of the three returning atomics. -/
def Bun.atomForm (b : Bun) : Instr → Option AtomForm
  | .atom _ op scope ord d rb i x => some ⟨d, op.toNat, scope, ord, rb, i, fun t => b.int t (width d.wide) x, fun _ => 0, fun t => b.denied t x⟩
  | .acas _ scope ord d rb i x =>
    some ⟨d, 12, scope, ord, rb, i, fun t => b.pack.value (x.first.toNat + 1) t d.wide .whole, fun t => b.pack.value x.first.toNat t d.wide .whole,
          fun _ => false⟩
  | .afadd _ ty scope ord d rb i x =>
    some ⟨d, if ty = 0 then 11 else ty.toNat + 12, scope, ord, rb, i, fun t => b.fpBits t ty.toNat (width d.wide) x, fun _ => 0, fun t => b.denied t x⟩
  | _ => none

/-- Executing the engine instruction i puts a command of operation op into the queue of the pack's matrix engine, or into the team's
copy queue (R231, R239): the command takes the next number, a matrix command binds its tile and stands uncovered, a copy takes the next
sequence number, and the rows read for it are engine-held (R78). -/
def Queues (s : State) (b : Bun) (u : Use) (matrix : Bool) (guard : Option Nat) (op : CmdOp) (obj : Option (BitVec 256)) (go : Nat → Thread → Thread)
    (pk : Pack → Pack) (i : Instr) : Prop :=
  let id := s.start.nextCmd + 1
  let c := b.newCmd id s.start.now matrix guard u.reads op obj
  let d := { s.start with nextCmd := id }
  ∃ q, exec i s = .next (s.afterOn
      (if matrix then
        (d.modEngine b.core b.pack.quad fun e => { e with queue := e.queue ++ [c] }).modTeam b.core b.slot fun t =>
          let t := t.bind (s.start.engine b.core) b.pack.quad op
          { t with uncovered := t.uncovered ++ [b.newUncovered id op] }
       else d.modTeam b.core b.slot fun t => { t with copyQ := t.copyQ ++ [c], iss := t.iss + 1 }) b q) ∧
    Ended b u go pk q ∧ ∀ r ∈ b.rowsRead u.reads, ∀ y, b.pack.row r = some y → ∃ z, q.row r = some z ∧ z.held = y.held + 1

/-- Executing the move i takes the machine to the device d, with the step's writes made and nothing else changed (R218). -/
def Becomes (s : State) (i : Instr) (d : Device) : Prop := exec i s = .next (s.commit d)

/-- The thread's wait ends: it is ready at NextPC, with a whole acquire marker (R38, R221). -/
def Thread.woken (x : Thread) : Thread :=
  { x with status := .ready, pc := nextPc x.pc, po := x.po + 1,
           queue := x.queue ++ [{ po := x.po, kind := .acquire 3 true none, place := .none, rank := 3, bound := none, va := 0 }] }

/-- The thread enters a grid handler with a fault: `sys.fault`, `sys.fpc` and the PC are set, and nothing else of it changes (R315). -/
def Thread.trapped (x : Thread) (c : Code) (detail : Nat) (fpc hpc : W64) : Thread :=
  { x with handler := .fault, fault := BitVec.ofNat 64 (c.num + detail % 65536 * 65536), fpc := fpc, pc := hpc, status := .ready, again := [], start := true }

/-- Thread k of the bundle has taken a fault with code c at the bundle's PC: it stands at the handler, and its predicates, generator, values and
counts are as before (R51, R62, R64, R315). -/
def Took (t : State) (b : Bun) (hpc : W64) (c : Code) (k : Nat) : Prop :=
  ∃ q x y, t.dev.pack b.core b.slot b.index = some q ∧ b.thread k = some x ∧ q.thread k = some y ∧
    y.handler = .fault ∧ y.fault = BitVec.ofNat 64 c.num ∧ y.fpc = b.pc ∧ y.pc = hpc ∧ y.status = .ready ∧ y.preds = x.preds ∧ y.gen = x.gen ∧
    ∀ n, q.count n k = b.pack.count n k ∧ ∀ wide comp, q.value n k wide comp = b.pack.value n k wide comp

/-- The field of R152: no bits when it begins past the width. -/
def fieldLen (w ctl : Nat) : Nat := if ctl % 256 ≥ w then 0 else min (ctl / 256 % 256) (w - ctl % 256)

/-- The rounding of an exact result to a format in the instruction's mode, with the thread's j-th draw under `.rs` (R87, R88, R157). -/
def Bun.rounded (b : Bun) (f : Fmt) (r : Rnd) (n j t : Nat) (x : Ex) : Nat :=
  f.encode (roundTo x f r .ieee (if r = .rs then (b.draws t n).getD j 0 else 0))

end Sys2Proof.Machine
end

