-- ==== Sys2Proof/Certificates/Slice0/Obligations.lean ====
section
/-! DEFINITION. The statements for the provers. Each docstring names the rules of spec/ that the statement formalises. -/

open Sys2Proof Sys2Proof.Machine

/-! ### Integer instructions (R147 to R153) -/

/-- The results of the integer instructions of two sources (R151): every operand form, at 32 and 64 bits. -/
def Obligations.IntegerResults : Prop :=
  ∀ (s : State) (h : Hdr) (o : Op2) (b : Bun),
    let u : Use := { reads := o.s.reads, dests := [VDst.dst o.d], flat := o.s.flat }
    let w := width o.d.wide
    let x := fun t => BitVec.ofNat w (b.int2 t w o.s).1
    let y := fun t => BitVec.ofNat w (b.int2 t w o.s).2
    let n := fun t => (b.int2 t w o.s).2
    Issues s h u b → (∀ t, (b.partOf u).getLsbD t = true → b.denied2 t o.s = false) →
    Computes s b u b.onward (.iadd h o) (fun t => (x t + y t).toNat) ∧
    Computes s b u b.onward (.isub h o) (fun t => (x t - y t).toNat) ∧
    Computes s b u b.onward (.imul h o) (fun t => (x t * y t).toNat) ∧
    Computes s b u b.onward (.imulh h false o) (fun t => (x t).toNat * (y t).toNat / 2 ^ w) ∧
    Computes s b u b.onward (.imulh h true o) (fun t => (BitVec.ofInt w ((x t).toInt * (y t).toInt / 2 ^ w)).toNat) ∧
    Computes s b u b.onward (.imin h false o) (fun t => min (x t).toNat (y t).toNat) ∧
    Computes s b u b.onward (.imin h true o) (fun t => if (x t).sle (y t) then (x t).toNat else (y t).toNat) ∧
    Computes s b u b.onward (.imax h false o) (fun t => max (x t).toNat (y t).toNat) ∧
    Computes s b u b.onward (.imax h true o) (fun t => if (x t).sle (y t) then (y t).toNat else (x t).toNat) ∧
    Computes s b u b.onward (.and h o) (fun t => (x t &&& y t).toNat) ∧
    Computes s b u b.onward (.or h o) (fun t => (x t ||| y t).toNat) ∧
    Computes s b u b.onward (.xor h o) (fun t => (x t ^^^ y t).toNat) ∧
    Computes s b u b.onward (.shl h o) (fun t => (x t <<< n t).toNat) ∧
    Computes s b u b.onward (.shr h o) (fun t => (x t >>> n t).toNat) ∧
    Computes s b u b.onward (.sar h o) (fun t => ((x t).sshiftRight (n t)).toNat) ∧
    Computes s b u b.onward (.iadds h false o) (fun t => min ((x t).toNat + (y t).toNat) (2 ^ w - 1)) ∧
    Computes s b u b.onward (.iadds h true o) (fun t =>
      (BitVec.ofInt w (max (-2 ^ (w - 1)) (min (2 ^ (w - 1) - 1) ((x t).toInt + (y t).toInt)))).toNat)

/-- The results of the integer instructions of one source (R151). -/
def Obligations.IntegerUnaryResults : Prop :=
  ∀ (s : State) (h : Hdr) (d : VDst) (a : Src) (b : Bun),
    let u : Use := { reads := a.reads 0, dests := [VDst.dst d], flat := a.flat }
    let w := width d.wide
    let x := fun t => BitVec.ofNat w (b.int t w a)
    Issues s h u b → (∀ t, (b.partOf u).getLsbD t = true → b.denied t a = false) →
    Computes s b u b.onward (.iabs h d a) (fun t => (x t).abs.toNat) ∧
    Computes s b u b.onward (.not h d a) (fun t => (~~~(x t)).toNat) ∧
    Computes s b u b.onward (.popc h d a) (fun t => ((List.range w).filter fun i => (x t).getLsbD i).length) ∧
    Computes s b u b.onward (.clz h d a) (fun t => (x t).clz.toNat)

/-- Bit fields (R152), `lea` (R151) and `sel` (R153). -/
def Obligations.FieldAndSelectResults : Prop :=
  ∀ (s : State) (h : Hdr) (o : Op2) (b : Bun),
    let u : Use := { reads := o.s.reads, dests := [VDst.dst o.d], flat := o.s.flat }
    let v : Use := { reads := o.s.reads, dests := [VDst.dst o.d] }
    let w := width o.d.wide
    let x := fun t => BitVec.ofNat w (b.int2 t w o.s).1
    let y := fun t => (b.int2 t w o.s).2
    (Issues s h u b → (∀ t, (b.partOf u).getLsbD t = true → b.denied2 t o.s = false) →
      Computes s b u b.onward (.bfx h false o) (fun t => ((x t).extractLsb' (y t % 256) (fieldLen w (y t))).toNat) ∧
      Computes s b u b.onward (.bfx h true o) (fun t => (((x t).extractLsb' (y t % 256) (fieldLen w (y t))).signExtend w).toNat) ∧
      (∀ n : BitVec 3, Computes s b u b.onward (.lea h n false o) fun t => (x t + (BitVec.ofNat (leaWidth w o.s) (y t)).setWidth w <<< n.toNat).toNat) ∧
      ∀ n : BitVec 3, Computes s b u b.onward (.lea h n true o) fun t => (x t + (BitVec.ofNat (leaWidth w o.s) (y t)).signExtend w <<< n.toNat).toNat) ∧
    (Issues s h v b → (∀ t, (b.partOf v).getLsbD t = true → b.denied2 t o.s = false) →
      ∀ k : BitVec 3, Computes s b v b.onward (.sel h k o) (fun t => if b.pack.pred t k.toNat then (x t).toNat else y t))

/-- The integer instructions of three sources (R151, R152): `imad`, `imadw` and `bfi`. -/
def Obligations.IntegerThreeSourceResults : Prop :=
  ∀ (s : State) (h : Hdr) (o : Op3) (b : Bun),
    let u : Use := { reads := o.a.reads 0 ++ o.b.reads 0 ++ [o.c.toNat], dests := [VDst.dst o.d] }
    let w := width o.d.wide
    let x := fun t => BitVec.ofNat w (b.int t w o.a)
    let y := fun t => BitVec.ofNat w (b.int t w o.b)
    let z := fun t => BitVec.ofNat w (b.extName t o.c w)
    let x32 := fun t => BitVec.ofNat 32 (b.int t 32 o.a)
    let y32 := fun t => BitVec.ofNat 32 (b.int t 32 o.b)
    let z64 := fun t => BitVec.ofNat 64 (b.extName t o.c 64)
    let pos := fun t => (y t).toNat % 256
    let m := fun t => (BitVec.allOnes (fieldLen w (y t).toNat)).setWidth w <<< pos t
    Issues s h u b → (∀ t, (b.partOf u).getLsbD t = true → b.denied t o.a = false ∧ b.denied t o.b = false) →
    Computes s b u b.onward (.imad h o) (fun t => (x t * y t + z t).toNat) ∧
    Computes s b u b.onward (.imadw h false o) (fun t => ((x32 t).setWidth 64 * (y32 t).setWidth 64 + z64 t).toNat) ∧
    Computes s b u b.onward (.imadw h true o) (fun t => ((x32 t).signExtend 64 * (y32 t).signExtend 64 + z64 t).toNat) ∧
    Computes s b u b.onward (.bfi h o) (fun t => ((x t &&& ~~~(m t)) ||| ((z t <<< pos t) &&& m t)).toNat)

/-- The predicate that a compare writes (R113, R153, R159): integers by their order, and floating-point values with NaN unordered. -/
def Obligations.CompareResults : Prop :=
  ∀ (s : State) (h : Hdr) (b : Bun),
    (∀ o : ICmp,
      let u : Use := { reads := o.s.reads, dests := [.pred o.p.toNat], flat := o.s.flat }
      let w := width o.w64
      let x := fun t => BitVec.ofNat w (b.int2 t w o.s).1
      let y := fun t => BitVec.ofNat w (b.int2 t w o.s).2
      let less := fun (p q : BitVec w) => if o.sgn then p.slt q else p.ult q
      Issues s h u b → (∀ t, (b.partOf u).getLsbD t = true → b.denied2 t o.s = false) →
      Computes s b u b.onward (.icmp h o) (fun t => (match o.cond with
        | .eq => x t == y t | .ne => x t != y t | .lt => less (x t) (y t) | .le => !less (y t) (x t)
        | .gt => less (y t) (x t) | .ge => !less (x t) (y t) | .un => false).toNat)) ∧
    ∀ o : FCmp,
      let u : Use := { reads := o.s.reads, dests := [.pred o.p.toNat], flat := o.s.flat }
      let cmp := fun (x y : Ex) => (match o.cond with
        | .eq => x.eqv y | .ne => !x.eqv y | .lt => x.lt y | .le => !x.isNan && !y.isNan && !y.lt x
        | .gt => y.lt x | .ge => !x.isNan && !y.isNan && !x.lt y | .un => x.isNan || y.isNan)
      Issues s h u b →
      Computes s b u b.onward (.fcmp h o) (fun t => (cmp (b.fp2 t fp32 32 o.s).1 (b.fp2 t fp32 32 o.s).2).toNat) ∧
      Computes s b u b.onward (.dcmp h o) (fun t => (cmp (b.fp2 t fp64 64 o.s).1 (b.fp2 t fp64 64 o.s).2).toNat)

/-- The scalar instructions (R154, R155): one result for the bundle, computed from what the lowest thread of Part reads. -/
def Obligations.ScalarResults : Prop :=
  ∀ (s : State) (h : Hdr) (b : Bun),
    (∀ o : SOp2,
      let u : Use := { reads := o.s.reads, dests := [SDst.dst o.d], flat := o.s.flat }
      let w := width o.d.wide
      let low := (lowest (b.partOf u)).getD 0
      let x := BitVec.ofNat w (b.int2 low w o.s).1
      let y := BitVec.ofNat w (b.int2 low w o.s).2
      let n := (b.int2 low w o.s).2
      Issues s h u b → (∀ t, (b.partOf u).getLsbD t = true → b.denied2 t o.s = false) →
      Computes s b u b.onward (.sadd h o) (fun _ => (x + y).toNat) ∧
      Computes s b u b.onward (.ssub h o) (fun _ => (x - y).toNat) ∧
      Computes s b u b.onward (.smul h o) (fun _ => (x * y).toNat) ∧
      Computes s b u b.onward (.sand h 0 o) (fun _ => (x &&& y).toNat) ∧
      Computes s b u b.onward (.sand h 1 o) (fun _ => (x ||| y).toNat) ∧
      Computes s b u b.onward (.sand h 2 o) (fun _ => (x ^^^ y).toNat) ∧
      Computes s b u b.onward (.sand h 3 o) (fun _ => (x <<< n).toNat) ∧
      Computes s b u b.onward (.sand h 4 o) (fun _ => (x >>> n).toNat) ∧
      Computes s b u b.onward (.sand h 5 o) (fun _ => (x.sshiftRight n).toNat)) ∧
    (∀ (d : SDst) (a : Src),
      let u : Use := { reads := a.reads 0, dests := [SDst.dst d], flat := a.flat }
      Issues s h u b → (∀ t, (b.partOf u).getLsbD t = true → b.denied t a = false) →
      Computes s b u b.onward (.smov h d (.reg a)) (fun _ => b.int ((lowest (b.partOf u)).getD 0) (width d.wide) a)) ∧
    (∀ (d : SDst) (i : Wide),
      let u : Use := { dests := [SDst.dst d], flat := true }
      Issues s h u b → Computes s b u b.onward (.smov h d (.wide i)) (fun _ => i.int (width d.wide))) ∧
    (∀ (d : SDst) (a : Src),
      let u : Use := { reads := a.reads 0, dests := [SDst.dst d] }
      Issues s h u b →
      Computes s b u b.onward (.sbcast h d a) (fun _ => b.int ((lowest (b.partOf u)).getD 0) (width d.wide) a)) ∧
    (∀ (d : SDst) (i : BitVec 3) (f : W64),
      let u : Use := { dests := [SDst.dst d], flat := true }
      Issues s h u b → b.team.fmts[i.toNat]? = some (some f) → Computes s b u b.onward (.sget h d (.fmt i)) (fun _ => f.toNat)) ∧
    (∀ (d : SDst) (i : BitVec 4) (g : Guard),
      let u : Use := { dests := [SDst.dst d], flat := true }
      Issues s h u b → b.team.guards[i.toNat]? = some g →
      Computes s b u b.onward (.sget h d (.slot i)) (fun _ => match g with | .unresolved => 0 | .isTrue => 1 | .isFalse => 2)) ∧
    ∀ o : ICmp,
      let u : Use := { reads := o.s.reads, dests := [.pred o.p.toNat], flat := o.s.flat }
      let w := width o.w64
      let low := (lowest (b.partOf u)).getD 0
      Issues s h u b → (∀ t, (b.partOf u).getLsbD t = true → b.denied2 t o.s = false) →
      Computes s b u b.onward (.scmp h o) (fun _ => (condInt o.cond o.sgn w (b.int2 low w o.s).1 (b.int2 low w o.s).2).toNat)

/-! ### Floating-point, packed and conversion instructions (R156 to R165) -/

/-- Short-latency floating-point arithmetic: the exact result of R158 and R159 rounded once; a stochastic mode draws once a thread.
The model's choice (log 13): a thread of Part whose destination is dead draws too. -/
def Obligations.FloatResults : Prop :=
  ∀ (s : State) (h : Hdr) (r : Rnd) (b : Bun),
    (∀ o : Op2,
      let u : Use := { reads := o.s.reads, dests := [VDst.dst o.d], flat := o.s.flat }
      let x := fun t => (b.fp2 t fp32 32 o.s).1
      let y := fun t => (b.fp2 t fp32 32 o.s).2
      Issues s h u b →
      Computes s b u (b.drawing u r 1) (.fadd h r o) (fun t => b.rounded fp32 r 1 0 t ((x t).add (r == .rdn) (y t))) ∧
      Computes s b u (b.drawing u r 1) (.fsub h r o) (fun t => b.rounded fp32 r 1 0 t ((x t).add (r == .rdn) (y t).neg)) ∧
      Computes s b u (b.drawing u r 1) (.fmul h r o) (fun t => b.rounded fp32 r 1 0 t ((x t).mul (y t))) ∧
      (∀ nan, Computes s b u b.onward (.fmin h nan o) (fun t => fp32.encode (fpSelect nan false (x t) (y t)))) ∧
      ∀ nan, Computes s b u b.onward (.fmax h nan o) (fun t => fp32.encode (fpSelect nan true (x t) (y t)))) ∧
    (∀ o : Op3,
      let u : Use := { reads := o.a.reads 0 ++ o.b.reads 0 ++ [o.c.toNat], dests := [VDst.dst o.d] }
      Issues s h u b →
      Computes s b u (b.drawing u r 1) (.ffma h r o) (fun t => b.rounded fp32 r 1 0 t
        (((b.fp t fp32 32 o.a).mul (b.fp t fp32 32 o.b)).add (r == .rdn) (fp32.decode (b.extName t o.c 32))))) ∧
    ∀ (d : VDst) (a : Src),
      let u : Use := { reads := a.reads 0, dests := [VDst.dst d], flat := a.flat }
      Issues s h u b →
      Computes s b u (b.drawing u r 1) (.frnd h r d a) (fun t =>
        fp32.encode (roundIntegral r (if r = .rs then (b.draws t 1).getD 0 0 else 0) (b.fp t fp32 32 a)))

/-- Long-latency floating-point instructions: the correctly rounded result is pending for the destination (R45, R158, R159).
The model's choice (log 13): a thread of Part whose destination is dead draws too. -/
def Obligations.LongFloatResults : Prop :=
  ∀ (s : State) (h : Hdr) (r : Rnd) (b : Bun),
    (∀ (d : VDst) (a : Src),
      let u : Use := { reads := a.reads 0, dests := [VDst.dst d], flat := a.flat, long := true }
      let x := fun t => b.fp t fp32 32 a
      let res := fun (f : Ex → Ex) t => b.rounded fp32 r 1 0 t (f (x t))
      Issues s h u b →
      Sends s b u (b.drawing u r 1) (.frcp h r d a) (res (Ex.div .one)) ∧
      Sends s b u (b.drawing u r 1) (.frsq h r d a) (res Ex.rsqrt) ∧
      Sends s b u (b.drawing u r 1) (.fsqrt h r d a) (res Ex.sqrt) ∧
      Sends s b u (b.drawing u r 1) (.fex2 h r d a) (res Ex.exp2) ∧
      Sends s b u (b.drawing u r 1) (.flg2 h r d a) (res Ex.lg2) ∧
      Sends s b u (b.drawing u r 1) (.fsin h r d a) (res Ex.sin) ∧
      Sends s b u (b.drawing u r 1) (.fcos h r d a) (res Ex.cos)) ∧
    (∀ o : Op2,
      let u : Use := { reads := o.s.reads, dests := [VDst.dst o.d], flat := o.s.flat, long := true }
      Issues s h u b →
      Sends s b u (b.drawing u r 1) (.fdiv h r o) (fun t => b.rounded fp32 r 1 0 t ((b.fp2 t fp32 32 o.s).1.div (b.fp2 t fp32 32 o.s).2)) ∧
      Sends s b u (b.drawing u r 1) (.dadd h r o)
        (fun t => b.rounded fp64 r 1 0 t ((b.fp2 t fp64 64 o.s).1.add (r == .rdn) (b.fp2 t fp64 64 o.s).2)) ∧
      Sends s b u (b.drawing u r 1) (.dmul h r o) (fun t => b.rounded fp64 r 1 0 t ((b.fp2 t fp64 64 o.s).1.mul (b.fp2 t fp64 64 o.s).2))) ∧
    ∀ o : Op3,
      let u : Use := { reads := o.a.reads 0 ++ o.b.reads 0 ++ [o.c.toNat], dests := [VDst.dst o.d], long := true }
      Issues s h u b →
      Sends s b u (b.drawing u r 1) (.dfma h r o) (fun t => b.rounded fp64 r 1 0 t
        (((b.fp t fp64 64 o.a).mul (b.fp t fp64 64 o.b)).add (r == .rdn) (fp64.decode (b.extName t o.c 64))))

/-- Packed instructions (R160): two lanes, lane 0 with the first draw.
The model's choices: a thread of Part whose destination is dead makes its two draws too (log 13), and HALF on a scalar source gives both lanes the
chosen half (log 84). -/
def Obligations.PackedResults : Prop :=
  ∀ (s : State) (h : Hdr) (bf : Bool) (r : Rnd) (b : Bun),
    let f := if bf then bf16 else fp16
    let both := fun t (lo hi : Ex) => b.rounded f r 2 0 t lo + b.rounded f r 2 1 t hi * 65536
    (∀ o : Op2,
      let u : Use := { reads := o.s.reads, dests := [VDst.dst o.d], flat := o.s.flat }
      let x := fun t => (b.lanes2 t f o.s).1
      let y := fun t => (b.lanes2 t f o.s).2
      Issues s h u b →
      Computes s b u (b.drawing u r 2) (.hadd2 h bf r o)
        (fun t => both t ((x t).1.add (r == .rdn) (y t).1) ((x t).2.add (r == .rdn) (y t).2)) ∧
      Computes s b u (b.drawing u r 2) (.hmul2 h bf r o) (fun t => both t ((x t).1.mul (y t).1) ((x t).2.mul (y t).2)) ∧
      ∀ nan, Computes s b u b.onward (.hmax2 h bf nan o) (fun t =>
        f.encode (fpSelect nan true (x t).1 (y t).1) + f.encode (fpSelect nan true (x t).2 (y t).2) * 65536)) ∧
    ∀ o : Op3,
      let u : Use := { reads := o.a.reads 0 ++ o.b.reads 0 ++ [o.c.toNat], dests := [VDst.dst o.d] }
      let x := fun t => b.lanes t f o.a
      let y := fun t => b.lanes t f o.b
      let z := fun t => b.extLanes t f (.name o.c)
      Issues s h u b →
      Computes s b u (b.drawing u r 2) (.hfma2 h bf r o) (fun t =>
        both t (((x t).1.mul (y t).1).add (r == .rdn) (z t).1) (((x t).2.mul (y t).2).add (r == .rdn) (z t).2))

/-- Conversions (R95, R162 to R164): `cvt`, `cvtn`, `cvtw` and `scl`.
The model's choice (log 13): a thread of Part whose destination is dead draws too, in `cvtn`, `scl.exp` and `scl.rebase` as in `cvt`. -/
def Obligations.ConversionResults : Prop :=
  ∀ (s : State) (h : Hdr) (d : VDst) (b : Bun),
    let one := fun (r : Rnd) t => if r = .rs then (b.draws t 1).getD 0 0 else 0
    (∀ (sat : Bool) (r : Rnd) (td ts : BitVec 4) (a : Src),
      let u : Use := { reads := a.reads 0, dests := [VDst.dst d], flat := a.flat }
      Issues s h u b → (∀ t, (b.partOf u).getLsbD t = true → b.denied t a = false) →
      Computes s b u (b.drawing u r 1) (.cvt h sat r td ts d a) (fun t => cvtVal sat r (one r t) td ts (b.cvtSrc t ts a))) ∧
    (∀ (x : Src) (f : BitVec 3) (sc : Option (BitVec 8)) (rec : W64),
      let u : Use := { reads := x.reads 0 ++ (match sc with | some v => [v.toNat] | none => []), dests := [VDst.dst d], flat := x.flat && sc.isNone }
      Issues s h u b → (∀ t, (b.partOf u).getLsbD t = true → b.denied t x = false) → b.team.fmts[f.toNat]? = some (some rec) →
      Computes s b u (b.drawing u (recRnd rec) 1) (.cvtn h d x f sc)
        (fun t => toElem rec (one (recRnd rec) t) (scaledQuot (b.fp t fp32 32 x) (b.scale t sc))) ∧
      Computes s b u b.onward (.cvtw h d x f sc)
        (fun t => fp32.encode (toF32 ((elemVal (recElem rec) (recZp rec) (b.int t 32 x)).mul (b.scale t sc))))) ∧
    (∀ (r : Rnd) (x n : Src),
      let u : Use := { reads := x.reads 0 ++ n.reads 0, dests := [VDst.dst d], flat := x.flat && n.flat }
      Issues s h u b → (∀ t, (b.partOf u).getLsbD t = true → b.denied t n = false) →
      Computes s b u (b.drawing u r 1) (.scl h d (.exp r x n))
        (fun t => b.rounded fp32 r 1 0 t (scaleExp (b.fp t fp32 32 x) (BitVec.ofNat 32 (b.int t 32 n)).toInt))) ∧
    (∀ (x : Src) (f : BitVec 3) (rec : W64) (emax : Int),
      let u : Use := { reads := x.reads 0, dests := [VDst.dst d], flat := x.flat }
      Issues s h u b → b.team.fmts[f.toNat]? = some (some rec) → emaxOf (recElem rec) = some emax →
      Computes s b u b.onward (.scl h d (.e8m0 x f)) (fun t => e8m0Of emax (b.fp t fp32 32 x))) ∧
    ∀ (c n : Src) (f : BitVec 3) (rec : W64),
      let u : Use := { reads := c.reads 0 ++ n.reads 0, dests := [VDst.dst d], flat := c.flat && n.flat }
      Issues s h u b → (∀ t, (b.partOf u).getLsbD t = true → b.denied t c = false ∧ b.denied t n = false) →
      b.team.fmts[f.toNat]? = some (some rec) →
      Computes s b u (b.drawing u (recRnd rec) 1) (.scl h d (.rebase c n f)) (fun t => toElem rec (one (recRnd rec) t)
        ((elemVal (recElem rec) (recZp rec) (b.int t 32 c)).mul (.pow2 (-(min (b.int t 32 n) 255 : Nat)))))

/-- Packing, unpacking and classing (R165).
The model's choices: the immediates of `pk2` bits are read as FP32 (log 23), and a thread of Part whose destination is dead makes its draws too
(log 13). -/
def Obligations.PackAndClassResults : Prop :=
  ∀ (s : State) (h : Hdr) (d : VDst) (b : Bun),
    (∀ a c : Src,
      let u : Use := { reads := a.reads 0 ++ c.reads 0, dests := [VDst.dst d], flat := a.flat && c.flat }
      let x := fun t => b.fp t fp32 32 a
      let y := fun t => b.fp t fp32 32 c
      Issues s h u b →
      Computes s b u b.onward (.pk2 h .bits d a c) (fun t => b.pkBits t a % 65536 + b.pkBits t c % 65536 * 65536) ∧
      (∀ r, Computes s b u (b.drawing u r 2) (.pk2 h (.f16 r) d a c)
        (fun t => b.rounded fp16 r 2 0 t (x t) + b.rounded fp16 r 2 1 t (y t) * 65536)) ∧
      ∀ r, Computes s b u (b.drawing u r 2) (.pk2 h (.bf16 r) d a c)
        (fun t => b.rounded bf16 r 2 0 t (x t) + b.rounded bf16 r 2 1 t (y t) * 65536)) ∧
    ∀ a : Src,
      let u : Use := { reads := a.reads 0, dests := [VDst.dst d], flat := a.flat }
      let x := fun t => b.int t 32 a % 65536
      Issues s h u b →
      Computes s b u b.onward (.unpk h 0 d a) (fun t => fp32.encode (fp16.decode (x t))) ∧
      Computes s b u b.onward (.unpk h 1 d a) (fun t => fp32.encode (bf16.decode (x t))) ∧
      Computes s b u b.onward (.unpk h 2 d a) x ∧
      Computes s b u b.onward (.unpk h 3 d a) (fun t => ((BitVec.ofNat 16 (x t)).signExtend 32).toNat) ∧
      Computes s b u b.onward (.fcls h 0 d a) (fun t => fpClass 8 23 (b.int t 32 a)) ∧
      Computes s b u b.onward (.fcls h 1 d a) (fun t => fpClass 11 52 (b.int t 64 a)) ∧
      Computes s b u b.onward (.fcls h 2 d a) (fun t => fpClass 5 10 (x t)) ∧
      Computes s b u b.onward (.fcls h 3 d a) (fun t => fpClass 8 7 (x t))


/-! ### Cross-thread instructions (R166 to R171) -/

/-- The results of the cross-thread instructions over the threads of Part (R149, R167 to R170); each is pending at the end of the bundle. -/
def Obligations.CrossThreadResults : Prop :=
  ∀ (s : State) (h : Hdr) (a : Src) (b : Bun),
    (∀ (m : BitVec 2) (d : VDst) (l : Src),
      let u : Use := { reads := a.reads 0 ++ l.reads 0, dests := [VDst.dst d], long := true, cross := true }
      let lane := fun t => b.int t 32 l
      let off := fun t => (BitVec.ofNat 32 (lane t)).toInt
      let from_ : Nat → Int := fun t => match m.toNat with
        | 0 => (lane t % 32 : Nat) | 1 => (t : Int) + off t | 2 => ((t : Int) + off t) % 32 | _ => (t ^^^ (lane t % 32) : Nat)
      Issues s h u b → (∀ t, (b.partOf u).getLsbD t = true → b.denied t l = false) →
      Sends s b u b.onward (.shfl h m d a l) (fun t =>
        b.int (if 0 ≤ from_ t ∧ from_ t < 32 ∧ (b.partOf u).getLsbD (from_ t).toNat = true then (from_ t).toNat else t) (width d.wide) a)) ∧
    (∀ (m : BitVec 2) (d : VPDst),
      let u : Use := { reads := a.reads 0, dests := [VPDst.dst d], long := true, cross := true }
      let part := b.partOf u
      let yes := maskOf fun t => part.getLsbD t && b.int t 32 a != 0
      Issues s h u b →
      Sends s b u b.onward (.vote h m d a) (fun _ => match m.toNat with
        | 0 => (yes == part).toNat
        | 1 => (yes != 0).toNat
        | 2 => ((List.range 32).all fun t => !part.getLsbD t || b.int t 32 a == b.int ((lowest part).getD 0) 32 a).toNat
        | _ => ((List.range 32).filter fun t => yes.getLsbD t).length)) ∧
    (∀ d : VSDst,
      let u : Use := { reads := a.reads 0, dests := [VSDst.dst d], long := true, cross := true }
      Issues s h u b →
      Sends s b u b.onward (.ballot h d a) (fun _ => (maskOf fun t => (b.partOf u).getLsbD t && b.int t 32 a != 0).toNat)) ∧
    ∀ (op : BitVec 4) (d : VDst),
      let u : Use := { reads := a.reads 0, dests := [VDst.dst d], long := true, cross := true }
      let w := width d.wide
      Issues s h u b →
      Sends s b u b.onward (.redux h op d a) (fun _ =>
        reduceTree (reduceOp op w) ((List.range 32).map fun t => if (b.partOf u).getLsbD t then some (b.int t w a) else none)) ∧
      ∀ excl : Bool, Sends s b u b.onward (.scan h op excl d a) (fun t =>
        match ((List.range (if excl then t else t + 1)).filter fun k => (b.partOf u).getLsbD k).map fun k => b.int k w a with
        | [] => reduceId op w
        | x :: xs => xs.foldl (reduceOp op w) x)

/-- `topk` (R171): the list with the candidate inserted, scores first and indices after them, in the names of the span. -/
def Obligations.TopkResult : Prop :=
  ∀ (s : State) (h : Hdr) (k : BitVec 3) (d : SpanD) (c : Src) (b : Bun),
    let n := k.toNat + 1
    let list := fun (l : List (Nat × Nat)) => l.map (·.1) ++ l.map (·.2)
    (∀ (x : Src) (ext : BitVec 8),
      let u : Use := { reads := c.reads 0 ++ x.reads 0, dests := spanDsts d false ext }
      Issues s h u b → (∀ t, (b.partOf u).getLsbD t = true → b.denied t x = false) →
      Gives s b u (.topk h k d (.fresh c x ext)) (fun t =>
        list (topkInsert (b.fp t fp32 32 c) (fp32.encode (b.fp t fp32 32 c)) (b.int t 32 x) (List.replicate n (0xFF800000, 0xFFFF))))) ∧
    ∀ (ol : Span) (ixn : Bool) (x : BitVec 8),
      let u : Use := { reads := spanNames ol.first ol.len 0 ++ c.reads 0 ++ (if ixn then [x.toNat] else []), dests := spanDsts d false 0 }
      let old := fun t j => b.pack.value (ol.first.toNat + j) t false .whole
      Issues s h u b →
      Gives s b u (.topk h k d (.ins ol c ixn x)) (fun t =>
        list (topkInsert (b.fp t fp32 32 c) (fp32.encode (b.fp t fp32 32 c)) (if ixn then b.extName t x 32 else x.toNat)
          ((List.range n).map fun j => (old t j, old t (n + j)))))

/-! ### Names (R142 to R144) -/

/-- `mov` of one value and of a span, and `live` (R142, R144). The row total that `live` returns counts the rows as the
executing bundles leave them (log 38), an inference of the model. So are the 32 bits of the names of a span (log 86). -/
def Obligations.MovAndLive : Prop :=
  ∀ (s : State) (h : Hdr) (b : Bun),
    (∀ (d : VDst) (a : Src) (ext : BitVec 8),
      let u : Use := { reads := a.reads ext, dests := [VDst.dst d], flat := a.flat }
      Issues s h u b → (∀ t, (b.partOf u).getLsbD t = true → b.denied t a = false) →
      Computes s b u b.onward (.mov h (.v d) (.reg a) ext) (fun t => match a with | .name n => b.name t n | a => b.int t (width d.wide) a)) ∧
    (∀ (d : VDst) (i : Wide) (ext : BitVec 8),
      let u : Use := { dests := [VDst.dst d], flat := true }
      Issues s h u b → Computes s b u b.onward (.mov h (.v d) (.wide i) ext) (fun _ => i.int (width d.wide))) ∧
    (∀ (d : SpanD) (a : Src) (ext : BitVec 8),
      let u : Use := { reads := a.reads ext, dests := spanDsts d false ext }
      Issues s h u b → Gives s b u (.mov h (.n d) (.reg a) ext) (fun t => (a.reads ext).map fun n => b.pack.value n t false .whole)) ∧
    ∀ d : VDst,
      (let u : Use := { dests := [VDst.dst d] }
       ∀ n : NameSrc, Issues s h u b → Computes s b u b.onward (.live h (.plain (.name n)) d) (fun t => b.pack.count n.idx.toNat t)) ∧
      let u : Use := { dests := [VDst.dst d], flat := true }
      Issues s h u b →
      Computes s b u b.onward (.live h .pack d) (fun _ => b.pack.rowTotal b.dev.now) ∧
      Computes s b u b.onward (.live h .team d) (fun _ => b.team.resident)

/-- `drop` and `keep` (R65, R143): the counts of the names of the span in the threads of Part, and nothing else of the names. -/
def Obligations.DropAndKeep : Prop :=
  ∀ (s : State) (h : Hdr) (k : BitVec 4) (a : Src) (ext : BitVec 8) (b : Bun),
    let u : Use := {}
    let changes := fun (f : Nat → Nat) (i : Instr) => ∃ q, exec i s = .next (s.after b q) ∧ Ended b u b.onward id { q with rows := b.pack.rows } ∧
      (∀ n t, t < 32 → q.count n t = if (b.partOf u).getLsbD t ∧ n ∈ a.reads ext then f (b.pack.count n t) else b.pack.count n t) ∧
      ∀ n t wide comp, q.value n t wide comp = b.pack.value n t wide comp
    let all := fun (p : Nat → Prop) => ∀ t, (b.partOf u).getLsbD t = true → ∀ n ∈ a.reads ext, p (b.pack.count n t)
    Issues s h u b →
    (k.toNat = 15 → changes (fun _ => 0) (.drop h k a ext)) ∧
    (k.toNat < 15 → all (fun c => c ≠ 0 ∧ (c = 15 ∨ k.toNat ≤ c)) → changes (fun c => if c = 15 then 15 else c - k.toNat) (.drop h k a ext)) ∧
    (all (fun c => c ≠ 0) → changes (fun c => if c = 15 then 15 else if c + k.toNat ≤ 14 then c + k.toNat else 15) (.keep h k a ext))

/-! ### Control (R128 to R141) -/

/-- `nop`, `yield` and the transfers of control (R129 to R133, R136): the target must pass the test of R124, and its line stands in
the instruction cache. -/
def Obligations.TransfersOfControl : Prop :=
  ∀ (s : State) (h : Hdr) (b : Bun),
    let u : Use := { flat := true }
    let part := b.partOf u
    let passes := fun (pc : W64) (call : Bool) => b.test s.mem s.start pc call = (s.start, none)
    (Issues s h u b → Does s b u b.onward id s.start (.nop h)) ∧
    (let y : Use := { flat := true, yields := true }
     Issues s h y b → ∃ q, exec (.yield h) s = .next (s.after b q) ∧ Ended b y b.onward id q ∧ q.yielded = true) ∧
    (∀ (disp : BitVec 17) (slot : BitVec 4),
      let pc := staticTarget b.pc disp slot.toNat
      Issues s h u b → (part ≠ 0 → passes pc false) → Does s b u (b.jump u fun _ => pc) id s.start (.bra h disp slot)) ∧
    (∀ a : Src,
      let v : Use := { reads := a.reads 0, flat := a.flat }
      let pc := fun t => BitVec.ofNat 64 (b.int t 64 a)
      Issues s h v b → (∀ t, (b.partOf v).getLsbD t = true → passes (pc t) false) →
      Does s b v (b.jump v pc) id s.start (.brx h a) ∧ Does s b v (b.jump v pc) id s.start (.ret h a)) ∧
    ∀ (d : VSDst) (disp : BitVec 17) (slot : BitVec 4),
      let v : Use := { flat := true, dests := [VSDst.dst d] }
      let pc := staticTarget b.pc disp slot.toNat
      Issues s h v b → (b.partOf v ≠ 0 → passes pc true) →
      Computes s b v (b.jump v fun _ => pc) (.call h d disp slot) (fun _ => (nextPc b.pc).toNat)

/-- Reconvergence (R46, R47, R49, R50, R134): `split` pushes an entry, or starts serial mode when the stack is full; `join` arrives at the
innermost entry of its own PC; `brk` leaves entries, also ones it empties or completes. R46 applies to an entry from the cycle after its last
change on (R55), which its field `due` holds. In serial mode the current thread c acts on the serial record as the table of R49 says, and
hands over to the next thread of M; when none follows, serial mode ends and the threads of M at join run on (R50). -/
def Obligations.Reconvergence : Prop :=
  ∀ (s : State) (h : Hdr) (b : Bun),
    let u : Use := { flat := !s.start.serialMode }
    let part := b.partOf u
    let settled := ∀ t x, b.mask.getLsbD t = true → b.thread t = some x → x.status = .ready
    Issues s h u b →
    (∀ (disp : BitVec 17) (slot : BitVec 4),
      let j := staticTarget b.pc disp slot.toNat
      (b.pack.serial = none → b.pack.stack.length < 16 →
        Does s b u b.onward (fun p => if part = 0 then p else { p with stack := { joinPc := j, members := part, arrived := 0, due := 0 } :: p.stack })
          s.start (.split h disp slot)) ∧
      (b.pack.serial = none → 16 ≤ b.pack.stack.length →
        Does s b u b.onward (fun p => if part = 0 then p else { p with serial := some { j := j, m := part, c := (lowest part).getD 0, d := 0 } }) s.start
          (.split h disp slot)) ∧
      ∀ r, b.pack.serial = some r → r.c < 32 → part = oneBit r.c →
        Does s b u b.onward (fun p => { p with serial := some { r with d := r.d + 1 } }) s.start (.split h disp slot)) ∧
    (∀ e rest, b.pack.serial = none → b.pack.stack = e :: rest → e.joinPc = b.pc → part &&& ~~~e.members = 0 →
      Does s b u (fun t x => if part.getLsbD t then { x with status := .atJoin } else b.onward t x)
        (fun p => { p with stack := { e with arrived := e.arrived ||| part, due := b.lastOf part e.due } :: rest }) s.start (.join h)) ∧
    (b.pack.serial = none → (∀ t, part.getLsbD t = true → ∀ e, b.pack.innermost t = some e → e.joinPc ≠ b.pc) →
      Does s b u b.onward id s.start (.join h)) ∧
    (∀ (n : BitVec 4) (disp : BitVec 17) (slot : BitVec 4),
      let pc := staticTarget b.pc disp slot.toNat
      (part ≠ 0 → b.test s.mem s.start pc false = (s.start, none)) →
      (b.pack.serial = none →
        Does s b u (b.jump u fun _ => pc) (fun p => { p with stack := b.leaving part (n.toNat + 1) }) s.start (.brk h n disp slot)) ∧
      ∀ r, b.pack.serial = some r → r.c < 32 → part = oneBit r.c →
        (n.toNat + 1 ≤ r.d → Does s b u (b.jump u fun _ => pc) (fun p => { p with serial := some { r with d := r.d - (n.toNat + 1) } }) s.start
          (.brk h n disp slot)) ∧
        (∀ k, r.d < n.toNat + 1 → r.m.getLsbD r.c = true → b.pack.follows r.m r.c k →
          Does s b u (b.jump u fun _ => pc) (fun p => { p with serial := some { r with m := r.m &&& ~~~oneBit r.c, c := k, d := 0 },
                                                               stack := b.leaving part (n.toNat + 1 - r.d - 1) }) s.start (.brk h n disp slot)) ∧
        (r.d < n.toNat + 1 → r.m.getLsbD r.c = true → b.pack.lastOf r.m r.c → settled → ∃ q, exec (.brk h n disp slot) s = .next (s.after b q) ∧
          b.RunsOn q r.m r.j ∧ Ended b u (b.jump u fun _ => pc)
            (fun p => { p with serial := none, stack := b.leaving part (n.toNat + 1 - r.d - 1) }) (b.others q))) ∧
    ∀ r, b.pack.serial = some r → r.c < 32 → part = oneBit r.c →
      (0 < r.d → Does s b u b.onward (fun p => { p with serial := some { r with d := r.d - 1 } }) s.start (.join h)) ∧
      (r.d = 0 → r.j ≠ b.pc → Does s b u b.onward id s.start (.join h)) ∧
      (r.d = 0 → r.j = b.pc →
        (∀ k, b.pack.follows r.m r.c k →
          Does s b u (fun t x => if part.getLsbD t then { x with status := .atJoin } else b.onward t x)
            (fun p => { p with serial := some { r with c := k, d := 0 } }) s.start (.join h)) ∧
        (b.pack.lastOf r.m r.c → r.m.getLsbD r.c = true → settled → ∃ q, exec (.join h) s = .next (s.after b q) ∧ b.RunsOn q r.m r.j ∧
          Ended b u (fun t x => if part.getLsbD t then { x with status := .ready, pc := nextPc r.j } else b.onward t x)
            (fun p => { p with serial := none }) (b.others q)))

/-- `exit` (R46, R47, R49, R66, R135): the threads of Part have exited, every count of theirs is zero, and they leave the entries of the stack,
also ones they empty or complete; the current thread of serial mode leaves M, and the next thread of M becomes current, or serial mode ends and
the threads of M at join run on (R50). -/
def Obligations.Exit : Prop :=
  ∀ (s : State) (h : Hdr) (b : Bun),
    let u : Use := { flat := !s.start.serialMode }
    let part := b.partOf u
    let done := fun (f : Pack → Pack) (threads : Pack → Pack) (more : Pack → Prop) => ∃ q, exec (.exit h) s = .next (s.after b q) ∧
      Ended b u (fun t x => if part.getLsbD t then { x with status := .exited, handler := .off } else b.onward t x)
        (fun p => { f p with stack := b.leaving part 16 }) { threads q with rows := b.pack.rows } ∧ more q ∧
      (∀ n t, t < 32 → q.count n t = if part.getLsbD t then 0 else b.pack.count n t) ∧
      (∀ n t wide comp, q.value n t wide comp = b.pack.value n t wide comp) ∧
      (q.retired = true ↔ b.pack.retired = true ∨ ∀ x ∈ q.threads, x.status = .exited)
    Issues s h u b → b.pack.inSlice = false → (s.start.core b.core).sliceFor = none →
    (b.pack.serial = none → done id id fun _ => True) ∧
    ∀ r, b.pack.serial = some r → r.c < 32 → part = oneBit r.c → r.m.getLsbD r.c = true →
      (∀ k, b.pack.follows r.m r.c k → done (fun p => { p with serial := some { r with m := r.m &&& ~~~oneBit r.c, c := k, d := 0 } }) id fun _ => True) ∧
      (b.pack.lastOf r.m r.c → (∀ t x, b.mask.getLsbD t = true → b.thread t = some x → x.status = .ready) →
        done (fun p => { p with serial := none }) b.others fun q => b.RunsOn q r.m r.j)

/-- TAKING A FAULT (R315): a thread outside handler mode, of a grid with a handler, enters it; `sys.fault` and `sys.fpc` are written,
the PC is the handler's, and nothing else changes. `trap` and `trap.dbg` take theirs so (R138, R318), and the other threads go on. -/
def Obligations.TakingATrap : Prop :=
  ∀ (s : State) (h : Hdr) (n : BitVec 17) (b : Bun) (g : Grid),
    let u : Use := { flat := true }
    let enters := fun (c : Code) (t : Nat) (x : Thread) =>
      if (b.partOf u).getLsbD t then
        { x with handler := .fault, fault := BitVec.ofNat 64 (c.num + n.toNat % 65536 * 65536), fpc := b.pc, pc := lrHpc g.record }
      else b.onward t x
    Issues s h u b → s.start.grid b.team.grid = some g → g.terminated = false → lrHpc g.record ≠ 0 →
    (∀ t, (b.partOf u).getLsbD t = true → ∀ x, b.thread t = some x → x.handler = .off ∧ x.status = .ready) →
    Does s b u (enters .softwareTrap) id s.start (.trap h n) ∧
    ((s.start.part b.team.part).debugReg.getLsbD 0 = false → Does s b u (enters .debugBreak) id s.start (.trapDbg h n))

/-- RETURNING FROM A HANDLER (R296): `tret` and `tret.next` in fault-handler mode end it; the PC is `sys.fpc`, or NextPC of it. -/
def Obligations.ReturnFromHandler : Prop :=
  ∀ (s : State) (h : Hdr) (k : BitVec 2) (b : Bun),
    let u : Use := { flat := true }
    Issues s h u b → k.toNat < 2 → (s.start.core b.core).sliceFor = none →
    (∀ t, (b.partOf u).getLsbD t = true → ∀ x, b.thread t = some x → x.handler = .fault) →
    Does s b u (fun t x => if (b.partOf u).getLsbD t then { x with handler := .off, pc := if k.toNat = 0 then x.fpc else nextPc x.fpc } else b.onward t x)
      id s.start (.tret h k)

/-- Children and sleep (R53, R137, R139, R141, R220, R221): `spawn` numbers its child and sends the loads of its record, a part for each line,
behind a release; `cwait`
waits for a sequence number with a whole acquire, and `sleep` for cycles. -/
def Obligations.ChildrenAndSleep : Prop :=
  ∀ (s : State) (h : Hdr) (b : Bun),
    (∀ (d : VDst) (rb : BitVec 5) (i : Src) (ps : Nat → List AccPart),
      let u : Use := { reads := i.reads 0, dests := [VDst.dst d], flat := i.flat, long := true }
      let part := b.partOf u
      let r := b.team.bufr rb.toNat
      let ix := fun t => (BitVec.ofNat 32 (b.int t 32 i)).toInt
      let va := fun t => recBase r + 256 * (ix t).toNat
      let seq := fun t => b.team.spn + BitVec.ofNat 32 (((List.range t).filter fun k => part.getLsbD k).length + 1)
      let order := fun t => s.start.nextSpawn + ((List.range t).filter fun k => part.getLsbD k).length
      Issues s h u b → b.depth < 10 → recKind r = 0 → recRd r = true → b.team.children + popc part < 2 ^ 31 →
      (∀ t, part.getLsbD t = true → 0 ≤ ix t ∧ 256 * ix t + 256 ≤ recExtent r ∧ va t % 64 = 0 ∧
        s.start.reachPhys s.mem b.core b.team.part { kinds := [0], rd := true, wr := false, n := 256, kind := 0 } 2 (va t) 256 = (s.start, .ok (ps t))) →
      Awaits s b u (fun _ => []) (fun k => b.together u fun t x => (ps t).foldl (fun x p => x.push (.spawnLoad k p.first (seq t) (order t)) p.place p.rank none p.va) x.releaseW)
        ({ s.start with nextSpawn := s.start.nextSpawn + popc part }.modTeam b.core b.slot fun t => { t with spn := t.spn + BitVec.ofNat 32 (popc part) })
        (.spawn h d rb i)) ∧
    (let waits := fun (u : Use) (seq : Nat → W32) t x =>
       if (b.team.cmp - seq t).toNat < 2 ^ 31 then b.together u (fun _ x => x.acquire) t x else b.waiting u (fun _ x => x) (fun t => .cwait (seq t)) t x
     (∀ a : Src,
       let u : Use := { reads := a.reads 0, flat := a.flat }
       Issues s h u b → Does s b u (waits u fun t => BitVec.ofNat 32 (b.int t 32 a)) id s.start (.cwait h a)) ∧
     let u : Use := { flat := true }
     Issues s h u b → Does s b u (waits u fun _ => b.team.spn) id s.start (.cwaitAll h)) ∧
    ∀ a : Src,
      let u : Use := { reads := a.reads 0, flat := a.flat }
      let n := fun t => min (b.int t 32 a) (2 ^ 20)
      Issues s h u b →
      Does s b u (fun t x => if n t = 0 then b.onward t x else b.waiting u (fun _ x => x) (fun t => .sleep (b.cycle t + n t)) t x) id s.start (.sleep h a)

/-! ### Memory (R193 to R205, R221, R222) -/

/-- Loads (R192, R196, R198, R200, R221, R222): of each thread of Part, an access of kind 0, 1 or 3 that reaches memory enters the load set
with its parts, in the fields the instruction gives, and its destination is pending; a dropped one gives 0, whatever the other threads' accesses
do; a private load is performed at issue, where no word it reads has an uncorrectable error. -/
def Obligations.Loads : Prop :=
  ∀ (s : State) (h : Hdr) (b : Bun) (hit : Nat → Bool) (parts : Nat → List AccPart) (bit n : Nat → Nat),
    let zero := fun t => if hit t then ([] : List Nat) else [0]
    (∀ o : LdOp,
      let u : Use := { reads := o.idx.reads 0, dests := [VDst.dst o.d], flat := o.idx.flat, long := true }
      let part := b.partOf u
      let lands := fun kinds => s.start.stalled h o.b o.idx (loadAcc kinds o.sz o.w) = none ∧
        b.lands s u o.b o.idx (loadAcc kinds o.sz o.w) (if o.scope = .s then 3 else 2) hit parts bit n
      let enters := fun k => b.together u fun t x => if hit t then x.fenced o.ord o.scope.code fun bound x =>
        x.pushParts (parts t) bound (fun p => .load k p.first (n t) (szCode o.sz o.w) (bit t)) (·.rank) else x
      Issues s h u b → (∀ t, part.getLsbD t = true → b.denied t o.idx = false) →
      (lands [0] → Awaits s b u zero enters s.start (.ld h o)) ∧ (lands [1, 3] → Awaits s b u zero enters s.start (.lds h o)) ∧
      (lands [2] → (∀ t, part.getLsbD t = true → hit t = true → s.start.privBad b (onePlace (parts t)) = false) →
        Sends s b u b.onward (.ldp h o)
          (fun t => if hit t then widen (szCode o.sz o.w) (bit t) ((onePlace (parts t)).addrs.map b.team.priv.read) else 0))) ∧
    ∀ (sz : BitVec 3) (scope : Scope) (ord : Ord) (d : SDst) (rb : BitVec 5) (idx : Src),
      let u : Use := { reads := idx.reads 0, dests := [SDst.dst d], flat := idx.flat, long := true }
      let low := (lowest (b.partOf u)).getD 0
      let acc : Acc := { kinds := [0, 1, 3], rd := true, wr := false, n := szBytes sz, kind := 0 }
      let rank := if scope = .s then 3 else 2
      Issues s h u b → b.denied low idx = false → sz.toNat < 6 → s.start.stalled h rb idx acc = none →
      (b.reaches s low rb idx acc rank (parts low) (bit low) (n low) →
        Awaits s b u (fun _ => []) (fun k => b.together u fun t x => if t = low then
            x.fenced ord scope.code fun bound x => x.pushParts (parts low) bound (fun p => .load k p.first (n low) sz.toNat (bit low)) (·.rank) else x)
          s.start (.sld h sz scope ord d rb idx)) ∧
      (b.drops s low rb idx acc rank → Sends s b u b.onward (.sld h sz scope ord d rb idx) fun _ => 0)

/-- `ldc` (R201): bytes of a data line of the code window, through the instruction cache and in no queue. -/
def Obligations.LoadConstant : Prop :=
  ∀ (s : State) (h : Hdr) (sz : BitVec 3) (d : VDst) (disp : BitVec 17) (off : Src) (b : Bun) (line : Nat → List Byte),
    let u : Use := { reads := off.reads 0, dests := [VDst.dst d], flat := off.flat, long := true }
    let o := fun t => (b.idx t off).toNat
    Issues s h u b → sz.toNat < 6 →
    (∀ t, (b.partOf u).getLsbD t = true → b.denied t off = false ∧ 0 ≤ b.idx t off ∧ o t % 120 + szBytes sz ≤ 120 ∧
      s.start.fetchLine s.mem b.core b.team.part (lineOf (staticTarget b.pc disp 0) + o t / 120 * 128) = (s.start, .ok (line t)) ∧
      malformed (headerOf (line t)) = false ∧ headerKind (headerOf (line t)) = 2) →
    Sends s b u b.onward (.ldc h sz d disp off) (fun t => widen sz.toNat 0 (((line t).drop (8 + o t % 120)).take (szBytes sz)))

/-- Stores (R192, R196, R199, R221, R222): of each thread of Part, an access of kind 0, 1 or 3 that reaches memory enters the store queue with
its bytes and their enables, and a dropped one does nothing, whatever the other threads' accesses do; a private store is performed at issue,
thread by thread, and makes the words good that it writes whole. -/
def Obligations.Stores : Prop :=
  ∀ (s : State) (h : Hdr) (o : StOp) (b : Bun) (hit : Nat → Bool) (parts : Nat → List AccPart) (bit n : Nat → Nat),
    let u : Use := { reads := o.idx.reads 0 ++ o.v.reads 0, flat := o.idx.flat && o.v.flat }
    let part := b.partOf u
    let bytes := fun t => storeBytes (szCode o.sz o.w) (bit t) (n t) (b.int t (if o.sz = 5 then 64 else 32) o.v)
    let lands := fun kinds => s.start.stalled h o.b o.idx (storeAcc kinds o.sz o.w) = none ∧
      b.lands s u o.b o.idx (storeAcc kinds o.sz o.w) (if o.scope = .s then 3 else 2) hit parts bit n
    let enters := b.together u fun t x => if hit t then x.fenced o.ord o.scope.code fun bound x =>
      x.pushParts (parts t) bound (fun p => .store (((bytes t).drop p.first).take p.place.addrs.length)) (·.rank) else x
    let who := (threadsOf part).filter hit
    Issues s h u b → (∀ t, part.getLsbD t = true → b.denied t o.idx = false ∧ b.denied t o.v = false) →
    (lands [0] → Does s b u enters id s.start (.st h o)) ∧ (lands [1, 3] → Does s b u enters id s.start (.sts h o)) ∧
    (lands [2] → Does s b u b.onward id
      (s.start.modTeam b.core b.slot fun x => { x with
        priv := who.foldl (fun m t => privStore m (onePlace (parts t)) (bytes t)) x.priv,
        badPriv := who.foldl (fun l t => mended l (onePlace (parts t)).addrs) x.badPriv })
      (.stp h o))

/-- Records, prefetches and fences (R202 to R205, R221): `bsub` writes a narrowed record, `bget` gives a field, `pref` does nothing that can
be told, and `fence` puts its marker in each thread's queue. -/
def Obligations.RecordsAndFences : Prop :=
  ∀ (s : State) (h : Hdr) (b : Bun),
    (∀ (ro : Bool) (len : BsubLen) (bd bs : BitVec 5) (off : Src),
      let u : Use := { reads := off.reads 0, flat := off.flat }
      let low := (lowest (b.partOf u)).getD 0
      let x := b.team.bufr bs.toNat
      let o := b.idx low off
      let l : Int := match len with | .imm k => k.toNat | .scal i => (b.pack.scalar i.toNat).toNat | .rest => recExtent x - o
      Issues s h u b → b.partOf u ≠ 0 → b.denied low off = false → 0 ≤ o → 0 ≤ l → o + l ≤ recExtent x → recBase x + o.toNat < 2 ^ 64 →
      (recEsz x ≤ 6 → (recBase x + o.toNat) % 2 ^ recEsz x = 0) →
      ∃ y, Does s b u b.onward id (s.start.modTeam b.core b.slot fun t => { t with recs := lmod t.recs bd.toNat fun _ => y }) (.bsub h ro len bd bs off) ∧
        recBase y = recBase x + o.toNat ∧ (recExtent y : Int) = l ∧ recStride y = recStride x ∧ recKind y = recKind x ∧ recEsz y = recEsz x ∧
        recSwz y = recSwz x ∧ recOob y = recOob x ∧ recRd y = recRd x ∧ recWr y = (recWr x && !ro) ∧ recAtom y = (recAtom x && !ro) ∧
        recPeer y = recPeer x) ∧
    (∀ (f : BitVec 3) (d : VSDst) (rb : BitVec 5),
      let u : Use := { dests := [VSDst.dst d], flat := true }
      let r := b.team.bufr rb.toNat
      Issues s h u b →
      Computes s b u b.onward (.bget h f d rb) (fun _ => match f.toNat with
        | 0 => recBase r | 1 => recExtent r | 2 => recStride r | _ => (r.extractLsb' 160 24).toNat)) ∧
    (∀ (rb : BitVec 5) (idx : Src) (ext : BitVec 8),
      let u : Use := { reads := idx.reads ext, flat := idx.flat }
      Issues s h u b → Does s b u b.onward id s.start (.pref h rb idx ext)) ∧
    ∀ (scope : Scope) (ord : Ord),
      let u : Use := { flat := true }
      Issues s h u b →
      Does s b u (b.together u fun _ x => x.push (match ord with
        | .acq => .acquire scope.code false none | .rel => .release scope.code false | _ => .full scope.code false) .none scope.code none 0) id s.start
        (.fence h scope ord)

/-- Atomics (R192, R196, R206 to R210, R221, R222): a returning one leaves its destination pending and an entry that carries its operation;
`red` leaves an entry that returns nothing; at a private place, where no word has an uncorrectable error, the operation is done at issue, between
the markers of its order; a dropped one gives 0 and does nothing else. Every returning form of `atom`, `acas` and `afadd` is an `AtomForm`. -/
def Obligations.Atomics : Prop :=
  ∀ (s : State) (h : Hdr) (b : Bun) (hit : Nat → Bool) (parts : Nat → List AccPart) (bit n : Nat → Nat),
    let counted : Device := { s.start with nextBundle := s.start.nextBundle + 1 }
    let place := fun t => onePlace (parts t)
    let mends := fun (l : List Nat) t => mended l (place t).addrs
    let fences := fun (u : Use) (o : Ord) (sc : Scope) => b.together u fun t x => if hit t then x.fenced o sc.code fun _ x => x else x
    (∀ (i : Instr) (a : AtomForm),
      let w := width a.d.wide
      let u : Use := { reads := i.reads, dests := [VDst.dst a.d], long := true }
      let part := b.partOf u
      let who := (threadsOf part).filter hit
      b.atomForm i = some a → i.hdr = some h → Issues s h u b → s.start.stalled h a.b a.idx (atomAcc w a.scope) = none →
      (∀ t, part.getLsbD t = true → b.denied t a.idx = false ∧ a.den t = false) → b.lands s u a.b a.idx (atomAcc w a.scope) 2 hit parts bit n →
      (recKind (b.team.bufr a.b.toNat) ≠ 2 →
        Awaits s b u (fun t => if hit t then [] else [0]) (fun k => b.together u fun t x => if hit t then x.fenced a.ord a.scope.code fun bound x =>
          x.pushParts (parts t) bound (fun p => .atomic a.op w (BitVec.ofNat 64 (a.v t)) (BitVec.ofNat 64 (a.cmp t)) k s.start.nextBundle t p.first)
            (fun _ => a.scope.code) else x) counted i) ∧
      (recKind (b.team.bufr a.b.toNat) = 2 → (∀ t ∈ who, s.start.privBad b (place t) = false) →
        let put := fun (m : Memory) t => ((place t).addrs.zip (leBytes (w / 8) (atomNew a.op w (leNat ((place t).addrs.map m.read)) (a.v t) (a.cmp t)))).foldl
          (fun m (y : Nat × Byte) => m.set y.1 y.2) m
        let before := fun t => (who.takeWhile (· < t)).foldl put b.team.priv
        Awaits s b u (fun t => [if hit t then leNat ((place t).addrs.map (before t).read) else 0]) (fun _ => fences u a.ord a.scope)
          (counted.modTeam b.core b.slot fun x => { x with priv := who.foldl put x.priv, badPriv := who.foldl mends x.badPriv }) i)) ∧
    ∀ (op : BitVec 4) (scope : Scope) (ord : Ord) (rb : BitVec 5) (idx x : Src),
      let w := width x.isWide
      let u : Use := { reads := idx.reads 0 ++ x.reads 0, flat := idx.flat && x.flat }
      let who := (threadsOf (b.partOf u)).filter hit
      let v := fun t => if op.toNat = 11 then b.fpBits t 0 w x else b.int t w x
      Issues s h u b → s.start.stalled h rb idx (atomAcc w scope) = none →
      (∀ t, (b.partOf u).getLsbD t = true → b.denied t idx = false ∧ b.denied t x = false) → b.lands s u rb idx (atomAcc w scope) 2 hit parts bit n →
      (recKind (b.team.bufr rb.toNat) ≠ 2 →
        Does s b u (b.together u fun t y => if hit t then y.fenced ord scope.code fun bound y =>
          y.pushParts (parts t) bound (fun _ => .reduce op.toNat w (BitVec.ofNat 64 (v t))) (fun _ => scope.code) else y) id counted
          (.red h op scope ord rb idx x)) ∧
      (recKind (b.team.bufr rb.toNat) = 2 → (∀ t ∈ who, s.start.privBad b (place t) = false) →
        let put := fun (m : Memory) t => ((place t).addrs.zip (leBytes (w / 8) (atomNew op.toNat w (leNat ((place t).addrs.map m.read)) (v t) 0))).foldl
          (fun m (y : Nat × Byte) => m.set y.1 y.2) m
        Does s b u (fences u ord scope) id
          (counted.modTeam b.core b.slot fun y => { y with priv := who.foldl put y.priv, badPriv := who.foldl mends y.badPriv })
          (.red h op scope ord rb idx x))

/-- Barriers at issue (R192, R196, R211 to R216, R221): `binit` and `bexp` put one step in the queue of the lowest thread;
`barv` and `bar` release and then arrive; `bwait` and `btry` look at the phase, and pass with a whole acquire when it is no
longer the one named, where no word of the object has an uncorrectable error. Under OOB 1 an index outside the record reaches no
object: no step and no arrival is made, `barv` gives 0, and the phase reads as 0: `bar` goes on without waiting, and `bwait` and
`btry` look for that phase 0, so that a `bwait` with ph 0 waits until its limit, or for good. The model's choices: a thread that
waits spends its reads when the wait ends (log 47), and the wait argument of a limited wait holds the cycles that remain of it
(log 31). -/
def Obligations.Barriers : Prop :=
  ∀ (s : State) (h : Hdr) (rb : BitVec 5) (idx x : Src) (scope : Scope) (b : Bun) (o : Nat → Option ObjAt),
    let u : Use := { reads := idx.reads 0 ++ x.reads 0, flat := idx.flat && x.flat }
    let part := b.partOf u
    let low := (lowest part).getD 0
    let v := fun t => BitVec.ofNat 32 (b.int t 32 x)
    let stands := fun t => b.denied t idx = false ∧ b.denied t x = false ∧ b.object s.mem s.start t rb idx = (s.start, .ok (o t))
    let phase := fun t => match o t with | some a => (objWords (s.start.cells s.mem (objPlace a))).1 | none => 0
    let sound := fun t => s.start.objBad (o t) = false
    let step := fun init => b.together u fun t y => match o low with
      | some a => if t = low then y.push (.barrierStep a init (v low) part) (objPlace a) (b.objRank rb) none 0 else y
      | none => y
    let arrives := fun (k : Option Nat) (lim : Nat → Option Nat) t (y : Thread) => match o t with
      | some a => (y.releaseW).push (.arrive (some a) (v t) k (lim t) b.pc s.start.now t) (objPlace a) (b.objRank rb) none 0
      | none => y
    (Issues s h u b → stands low →
      (1 ≤ b.int low 32 x ∧ b.int low 32 x ≤ 65535 → Does s b u (step true) id s.start (.binit h scope rb idx x)) ∧
      Does s b u (step false) id s.start (.bexp h scope rb idx x)) ∧
    (∀ d : VDst,
      let w : Use := { reads := idx.reads 0 ++ x.reads 0, dests := [VDst.dst d], flat := idx.flat && x.flat, long := true }
      Issues s h w b → (∀ t, (b.partOf w).getLsbD t = true → stands t) →
      Awaits s b w (fun t => if (o t).isSome then [] else [0]) (fun k => b.together w (arrives (some k) fun _ => none)) s.start
        (.barv h scope d rb idx x)) ∧
    (Issues s h u b → (∀ t, part.getLsbD t = true → stands t) → ∀ l : BitVec 5,
      let lim := fun t => if l = 0 then none else some (b.cycle t + 2 ^ l.toNat)
      let rows := b.readRows u.reads
      let site := fun t => b.site t rb idx
      Waits s b u (fun t y => if (o t).isSome then b.waiting u (arrives none lim) (fun t => .arrival (lim t) (rows t) (site t)) t y else b.onward t y)
        (b.readers u &&& maskOf fun t => (o t).isSome) (.bar h l scope rb idx x) ∧
      ((∀ t, part.getLsbD t = true → sound t) →
        Waits s b u (fun t y => if phase t ≠ (v t).toNat then b.together u (fun _ y => y.acquire) t y
          else b.waiting u (fun _ y => y) (fun t => .phase (o t) (v t) (lim t) (rows t) (site t)) t y)
          (b.readers u &&& maskOf fun t => phase t == (v t).toNat) (.bwait h l scope rb idx x))) ∧
    ∀ p : BitVec 3,
      let w : Use := { reads := idx.reads 0 ++ x.reads 0, dests := [.pred p.toNat], flat := idx.flat && x.flat, long := true }
      Issues s h w b → (∀ t, (b.partOf w).getLsbD t = true → stands t ∧ sound t) →
      Sends s b w (b.together w fun t y => if phase t ≠ (v t).toNat then y.acquire else y) (.btry h scope p rb idx x)
        (fun t => if phase t ≠ (v t).toNat then 1 else 0)

/-! ### Engines (R231 to R266) -/

/-- Matrix commands at issue (R239, R242 to R248, R255, R256): with its checks passed and room in the queue, each puts one command with its
operands as they stand into the queue of its pack's engine.
The model's choices: an index the threads share is the lowest thread's (log 24), a tile is bound as the command is queued (log 39), the tag of
`mldw` is taken modulo 2^16 (log 41), and which stores mark a command for undefined elements (log 30). -/
def Obligations.MatrixCommands : Prop :=
  ∀ (s : State) (h : Hdr) (g : Option (BitVec 4)) (b : Bun),
    let use := fun reads flat => ({ reads := reads, flat := flat, collective := true } : Use)
    let low := (lowest b.mask).getD 0
    let fmt := fun (f : BitVec 3) => b.team.fmt f.toNat
    let off := fun (rb : BitVec 5) (idx : Src) => b.idx low idx * 2 ^ recEsz (b.team.bufr rb.toNat)
    let latch := fun (f : BitVec 3) (p : Pack) => { p with latch := fmt f }
    let queues := fun (u : Use) (g : Option (BitVec 4)) op go pk i => Queues s b u true (g.map (·.toNat)) op none go pk i
    let room := fun (u : Use) => Issues s h u b ∧ b.partOf u ≠ 0 ∧ (s.start.engine b.core b.pack.quad).full s.start.now = false
    (∀ (rb : BitVec 5) (idx : Src) (ts : Bool) (tag : BitVec 8) (f : BitVec 3) (rec : W64),
      let u := use (idx.reads 0) idx.flat
      let op := CmdOp.mldwRec (b.team.bufr rb.toNat) (off rb idx) rec (if ts then (b.pack.scalar (tag.toNat % 64)).toNat % 65536 else tag.toNat)
      room u → fmt f = some rec → fmtBad rec = false → bOk rec = true → b.denied low idx = false →
      firstFate (recTests (b.team.bufr rb.toNat) [0, 1, 3] false op.extents) = none →
      queues u g op b.onward (latch f) (.mldw h g (.record rb idx ts tag) f)) ∧
    (∀ (x : Span) (tag : Src) (ext : BitVec 8) (f : BitVec 3) (rec : W64),
      let u := use (spanNames x.first x.len ext) false
      room u → fmt f = some rec → fmtBad rec = false → bOk rec = true → (spanNames x.first x.len ext).length = (latchBytes rec + 127) / 128 →
      queues u g (.mldwSpan ((b.spanBytes (spanNames x.first x.len ext)).take (latchBytes rec)) rec (b.int low 64 tag % 65536)) b.onward (latch f)
        (.mldw h g (.span x tag ext) f)) ∧
    (∀ o : MmaOp,
      let names := spanNames o.sp.first o.sp.len 0
      let u := use (names ++ rowOf o b.team) false
      let op := fun run => CmdOp.mma run o.a.toNat (b.spanBytes names) ((fmt o.f).getD 0)
        (if rowOf o b.team = [] then [] else (List.range 32).map fun t => BitVec.ofNat 64 (b.extName t o.vs 64)) o.tag o.e
      room u → slotA (fmt o.f) b.pack.latch names.length o.tag = true →
      queues u o.g (op false) b.onward id (.mma h o) ∧
      (o.a.toNat < s.start.lr b.team.grid lrShadow → queues u o.g (op true) b.onward id (.mmar h o))) ∧
    (∀ a : BitVec 4, let u := use [] true
      room u → queues u g (.mzero a.toNat) b.onward id (.mzero h g a)) ∧
    (∀ (a : BitVec 4) (sp : Span) (row0 : BitVec 8),
      let u := use (spanNames sp.first sp.len 0) false
      room u → queues u g (.mwr a.toNat row0.toNat ((spanNames sp.first sp.len 0).map fun n =>
        (List.range 32).map fun t => BitVec.ofNat 32 (b.pack.value n t false .whole))) b.onward id (.mwr h g a sp row0)) ∧
    (∀ (rb : BitVec 5) (idx : Src) (n : BitVec 8),
      let u := use (idx.reads 0) idx.flat
      let op := CmdOp.mtag (b.team.bufr rb.toNat) (off rb idx) n.toNat
      room u → b.denied low idx = false → firstFate (recTests (b.team.bufr rb.toNat) [1, 3] false op.extents) = none →
      queues u g op b.onward id (.mtag h g rb idx n)) ∧
    ∀ (rb : BitVec 5) (idx : Src) (tile : BitVec 4) (f : BitVec 3) (rec : W64),
      let u := use (idx.reads 0) idx.flat
      let op := CmdOp.mst (b.team.bufr rb.toNat) (off rb idx) tile.toNat rec (match b.thread low with | some x => x.gen | none => 0)
        (b.team.uncovered.any fun u => u.tile == some tile.toNat && u.engine != b.pack.quad)
      room u → b.denied low idx = false → fmt f = some rec → recElem rec ≤ 10 →
      firstFate (recTests (b.team.bufr rb.toNat) [0, 1, 3] true op.extents) = none →
      queues u g op (fun t x => if recRnd rec = .rs ∧ t = low then { x with pc := nextPc b.pc, gen := advanceBy 4096 x.gen } else b.onward t x) id
        (.mst h g rb idx tile f)

/-- Copy commands at issue (R191, R239, R260 to R266): each takes the next sequence number and stands last in the team's copy queue; `cseq`
gives a number, and `cpyw` waits for one with a whole acquire.
The model's choices: a record that nothing has bound reads as the zero record (log 22), and a gather list's header record alone gives its range. -/
def Obligations.CopyCommands : Prop :=
  ∀ (s : State) (h : Hdr) (b : Bun),
    let u : Use := { flat := true }
    let rec_ := fun (r : BitVec 5) => b.team.bufr r.toNat
    (Issues s h u b → b.partOf u ≠ 0 → b.team.copyQ.length < 16 →
      (∀ (bd bs : BitVec 5) (bo : BitVec 6), firstFate (copyTests (rec_ bd) (rec_ bs) none (b.team.object bo)) = none →
        ((recOob (rec_ bd) = true ∨ recExtent (rec_ bs) ≤ recExtent (rec_ bd)) →
          Queues s b u false none (.cpy (rec_ bd) (rec_ bs)) (b.team.object bo) b.onward id (.cpy h bd bs bo)) ∧
        ∀ op : BitVec 3, recExtent (rec_ bs) % cpyrSize op.toNat = 0 → (recOob (rec_ bd) = true ∨ recExtent (rec_ bs) ≤ recExtent (rec_ bd)) →
          Queues s b u false none (.cpyr op.toNat (rec_ bd) (rec_ bs)) (b.team.object bo) b.onward id (.cpyr h op bd bs bo)) ∧
      (∀ (bd bs bi : BitVec 5) (bo : BitVec 6), firstFate (copyTests (rec_ bd) (rec_ bs) (some (rec_ bi)) (b.team.object bo)) = none →
        Queues s b u false none (.cpys (rec_ bd) (rec_ bs) (rec_ bi)) (b.team.object bo) b.onward id (.cpys h bd bs bi bo) ∧
        ((recOob (rec_ bd) = true ∨ recExtent (rec_ bi) / 4 * recStride (rec_ bd) ≤ recExtent (rec_ bd)) →
          Queues s b u false none (.cpyg (rec_ bd) (rec_ bs) (rec_ bi)) (b.team.object bo) b.onward id (.cpyg h bd bs bi bo))) ∧
      ∀ bh : BitVec 5, recKind (rec_ bh) < 2 → recRd (rec_ bh) = true → recWr (rec_ bh) = true → 64 ≤ recExtent (rec_ bh) →
        Queues s b u false none (.cpyc (rec_ bh)) none b.onward id (.cpyc h bh)) ∧
    (∀ (done : Bool) (d : VSDst),
      let v : Use := { dests := [VSDst.dst d], flat := true }
      Issues s h v b → Computes s b v b.onward (.cseq h done d) (fun _ => (if done then b.team.doneSeq else b.team.iss).toNat)) ∧
    ∀ a : Src,
      let v : Use := { reads := a.reads 0, flat := a.flat }
      let q := fun t => BitVec.ofNat 32 (b.int t 32 a)
      Issues s h v b → (∀ t, (b.partOf v).getLsbD t = true → b.denied t a = false) →
      Does s b v (fun t x => if (b.team.doneSeq - q t).toNat < 2 ^ 31 then b.together v (fun _ x => x.acquire) t x
        else b.waiting v (fun _ x => x) (fun t => .cpyw (q t)) t x) id s.start (.cpyw h a)

/-- The other matrix instructions (R235, R236, R251 to R253, R257): `mfnc` leaves a marker with the pack, `mwait` passes when
the commands it waits for have left their queues, `mrd` gives the elements of a tile, and `mstat` the state of a queue, a tile
or the miss count. The model's choices: what an `mfnc` with a record covers is judged by the ranges of records, and it covers
every chain (log 46); an index the threads share is the lowest thread's (log 24), and the codes of a block that is not open and
the slot of a closed shadow are free bits (log 44). -/
def Obligations.MatrixReads : Prop :=
  ∀ (s : State) (h : Hdr) (b : Bun),
    let u : Use := { flat := true }
    (∀ (ext : BitVec 8), Issues s h u b → b.partOf u ≠ 0 →
      let marks := fun all names range a =>
        Does s b u b.onward (fun p => { p with fences := p.fences ++ [b.marker (s.start.nextCmd + 1) all names range] })
          { s.start with nextCmd := s.start.nextCmd + 1 } (.mfnc h a ext)
      marks true [] none none ∧
      (∀ i : BitVec 5, recKind (b.team.bufr i.toNat) = 1 ∨ recKind (b.team.bufr i.toNat) = 3 →
        marks false [] (some ⟨b.team.bufr i.toNat, 0, recExtent (b.team.bufr i.toNat), false⟩) (some (.bufr i))) ∧
      (∀ x : Span, marks false (spanNames x.first x.len ext) none (some (.span x))) ∧
      ∀ n : NameSrc, marks false [n.idx.toNat] none (some (.name n))) ∧
    (Issues s h u b → b.partOf u ≠ 0 →
      let covers := fun ids => s.start.modTeam b.core b.slot fun t => { t with uncovered := t.uncovered.filter fun u => !ids.contains u.id }
      let own := (b.team.uncovered.filter fun u => u.pack == b.index).map (·.id)
      (s.start.retired b.core own = true → Does s b u (b.together u fun _ x => x.acquire) id (covers own) (.mwait h none)) ∧
      (s.start.retired b.core own = false → Does s b u (b.waiting u (fun _ x => x) fun _ => .mwait own) id s.start (.mwait h none)) ∧
      ∀ a : BitVec 4,
        let ids := ((((s.start.core b.core).engines.flatMap fun e => e.queue.filter fun c => c.grid == b.team.grid && c.team == b.team.index).filter
          fun c => c.op.tileUsed == some a.toNat).map (·.id)) ++ (b.team.uncovered.filter fun u => u.tile == some a.toNat).map (·.id)
        (s.start.retired b.core ids = true → b.team.closing a.toNat none = false →
          Does s b u (b.together u fun _ x => x.acquire) id (covers ids) (.mwait h (some a))) ∧
        (s.start.retired b.core ids = false ∨ b.team.closing a.toNat none = true →
          Does s b u (b.waiting u (fun _ x => x) fun _ =>
              if b.team.closing a.toNat none then .mwaitTile ids a.toNat (b.team.shadows.getD a.toNat Shadow.closed).opener else .mwait ids) id s.start
            (.mwait h (some a)))) ∧
    (∀ (d : SpanD) (a : BitVec 4) (row0 : Src) (ext : BitVec 8),
      let v : Use := { reads := row0.reads 0, dests := spanDsts d false ext, flat := row0.flat, long := true, collective := true }
      let r := b.idx ((lowest b.mask).getD 0) row0
      let tile := b.team.tiles.getD a.toNat Tile.zero
      Issues s h v b → 0 ≤ r → r ≤ 56 → r % 8 = 0 → tile.bad = false → (b.team.uncovered.all fun u => u.tile != some a.toNat) = true →
      ∃ q, exec (.mrd h d a row0 ext) s = .next (s.after b q) ∧ Ended b v b.onward id q ∧
        ∀ t, (b.partOf v).getLsbD t = true → ∀ j n c, v.dests[j]? = some (.name n false c) → c ≠ 0 → j < 16 →
          q.count n t = c ∧ ∃ f ∈ q.flights, ∃ r', q.bind n t = some r' ∧ f.dst = .row r'.id ∧ f.mask = b.partOf v ∧
            (t, (tile.get (r.toNat + j / 2) (32 * (j % 2) + t)).setWidth 64) ∈ f.vals) ∧
    ∀ d : SDst,
      let v : Use := { dests := [SDst.dst d], flat := true }
      let q := (s.start.engine b.core b.pack.quad).queue
      Issues s h v b →
      Computes s b v b.onward (.mstat h .q d)
        (fun _ => q.length % 64 + (q.filter fun c => c.grid == b.team.grid && c.team == b.team.index).length % 64 * 256) ∧
      (b.partOf v ≠ 0 → ∃ p, exec (.mstat h .m d) s = .next (s.afterOn (s.start.modTeam b.core b.slot fun t => { t with miss := 0 }) b p) ∧
        Ended b v b.onward id p ∧ b.Result v (fun _ => min b.team.miss 0xFFFFFFFF) p) ∧
      ∀ a : BitVec 4,
        let k := (b.team.tiles.getD a.toNat Tile.zero).block
        let open_ := (b.team.shadows.getD a.toNat Shadow.closed).slot
        (∀ g, k.opened = true → open_ = some g →
          Computes s b v b.onward (.mstat h (.b a) d) (fun _ => k.steps % 128 + 128 + k.aCode * 256 + k.bCode * 8192 + (2 ^ 18 + g * 2 ^ 20))) ∧
        (b.partOf v ≠ 0 → k.opened = false ∨ open_ = none →
          ∃ p c j, exec (.mstat h (.b a) d) s = .next (s.afterOn { s.start with draws := s.start.draws + 1 } b p) ∧ Ended b v b.onward id p ∧
            c < 2 ^ 10 ∧ j < 16 ∧ b.Result v (fun _ => k.steps % 128 + 128 * k.opened.toNat +
              (if k.opened then k.aCode * 256 + k.bCode * 8192 else c * 256) +
              (match open_ with | some g => 2 ^ 18 + g * 2 ^ 20 | none => j * 2 ^ 20)) p)

/-- Guard slots (R249, R258, R259): `gset` resolves a slot that is not resolved, `gclr` makes it so again when nothing waits on it, and `gtst`
tests it. -/
def Obligations.GuardSlots : Prop :=
  ∀ (s : State) (h : Hdr) (g : BitVec 4) (b : Bun),
    let slot := b.team.guards.getD g.toNat .unresolved
    (∀ a : Src,
      let u : Use := { reads := a.reads 0, flat := a.flat }
      let low := (lowest (b.partOf u)).getD 0
      Issues s h u b → b.partOf u ≠ 0 → b.denied low a = false → slot = .unresolved →
      let set := fun (t : Team) =>
        { t with guards := lmod t.guards g.toNat fun _ => if b.int low (width a.isWide) a ≠ 0 then .isTrue else .isFalse,
                 resolvedAt := lmod t.resolvedAt g.toNat fun _ => s.start.nextCmd + 1 }
      Does s b u b.onward id ((s.start.modTeam b.core b.slot set).freed b.core b.team (set b.team)) (.gset h g a)) ∧
    (let u : Use := { flat := true }
     Issues s h u b → b.partOf u ≠ 0 → (slot = .unresolved ∨ s.start.slotBusy b.core b.team g.toNat = false) →
     Does s b u b.onward id (s.start.modTeam b.core b.slot fun t => { t with guards := lmod t.guards g.toNat fun _ => .unresolved }) (.gclr h g)) ∧
    ∀ (resolved : Bool) (p : BitVec 3),
      let u : Use := { dests := [.pred p.toNat], flat := true }
      Issues s h u b →
      Computes s b u b.onward (.gtst h resolved p g) (fun _ => (if resolved then decide (slot ≠ .unresolved) else decide (slot = .isTrue)).toNat)

/-! ### Routing, system instructions and hints (R269 to R301, R116 to R118) -/

/-- `rsv` and `rsv.try` (R88, R277, R289): the lowest free entry of the core is reserved, and the ticket names its core, its number and its
new generation; with none free `rsv.try` gives 0, and `rsv` waits. -/
def Obligations.Reserve : Prop :=
  ∀ (s : State) (h : Hdr) (tr : Bool) (v : BitVec 6) (bd bs : BitVec 5) (sc : BitVec 6) (b : Bun) (f : W64),
    let u : Use := { dests := [.scal v.toNat true], flat := true }
    let low := (lowest (b.partOf u)).getD 0
    let x := b.pack.scalar sc.toNat
    let rd := b.team.bufr bd.toNat
    let rs := b.team.bufr bs.toNat
    let gen := match b.thread low with | some y => y.gen | none => 0
    let counted : Device := { s.start with nextBundle := s.start.nextBundle + 1 }
    Issues s h u b → b.partOf u ≠ 0 → fld x 31 30 = 0 → x.getLsbD 15 = false → x.getLsbD 7 = false → scRows x ≤ 64 →
    b.team.fmt (scSlot x) = some f → recElem f ≤ 10 → recKind rd = 0 → recKind rs = 0 → recWr rd = true → recRd rs = true → recWr rs = true →
    4 * scN x * scK x * scRows x ≤ recExtent rs →
    (∀ e, e < 32 → (s.start.entry b.core e).state = .free → (∀ k, k < e → (s.start.entry b.core k).state ≠ .free) →
      let g := (s.start.entry b.core e).gen
      let g' : W32 := if g = BitVec.allOnes 32 then 1 else g + 1
      ∃ q, exec (.rsv h tr v bd bs sc) s = .next (s.afterOn (counted.modEntry b.core e fun _ =>
          { REntry.fresh with
            state := .reserved, gen := g', grid := b.team.grid, team := b.team.index, rows := scRows x, k := scK x, n := scN x, dst := rd, staging := rs,
            fmt := f, tmo := fld x 63 32, renorm := x.getLsbD 11, rng := gen, weights := List.replicate (scRows x * scK x) 0,
            choices := List.replicate (scRows x * scK x) .pending }) b q) ∧
        Ended b u (fun t y => if recRnd f = .rs ∧ t = low then { y with pc := nextPc b.pc, gen := advanceBy (scRows x * scN x) y.gen } else b.onward t y)
          id q ∧ b.Result u (fun _ => b.core + e * 512 + g'.toNat * 2 ^ 32) q) ∧
    ((∀ e, e < 32 → (s.start.entry b.core e).state ≠ .free) →
      (tr = true → ∃ q, exec (.rsv h tr v bd bs sc) s = .next (s.afterOn counted b q) ∧ Ended b u b.onward id q ∧ b.Result u (fun _ => 0) q) ∧
      (tr = false → ∃ q, exec (.rsv h tr v bd bs sc) s = .next (s.afterOn counted b q) ∧
        Ended b u (b.waiting u (fun _ y => y) fun _ => .rsv s.start.nextBundle rd rs x f v.toNat) id q))

/-- The other routing instructions (R281, R290 to R293). The model's choices: an `rret` that waits spends its reads when the
wait ends (log 47), one that parked keeps the claim it made (log 90), and a thread that waits in `rfree` is at barrier (log
100). -/
def Obligations.RoutingInstructions : Prop :=
  ∀ (s : State) (h : Hdr) (b : Bun),
    let u : Use := { flat := true }
    let tk := fun (x : BitVec 6) => b.ticket (b.pack.scalar x.toNat).toNat
    (∀ (x : BitVec 6) (bt bk : BitVec 5) (e : Nat),
      let v : Use := { flat := true, collective := true }
      let r := s.start.entry b.core e
      Issues s h v b → b.partOf v ≠ 0 → tk x = some e → r.state = .reserved → recKind (b.team.bufr bt.toNat) ≤ 1 → recKind (b.team.bufr bk.toNat) = 0 →
      recRd (b.team.bufr bt.toNat) = true → 8 * r.k * r.rows ≤ recExtent (b.team.bufr bt.toNat) →
      Does s b v (b.waiting v (fun _ y => y.releaseW) fun _ => .route
        { entry := 32 * b.core + e, gen := r.gen, stage := 0, sent := 0, k := r.k, plan := [], bt := b.team.bufr bt.toNat, bk := b.team.bufr bk.toNat })
        id s.start (.route h x bt bk)) ∧
    (∀ (rb : BitVec 5) (i : Src),
      let v : Use := { reads := i.reads 0, flat := i.flat }
      Issues s h v b → (∀ t, (b.partOf v).getLsbD t = true → b.denied t i = false ∧ b.int t 32 i < b.team.taken.length) →
      let stage := fun t => if (b.thread t).any (fun y => y.again == [claimMark]) then 3 else 0
      Waits s b v (b.waiting v (fun _ y => y.releaseW) fun t => .rret (b.team.bufr rb.toNat) (b.int t 32 i) (stage t) (b.readRows v.reads t))
        (b.readers v) (.rret h rb i)) ∧
    (∀ (x : BitVec 6) (e : Nat), Issues s h u b → tk x = some e →
      ((s.start.entry b.core e).state = .complete → Does s b u (b.together u fun _ y => y.acquire) id s.start (.rwait h x)) ∧
      ((s.start.entry b.core e).state = .routed →
        Does s b u (b.waiting u (fun _ y => y) fun _ => .rwait (32 * b.core + e) (s.start.entry b.core e).gen) id s.start (.rwait h x)) ∧
      (b.partOf u ≠ 0 → (s.start.entry b.core e).parked = [] →
        Does s b u b.onward id (s.start.modEntry b.core e fun y => { REntry.fresh with gen := y.gen }) (.rfree h x)) ∧
      (b.partOf u ≠ 0 → (s.start.entry b.core e).parked ≠ [] →
        Does s b u (b.waiting u (fun _ y => y) fun _ => .rfree (32 * b.core + e) (s.start.entry b.core e).gen) id
          (s.start.modEntry b.core e fun y => { y with freeing := true }) (.rfree h x))) ∧
    (∀ (f : BitVec 3) (d : VSDst) (x : BitVec 6) (e : Nat),
      let v : Use := { dests := [VSDst.dst d], flat := true }
      let r := s.start.entry b.core e
      Issues s h v b → tk x = some e →
      Computes s b v b.onward (.rstat h f d x) (fun _ => match f.toNat with
        | 0 => min r.drop (2 ^ 32 - 1) | 1 => min r.tmoCount (2 ^ 32 - 1) | 2 => min r.late (2 ^ 32 - 1) | 3 => min r.dup (2 ^ 32 - 1)
        | 4 => r.miss.toNat | _ => if r.state = .reserved then 0 else if r.state = .routed then 1 else 2)) ∧
    (∀ d : SDst,
      let v : Use := { dests := [SDst.dst d], flat := true }
      let low := (lowest (b.partOf v)).getD 0
      let n := b.team.taken.length
      Issues s h v b →
      Computes s b v b.onward (.stile h d none) (fun _ => n) ∧
      ∀ rb : BitVec 5, let r := b.team.bufr rb.toNat
        recKind r = 1 → recWr r = true → 32 * n ≤ recExtent r →
        b.team.scored [(recBase r, 32 * n)] true = false →
        Computes s b v (b.together v fun t y => if t = low then (List.range n).foldl (fun y i =>
            y.push (.store ((leBytes 32 (b.team.taken.getD i 0).toNat).map fun z => (z, 0xFF)))
              { space := .scratch b.team.grid b.team.index, addrs := (List.range 32).map fun k => swizzle r (recBase r + 32 * i + k) } 0 none
              (recBase r + 32 * i)) y else y) (.stile h d (some rb)) (fun _ => n)) ∧
    ∀ a : Src,
      let v : Use := { reads := a.reads 0, flat := a.flat }
      let low := (lowest (b.partOf v)).getD 0
      let n := b.int low 32 a
      Issues s h v b → b.partOf v ≠ 0 → b.denied low a = false →
      ∀ st, aget (s.start.part b.team.part).stations n = some st → n < (s.start.part b.team.part).stCnt.toNat → st.active = true →
      Does s b v b.onward id (s.start.modPart b.team.part fun q => { q with stations := aset q.stations n { st with flushReq := true } }) (.sflush h a)

/-- `csr` and `csw` (R41, R75, R286, R295): a register is read thread by thread, or once for a scalar; a handler thread may set its
`sys.fpc`, and a privileged grid `sys.fair`, `sys.budget` and `sys.quota`, each within its bounds.
The model's choice (log 21): the index of a register is zero-extended. -/
def Obligations.SystemRegisters : Prop :=
  ∀ (s : State) (h : Hdr) (b : Bun),
    (∀ (d : VSDst) (i : BitVec 8),
      let u : Use := { dests := [VSDst.dst d], flat := !sysVaries i.toNat }
      let who := fun t => if VSDst.isScal d then (lowest (b.partOf u)).getD 0 else t
      Issues s h u b → Machine.sysAssigned i.toNat = true → (∀ t, (b.partOf u).getLsbD t = true → b.sysDenied (who t) i.toNat = false) →
      Computes s b u b.onward (.csr h d (.direct i)) (fun t => b.sysReg (who t) i.toNat)) ∧
    (∀ (d : VSDst) (a : Src),
      let u : Use := { reads := a.reads 0, dests := [VSDst.dst d], flat := s.start.csrFlat h (.ind a) }
      let who := fun t => if VSDst.isScal d then (lowest (b.partOf u)).getD 0 else t
      let i := fun t => b.int (who t) (width a.isWide) a
      Issues s h u b → (∀ t, (b.partOf u).getLsbD t = true →
        b.denied (who t) a = false ∧ Machine.sysAssigned (i t) = true ∧ b.sysDenied (who t) (i t) = false) →
      Computes s b u b.onward (.csr h d (.ind a)) (fun t => b.sysReg (who t) (i t))) ∧
    ∀ (n : BitVec 8) (a : Src),
      let u : Use := { reads := a.reads 0, flat := a.flat }
      let low := (lowest (b.partOf u)).getD 0
      let x := b.int low (width a.isWide) a
      Issues s h u b →
      (n.toNat = 17 → (∀ t, (b.partOf u).getLsbD t = true → b.inHandler t = true ∧ isPc (BitVec.ofNat 64 (b.int t 64 a)) = true) →
        Does s b u (b.together u fun t y => { y with fpc := BitVec.ofNat 64 (b.int t 64 a) }) id s.start (.csw h n a)) ∧
      (b.partOf u ≠ 0 → b.denied low a = false → b.privileged = true →
        (n.toNat = 32 → Does s b u b.onward id (s.start.modPart b.team.part fun q => { q with fair := max 8 (min 1024 x) }) (.csw h n a)) ∧
        (n.toNat = 33 → Does s b u b.onward id (s.start.modPart b.team.part fun q => { q with budget := max 1024 (min (2 ^ 20) x) }) (.csw h n a)) ∧
        (n.toNat = 34 → Does s b u b.onward id (s.start.modTeam b.core b.slot fun y =>
          { y with quota := min (128 * bits (s.start.lr b.team.grid lrPword) 6 0) x }) (.csw h n a)))

/-- `nsave` and `nload` (R77, R80, R297): the rows of the pack that hold a count go to memory as entries, and come back in order
as the newest rows of the pack. The model's choices: `nload` asks the quota for all its rows together (log 25), and RANK in an
entry of `nsave` numbers the rows that it writes (log 79). -/
def Obligations.RowsInMemory : Prop :=
  ∀ (s : State) (h : Hdr) (rb : BitVec 5) (idx : Src) (b : Bun) (ps : List AccPart),
    let r := b.team.bufr rb.toNat
    (∀ d : SDst,
      let u : Use := { reads := idx.reads 0, dests := [SDst.dst d], flat := idx.flat, collective := true }
      let es := b.pack.entries
      let e := ((b.ready u).offset r idx).toNat
      Issues s h u b → b.partOf u ≠ 0 → saveTests (b.ready u) r idx true es.length = none → s.start.saveHold (b.ready u) r idx true es.length = none →
      (∀ y ∈ b.pack.rows, y.live = true → y.bad = 0) → s.start.recBlock s.mem b.ridge b.team r e (256 * es.length) 1 = (s.start, .ok ps) →
      ∃ q, exec (.nsave h d rb idx) s = .next (s.afterOn (s.start.writeParts ps es.flatten) b q) ∧ Ended b u b.onward id q ∧
        b.Result u (fun _ => es.length) q) ∧
    ∀ sn : BitVec 6,
      let u : Use := { reads := idx.reads 0, flat := idx.flat, collective := true }
      let n := (b.pack.scalar sn.toNat).toNat
      let e := ((b.ready u).offset r idx).toNat
      let load := fun (p : Pack) => p.loadRows s.start.now (s.start.maxlive b.team.grid) (chunk256 n (s.start.readParts s.mem ps))
      Issues s h u b → b.partOf u ≠ 0 → saveTests (b.ready u) r idx false n = none → s.start.saveHold (b.ready u) r idx false n = none → n ≤ 256 →
      s.start.recBlock s.mem b.ridge b.team r e (256 * n) 0 = (s.start, .ok ps) →
      (load b.pack).1.resident - b.pack.resident ≤ b.team.quota - b.team.inUse + b.pack.granted → (load (b.spentPack u)).2 = none →
      ∃ q, exec (.nload h rb idx sn) s = .next (s.after b q) ∧ Ended b u b.onward id { q with rows := (b.spentPack u).rows } ∧
        q.rows = (load (b.spentPack u)).1.rows

/-- Time, counters, identity, code and marks (R28 to R31, R298 to R301).
The model's choice (log 26): a sample that cannot be written is dropped. -/
def Obligations.TimeAndIdentity : Prop :=
  ∀ (s : State) (h : Hdr) (b : Bun),
    (∀ (clk : Bool) (d : VSDst),
      let u : Use := { dests := [VSDst.dst d], flat := true }
      let who := fun t => if VSDst.isScal d then (lowest (b.partOf u)).getD 0 else t
      (Issues s h u b → Computes s b u b.onward (.tstamp h clk false d) (fun t =>
        if clk then (b.cycle (who t) - (s.start.core b.core).born) % 2 ^ 64 else s.start.clock.read (b.cycle (who t)) % 2 ^ 64)) ∧
      let w : Use := { dests := [VSDst.dst d], flat := true, long := true }
      Issues s h w b → Awaits s b w (fun _ => []) (fun k => b.waiting w (fun _ y => y.fullW) fun t =>
        .tstamp clk k (!VSDst.isScal d || t == (lowest (b.partOf w)).getD 0)) s.start (.tstamp h clk true d)) ∧
    (∀ n : Src,
      let i := fun t => b.int t (width n.isWide) n
      let c := fun t => s.start.counter b.team.part b.ridge (i t)
      (∀ (f : BitVec 2) (d : VSDst),
        let u : Use := { reads := n.reads 0, dests := [VSDst.dst d], flat := n.flat }
        Issues s h u b → (∀ t, (b.partOf u).getLsbD t = true → b.denied t n = false ∧ i t ≤ 7) →
        Computes s b u b.onward (.cntr h (.one f d) n) (fun t =>
          (match f.toNat with | 0 => (c t).1 | 1 => (c t).2.1 | _ => (c t).2.2).toNat)) ∧
      ∀ (d : SpanD) (ext : BitVec 8),
        let u : Use := { reads := n.reads 0, dests := spanDsts d true ext, flat := n.flat }
        Issues s h u b → (∀ t, (b.partOf u).getLsbD t = true → b.denied t n = false ∧ i t ≤ 7) →
        Gives s b u (.cntr h (.all d ext) n) (fun t => [(c t).1.toNat, (c t).2.1.toNat, (c t).2.2.toNat])) ∧
    (∀ (d : VSDst) (off : Src),
      let u : Use := { reads := off.reads 0, dests := [VSDst.dst d], flat := off.flat }
      let o := fun t => b.int t (width off.isWide) off
      Issues s h u b → (∀ t, (b.partOf u).getLsbD t = true → b.denied t off = false ∧ o t % 8 = 0 ∧ o t ≤ 0xFF8) →
      Computes s b u b.onward (.probe h d off) (fun t => identity (o t))) ∧
    let u : Use := { flat := true }
    (∀ rb : Option (BitVec 5),
      let r := b.team.bufr ((rb.map (·.toNat)).getD 0)
      Issues s h u b → (rb.isSome = true → recKind r = 0) →
      Does s b u (b.waiting u (fun _ y => y.releaseW) fun _ => .icinv s.start.nextBundle (rb.map fun _ => (recBase r, recExtent r))) id
        { s.start with nextBundle := s.start.nextBundle + 1 } (.icinv h rb)) ∧
    ∀ n : BitVec 17, Issues s h u b → b.partOf u ≠ 0 →
      Does s b u b.onward id (s.start.sample s.mem b.team.part b.ridge
        (sampleBits b.index b.core b.team.part 0 1 (n.toNat % 65536) b.team.grid b.pc.toNat s.start.time)) (.mark h n)

/-- Hints (R116 to R118): `hnear` does nothing that can be told, `hest` gives the teams of the grid that have not retired, and a
hint that is not implemented writes zeros to the names its destination field names. The width of those names, where the hint's
field gives none, is the model's choice (log 85). -/
def Obligations.Hints : Prop :=
  ∀ (s : State) (h : Hdr) (b : Bun),
    (∀ (c : BitVec 2) (rb : BitVec 5) (idx : Src),
      let u : Use := { reads := idx.reads 0, flat := idx.flat }
      Issues s h u b → Does s b u b.onward id s.start (.hnear h c rb idx)) ∧
    (∀ (d : VDst) (g : Grid),
      let u : Use := { dests := [VDst.dst d], flat := true }
      Issues s h u b → s.start.grid b.team.grid = some g →
      Computes s b u b.onward (.hest h d) (fun _ => min (2 ^ 32 - 1) (match g.station with
        | some _ => g.live + g.launches.length
        | none => lrTeams g.record - g.nextTeam + g.live))) ∧
    ∀ w : HintWord,
      let reads := (Instr.unimplementedHint h w).reads
      let u : Use := { reads := reads, dests := Machine.HintWord.dests w, flat := reads.isEmpty }
      Issues s h u b → Gives s b u (.unimplementedHint h w) (fun _ => [])

/-! ### Moves of issue, names and the ordering machine (R218 to R230) -/

/-- The issue of a bundle, joins, and rows (R40, R46, R61, R66, R70 to R72): each move under the conditions of its rule, and
what it changes. First fetches are among the bundle starts, with the test of R125. The model's choices: which move a turn makes
(log 1), that a bundle forms after the releases, frees and grants that are due on its core (log 28), that the RANK of an evicted
row is its place among all rows of its pack (log 79), that a long-latency instruction completes for its whole bundle (log 96),
the order of several elders (log 97), and that a move of a row waits for a way between the dies (log 94). -/
def Obligations.IssueAndNameMoves : Prop :=
  ∀ (s : State),
    let d := s.start
    (∀ core q slot i p pc mask f c rot t d1 bs hd ins,
      let e := d.modCore core fun x => { x with teams := x.teams.map fun y => (y.1, ({ y.2 with packs := y.2.packs.map (Pack.release · d.now) }).sweep d.now) }
      let g := e.modPack core slot i fun x => { (if p.hold.isSome then x.rouse else x) with fair := f, cursor := c, rotated := rot }
      q < 4 → d.cur = none → aget (d.core core).quadStart q ≠ some d.now → e.choosePack s.mem core q = some (slot, i, p, (pc, mask, f, c, rot)) →
      e.team core slot = some t → g.fetch s.mem core t.part pc = (d1, .ok (bs, hd)) →
      (∀ k x, mask.getLsbD k = true → p.thread k = some x → x.start = true → slotOf pc = 0 ∧ headerTarget hd 0 = true) → decodeBytes bs = .ok ins →
      Becomes s (.bundleStart core q) { d1 with cur := some ⟨core, slot, i, mask, pc, bs⟩ }) ∧
    (∀ p pk e es, d.pack p.core p.slot p.pack = some pk → pk.stack = e :: es → e.due ≤ d.now → e.members ≠ 0 →
      e.members &&& ~~~e.arrived = 0 → (∀ x ∈ es, d.now < x.due ∨ x.members ≠ 0 ∧ x.members &&& ~~~x.arrived ≠ 0) →
      Becomes s (.joinRelease p) (d.modPack p.core p.slot p.pack fun _ => { pk.readyAt e.members (nextPc e.joinPc) with stack := es })) ∧
    (∀ p pk f k, d.pack p.core p.slot p.pack = some pk → pk.flights.find? (fun g => g.id == k && g.ready.any (· ≤ d.now)) = some f →
      ((∀ g ∈ pk.flights, g.group = f.group → ∀ t, g.mask.getLsbD t = true → ∃ v ∈ g.vals, v.1 = t) →
        Becomes s (.pendingValueArrive p k) (d.modPack p.core p.slot p.pack fun _ =>
          (pk.flights.filter fun g => g.group == f.group).foldl (fun q g => g.vals.foldl (fun q v => q.completeFlight g.id v.1 (some v.2.toNat)) q) pk)) ∧
      ∀ g ∈ pk.flights, g.group = f.group → ∀ t, g.mask.getLsbD t = true → (∀ v ∈ g.vals, v.1 ≠ t) →
        Becomes s (.pendingValueArrive p k) (d.modPack p.core p.slot p.pack fun _ => pk)) ∧
    (∀ p pk row, d.pack p.core p.slot p.pack = some pk →
      (∀ y ∈ pk.rows, y.id = row → y.live = false ∧ y.held = 0 ∧ y.busy ≤ d.now ∧ y.spent ≤ d.now ∧ y.evicted = false) →
      Becomes s (.rowFree p row) (d.modPack p.core p.slot p.pack fun _ => { pk with rows := pk.rows.filter (·.id != row) })) ∧
    (∀ core slot t i p, d.team core slot = some t → t.packs[i]? = some p → p.blocked = true → p.need - p.granted ≤ t.quota - t.inUse →
      (∀ j r, t.packs[j]? = some r → r.blocked = true → j = i) →
      Becomes s (.rowsGranted core slot) (d.setTeam core slot (t.modPack i fun p => { p with granted := p.need }))) ∧
    (∀ core slot t e v, d.team core slot = some t → t.evict = none → t.victim d.now e = some v →
      t.round = some e ∧ e ∈ t.blockedPacks ∨ t.round = none ∧ t.deadlocked d.now = true ∧ t.elder = some e →
      Becomes s (.allocationDeadlock core slot) (d.setTeam core slot
        { t with round := some e, evict := some v, packs := imap (fun i p => if i = e then { p with elder := true } else p) 0 t.packs })) ∧
    (∀ core slot t e p r ps d1, d.team core slot = some t → t.evict = some e → e.page = none → t.packs[e.victim]? = some p → p.row e.row = some r →
      p.evictable d.now r = true → r.bad = 0 → d.placeBlock s.mem (ridgeOf core) t.part (d.spillEntry t e.victim p.spilled) 256 1 = (d1, .ok ps) →
      (∀ y ∈ ps, d1.joined core y.place = true) →
      Becomes s (.rowEvict core slot)
        ((((d1.writeParts ps (r.entry e.high (p.rankOf r.id + e.high.toNat))).modPack core slot e.victim fun x => x.modRow r.id fun y =>
          if e.high then { y with evHi := some p.spilled } else { y with evLo := some p.spilled }).modPack core slot e.elder fun x =>
          { x with granted := x.granted + 1 }).modTeam core slot fun x => { x with evict := none })) ∧
    ∀ p t pk id high k ps d1, d.team p.core p.slot = some t → d.pack p.core p.slot p.pack = some pk → pk.lastEvicted = some (id, high, k) →
      pk.granted ≠ 0 → pk.restorePage = none → d.placeBlock s.mem (ridgeOf p.core) t.part (d.spillEntry t p.pack k) 256 0 = (d1, .ok ps) →
      (∀ y ∈ ps, d1.joined p.core y.place = true) →
      Becomes s (.rowRestore p) (d1.modPack p.core p.slot p.pack fun x => x.putBack id high (EntryF.ofBytes (d1.readParts s.mem ps)))

/-- The ordering machine (R187, R188, R190, R192, R210, R212, R214, R222 to R228, R300): when an entry leaves, what it does, and
that it is gone. What it meets at its place then (`Device.met`) is a fault for its thread and the entry does nothing. Which move
a turn makes is the model's choice (log 1). So are the whole of an entry's effect in one step from its thread's cycle on (log
3), the wait for a way between the dies (log 94), the lines that stay dirty in a ridge's cache (log 72), and the faults of a
step on a saved scratchpad (log 64). -/
def Obligations.OrderingMoves : Prop :=
  ∀ (s : State),
    let d := s.start
    (∀ (i : ThreadId) (po : Nat) (x : Thread) (e : Entry), d.thread i = some x → x.entry po = some e →
      let left := d.modThread i fun y => { y with queue := y.queue.filter fun o => o.po != po }
      let first := e.place.addrs.headD 0
      (∀ bs, e.kind = .store bs → d.leaves i x e = true →
        (∀ c, left.met e.place false = some c → Becomes s (.storeLeave i po) (left.post (.thread i) [i] c 0 none e.va)) ∧
        (left.met e.place false = none →
          (e.place.space = .phys → e.place.line = false → left.isBad first (max 1 e.place.addrs.length) = false) →
          left.metImage e.place true ≠ some .memoryUncorrectable →
          Becomes s (.storeLeave i po)
            (let w := if e.place.space ≠ .phys then left else if e.rank < 3 then left.soil s.mem (ridgeOf i.core) (left.partOf i) first
                      else left.cleaned first e.place.addrs.length
             let k := if e.place.line then w.setKeys first 128 e.place.key else w
             k.setCells e.place (((k.cells s.mem e.place).zip bs).map fun z => mergeByte z.1 z.2) (.entry i po)))) ∧
      (∀ op w v cmp fl bd rk first, e.kind = .atomic op w v cmp fl bd rk first → d.leaves i x e = true → left.met e.place true = none →
        let old := leNat (left.cells s.mem e.place)
        Becomes s (.storeLeave i po)
          ((left.setCells e.place (leBytes (w / 8) (atomNew op w old v.toNat cmp.toNat))).give i fl (some old))) ∧
      (∀ op w v, e.kind = .reduce op w v → d.leaves i x e = true →
        Becomes s (.storeLeave i po)
          { left with pool := left.pool ++ [{ owners := [(i, e.po, e.rank)], place := e.place, va := e.va, op := op, width := w, v := v }] }) ∧
      (∀ obj count fl lim pc bd rk, e.kind = .arrive obj count (some fl) lim pc bd rk → d.leaves i x e = true → left.met e.place true = none →
        let bs := left.cells s.mem e.place
        let w := objWords bs
        let w' := advancePhase (w.1, w.2.1, (w.2.2.1 + 1) % 65536, w.2.2.2)
        count.toNat = w.2.1 → w.2.2.1 ≠ w.2.1 →
        Becomes s (.storeLeave i po)
          ((left.setCells e.place (objBytes w'.1 w'.2.1 w'.2.2.1 w'.2.2.2 (bits (leNat bs) 127 96))).give i fl (some w.1))) ∧
      (∀ obj v part, e.kind = .barrierStep obj true v part → d.leaves i x e = true → left.met e.place false = none →
        Becomes s (.storeLeave i po) (left.setCells e.place (objBytes 0 v.toNat 0 0 0))) ∧
      (∀ obj v part, e.kind = .barrierStep obj false v part → d.leaves i x e = true → left.met e.place true = none →
        let bs := left.cells s.mem e.place
        let w := objWords bs
        let w' := advancePhase (w.1, w.2.1, w.2.2.1, (w.2.2.2 + v.toNat) % 2 ^ 32)
        Becomes s (.storeLeave i po)
          (left.setCells e.place (objBytes w'.1 w'.2.1 w'.2.2.1 w'.2.2.2 (bits (leNat bs) 127 96)))) ∧
      (d.retires i x e = true → Becomes s (.markerRetire i po) left) ∧
      (∀ fl size code bt p f, e.kind = .load fl 0 size code bt → d.mayLoad i x e = true → d.met e.place true = none → e.place.addrs.length = size →
        (∀ o ∈ x.queue, o.po ≠ po → ∀ a b c g, o.kind ≠ .load fl a b c g) → d.pack i.core i.slot i.pack = some p →
        p.flights.find? (fun g => g.id == fl && g.mask.getLsbD i.thread) = some f → (∀ y ∈ f.parts, y.1 ≠ i.thread) →
        let new := imap (fun k b => (i.thread, k, b)) 0 (d.loadBytes s.mem x e)
        let got := left.modPack i.core i.slot i.pack fun p =>
          { p with flights := p.flights.map fun g => if g.id = fl && g.mask.getLsbD i.thread then { g with parts := g.parts ++ new } else g }
        Becomes s (.loadPerform i po) (match x.returning fl with
          | some n => (got.give i fl none).rretStage s.mem i n (d.loadBytes s.mem x e)
          | none => got.give i fl (some (widen code bt (d.loadBytes s.mem x e)))))) ∧
    (∀ i j x y, d.pool[i]? = some x → d.pool[j]? = some y → i ≠ j → x.place.space = y.place.space → x.place.addrs = y.place.addrs →
      x.place.site = y.place.site → x.op = y.op → x.width = y.width → x.op ≠ 9 → x.op ≠ 10 →
      Becomes s (.reductionCombine i j) { d with pool := (lmod d.pool i fun _ =>
        { x with owners := x.owners ++ y.owners, v := BitVec.ofNat 64 (atomNew x.op x.width x.v.toNat y.v.toNat 0) }).eraseIdx j }) ∧
    (∀ i x, d.pool[i]? = some x →
      let left := { d with pool := d.pool.eraseIdx i }
      left.met x.place true = none →
      Becomes s (.reductionApply i)
        (left.setCells x.place (leBytes (x.width / 8) (atomNew x.op x.width (leNat (left.cells s.mem x.place)) x.v.toNat 0)))) ∧
    (∀ p t pk, d.team p.core p.slot = some t → d.pack p.core p.slot p.pack = some pk →
      (∀ x ∈ pk.icinvs, ∀ y, pk.thread x.2.2 = some y → y.releasing = false) →
      Becomes s (.icinvDrop p) (pk.icinvs.foldl (fun d x =>
        (d.dropLines t.part x.2.1).modThread ⟨p.core, p.slot, p.pack, x.2.2⟩ fun y => { y with status := .ready, pc := nextPc y.pc }) d)) ∧
    ∀ part, Becomes s (.icinvManagementEquivalent part) { d with cores := d.cores.map fun c =>
      (c.1, { c.2 with icache := c.2.icache.filter fun x => x.1 / 2 ^ 60 != part }) }

/-- The ends of waits (R137, R139, R141, R216, R252, R266, R281, R298): under the condition of its rule the thread goes on at
NextPC, with a whole acquire where the rule says so, and nothing else changes but what the rule names. The model's choices: the
reads that `bar` and `bwait` left open are spent as the wait ends, and not when it ends in a fault (log 47); the cycles that
remain of a limit stand in the wait argument (log 31); which move a turn makes (log 1). So is that a wait ends only from the
cycle of its thread on (log 3). -/
def Obligations.EndsOfWaits : Prop :=
  ∀ (s : State) (i : ThreadId) (x : Thread) (t : Team),
    let d := s.start
    d.thread i = some x → d.team i.core i.slot = some t →
    (∀ obj ph lim rs st, d.waitOf i = some (.phase obj ph lim rs st) → d.phaseOf s.mem obj ≠ ph.toNat → (∀ l, lim = some l → d.now < l) →
      Becomes s (.barrierWake i) ((d.spendRows i rs).modThread i Thread.woken)) ∧
    (∀ l g rs st, (∃ obj ph, d.waitOf i = some (.phase obj ph (some l) rs st)) ∨ d.waitOf i = some (.arrival (some l) rs st) → l ≤ d.now →
      d.grid t.grid = some g → g.terminated = false → lrHpc g.record ≠ 0 → x.handler = .off →
      Becomes s (.barrierTimeout i) (d.modThread i (fun y => y.trapped .barrierTimeout 0 x.pc (lrHpc g.record)))) ∧
    (∀ n, d.waitOf i = some (.sleep n) → n ≤ d.now →
      Becomes s (.sleepWake i) (d.modThread i fun y => { y with status := .ready, pc := nextPc y.pc })) ∧
    (∀ q, d.waitOf i = some (.cwait q) → (t.cmp - q).toNat < 2 ^ 31 → Becomes s (.cwaitWake i) (d.modThread i Thread.woken)) ∧
    (∀ ids, let covered := (d.modTeam i.core i.slot fun y => { y with uncovered := y.uncovered.filter fun u => !ids.contains u.id }).modThread i Thread.woken
      (∀ e ∈ (d.core i.core).engines, ∀ c ∈ e.queue, c.id ∉ ids) →
      (d.waitOf i = some (.mwait ids) → Becomes s (.mwaitWake i) covered) ∧
      ∀ a k, d.waitOf i = some (.mwaitTile ids a k) → t.closing a (some k) = false → Becomes s (.mwaitWake i) covered) ∧
    (∀ q, d.waitOf i = some (.cpyw q) → (t.doneSeq - q).toNat < 2 ^ 31 → Becomes s (.cpywWake i) (d.modThread i Thread.woken)) ∧
    (∀ e gen, d.waitOf i = some (.rwait e gen) → (d.entry (e / 32) (e % 32)).gen = gen → (d.entry (e / 32) (e % 32)).state = .complete →
      Becomes s (.rwaitWake i) (d.modThread i Thread.woken)) ∧
    (d.waitOf i = some .spawnHold → t.children < 2 ^ 31 - 1 →
      Becomes s (.spawnHoldRelease i) (d.modThread i fun y => { y with status := .ready })) ∧
    ∀ clk fl wr, d.waitNow i = some (.tstamp clk fl wr) → (∀ e ∈ x.queue, ∀ sc, e.kind ≠ .full sc true) →
      Becomes s (.tstampFenceSample i) (d.modPack i.core i.slot i.pack fun p =>
        (p.completeFlight fl i.thread (if wr then some (if clk then (d.now - (d.core i.core).born) % 2 ^ 64 else d.time) else none)).modThread i.thread
          fun y => { y with status := .ready, pc := nextPc y.pc })

/-- Walks for parked threads, the resolution of a page, invalidations, and asynchronous faults (R51, R181, R283, R316, R317).
What a walk does at an entry it cannot read is the model's choice (log 12). Which move a turn makes is the model's choice (log
1). So are a routine's registers at its entry (logs 73 and 109) and its 32-bit addresses (log 110). -/
def Obligations.PagesAndPendingFaults : Prop :=
  ∀ (s : State),
    let d := s.start
    (∀ ridge part va kind d1 r, d.walkers ridge part va kind ≠ [] → kind < 16 → d.translate s.mem ridge part va kind = (d1, r) → r ≠ .miss →
      Becomes s (.tlbMissWalk ridge part va kind)
        ((d.walkers ridge part va kind).foldl (fun d i => d.modThread i fun x => { x with status := .ready }) d1)) ∧
    (∀ ridge part va kind d1 i is x, (fld (d.part part).reg 63 0 ≠ 0 ∨ (d.ridge ridge).asShipped = false) → d.walkers ridge part va kind ≠ [] →
      Device.runWalker s.mem ridge 65536 { d with draws := d.draws + 1 } (d.walkEntry part va kind) = (d1, .stopped) →
      d1.walkers ridge part va kind = i :: is → d1.thread i = some x →
      Becomes s (.walkStopped ridge part va kind) ((i :: is).foldl (fun d i => d.modThread i fun y =>
        { y with status := match y.status with | .parked a k _ => .parked a k false | z => z })
        (d1.parkRecord part ridge va kind (d1.recOf i .pageNotPresent 0 x.pc 0 0)))) ∧
    (∀ part va, let page := va / 65536 * 65536
      (∀ x ∈ d.allCmds part, ∀ p k, x.2.parked = some (p, k) → p ≠ page) →
      (∀ x ∈ d.teams, (∀ e, x.2.2.evict = some e → e.page ≠ some page) ∧ ∀ p ∈ x.2.2.packs, p.restorePage ≠ some page) →
      (∀ c i row p, (row, p) ∈ (d.entry c i).parked → p ≠ page) →
      let e := d.modPart part fun q => { q with parks := q.parks.filter fun x => x.page != page }
      let f : Device :=
        { e with
          cores := d.cores.map fun c => (c.1, { c.2 with teams := c.2.teams.map fun t => if t.2.part = part then (t.1, t.2.resolve page 0) else t }),
          grids := d.grids.map fun g => if g.2.part = part then
            (g.1, { g.2 with saved := g.2.saved.map fun y => { y with team := y.team.resolve page 0 } }) else g,
          submits := d.submits.map fun y => if y.grid / 2 ^ 60 = part && y.waiting == some page then { y with waiting := none } else y }
      Becomes s (.resolve part va 0) (f.modFront part fun f =>
        { f with queues := f.queues.map fun q => if q.waiting = some page then { q with waiting := none } else q })) ∧
    (∀ part va, (∀ r, d.pinned r part va = []) →
      Becomes s (.tlbInvalidation part va) ((d.ridges.map (·.1)).foldl (fun d r => d.modRidge r fun x =>
        { x with tlb := x.tlb.filter fun e => !tlbHit e part va, stale := x.stale.filter fun y => y.1 != va * 16 + part }) d)) ∧
    (∀ part va, (d.ridges.map (·.1)).Nodup →
      Becomes s (.pinTimeout part va) ((d.ridges.map (·.1)).foldl (fun e r =>
        if (d.ridge r).stale.any fun x => x.1 == va * 16 + part && x.2 + 2100000 ≤ d.now then
          ((e.pinned r part va).foldl (fun e x => e.fail x.1 x.2 .pinRevoked va) e).dropTlb r part va
        else e) d)) ∧
    ∀ i x t g f rest, d.thread i = some x → d.team i.core i.slot = some t → d.grid t.grid = some g → x.pend = f :: rest → x.lane ≤ d.now →
      t.saving = none → d.preceded f = false → f.code.cls = 0 → f.asSys = false → g.terminated = false → x.status ≠ .exited → x.handler = .off → lrHpc g.record ≠ 0 →
      Becomes s (.asyncFaultDelivery i) (d.modPack i.core i.slot i.pack fun p =>
        let q : Pack := { p with stack := if x.status = .atJoin then unarrive i.thread p.stack else p.stack }
        (q.modThread i.thread fun y => { y.trapped f.code f.detail (f.fpc.getD x.pc) (lrHpc g.record) with pend := rest }).dropHold)

/-! ### Engines (R231 to R268, R327) -/

/-- Commands start, end and leave their queues; power leave, shadows, markers and the reset of an engine (R231 to R235, R241,
R248 to R250, R327). Which move a turn makes is the model's choice (log 1). So is when a command takes its pins (log 91). So are
the sets of chains and of indexed copies, which count as they stand (log 46). -/
def Obligations.CommandStartsAndEnds : Prop :=
  ∀ (s : State),
    let d := s.start
    (∀ k c, (d.heads (ridgeOf (CmdId.core k))).find? (fun x => x.1 == k) = some (k, c) → c.needsLeave = true →
      (∀ x ∈ d.heads (ridgeOf (CmdId.core k)), x ≠ (k, c) → x.2.needsLeave = true → c.arrived * 2 ^ 64 + c.id < x.2.arrived * 2 ^ 64 + x.2.id) →
      Becomes s (.powerLeaveGrant k) (d.modCmd k fun c => { c with leave := true, idleFrom := d.now })) ∧
    (∀ core slot id c t, d.cmd (.copy core slot id) = some c → d.team c.core c.slot = some t → c.started = false → c.aborted = none →
      (c.op.heavy = true → c.leave = true) →
      let xs := c.sets d s.mem (Engine.fresh 0) t
      d.ordered s.mem c t xs = true →
      Becomes s (.matrixCommandStart (.copy core slot id))
        (((d.warm s.mem t c.core xs).releaseRows c).modCmd (.copy core slot id) fun x => { x with started := true, rows := [], pins := (d.warm s.mem t c.core xs).pinsFor s.mem t c.core xs })) ∧
    (∀ core q c cs t, (d.engine core q).queue = c :: cs → d.team c.core c.slot = some t → c.started = false → c.aborted = none →
      (∀ n, (d.engine core q).outUntil = some n → n ≤ d.now) →
      (∀ p f, d.pack c.core c.slot c.pack = some p → f ∈ p.fences → f.id ∉ c.fences) → c.verdict t = some true → (c.op.heavy = true → c.leave = true) →
      d.bindingFree core q c t = true → d.ordered s.mem c t (c.sets d s.mem (d.engine core q) t) = true →
      (∀ run a frag f vs tag be, c.op = .mma run a frag f vs tag be →
        (t.target a (c.useShadow t)).block.pairOk (recElem f) (recElem (d.engine core q).latch.fmt) = true) →
      let xs := c.sets d s.mem (d.engine core q) t
      let warm := d.warm s.mem t c.core xs
      let e := (warm.releaseRows c).modCmd (.matrix core q c.id) fun x =>
        { x with started := true, rows := [], toShadow := c.useShadow t, chain := (recElem (d.engine core q).latch.fmt, 0, 0),
                 pins := warm.pinsFor s.mem t c.core xs }
      let bound : Device := match c.op.tile with
        | some a => e.modTeam c.core c.slot fun t' =>
            { t' with bindings := aset t'.bindings a q,
                      shadows := if c.useShadow t then lmod t'.shadows a (fun x => if x.slot.isSome then x else { tile := t'.tiles.getD a Tile.zero, slot := c.guard, opener := c.id })
                                 else t'.shadows }
        | none => e
      Becomes s (.matrixCommandStart (.matrix core q c.id)) (bound.modEngine core q fun e => { e with lastMove := d.now })) ∧
    (∀ core q c cs t, (d.engine core q).queue = c :: cs → (∀ x ∈ cs, x.id ≠ c.id) → c.finished = true → d.team c.core c.slot = some t →
      Becomes s (.commandRetire (.matrix core q c.id))
        ((d.modEngine core q fun e =>
          { e with queue := (match cs with | x :: xs => { x with arrived := d.now } :: xs | [] => []), lastMove := d.now }).count t.part (ridgeOf core) 4 1)) ∧
    (∀ core slot t c cs, d.team core slot = some t → t.copyQ = c :: cs → (∀ x ∈ cs, x.id ≠ c.id) → c.finished = true →
      Becomes s (.commandRetire (.copy core slot c.id)) (d.modTeam core slot fun t =>
        { t with copyQ := (match cs with | x :: xs => { x with arrived := d.now } :: xs | [] => []), doneSeq := c.seq })) ∧
    (∀ p t pk f, d.team p.core p.slot = some t → d.pack p.core p.slot p.pack = some pk → pk.fences.find? (fun g => g.id == f.id) = some f →
      (∀ x ∈ f.flights, ∀ y g, t.packs[x.1]? = some y → g ∈ y.flights → g.id ≠ x.2) →
      (∀ x ∈ f.entries, (∀ y, d.thread ⟨p.core, p.slot, x.1, x.2.1⟩ = some y → y.has x.2.2 = false) ∧
        ∀ r ∈ d.pool, ∀ o ∈ r.owners, o.1 = ⟨p.core, p.slot, x.1, x.2.1⟩ → o.2.1 ≠ x.2.2) →
      (∀ c ∈ t.copyQ, c.id ∈ f.copies → c.finished = true ∨ ∀ x ∈ c.leftNow d s.mem t, f.names t x = false) →
      Becomes s (.operandReadyRetire p f.id) (d.modPack p.core p.slot p.pack fun y => { y with fences := y.fences.filter fun g => g.id != f.id })) ∧
    (∀ core slot (g : BitVec 4) t, d.team core slot = some t → d.closable core t g.toNat = true →
      (∀ q c cs, q < 4 → (d.engine core q).queue = c :: cs → c.grid = t.grid → c.team = t.index → c.guard = some g.toNat → c.started = false →
        t.guards.getD g.toNat .unresolved = .isTrue) →
      let closed : Team :=
        { t with tiles := if t.guards.getD g.toNat .unresolved = .isTrue then
                   imap (fun i x => match t.shadows[i]? with | some y => if y.slot = some g.toNat then y.tile else x | none => x) 0 t.tiles else t.tiles,
                 shadows := t.shadows.map fun y => if y.slot = some g.toNat then Shadow.closed else y }
      Becomes s (.shadowResolve core slot g) ((d.setTeam core slot closed).freed core t closed)) ∧
    (∀ core q, core < 480 → q < 4 → (d.core core).engines.length = 4 →
      let reset := fun (i : Instr) => ∃ t : State, exec i s = .next t ∧
        t.dev.engine core q = { queue := [], latch := { bytes := [], fmt := BitVec.ofNat 64 (recElem (d.engine core q).latch.fmt), tag := 0xFFFF, src := 0 },
                                table := [], lastMove := d.now, outUntil := some (d.now + 105000) } ∧
        ∀ x ∈ d.affected core q, ∀ y : Team, t.dev.team core x.1 = some y →
          y.tiles = List.replicate 16 Tile.zero ∧ y.shadows = List.replicate 16 Shadow.closed ∧
          (x.2.saving = none → ∀ (p u : Nat) (j : Pack) (z : Thread), y.packs[p]? = some j → u < 32 → j.thread u = some z → z.status ≠ .exited → ∃ f ∈ z.pend, f.code = .engineReset)
      reset (.engrst core q) ∧
      ∀ c cs t, (d.engine core q).queue = c :: cs → d.team c.core c.slot = some t →
        (c.started = true ∨ (c.verdict t).isSome = true ∧ c.needsLeave = false) →
        (d.engine core q).lastMove + 21000000 ≤ d.now → c.arrived + 21000000 ≤ d.now → c.idleFrom + 21000000 ≤ d.now → reset (.engineHangTimeout core q)) ∧
    ∀ core q, Becomes s (.engineReturnToService core q) (d.modEngine core q fun e => { e with outUntil := none })

/-- The read and write moves of commands and the walk of a chain (R191, R192, R231, R232, R233, R245, R246, R256, R262, R265,
R283): a copy, or the entry that a chain performs, reads bytes and writes those it has read, its bytes counted on its object in
the same move; a matrix command writes its tile or latch whole; and a chain goes through its phases. Each move may be made when
`Device.mayMove` says so. Which move a turn makes (log 1), and when a command takes its pins (log 91), are the model's choices.
So are what an earlier chain or indexed copy has yet to write (log 46) and the wait for a way between the dies (log 94). -/
def Obligations.EngineMoves : Prop :=
  ∀ (s : State) (k : CmdId) (c0 : Cmd) (t : Team),
    let d := s.start
    let moved := fun (d : Device) => match k with
      | .matrix core q _ => d.modEngine core q fun e => { e with lastMove := d.now }
      | .copy _ _ _ => d
    d.cmd k = some c0 → d.team c0.core c0.slot = some t →
    (c0.open_ = true →
      let c := c0.view
      (∀ start len d1 c', (∃ bd bs, c.op = .cpy bd bs) ∨ (∃ o bd bs, c.op = .cpyr o bd bs) ∨ (∃ r e f g, c.op = .mldwRec r e f g) ∨ (∃ r e n, c.op = .mtag r e n) →
        let segs := (c.reads.map fun x => x.cut start len).filter fun x => x.len != 0 && !c.has x.n
        d.mayMove s.mem t c false segs = true → d.readSegs s.mem t c.core segs c = (d1, .ok c') →
        Becomes s (.engineReadMove k start len) (moved (d1.modCmd k fun x =>
          { x with data := c'.data, pins := (d1.pinsFor s.mem t c.core (segs.map (Seg.extent false)) ++ x.pins).dedup }))) ∧
      (∀ start len r e tile f gen undef, c.op = .mst r e tile f gen undef → c.has 0 = false →
        Becomes s (.engineReadMove k start len)
          (moved ((d.tileBytes t tile f gen undef).1.modCmd k fun x =>
            { x with data := imap (fun i b => (i, b)) 0 (d.tileBytes t tile f gen undef).2 ++ x.data }))) ∧
      (∀ core q id, k = .matrix core q id → c.meetsBad t = false → c.undef = false → ∀ start len,
        let whole := fun (d : Device) => moved (d.modCmd k fun x => { x with applied := true })
        let latch := fun (l : Latch) => d.modEngine core q fun e => { e with latch := l }
        (∀ bytes f tag, c.op = .mldwSpan bytes f tag → (∀ u ∈ t.uncovered, u.id = id → u.touched = []) →
          Becomes s (.engineWriteMove k start len) (whole (latch { bytes := bytes, fmt := f, tag := tag, src := id }))) ∧
        (∀ r e f tag, c.op = .mldwRec r e f tag → (∀ n, n < latchBytes f → c.has n = true) → (∀ u ∈ t.uncovered, u.id = id → u.touched = []) →
          Becomes s (.engineWriteMove k start len) (whole (latch { bytes := c.bytesOf (latchBytes f), fmt := f, tag := tag, src := id }))) ∧
        (∀ a, c.op = .mzero a →
          Becomes s (.engineWriteMove k start len) (whole (d.modTeam c.core c.slot fun t => { t with tiles := lmod t.tiles a fun _ => Tile.zero }))) ∧
        (∀ a row0 vals, c.op = .mwr a row0 vals →
          Becomes s (.engineWriteMove k start len)
            (whole (d.modTeam c.core c.slot fun t => { t with tiles := lmod t.tiles a fun x => x.putRows row0 vals }))) ∧
        ∀ run a frag f vs blockEnd, c.op = .mma run a frag f vs false blockEnd → c.toShadow = false →
          Becomes s (.engineWriteMove k start len) (whole (d.modTeam c.core c.slot fun t =>
            { t with tiles := lmod t.tiles a fun x => x.supply f frag vs c.chain.1 (fun _ => some (d.engine core q).latch) blockEnd }))) ∧
      ∀ start len bd bs d1 n, c.op = .cpy bd bs → (∃ core slot id, k = .copy core slot id) →
        let segs := (c.targets.map fun x => x.cut start len).filter fun x => x.len != 0
        segs ≠ [] → (∀ x ∈ segs, ∀ i, i < x.len → c.has (x.n + i) = true ∧ x.n + i ∉ c.done) → d.mayMove s.mem t c true segs = true →
        let ns := segs.flatMap fun y => (List.range y.len).map (y.n + ·)
        d.writeSegs s.mem t c (.cmd c.id none) segs 0 [] = (d1, n, ns, none) → (n = 0 ∨ ∀ p ∈ objectPart t c.obj, d.met p.place true = none) →
        Becomes s (.engineWriteMove k start len)
          (((d1.modCmd k fun x => { x with done := ns ++ x.done }).countOn s.mem t (.cmd c.id none) c.obj
            n).count t.part (ridgeOf c.core) 6 n)) ∧
    ∀ bh h p cap, c0.op = .cpyc bh → c0.started = true → c0.applied = false → c0.parked = none → c0.failing = none → c0.chain = (h, p, cap) →
      let goes := fun (x : Device) (f : Cmd → Cmd) => Becomes s (.chainEntry k) (x.modCmd k f)
      let reads := fun (off len : Nat) (d1 : Device) (bs : List Byte) =>
        let g : Seg := { n := 0, r := bh, off := off, len := len }
        d.mayMove s.mem t c0 false [g] = true ∧ d.readSeg s.mem t c0.core g = (d1, .ok bs)
      let writes := fun (off : Nat) (bs : List Byte) (d1 : Device) => ∃ n,
        let g : Seg := { n := 0, r := bh, off := off, len := bs.length }
        d.mayMove s.mem t c0 true [g] = true ∧ d.writeSeg s.mem t c0.core (.cmd c0.id none) g bs = (d1, .ok n)
      (∀ d1 bs, p = 0 → reads 8 4 d1 bs → goes d1 fun c => { c with chain := (leNat bs, 1, 0) }) ∧
      (∀ d1, p = 1 → writes 12 [0] d1 → goes d1 fun c => { c with chain := (h, 2, 0) }) ∧
      (∀ d1 bs, p = 2 → reads 4 4 d1 bs →
        (leNat bs = h → goes d1 fun c => { c with applied := true, failing := none }) ∧ (leNat bs ≠ h → goes d1 fun c => { c with chain := (h, 3, 0) })) ∧
      (∀ d1 bs, p = 3 → reads 0 4 d1 bs → let x := leNat bs
        x ≠ 0 → x &&& (x - 1) = 0 → x ≤ 2 ^ 20 → 64 + 32 * x ≤ recExtent bh → goes d1 fun c => { c with chain := (h, 4, x) }) ∧
      (∀ d1 bs op obj, p = 4 → reads (64 + 32 * (h % cap)) 32 d1 bs → let e := ChainE.of (leBytes 32 (leNat bs))
        e.bad = false → e.command t = .ok (op, obj) → goes d1 fun c =>
          { c with chain := (h, 5, cap), sub := some (op, obj), arrived := d1.now, leave := false, data := [], done := [],
                   ranges := c.ranges ++ scoreRanges t op }) ∧
      (p = 5 → c0.needsLeave = false → d.ordered s.mem c0.view t (cmdExtents c0.view.op c0.view.obj) = true →
        goes d fun c => { c with chain := (h, 6, cap) }) ∧
      ∀ d1, p = 6 → c0.view.finished = true → writes 8 (leBytes 4 ((h + 1) % 2 ^ 32)) d1 →
        goes d1 fun c => { c with chain := ((h + 1) % 2 ^ 32, 2, 0), sub := none, leave := false, data := [], done := [] }

/-! ### Routing, launch and retirement (R37, R140, R274 to R281, R289 to R292, R305 to R312) -/

/-- Routing (R88, R273 to R275, R278 to R280, R289 to R291): a routing table is read, a waiting record is written or dropped, a
station launches a team, a return is claimed and arrives, a reservation times out, a row is combined, and a waiting `rsv` takes
a free entry. Which move a turn makes is the model's choice (log 1). So are what a claimed return keeps over a parked access
(log 90) and the bits of a row's last byte that no element fills (log 81). So are a route whose entry has been freed, which goes
on under the old generation (log 99), and the wait for a way between the dies (log 94). -/
def Obligations.RoutingMoves : Prop :=
  ∀ (s : State),
    let d := s.start
    (∀ (q : PackId) t p mask r, d.team q.core q.slot = some t → d.pack q.core q.slot q.pack = some p → p.sliceDone = false →
      p.routing = some (mask, r) →
      let x := d.entry (r.entry / 32) (r.entry % 32)
      let n := x.k * x.rows
      (∀ ps d1, r.stage = 0 → t.tableHeld x r.bt = false → (∀ u y, mask.getLsbD u = true → p.thread u = some y → y.releasing = false) →
        x.state = .reserved → x.gen = r.gen → x.grid = t.grid → x.team = t.index →
        d.recBlock s.mem (ridgeOf q.core) t r.bt 0 (8 * n) 0 = (d1, .ok ps) → (∀ y ∈ ps, d1.joined q.core y.place = true) →
        let row := (List.range n).map (tableEntry (d1.readParts s.mem ps))
        (∀ y ∈ row, y.2.2.1 = false → y.2.1 = false ∧ y.2.2.2 < (d1.part t.part).stCnt.toNat ∧
          ∃ z, aget (d1.part t.part).stations y.2.2.2 = some z ∧ z.active = true) →
        Becomes s (.routeTableRead q) ((d1.modEntry (r.entry / 32) (r.entry % 32) fun x => REntry.settle
          { x with state := .routed, start := some d1.now, weights := row.map (·.1), stations := row.map (·.2.2.2),
                   choices := (row.zip x.choices).map fun y => if y.1.2.2.1 then .skipped else y.2 }).routeOn s.mem q t.part mask
          { r with k := x.k, plan := row.map fun y => if y.2.2.1 then none else some y.2.2.2 })) ∧
      (t.saving = none → r.stage = 1 → Becomes s (.routeStallResume q) (d.routeOn s.mem q t.part mask r)) ∧
      (t.saving = none → r.stage = 2 → Becomes s (.recordStoreResolve q) (d.routeOn s.mem q t.part mask r)) ∧
      ∀ code n st ovf, t.saving = none → r.stage = 2 + code → code ≠ 0 → code < 254 → r.plan[r.sent]? = some (some n) →
        aget (d.part t.part).stations n = some st → st.spot (r.entry / 32, r.entry % 32, r.gen) = .ring ovf →
        let va := if ovf then st.obase + 32 * (st.spill.wr % st.ocap) else st.qbase + 32 * (st.queue.wr % st.qcap)
        let told := d.emit t.part { addr := va, grid := st.grid, cls := 1, kind := 4, code := code }
        let dropped := if x.state = .free ∨ x.gen ≠ r.gen then told else told.modEntry (r.entry / 32) (r.entry % 32) fun x =>
          { x with choices := lmod x.choices r.sent (fun _ => .dropped), drop := x.drop + 1, miss := x.miss ||| BitVec.ofNat 64 (2 ^ (r.sent / x.k)) }
        Becomes s (.recordStoreResolve q)
          ((dropped.count t.part (ridgeOf (r.entry / 32)) 10 1).routeOn s.mem q t.part mask { r with sent := r.sent + 1 })) ∧
    (∀ part station st, aget (d.part part).stations station = some st → st.active = true →
      ((∃ t0 ts, (st.queue.times = t0 :: ts ∨ st.spill.times = t0 :: ts) ∧ t0 + st.flush ≤ d.now) → st.flush ≠ 0 →
        Becomes s (.flushTimerExpiry part station)
          (d.modPart part fun q => { q with stations := aset q.stations station { st with timerHit := true } })) ∧
      ∀ g d1 recs, d.grid st.grid = some g → d.serving part = true → d.enqueueing part station = false → g.terminated = false →
        g.unretired < st.maxt → st.queue.untaken + st.spill.untaken ≠ 0 → (64 ≤ st.queue.untaken ∨ st.timerHit = true ∨ st.flushReq = true) →
        let n := min 64 st.queue.untaken
        let k := min (64 - n) st.spill.untaken
        let vas := ((List.range n).map fun i => st.qbase + 32 * ((st.queue.rd + i) % st.qcap)) ++
                   ((List.range k).map fun i => st.obase + 32 * ((st.spill.rd + i) % st.ocap))
        vas.foldlM (fun (a : Device × List (BitVec 256)) va =>
          match a.1.readBlock s.mem (a.1.feRidge part) part va 32 with
          | (d, .ok bs) => some (d, a.2 ++ [BitVec.ofNat 256 (leNat bs)])
          | _ => none) (d, []) = some (d1, recs) →
        Becomes s (.stationTeamLaunch part station)
          ((d1.modGrid st.grid fun g => { g with launches := g.launches ++ [recs] }).modStation part station fun x =>
            { x with queue := { x.queue with rd := x.queue.rd + n, times := x.queue.times.drop n, owners := x.queue.owners.drop n },
                     spill := { x.spill with rd := x.spill.rd + k, times := x.spill.times.drop k, owners := x.spill.owners.drop k },
                     flushReq := false, timerHit := false })) ∧
    (∀ (i : ThreadId) x t r n rs, d.thread i = some x → d.team i.core i.slot = some t →
      let w := t.taken.getD n 0
      let core := fld w 72 64
      let e := fld w 77 73
      let row := fld w 47 40
      let c := fld w 55 48
      let y := d.entry core e
      y.state ≠ .free → y.gen.toNat = fld w 159 128 →
      (d.waitNow i = some (.rret r n 0 rs) → x.releasing = false → core < 480 → d.trusted (ridgeOf core) = true → row < y.rows → c < y.k →
        y.state ≠ .complete → y.choices.getD (y.k * row + c) .skipped = .pending →
        Becomes s (.rretClaim i) ((d.modEntry core e fun y => { y with choices := lmod y.choices (y.k * row + c) fun _ => .claimed }).modThread i
          fun x => { x with status := .atBarrier (.rret r n 1 rs) })) ∧
      (∀ d1 ps, d.waitNow i = some (.rret r n 1 rs) → recKind r ≤ 1 → recRd r = true → (recOob r = true ∨ n * recStride r + 4 * y.n ≤ recExtent r) →
        (t.own r = true → t.scored [(recBase r + n * recStride r, 4 * y.n)] false = false) →
        let seg := Seg.clip { n := 0, r := r, off := (n * recStride r : Nat), len := 4 * y.n }
        seg.len ≠ 0 → d.recBlock s.mem (ridgeOf i.core) t r seg.off.toNat seg.len 0 = (d1, .ok ps) →
        Becomes s (.rretArrival i) (d1.modPack i.core i.slot i.pack fun p =>
          let f := p.nextId
          let p : Pack := { p with
            nextId := f + 1, flights := p.flights ++
              [{ id := f, group := f, dst := .none, name := none, mask := oneBit i.thread, ready := none, fixed := false, vals := [], parts := [] }] }
          p.modThread i.thread fun x =>
            { x.pushParts ps none (fun p => .load f (seg.n + p.first) (4 * y.n) 5 0) (·.rank) with status := .atBarrier (.rret r n (4 + f) rs) })) ∧
      (d.waitNow i = some (.rret r n 2 rs) → (∀ o ∈ x.queue, o.isWrite = false) →
        Becomes s (.rretArrival i) (((d.modEntry core e fun z =>
          if z.choices.getD (y.k * row + c) .skipped = .claimed then { z with choices := lmod z.choices (y.k * row + c) fun _ => .arrived }
          else { z with late := z.late + 1 }).spendRows i rs).modThread i fun x => { x with status := .ready, pc := nextPc x.pc }))) ∧
    (∀ core e t0, let x := d.entry core e
      x.start = some t0 → x.state = .routed → x.tmo ≠ 0 → t0 + x.tmo ≤ d.now →
      let out := (List.range x.choices.length).filter fun i => (x.choices.getD i .skipped).open_
      Becomes s (.reservationTimeout core e) (d.modEntry core e fun x =>
        { x with choices := x.choices.map (fun c => if c = .pending ∨ c = .claimed then .timedOut else c), tmoCount := x.tmoCount + out.length,
                 miss := out.foldl (fun a i => a ||| BitVec.ofNat 64 (2 ^ (i / x.k))) x.miss })) ∧
    (∀ core e row d1 ys d2 ps, let x := d.entry core e
      let part := x.grid / 2 ^ 60
      x.state = .routed → row < x.rows → row ∉ x.combined → x.parked = [] → x.freeing = false →
      (∀ c, c < x.k → x.choices.getD (x.k * row + c) .skipped ≠ .pending ∧ x.choices.getD (x.k * row + c) .skipped ≠ .claimed) →
      d.stagedJoined s.mem core part x row = true → d.staged s.mem core part x row = (d1, .ok ys) →
      let w := elemBits (recElem x.fmt)
      let off := row * recStride x.dst
      let n := x.fits off
      (n = x.n ∨ recOob x.dst = true) → n ≠ 0 → d1.placeBlock s.mem (ridgeOf core) part (recBase x.dst + off) ((w * n + 7) / 8) 1 = (d2, .ok ps) →
      (∀ y ∈ ps, d2.joined core y.place = true) →
      Becomes s (.rowCombine core e row) ((d2.storeRow s.mem ps (enabled w n (x.rowBytes row ys))).modEntry core e fun x =>
        REntry.settle { x with combined := insertNat row x.combined, parked := [] })) ∧
    ∀ (q : PackId) t p u y b bd bs sc f dst d1 ticket, d.team q.core q.slot = some t → d.pack q.core q.slot q.pack = some p → t.saving = none →
      p.sliceDone = false → u < 32 → p.thread u = some y → y.status = .atBarrier (.rsv b bd bs sc f dst) →
      (∀ v z b' x1 x2 x3 x4 x5, v < 32 → p.thread v = some z → z.status = .atBarrier (.rsv b' x1 x2 x3 x4 x5) → b * 64 + u ≤ b' * 64 + v) →
      (d.freedWake q p).reserve q.core t.grid t.index bd bs sc f y.gen = some (d1, ticket) →
      let mine := p.waiting fun w => match w with | .rsv b' _ _ _ _ _ => b' == b | _ => false
      let drawn := fun v (x : Thread) => if v = u ∧ recRnd f = .rs then { x with gen := advanceBy (scRows sc * scN sc) x.gen } else x
      let go := fun v x => if mine.getLsbD v then { drawn v x with status := .ready, pc := nextPc (drawn v x).pc } else drawn v x
      Becomes s (.rsvEntryFreed q) (d1.modPack q.core q.slot q.pack fun p' =>
        { p'.setScalar dst true ticket with threads := imap go 0 p'.threads })

/-- From a launch record to a retired grid (R37, R140, R305, R308 to R312): a child is submitted, a front end accepts the record
at the head of a queue, a team is placed, and teams and grids retire. Which move a turn makes is the model's choice (log 1), and
so is that the records of BPTR are copied as the grid is accepted and given to its teams from that copy (log 53). -/
def Obligations.LaunchMoves : Prop :=
  ∀ (s : State),
    let d := s.start
    (∀ (i : ThreadId) x t po e fl first q n, d.thread i = some x → d.team i.core i.slot = some t → x.entry po = some e →
      e.kind = .spawnLoad fl first q n → d.mayLoad i x e = true → (∀ o ∈ x.before po, o.isRelease = false) → d.met e.place true = none →
      let new := imap (fun k b => (i.thread, first + k, b)) 0 (d.loadBytes s.mem x e)
      let got := (d.modThread i fun y => { y with queue := y.queue.filter fun o => o.po != po }).modPack i.core i.slot i.pack fun p =>
        { p with flights := p.flights.map fun g => if g.id = fl && g.mask.getLsbD i.thread then { g with parts := g.parts ++ new } else g }
      let other := ∃ o ∈ x.queue, o.po ≠ po ∧ ∃ a b c, o.kind = .spawnLoad fl a b c
      (other → Becomes s (.spawnSubmit i po) got) ∧
      ∀ p f, ¬other → d.spawnsBefore t.fe n = false → d.pack i.core i.slot i.pack = some p →
        p.flights.find? (fun g => g.id == fl && g.mask.getLsbD i.thread) = some f →
        let whole : Flight := { f with parts := f.parts ++ new }
        let child : Submit := { thread := i, grid := t.grid, team := t.index, seq := q, flight := fl, lrec := e.va - first,
                                record := BitVec.ofNat 2048 (leNat (whole.bytesOf i.thread 256)), waiting := none }
        let after : Device := { got with submits := d.submits ++ [child] }
        ((∃ z ∈ d.submits, z.grid / 2 ^ 60 = t.grid / 2 ^ 60) ∨ d.serving t.part = false → Becomes s (.spawnSubmit i po) after) ∧
        ((∀ z ∈ d.submits, z.grid / 2 ^ 60 ≠ t.grid / 2 ^ 60) → d.serving t.part = true →
          Becomes s (.spawnSubmit i po) (after.acceptChild s.mem child))) ∧
    (∀ fe q d1 rec bufs, d.serving fe = true → (∀ y ∈ d.submits, y.grid / 2 ^ 60 ≠ fe) → q < 16 → (d.front fe).last < 16 →
      (∀ k e, k < 16 → k ≠ q → e = d ∨ e = d1 → let y := nth (e.front fe).queues k Queue.fresh; y.reg = false ∨ y.faulted = true ∨ y.rd = y.wr) →
      d.head s.mem fe q = (d1, .ready rec bufs none) →
      let y := nth (d1.front fe).queues q Queue.fresh
      let l : Launch := { fe := fe, lrec := y.regBase.toNat + 256 * (y.rd.toNat % y.regCnt), record := rec, queue := some (q, y.rd + 1), parent := none,
                          depth := 0, privileged := y.privileged, station := none, wrec := [] }
      let d2 := d1.modFront fe fun f =>
        { f with
          last := q, queues := lmod f.queues q (fun z => { z with rd := z.rd + 1, waiting := none }), grids := f.grids + 1, accepts := f.accepts + 1 }
      let gid := fe * 2 ^ 60 + (d2.front fe).grids
      l.check (d2.front fe) bufs = none →
      let g : Grid :=
        { fe := fe, part := fe, depth := 0, record := rec, bufs := bufs, lrec := l.lrec, queue := some (q, y.rd + 1), parent := none,
          privileged := y.privileged, station := none, order := (d2.front fe).accepts, held := false, nextTeam := 0, launches := [], saved := [],
          slots := [], live := 0, terminated := false, recorded := false }
      Becomes s (.launchAccept fe) { d2 with grids := aset d2.grids gid g }) ∧
    (∀ fe gid g core slot, d.serving fe = true → (d.unhold fe).nextGrid fe = some (gid, g) → g.saved = [] → g.fours = false →
      ((d.unhold fe).cursorCores fe).find? ((d.unhold fe).coreFits g) = some core → g.freeSlot = some slot →
      let e := d.unhold fe
      let n := lrPacks g.record
      let c := e.core core
      let t := Team.launch g gid g.nextTeam slot (c.quadrants n) c.age (g.launches.headD [])
      Becomes s (.teamPlace fe) (((e.modCore core fun x => { x with age := x.age + n, teams := aset x.teams c.freeIndex t }).modGrid gid fun g =>
        { g with nextTeam := g.nextTeam + 1, live := g.live + 1, slots := insertNat slot g.slots, launches := g.launches.drop 1 }).moveCursor g.fe core)) ∧
    (∀ core slot t, d.team core slot = some t → t.stopping = false → (d.part t.part).resetting = none →
      (∀ p ∈ t.packs, p.retired = true ∨ ∀ x ∈ p.threads, x.status = .exited) → d.teamCmds core t = [] → d.drained core slot t = true →
      (t.saving = none → ∀ p ∈ t.packs, ∀ x ∈ p.threads, x.pend = []) →
      Becomes s (.teamRetire core slot) (((d.flushFaults core slot).removeTeam core slot).modGrid t.grid fun g => { g with live := g.live - 1 })) ∧
    ∀ fe grid g, d.grid grid = some g → g.fe = fe → d.gridDone grid g = true →
      let e : Device := { d with grids := adel d.grids grid }
      (∀ q n, g.queue = some (q, n) → g.parent = none →
        Becomes s (.gridRetire fe grid) (e.modFront fe fun f => { f with queues := lmod f.queues q (·.finish n) })) ∧
      (∀ pg pt n c k t, g.queue = none → g.parent = some (pg, pt, n) → d.find pg pt = some (c, k, t) →
        Becomes s (.gridRetire fe grid) (e.modTeam c k (·.finishChild n))) ∧
      (g.queue = none → g.parent = none → Becomes s (.gridRetire fe grid) e)

/-! ### Slices, hosts and management (R32, R33, R189, R229, R283, R304, R318, R321 to R342) -/

/-- Slice ends, saves and restores (R302, R310, R321 to R326), and the release of a debug stop (R318). The model's choices: rows
that a save cannot read keep their values (log 32), what an image holds in its free bytes and what a restore takes from the
saved team (log 54), the number of a save slot (logs 55 and 65), what a forced save does to a thread in a handler (log 10), and
that a restored pack has no last start (log 101). Which move a turn makes is the model's choice (log 1). -/
def Obligations.SliceMoves : Prop :=
  ∀ (s : State),
    let d := s.start
    (∀ part, let q := d.part part
      q.active = true → q.suspended = false → q.saving = false → q.resetting = none → q.loans = [] →
      let cores := coresOf q.clusters.1 q.clusters.2
      let begun := (d.modPart part fun q => { q with saving := true, drainKind := 0 }).sliceStart part cores
      let due := fld q.slice 31 0 ≠ 0 ∧ q.runSince + 1000 * fld q.slice 31 0 ≤ d.clock.read d.now
      (d.holds part cores = true → Becomes s (.endSlice part) begun ∧ (due → Becomes s (.sliceTimerExpiry part) begun)) ∧
      (d.holds part cores = false →
        let ended := (begun.clearSlice part cores).modPart part fun q => { q with saving := false, suspended := true }
        Becomes s (.endSlice part) ended ∧ (due → Becomes s (.sliceTimerExpiry part) ended))) ∧
    (∀ part, let q := d.part part
      q.active = true → q.suspended = true → q.resetting = none → (∀ x ∈ d.parts, x.1 ≠ part → x.2.running = true → x.2.meets q = false) →
      Becomes s (.resume part)
        (d.modPart part fun q => { q with suspended := false, refused := false, runSince := d.clock.read d.now })) ∧
    (∀ (i : PackId) t p, d.team i.core i.slot = some t → d.pack i.core i.slot i.pack = some p →
      let q := d.part t.part
      d.sliceDue i.core t p = true → d.sliceOver i.core t = false → fld q.reg 127 64 ≠ 0 → q.drainKind ≠ 1 → t.saving = none → p.retired = false →
      (∀ n ∈ p.lanes, n ≤ d.now) → (∀ x ∈ p.threads, x.status = .exited ∨ x.pend = []) → (∃ x ∈ p.threads, x.status ≠ .exited) →
      let enter := fun (x : Thread) => if x.status = .exited then x
        else { x with aside := some (x.status, x.pc, x.again, x.start), resume := none, handler := .slice, fault := 0x20, fpc := x.pc,
                      pc := BitVec.ofNat 64 (fld q.reg 127 64), status := .ready, again := [], start := true }
      Becomes s (.sliceEndEntry i) (d.modPack i.core i.slot i.pack fun p =>
        { p with threads := p.threads.map enter, asideStack := p.stack, asideSerial := p.serial, asideHold := p.hold.filter Hold.saves, stack := [],
                 serial := none, hold := none, inSlice := true })) ∧
    (∀ core p b, (d.core core).sliceFor = some p → (d.core core).budget = some b → b ≤ d.now →
      (∀ t ∈ (d.core core).teams, t.2.part = p → t.2.saving = none → ∀ x ∈ t.2.packs, (∀ n ∈ x.lanes, n ≤ d.now) ∧
        ∀ y ∈ x.threads, y.handler = .slice → ∀ w, y.status = .atBarrier w → w.beforeSave = false) →
      Becomes s (.budgetExpiry core) (d.modCore core fun c => { c with
        budget := none,
        teams := c.teams.map fun t => if t.2.part = p ∧ t.2.saving = none then
          (t.1, { t.2 with packs := t.2.packs.map Pack.force, saving := some { forced := true, drainStart := d.now, lost := false } }) else t })) ∧
    (∀ core slot t sv, d.team core slot = some t → t.saving = some sv → (d.part t.part).resetting = none → sv.drainStart + 42000 ≤ d.now →
      (∀ q c, q < 4 → c ∈ (d.engine core q).queue → c.grid = t.grid → c.team = t.index → c.id ∈ (d.kept core t).map (·.2.id)) →
      Becomes s (.saveDrainTimeout core slot) (t.copyQ.foldl (fun d' c =>
        if c.id ∈ (d.kept core t).map (·.2.id) ∨ c.aborted.isSome = true then d' else d'.abort (.copy core slot c.id) .engineReset 0 0) d)) ∧
    (∀ core slot t g sv, d.team core slot = some t → d.grid t.grid = some g → t.saving = some sv → g.terminated = false →
      d.saveReady core slot t = true →
      let q := d.part t.part
      let cmds := (d.kept core t).map fun x => (x.1, { x.2 with rows := [], leave := false, parked := none, pins := [], started := false })
      let t' := { t with packs := imap (fun i p => (d.unspill s.mem core t i p).freeze) 0 t.packs, evict := none, saving := none, copyQ := [] }
      let z := g.shape t' cmds.length
      let zs := fld q.reg 607 576 * 4096
      let base := ((fld q.reg 575 512 : Int) + (((core : Int) - 4 * q.clusters.1) * 16 + slot) * zs).toNat
      z.size ≤ zs →
      let drawn : Device := { d with draws := d.draws + 128 }
      Becomes s (.teamSave core slot) (((drawn.wrKey0 base (t'.image g sv.forced sv.lost cmds.length d.draws d.now)).removeTeam core slot).modGrid t.grid fun g =>
        { g with saved := insertSaved ⟨t', base, base + z.scr, d.now, sv.lost, cmds, d.draws⟩ g.saved })) ∧
    (∀ fe gid g x xs core, d.serving fe = true → (d.unhold fe).nextGrid fe = some (gid, g) → g.saved = x :: xs → g.fours = false →
      ((d.unhold fe).cursorCores fe).find? ((d.unhold fe).coreFits g) = some core →
      Becomes s (.teamRestore fe) ((d.unhold fe).restoreOn s.mem gid x core)) ∧
    ∀ part (i : ThreadId) atPc x t, d.thread i = some x → d.team i.core i.slot = some t → t.part = part → x.status = .stopped →
      Becomes s (.dbgrel part i atPc) (d.modThread i fun x => { x with status := .ready, pc := if atPc then (d.part part).dbgPc else nextPc x.pc })

/-- Host requests and atomics (R25, R32, R189, R229, R237): performed as they arrive at a port, one that fails answered with an error and no effect,
and accesses to the management window.
The encoding of a reply, and what an atomic at a line in error gives, are the model's choices (log 63); so are the error at a col that is not TRUSTED (log 74) and view 17 (log 76).
Which move a turn makes is the model's choice (log 1). -/
def Obligations.HostMoves : Prop :=
  ∀ (s : State),
    let d := s.start
    let up := fun port => port < 64 ∧ d.trusted (if port < 32 then 8 else 9) = true
    let reply := fun (d : Device) port (v : Nat) => { d with hostReply := aset d.hostReply port v }
    (∀ r : HostReq, up r.port → r.view ≤ 16 →
      (r.write = true → ∀ d1, d.hostWrite s.mem r.view r.addr r.data = some d1 → Becomes s (.hostMemoryRequest r) (reply d1 r.port 1)) ∧
      (r.write = true → d.hostWrite s.mem r.view r.addr r.data = none → Becomes s (.hostMemoryRequest r) (reply d r.port 0)) ∧
      (r.write = false → ∀ d1 bs, d.hostRead s.mem r.view r.addr r.len = some (d1, bs) → Becomes s (.hostMemoryRequest r) (reply d1 r.port (1 + leNat bs))) ∧
      (r.write = false → d.hostRead s.mem r.view r.addr r.len = none → Becomes s (.hostMemoryRequest r) (reply d r.port 0))) ∧
    (∀ r : HostReq, r.port < 64 → r.view ≤ 16 → ¬up r.port → Becomes s (.hostMemoryRequest r) (reply d r.port 0)) ∧
    (∀ r : HostReq, r.port < 64 → r.view = 17 →
      (r.write = false → r.len = 8 → Becomes s (.hostMemoryRequest r) (reply d r.port (1 + d.mgmtRead r.addr))) ∧
      (r.write = false → r.len ≠ 8 → Becomes s (.hostMemoryRequest r) (reply d r.port 1)) ∧
      (r.write = true → r.data.length = 8 → ∀ t : State, exec (.mgmtRegisterWrite r.addr (BitVec.ofNat 64 (leNat r.data))) s = .next t →
        exec (.hostMemoryRequest r) s = .next { t with dev := { t.dev with hostReply := aset t.dev.hostReply r.port 1 } }) ∧
      (r.write = true → r.data.length ≠ 8 → Becomes s (.hostMemoryRequest r) (reply d r.port 1))) ∧
    (∀ (r : HostAtomic) d1 bs, up r.port → r.width = 32 ∨ r.width = 64 → r.op ≤ 12 → r.view ≤ 16 → d.hostApl s.mem r = false →
      d.hostRead s.mem r.view r.addr (r.width / 8) = some (d1, bs) →
      Becomes s (.hostAtomicRead r) { d1 with hostAtoms := d1.hostAtoms ++ [{ req := r, old := BitVec.ofNat 64 (leNat bs) }] }) ∧
    (∀ (r : HostAtomic) x d1, up r.port → r.width = 32 ∨ r.width = 64 → r.op ≤ 12 → r.view ≤ 16 → d.hostApl s.mem r = false → x.req = r →
      x ∈ d.hostAtoms → (∀ y ∈ d.hostAtoms, y.req = r → y = x) →
      let new := atomNew r.op r.width x.old.toNat (r.value.toNat % 2 ^ r.width) (r.cmp.toNat % 2 ^ r.width)
      let rest : Device := { d with hostAtoms := d.hostAtoms.erase x }
      rest.hostWrite s.mem r.view r.addr (leBytes (r.width / 8) new) = some d1 → Becomes s (.hostAtomicWrite r) (reply d1 r.port (1 + x.old.toNat))) ∧
    ∀ (r : HostAtomic) d1 bs d2, up r.port → r.width = 32 ∨ r.width = 64 → r.op ≤ 12 → r.view ≤ 16 → d.hostApl s.mem r = true →
      d.hostRead s.mem r.view r.addr (r.width / 8) = some (d1, bs) →
      let new := atomNew r.op r.width (leNat bs) (r.value.toNat % 2 ^ r.width) (r.cmp.toNat % 2 ^ r.width)
      d1.hostWrite s.mem r.view r.addr (leBytes (r.width / 8) new) = some d2 →
      Becomes s (.hostAtomicWrite r) (reply d2 r.port (1 + leNat bs))

/-- The module's registers, package time and keys (R32, R33, R298, R340, R354, R357): the module reset, steps and messages of
PTP, the regeneration of a key, recovery requests, writes to words that have no behaviour of their own, and words whose writes
act as an event does. The model's choices: the module reset keeps the bytes of memory (log 33), and the discipline of PTP is a
free value (log 34). Which move a turn makes is the model's choice (log 1). So is what the removal of a queue stores (log
59). -/
def Obligations.ModuleMoves : Prop :=
  ∀ (s : State),
    let d := s.start
    Becomes s .mreset { Device.reset with draws := d.draws, dies := d.dies.map fun x => { Die.fresh with image := x.image } } ∧
    (∀ ns : BitVec 64, let e := d.settleCounters
      Becomes s (.ptpstep ns) { e with clock := { d.clock with base := ((d.clock.read d.now + ns.toInt) % 2 ^ 64).toNat, at_ := d.now } }) ∧
    (∀ port oneStep origin, port < 64 →
      let e : Device := { d with module := { d.module with ingress := aset d.module.ingress port d.time } }
      let on := d.module.ptpCfg.getLsbD 8 = true ∧ fld d.module.ptpCfg 5 0 = port
      (¬on → Becomes s (.ptpEventMessage port oneStep origin) e) ∧
      (on → Becomes s (.ptpEventMessage port oneStep origin)
        { e.settleCounters with draws := d.draws + 1, clock := { base := d.clock.read d.now, at_ := d.now, num := (Config.slew d.draws).1, den := (Config.slew d.draws).2 + 1 } }) ∧
      (Becomes s (.ptpEventMessageEgress port) { d with module := { d.module with egress := aset d.module.egress port d.time } })) ∧
    (∀ key, 1 ≤ key → key ≤ 63 → (∀ p ∈ d.parts, p.2.active = true → (BitVec.ofNat 64 (fld p.2.reg 319 256)).getLsbD key = false) →
      Becomes s (.keyregen key)
        { d with draws := d.draws + 1, lostKeys := (d.keys.filter (·.2 == key)).foldl (fun l x => aset l x.1 d.draws) d.lostKeys }) ∧
    (∀ die, die < 10 → d.module.rStat ≠ 1 → Becomes s (.rcmd die) { d with module := { d.module with rStat := 1, rDie := die } }) ∧
    (∀ v : BitVec 64,
      Becomes s (.mgmtRegisterWrite 0x1018 v) { d with module := { d.module with ptpCfg := v &&& 0x73F } } ∧
      Becomes s (.mgmtRegisterWrite 0x1200 v) { d with module := { d.module with rAddr := v } } ∧
      Becomes s (.mgmtRegisterWrite 0x1208 v) { d with module := { d.module with rLen := v } } ∧
      (∀ p, p < 16 →
        let put := fun off (f : Part → Part) => Becomes s (.mgmtRegisterWrite (0x2000 + 0x200 * p + off) v) (d.modPart p f)
        (∀ k, k < 16 → (d.part p).active = false → put (8 * k) fun q => { q with reg := setWord q.reg k v.toNat }) ∧
        put 0x098 (fun q => { q with frRd := v.setWidth 32 }) ∧ put 0x0B0 (fun q => { q with srRd := v.setWidth 32 }) ∧
        put 0x0C8 (fun q => { q with slice := v &&& 0xFFFFFFFF }) ∧ put 0x0D0 (fun q => { q with stBase := v }) ∧
        put 0x0D8 (fun q => { q with stCnt := v &&& 0x1FFF }) ∧ put 0x0F0 (fun q => { q with debugReg := v &&& 1 }) ∧
        put 0x180 (fun q => { q with dbgPc := v })) ∧
      (∀ fe q, fe < 16 → q < 16 → v.getLsbD 16 = false → v.getLsbD 17 = false →
        let put := fun off (f : Queue → Queue) => Becomes s (.mgmtRegisterWrite (0x4000 + 0x400 * fe + 0x40 * q + off) v)
          (d.modFront fe fun x => { x with queues := lmod x.queues q f })
        put 0 (fun y => { y with base := v }) ∧ put 8 (fun y => { y with cnt := v &&& 0x1FFFF }) ∧ put 16 (fun y => { y with cfg := v &&& 0x103 })) ∧
      ∀ r off, r < 8 → off < 0x10000 → off % 8 = 0 → Becomes s (.mgmtRegisterWrite (0x80000 + 0x10000 * r + off) v) (d.modRidge r fun y =>
        { y with store := (List.range 8).foldl (fun l i => aset l (off + i) (v.extractLsb' (8 * i) 8)) y.store })) ∧
    (∀ off v, off % 8 ≠ 0 → Becomes s (.mgmtRegisterWrite off v) d) ∧
    (∀ v : BitVec 64,
      let acts := fun off (i : Instr) => exec (.mgmtRegisterWrite off v) s = exec i s
      let n := v.toNat
      let low := fun (i : Instr) => if v.getLsbD 8 = true then acts 0x1008 i else Becomes s (.mgmtRegisterWrite 0x1008 v) d
      (v.getLsbD 0 = true → acts 0x1000 .mreset) ∧ (v.getLsbD 0 = false → Becomes s (.mgmtRegisterWrite 0x1000 v) d) ∧
      low (.dierst (n % 16)) ∧ (v.getLsbD 8 = true → acts 0x1010 (.quar (n % 16))) ∧ acts 0x1020 (.ptpstep v) ∧ acts 0x1028 (.keyregen (n % 64)) ∧
      (v.getLsbD 16 = true → acts 0x1030 (.engrst (n % 512) (fld v 10 9))) ∧ (v.getLsbD 8 = true → acts 0x1210 (.rcmd (n % 16))) ∧
      (∀ p, p < 16 →
        let at_ := fun off (i : Instr) => acts (0x2000 + 0x200 * p + off) i
        ((d.part p).resetting = none →
          (n % 256 = 1 → at_ 0x80 (.activate p)) ∧ (n % 256 = 2 → at_ 0x80 (.deactivate p)) ∧ (n % 256 = 3 → at_ 0x80 (.partitionReset p)) ∧
          (n % 256 = 4 → at_ 0x80 (.snapshot p)) ∧ (n % 256 = 5 → at_ 0x80 (.endSlice p)) ∧ (n % 256 = 6 → at_ 0x80 (.resume p)) ∧
          (n % 256 = 7 → at_ 0x80 (.migrationStop p)) ∧ (n % 256 = 8 → at_ 0x80 (.migrationStart p))) ∧
        at_ 0x90 (.resolve p (fld v 56 16 * 65536) (n % 256)) ∧ (v.getLsbD 16 = true → at_ 0xE0 (.stationActivate p (fld v 11 0))) ∧
        (v.getLsbD 16 = true → at_ 0xE8 (.loan p (fld v 6 0) (fld v 11 8))) ∧
        (v.getLsbD 16 = false → v.getLsbD 17 = true →
          at_ 0xE0 (.stationDeactivate p (fld v 11 0)) ∧ at_ 0xE8 (.reclaim p (fld v 6 0) (fld v 11 8))) ∧
        (v.getLsbD 24 = true → at_ 0xF8 (.dbgrel p ⟨fld v 8 0, fld v 12 9, fld v 17 13, fld v 22 18⟩ (v.getLsbD 23)))) ∧
      ∀ fe q, fe < 16 → q < 16 →
        let at_ := fun off (i : Instr) => acts (0x4000 + 0x400 * fe + 0x40 * q + off) i
        (v.getLsbD 16 = true → at_ 0x10 (.queueRegister fe q v)) ∧
        (v.getLsbD 16 = false → v.getLsbD 17 = true →
          let put := fun (d : Device) (f : Queue → Queue) => d.modFront fe fun x => { x with queues := lmod x.queues q f }
          Becomes s (.mgmtRegisterWrite (0x4000 + 0x400 * fe + 0x40 * q + 0x10) v)
            (put ((put d fun y => { y with cfg := v &&& 0x103 }).forgetQueue fe q) fun y => { y with reg := false, waiting := none })) ∧ at_ 0x18 (.qwr fe q (v.setWidth 32)))

/-- Partitions (R329 to R331, R334 to R337): activation, reset and deactivation, updates of the registration, loans, snapshots
and migration. The model's choices: how a stopped grid's registers travel in a migration (log 35), a migration start on the
module that was stopped (log 93), what a loan leaves of the lender's teams and where they are saved (log 55), an activation
while one is held or active (log 56), and the range of WENT (log 57). Which move a turn makes is the model's choice (log 1). -/
def Obligations.PartitionMoves : Prop :=
  ∀ (s : State) (part : Nat),
    let d := s.start
    let q := d.part part
    (part < 16 → q.active = false → q.resetting = none →
      let lo := fld q.reg 207 192
      let hi := fld q.reg 223 208
      let ok := d.module.heldBy = false ∧ regOk q.reg = true ∧ (BitVec.ofNat 64 (fld q.reg 319 256)).getLsbD 0 = false ∧
        ∀ x ∈ d.parts, x.1 ≠ part → (x.2.running = true → hi < x.2.clusters.1 ∨ x.2.clusters.2 < lo) ∧
          (x.2.active = true → fld x.2.reg 319 256 &&& fld q.reg 319 256 = 0)
      (ok → Becomes s (.activate part) (d.modPart part fun q =>
        { q with active := true, suspended := false, refused := false, clusters := (lo, hi), runSince := d.clock.read d.now, stopped := false,
                 saving := false, drainKind := 0, parks := [], loans := [] })) ∧
      (¬ok → Becomes s (.activate part) (d.modPart part fun q => { q with refused := true }))) ∧
    (part < 16 → q.resetting = none →
      let stopped := fun kind =>
        let e := d.modPart part fun q => { q with resetting := some d.now, resetDone := false, drainKind := kind, saving := false, loans := [] }
        let core := fun (c : Core) =>
          { c with
            teams := c.teams.map fun t => if t.2.part = part then (t.1, t.2.stop d.now) else t,
            sliceFor := if c.sliceFor = some part then none else c.sliceFor,
            budget := if c.sliceFor = some part then none else c.budget }
        { e with cores := d.cores.map fun c => (c.1, core c.2) }
      Becomes s (.partitionReset part) (stopped 3) ∧ Becomes s (.deactivate part) (stopped 2) ∧
      Becomes s (.snapshot part) (d.modPart part fun q => { q with snapIdx := q.bitmap, bitmap := 1 - q.bitmap }) ∧
      (q.active = true →
        (q.saving = false → Becomes s (.migrationStart part) (d.modPart part fun q => { q with stopped := false })) ∧
        (q.suspended = true → Becomes s (.migrationStop part) (d.modPart part fun q => { q with stopped := true })) ∧
        (q.suspended = false → q.loans = [] →
          let cores := coresOf q.clusters.1 q.clusters.2
          let begun := ((d.modPart part fun q => { q with stopped := true, saving := true, drainKind := 1 }).sliceStart part cores).forceSlice part
          let away := begun.saveAway part cores
          ((∃ x ∈ d.teams, x.2.2.part = part) → Becomes s (.migrationStop part) away) ∧
          ((∀ x ∈ d.teams, x.2.2.part ≠ part) → Becomes s (.migrationStop part)
            ((away.clearSlice part cores).modPart part fun q => { q with saving := false, suspended := false }))))) ∧
    (∀ t0, q.resetting = some t0 →
      t0 + 210000 ≤ d.now ∨ (∀ x ∈ d.teamsOf part, d.drained x.1 x.2.1 x.2.2 = true ∧ d.teamCmds x.1 x.2.2 = []) →
      ∃ t : State, exec (.resetDrainTimeout part) s = .next t ∧
        (t.dev.part part).resetting = none ∧ (t.dev.part part).resetDone = true ∧ (t.dev.part part).active = (q.active && q.drainKind != 2) ∧
        (t.dev.part part).stations = [] ∧ (t.dev.part part).parks = [] ∧ (∀ g ∈ t.dev.grids, g.2.part ≠ part) ∧
        (∀ r ∈ t.dev.ridges, ∀ e ∈ r.2.tlb, e.part ≠ part) ∧
        (∀ c ∈ t.dev.cores, ∀ e ∈ c.2.entries, e.grid / 2 ^ 60 = part → e.state = .free) ∧ ∀ y ∈ (t.dev.front part).queues, y.reg = false ∧ y.wr = 0 ∧ y.rd = 0 ∧ y.compl = 0) ∧
    (∀ v : BitVec 64, q.active = true →
      (v.extractLsb' 32 16 ≠ 0 → Becomes s (.registrationUpdate part 0x18 v) (d.modPart part fun q =>
        { q with reg := setWord q.reg 3 (mergeBits (fld q.reg 255 192) v.toNat 47 32) })) ∧
      (v.toNat ≠ fld q.reg 447 384 → Becomes s (.registrationUpdate part 0x30 v) (d.modPart part fun q =>
        { q with reg := setWord q.reg 6 v.toNat, srWr := 0, srDrop := 0 }))) ∧
    (∀ k p, q.active = true → (d.part p).active = true → part ≠ p → 0 < k → q.clusters.1 + k ≤ q.clusters.2 →
      ((d.part p).clusters.2 + 1 = q.clusters.1 → Becomes s (.loan part k p)
        ((d.modPart part fun q => { q with clusters := (q.clusters.1 + k, q.clusters.2) }).modPart p fun r =>
          { r with clusters := (r.clusters.1, r.clusters.2 + k) })) ∧
      ((d.part p).clusters.2 + 1 ≠ q.clusters.1 → q.clusters.2 + 1 = (d.part p).clusters.1 → Becomes s (.loan part k p)
        ((d.modPart part fun q => { q with clusters := (q.clusters.1, q.clusters.2 - k) }).modPart p fun r =>
          { r with clusters := (r.clusters.1 - k, r.clusters.2) })) ∧
      ((d.part p).clusters.2 + 1 ≠ q.clusters.1 → q.clusters.2 + 1 ≠ (d.part p).clusters.1 → Becomes s (.loan part k p) d)) ∧
    ∀ k p, let b := d.part p
      q.active = true → part ≠ p → b.loans = [] → b.resetting = none → 0 < k → b.clusters.1 + k ≤ b.clusters.2 → q.clusters.2 + 1 = b.clusters.1 →
      let cs := (List.range k).map (b.clusters.1 + ·)
      d.holds p (cs.flatMap fun c => coresOf c c) = true →
      Becomes s (.reclaim part k p) ((d.modPart p fun r => { r with loans := cs.map fun c => (c, part, 0), drainKind := if r.saving then r.drainKind else 0 }).sliceStart p
        (cs.flatMap fun c => coresOf c c))

/-- Launch queues, stations, samples and counters (R269 to R271, R304, R332, R338, R341). The model's choices: what a queue
keeps when it is removed, registered again or refused (log 59), the phase of the samples and the counts of a new selector (log
60), a sample that cannot be written (log 26), and which move a turn makes (log 1). -/
def Obligations.QueueAndStationMoves : Prop :=
  ∀ (s : State),
    let d := s.start
    (∀ fe q (cfg : BitVec 64), fe < 16 → q < 16 → d.module.heldBy = false →
      let x := nth (d.front fe).queues q Queue.fresh
      let cnt := fld x.cnt 16 0
      let fails := fun value reason => Becomes s (.queueRegister fe q cfg) (if x.faulted = true then d else
        (d.modFront fe fun f => { f with queues := lmod f.queues q fun y => { y with faulted := true } }).emit fe
          { addr := value, cls := 1, kind := 5, code := 0x12, detail := reason + q * 16 + fe * 256 })
      let sizeOk := powerOfTwo cnt = true ∧ 16 ≤ cnt ∧ cnt ≤ 65536
      (x.base.toNat % 256 ≠ 0 → fails x.base.toNat 1) ∧ (x.base.toNat % 256 = 0 → ¬sizeOk → fails cnt 2) ∧
      ∀ d1, x.base.toNat % 256 = 0 → sizeOk → d.ringOk s.mem fe x.base.toNat (256 * cnt) = (d1, true) →
      Becomes s (.queueRegister fe q cfg) ((d1.forgetQueue fe q).modFront fe fun f => { f with queues := lmod f.queues q fun y =>
        { y with cfg := cfg &&& 0x103, reg := true, faulted := false, regBase := y.base, regCnt := cnt, prio := fld cfg 1 0, privileged := cfg.getLsbD 8,
                 wr := 0, rd := 0, compl := 0, done := [], waiting := none } })) ∧
    (∀ fe q, Becomes s (.queueUnregister fe q) ((d.forgetQueue fe q).modFront fe fun f =>
      { f with queues := lmod f.queues q fun y => { y with reg := false, waiting := none } })) ∧
    (∀ fe q (v : BitVec 32), let x := nth (d.front fe).queues q Queue.fresh
      fe < 16 → q < 16 → x.reg = true → (v - x.wr).toNat < 2 ^ 31 → (v - x.rd).toNat ≤ x.regCnt →
      Becomes s (.qwr fe q v) (d.modFront fe fun f => { f with queues := lmod f.queues q fun y => { y with wr := v } })) ∧
    (∀ part station d1 bs d2 ws d3 rs d4 bufs, let q := d.part part
      let read := fun (d : Device) va n => d.readBlock s.mem (d.feRidge part) part va n
      q.active = true → q.resetting = none → station < fld q.stCnt 12 0 → (∀ x, aget q.stations station = some x → x.active = false) →
      read d (q.stBase.toNat + 64 * station) 64 = (d1, .ok bs) →
      let x := BitVec.ofNat 512 (leNat bs)
      descOk x = true → read d1 (fld x 447 384) (32 * fld x 228 224) = (d2, .ok ws) →
      let wrec := chunk32 (fld x 228 224) ws
      (∀ r ∈ wrec, recBad r 0 0 = false ∧ recKind r = 0) → read d2 (fld x 63 0) 256 = (d3, .ok rs) →
      let record := BitVec.ofNat 2048 (leNat rs)
      d3.readBufs s.mem part record = (d4, .ok bufs) →
      let l : Launch := { fe := part, lrec := fld x 63 0, record := record, queue := none, parent := none, depth := 0, privileged := false,
                          station := some station, wrec := wrec }
      let d5 := d4.modFront part fun f => { f with grids := f.grids + 1, accepts := f.accepts + 1 }
      let gid := part * 2 ^ 60 + (d5.front part).grids
      l.check (d5.front part) bufs = none →
      let g : Grid :=
        { fe := part, part := part, depth := 0, record := record, bufs := placeWrec bufs wrec, lrec := fld x 63 0, queue := none, parent := none,
          privileged := false, station := some station, order := (d5.front part).accepts, held := false, nextTeam := 0, launches := [], saved := [],
          slots := [], live := 0, terminated := false, recorded := false }
      let d6 : Device := { d5 with grids := aset d5.grids gid g }
      let empty : Ring := { wr := 0, rd := 0, times := [], owners := [] }
      let st : Station := { active := true, desc := x, grid := gid, queue := empty, spill := empty, flushReq := false, timerHit := false }
      Becomes s (.stationActivate part station) (d6.modPart part fun q => { q with stations := aset q.stations station st })) ∧
    (∀ part station x, aget (d.part part).stations station = some x →
      Becomes s (.stationDeactivate part station) (d.modPart part fun q => { q with stations := aset q.stations station { x with active := false } })) ∧
    (∀ core part k t p, let q := d.part part
      q.active = true → fld q.reg 363 359 ≠ 0 → d.now % 2 ^ fld q.reg 363 359 = 0 → (d.core core).sampled ≠ some d.now →
      q.clusters.1 ≤ core / 4 → core / 4 ≤ q.clusters.2 →
      (((d.packsOf core part).filter fun x => (d.core core).samplePos ≤ x) ++ d.packsOf core part).head? = some k →
      d.team core (k / 32) = some t → d.pack core (k / 32) (k % 32) = some p →
      let e := d.modCore core fun c => { c with samplePos := k + 1, sampled := some d.now }
      let pc := (leastBy (fun x => x) ((p.threads.filter fun x => !x.gone || decide (d.now < x.lane)).map fun x =>
        if d.now < x.lane then x.was.toNat else x.pc.toNat)).getD 0
      Becomes s (.pcSample core part) (e.sample s.mem part (ridgeOf core)
        (sampleBits (k % 32) core part (e.stallReason s.mem core (k / 32) t (k % 32) p) 0 0 t.grid pc e.time))) ∧
    ∀ ridge, let e := d.settleCounters
      let l := (e.ridgeCounters ridge).filter fun x => x.2.2.on
      64 < l.length → (d.ridge ridge).rotated + 2100000 ≤ d.now →
      let keep := (rotateFrom l).map fun x => (x.1, x.2.1)
      Becomes s (.counterRotate ridge) ((l.foldl (fun d x => d.setPhys x.1 x.2.1 (keep.contains (x.1, x.2.1))) e).modRidge ridge fun r =>
        { r with rotated := d.now })

/-! ### Trust (R192, R343 to R357, R363, R364) -/

/-- The states of a die, its boot, and the steps of its attestation in their order, each with the REASON of its failure (R343 to
R348, R354 to R357). What a die reset keeps is the model's choice (log 36). Which move a turn makes is the model's choice (log
1). The functions of the trust chain are free (log 95), and the order of requests and the reason of GET_DIGESTS are the model's
reading (log 61). -/
def Obligations.Attestation : Prop :=
  ∀ (s : State) (die : Nat),
    let d := s.start
    let x := d.die die
    let put := fun (f : Die → Die) => { d with dies := lmod d.dies die f }
    let out := fun (reason : Nat) (f : Die → Die) =>
      let e := put fun x => { f x with state := .quarantined, reason := reason, session := false, step := 0, memKeys := false }
      let e : Device :=
        { e with module := { d.module with attesting := if d.module.attesting = some die then none else d.module.attesting,
                                           turned := die :: d.module.turned.filter (· != die), asks := d.module.asks.filter (· != die) } }
      if die < 8 then e else e.retireLinks die
    let image := x.image.getD (Config.shippedImage die)
    let manifest := Config.manifest (decide (die < 8))
    let comesUp := die = 8 ∨ ¬((d.die 8).state = .quarantined ∧ (d.die 8).reason = 9)
    (die < 10 → x.state = .off →
      ∃ t : State, exec (.powerGood die) s = .next t ∧ (die < d.dies.length → (t.dev.die die).state = .booting ∧ (t.dev.die die).memKeys = true) ∧
        (die < 8 → ∀ c, c < 60 → t.dev.core (60 * die + c) = Core.fresh d.now) ∧ t.dev.grids = d.grids ∧ t.mem = s.mem) ∧
    (x.state = .booting → comesUp →
      (∀ digest, die < 10 → digest = Config.sha256 image →
        let e := put fun x => { x with state := .measured, measurement := digest }
        let signed := Config.signedImage image = true ∧ (die = 8 → Config.manifestSigned = true)
        Becomes s (.bootMeasured die digest) (if signed then { e with module := { d.module with asks := d.module.asks ++ [die] } } else d)) ∧
      ((∀ p ∈ d.parts, p.2.active = false) → Becomes s (.bootImageRejected die) (out 9 id))) ∧
    (∀ versions, x.state = .measured → d.module.attesting = none → die < d.dies.length →
      bringUp.find? (fun n => !d.module.turned.contains n) = some die ∨ ((∀ n ∈ bringUp, n ∈ d.module.turned) ∧ d.module.asks.head? = some die) →
      let begun := fun (x : Die) => { x with since := d.now, attempts := min 255 (x.attempts + 1) }
      let e := put fun x => { begun x with state := .attesting, step := 1 }
      (0x13 ∈ versions → Becomes s (.getVersion die versions)
        { e with module := { d.module with attesting := some die, turned := die :: d.module.turned.filter (· != die),
                                           asks := d.module.asks.filter (· != die) } }) ∧
      (0x13 ∉ versions → Becomes s (.getVersion die versions) (out 2 begun))) ∧
    (x.state = .attesting → d.module.attesting = some die →
      let accepted := fun (k : Nat) => put fun x => { x with step := k }
      let ends := fun (f : Die → Die) => let e := put fun x => f { x with step := 9, session := true }
        { e with module := { d.module with attesting := none } }
      let opens := d.keyed die = true ∧ (8 ≤ die ∨ x.memKeys = true)
      let failed := fun (i : Instr) (reason : Nat) => Becomes s i (out reason id)
      (x.step = 1 → Becomes s (.getCapabilities die true true true true true) (accepted 2)) ∧
      (x.step = 2 → Becomes s (.negotiateAlgorithms die true true true true) (accepted 3)) ∧
      (x.step = 3 → Becomes s (.getDigests die true) (accepted 4)) ∧
      (∀ root leaf, x.step = 4 → Config.fusedChain die = (root, leaf) →
        Becomes s (.getCertificate die root leaf)
          (if root = Config.rootDigest ∧ leaf = (die, decide (die < 8), Config.identityKey die) then accepted 5 else out 3 id)) ∧
      (x.step = 5 → Becomes s (.challenge die true) (accepted 6)) ∧
      (x.step = 6 → x.measurement = manifest → Becomes s (.getMeasurements die true) (accepted 7)) ∧
      (x.step = 7 → Becomes s (.keyExchange die true) (accepted 8)) ∧
      (x.step = 8 → ¬opens → Becomes s (.finish die true) (ends id)) ∧
      (x.step = 8 → opens → Becomes s (.finish die true)
        (let e := ends fun x => { x with state := .trusted, rolls := 0 }
         { e with module := { e.module with been := die :: d.module.been.filter (· != die) } })) ∧
      (∀ a b c m k, (a && b && c && m && k) = false → x.step = 1 → failed (.getCapabilities die a b c m k) 2) ∧
      (∀ a b c k, (a && b && c && k) = false → x.step = 2 → failed (.negotiateAlgorithms die a b c k) 2) ∧
      (x.step = 3 → failed (.getDigests die false) 3) ∧
      (x.step = 5 → failed (.challenge die false) 4) ∧
      (x.step = 6 → failed (.getMeasurements die false) 4 ∧ (x.measurement ≠ manifest → failed (.getMeasurements die true) 5)) ∧
      (x.step = 7 → failed (.keyExchange die false) 2) ∧ (x.step = 8 → failed (.finish die false) 2) ∧
      (x.since + 525000000 ≤ d.now → failed (.attestationTimeout die) 6)) ∧
    (die < 8 → x.state = .attesting → x.step = 9 → d.keyed die = true →
      let e := put fun x => { x with state := .trusted, rolls := 0, memKeys := true }
      Becomes s (.ridgeReopen die) { e with module := { d.module with been := die :: d.module.been.filter (· != die) } }) ∧
    (d.module.rStat = 1 → d.module.rDie = die →
      let after := fun (n : Nat) => { d with module := { d.module with rStat := n } }
      let good := fun (bs : List Byte) => Config.signedImage bs = true ∧ Config.sha256 bs = manifest
      let a := d.module.rAddr.toNat
      let n := d.module.rLen.toNat
      let named := a % 4096 = 0 ∧ 1 ≤ n ∧ n ≤ 64 * 2 ^ 20 ∧ regionOf a = .system ∧ regionOf (a + n - 1) = .system
      let bs := d.rdBytes s.mem a n
      (¬named → Becomes s (.recoveryComplete die false) (after 3)) ∧
      ∀ ok, named → ok = decide (good bs) →
        (x.state = .off ∨ x.state = .booting ∨ x.state = .measured → Becomes s (.recoveryComplete die ok)
          (if ok then { after 2 with dies := lmod d.dies die fun x => { x with image := some bs } } else after 3)) ∧
        (x.state = .quarantined → die < 10 → die < d.dies.length →
          ∃ t : State, exec (.recoveryComplete die ok) s = .next t ∧
            if ok then t.dev.module.rStat = 2 ∧ (t.dev.die die).state = .booting ∧ (t.dev.die die).image = some bs
            else t = s.commit (after 3)))

/-- Link keys, quarantine and what a lost die takes with it (R16, R192, R345, R348 to R353), and the segment-form translator
(R363, R364). The layout of the segment translator's lines is the model's choice (log 37), and so is that a flit is sent and
received in one move, so that an authentic one from before the switch changes nothing (log 62). Which move a turn makes is the
model's choice (log 1). The tag of a flit is a free function (log 95). -/
def Obligations.LinksAndQuarantine : Prop :=
  ∀ (s : State),
    let d := s.start
    let lost := fun (n reason : Nat) =>
      let e : Device := { d with dies := lmod d.dies n fun x => { x with state := .quarantined, reason := reason, session := false, step := 0, memKeys := false } }
      { e with module := { d.module with attesting := if d.module.attesting = some n then none else d.module.attesting,
                                         turned := n :: d.module.turned.filter (· != n), asks := d.module.asks.filter (· != n) } }
    (∀ die, die < 8 → d.trusted die = true → Becomes s (.quar die) (lost die 8) ∧ Becomes s (.dierst die) (lost die 1)) ∧
    (∀ die, die = 8 ∨ die = 9 → d.trusted die = true →
      ∃ t : State, exec (.quar die) s = .next t ∧ (t.dev.die die).state = .quarantined ∧ (t.dev.die die).reason = 8 ∧ t.dev.module.heldBy = true) ∧
    (∀ die, die < 8 → (d.die die).state = .quarantined →
      ∃ t : State, exec (.dieQuarantine die) s = .next t ∧
        (∀ c slot, ridgeOf c = die → t.dev.team c slot = none) ∧ (t.dev.ridge die).dirty = [] ∧ (∀ p ∈ t.dev.parts, ∀ x ∈ p.2.parks, x.ridge ≠ die) ∧
        (∀ l ∈ t.dev.links, l.src = die ∨ l.dst = die → l.armed = false ∧ l.keys = [none, none]) ∧
        ∀ c e, ridgeOf c = die → (t.dev.entry c e).state = .free) ∧
    (∀ src dst l, d.link src dst = some l →
      let put := fun (f : Link → Link) => { d with links := d.links.map fun y => if y.src = src ∧ y.dst = dst then f y else y }
      let carries := l.armed = true ∧ d.trusted src = true ∧ d.trusted dst = true
      (l.armed = false → (d.die src).session = true → (d.die dst).session = true → (d.die src).state ≠ .attesting → (d.die dst).state ≠ .attesting →
        Becomes s (.linkKeyInstall src dst)
          { put (fun y => { y with keys := [some d.draws, none], sender := false, armed := true, counter := 0, since := d.now }) with draws := d.draws + 1 }) ∧
      (carries → l.rolling = false → (2 ^ 32 - 2 ^ 20 ≤ l.counter ∨ l.since + 7560000000000 ≤ d.now) →
        Becomes s (.keyRollover src dst) { put (fun y =>
          { y with keys := lmod y.keys (!y.sender).toNat (fun _ => some d.draws), rolling := true, switched := false, accepted := false }) with
          draws := d.draws + 1 }) ∧
      (carries → l.rolling = true → l.switched = false →
        Becomes s (.keySwitch src dst) (put fun y => { y with sender := !y.sender, switched := true, counter := 0, since := d.now })) ∧
      (carries → l.rolling = true → l.switched = true → l.accepted = true →
        let e := put fun y => { y with keys := lmod y.keys (!y.sender).toNat (fun _ => none), rolling := false }
        Becomes s (.oldKeyRetire src dst) { e with dies := lmod d.dies src fun x => { x with rolls := min (2 ^ 32 - 1) (x.rolls + 1) } }) ∧
      (∀ (key : Bool) (f : Flit), carries →
        let early := key ≠ l.sender ∧ l.rolling = true ∧ l.switched = false
        let passes := ∃ k, l.keys.getD key.toNat none = some k ∧ Config.gcmTag (Config.linkKey k) (nonce src dst f.ctr) f.header f.data = f.tag
        (passes → early → Becomes s (.flitReceive src dst key f) d) ∧
        (passes → ¬early → Becomes s (.flitReceive src dst key f) (put fun y =>
          { y with badRun := 0, accepted := y.accepted || (y.switched && key == y.sender),
                   counter := if key = y.sender then max y.counter (f.ctr.toNat + 1) else y.counter })) ∧
        (¬passes → Becomes s (.flitReceive src dst key f) (put fun y =>
          { y with badRun := y.badRun + 1, badTimes := d.now :: y.badTimes.filter fun t => d.now < t + 2100000000 }))) ∧
      (carries → src < 8 → 8 ≤ dst → (16 ≤ l.badRun ∨ 1024 ≤ (l.badTimes.filter fun t => d.now < t + 2100000000).length) →
        Becomes s (.linkFailure src dst) (lost src 7))) ∧
    (∀ r line home old, (d.ridge r).dirty.find? (fun x => x.1 == line) = some (line, home, old) →
      let lost := (d.wrBytes (line * 128) old).modRidge r fun y => { y with dirty := y.dirty.filter fun z => z.1 != line }
      (d.ownerOf line = none → Becomes s (.dirtyRidgeCacheLineError r line) lost) ∧
      ∀ p, d.ownerOf line = some p → Becomes s (.dirtyRidgeCacheLineError r line) (lost.emit p { addr := line * 128, cls := 1, kind := 4, code := 0x18 })) ∧
    ∀ part src dst lines d1 bs out, d.vread s.mem (d.feRidge part) part src (128 * lines) = (d1, .ok bs) →
      let ls := (List.range lines).map fun k => (bs.drop (128 * k)).take 128
      dst % 128 = 0 → (∀ k l, ls[k]? = some l → segLineOk l ls[k + 1]? (segStarts ls) = true) → segOut ls = some out →
      (∀ k, k < out.length → (d.part part).window (dst + 128 * k) = true) →
      ∀ d2, d1.vwrite s.mem (d.feRidge part) part dst out.flatten = (d2, .ok ()) → Becomes s (.segmentFormTranslator part src dst lines) d2

/-! ### The whole machine -/

/-- What stops a bundle at issue (R44, R60, R64, R67, R69, R315): a thread whose reads exceed a count takes `NAME_EXHAUSTED`;
where a row would take the row total past `.maxlive` the writing threads take `NAME_LIMIT`; where the quota is short the bundle
waits with nothing spent or written; and a collective instruction in a bundle that does not hold all 32 threads faults with
`ILLEGAL_CONVERGENCE`. A thread that meets an uncorrectable error in a row it reads is not among those that take `NAME_LIMIT`,
the model's choice (log 102). -/
def Obligations.StopsAtIssue : Prop :=
  ∀ (s : State) (h : Hdr) (b : Bun) (g : Grid),
    let d := s.start
    let fits := fun (u : Use) => (b.spentPack u).rowsFor b.pack b.team b.dev.now b.till (d.maxlive b.team.grid) (b.writers u) u.dests
    b.pack.WF → (∀ t, t < 32 → b.mask.getLsbD t = true → b.pack.oldRows t = none) → d.grid b.team.grid = some g → g.terminated = false →
    lrHpc g.record ≠ 0 → (∀ t x, b.mask.getLsbD t = true → b.thread t = some x → x.status = .ready ∧ x.handler = .off) →
    (∀ o : Op2,
      let u : Use := { reads := o.s.reads, dests := [VDst.dst o.d], flat := o.s.flat }
      d.bun h u.flat = some b →
      (∀ p rows, fits u = .ok p rows → ∃ t, exec (.iadd h o) s = .next t ∧
        ∀ k, k < 32 → b.mask.getLsbD k = true → b.short u k = true → Took t b (lrHpc g.record) .nameExhausted k) ∧
      (fits u = .limit → ∃ t, exec (.iadd h o) s = .next t ∧
        ∀ k, k < 32 → (b.writers u).getLsbD k = true → Took t b (lrHpc g.record) .nameLimit k) ∧
      ∀ need, fits u = .block need →
        Becomes s (.iadd h o) { d.modPack b.core b.slot b.index fun p => { p with hold := some ⟨.allocation need, b.mask, b.pc⟩ } with cur := none }) ∧
    ∀ (sd : SpanD) (a : BitVec 4) (row0 : Src) (ext : BitVec 8),
      let u : Use := { reads := row0.reads 0, dests := spanDsts sd false ext, flat := row0.flat, long := true, collective := true }
      d.bun h u.flat = some b → b.mask ≠ BitVec.allOnes 32 → (∀ k, b.mask.getLsbD k = true → b.short u k = false ∧ b.spoilt u k = false) →
      ∀ p rows, fits u = .ok p rows → ∃ t, exec (.mrd h sd a row0 ext) s = .next t ∧
        ∀ k, k < 32 → b.mask.getLsbD k = true → Took t b (lrHpc g.record) .illegalConvergence k

/-- Right after reset every die is OFF, no line carries a key, no link has a key, no partition is active, the package clock reads 0, and a
partition's `sys.fair` is 64 (R41, R188, R340, R345).
The registers whose reset value the spec does not give are zero by the model's choice (log 6); of those this statement names the age and the teams of a core, and that no key, link or partition is set up. -/
def Obligations.ResetState : Prop :=
  (∀ n, n < 10 → (State.reset.dev.die n).state = .off) ∧ (∀ a, State.reset.dev.keyOf a = none) ∧
  (∀ l ∈ State.reset.dev.links, l.armed = false ∧ l.keys = [none, none]) ∧ (∀ p, (State.reset.dev.part p).active = false) ∧
  State.reset.dev.time = 0 ∧ (∀ p, (State.reset.dev.part p).fair = 64) ∧ ∀ c, (State.reset.dev.core c).age = 0 ∧ (State.reset.dev.core c).teams = []

/-- The invariant of every step holds right after reset.
The canonical form is the model's own (log 5). -/
def Obligations.ResetInv : Prop := State.reset.Inv

/-- Every step keeps memory in its canonical form and leaves no write pending, from every state that has them so.
The canonical form is the model's own (log 5). -/
def Obligations.StepKeepsInv : Prop := ∀ s t : State, s.Inv → step s = .next t → t.Inv

/-- A step takes the turn's move; when that is the start of a bundle whose word decodes to a well-formed instruction, the same step executes it
at the state the bundle start left, and the bundle's start is then written down, unless it was held (R40, R42, R126, R218).
That one turn is one step, and that a bundle starts and executes in the same one, is the model's choice (log 1). -/
def Obligations.StepRunsDecoded : Prop :=
  ∀ s t : State, exec s.turn.1.move s.turn.2 = .next t →
    (∀ c i, t.dev.cur = some c → decodeBytes c.word = .ok i → i.wf = true ∧
      (∀ u : State, exec i t = .next u → step s = .next { u with dev := u.dev.beganCur (some c) }) ∧
      ∀ o, exec i t = o → (∀ u, o ≠ .next u) → step s = o) ∧
    (t.dev.cur = none → step s = .next t)

/-- Decoding and encoding agree (R99 to R118): every well-formed instruction that has a word decodes from that word to itself, and what any 12
bytes decode to is well-formed and has those bytes as its word. -/
def Obligations.DecodeEncode : Prop :=
  (∀ i w, i.wf = true → encode i = some w → w < 2 ^ 96 ∧ decodeBytes (leBytes 12 w) = .ok i) ∧
  ∀ (bs : List Byte) i, bs.length = 12 → decodeBytes bs = .ok i → i.wf = true ∧ encode i = some (leNat bs)

/-- Words with a major opcode that the map of R115 leaves unassigned, each cell of it, decode to nothing (R102). -/
def Obligations.UnassignedMajors : Prop :=
  ∀ bs : List Byte, bs.length = 12 →
    let m := leNat bs / 2 ^ 88
    m ∈ [0x0E, 0x0F, 0x14, 0x15, 0x16, 0x17, 0x57, 0x5E, 0x5F, 0x6C, 0x6D, 0x6E, 0x6F, 0x74, 0x75, 0x76, 0x77, 0x7E, 0x7F] ∨
    (0x8B ≤ m ∧ m ≤ 0x8F) ∨ m = 0x93 ∨ (0x9B ≤ m ∧ m ≤ 0x9F) ∨ (0xA8 ≤ m ∧ m ≤ 0xAF) ∨ (0xBA ≤ m ∧ m ≤ 0xEF) ∨ m = 0xFE ∨ m = 0xFF →
    ∀ i, decodeBytes bs ≠ .ok i

/-- Words written out from the encoding tables decode to the instructions they stand for (R100, R109 to R115). -/
def Obligations.DecodedWords : Prop :=
  let h : Hdr := { gneg := false, gpred := 0, la := 0, yld := false, uexp := false }
  let v := fun i => Src.name { idx := i, neg := false, abs := false, half := .whole, wide := false, comp := .whole }
  let d := fun i c => ({ idx := i, cnt := c, wide := false } : VDst)
  let reads := fun w i => decodeTableWord 96 w = some i
  reads 0x3A8000000A20613E00000004 (.fmul h .rne { d := d 5 1, s := .wide (.name 4) { kind := .f32, slot := 1, imm := 0x3E000000 } }) ∧
  reads 0x3A0000000620002000020000 (.fmul h .rne { d := d 3 1, s := .reg (v 1) (v 1) }) ∧
  reads 0x10000000044080000E000000 (.mov h (.v (d 2 2)) (.reg (.imm 0)) 0) ∧
  reads 0x0100100E000080001E000008 (.bra { h with gpred := 1 } 1 8) ∧
  reads 0x5B080000082000600E000000 (.redux h 8 (d 4 1) (v 3)) ∧
  reads 0x604201000260680000000000 (.ld { h with la := 1 } { sz := 4, scope := .d, ord := .none, d := d 1 3, b := 0, idx := v 0, w := 0 }) ∧
  reads 0x702200000620800008000104 (.atom h 2 .d .none (d 3 1) 4 (.imm 0) (.imm 1)) ∧
  reads 0x821300060080A000F6C00010 (.mmar h { g := some 3, e := false, tag := false, a := 2, sp := { first := 0, len := 15 }, f := 0, vs := 16 }) ∧
  reads 0xA00000023C0868380683C01F (.rsv h false 30 14 15 31)
end

