-- ==== Sys2Proof/Laws/Basic.lean ====
section
/-! SUPPORT. Lemmas about the list operations, masks and association lists that the model is built of. -/

namespace Sys2Proof.Machine

open Sys2Proof

/-! ### Lists by place -/

@[simp] theorem imap_length {α β : Type} (f : Nat → α → β) (k : Nat) (l : List α) : (imap f k l).length = l.length := by
  induction l generalizing k with
  | nil => rfl
  | cons x l ih => simp [imap, ih]

@[simp] theorem imap_getElem? {α β : Type} (f : Nat → α → β) (k : Nat) (l : List α) (i : Nat) :
    (imap f k l)[i]? = l[i]?.map (f (k + i)) := by
  induction l generalizing k i with
  | nil => simp [imap]
  | cons x l ih =>
    cases i with
    | zero => simp [imap]
    | succ i => simp [imap, ih, Nat.add_assoc, Nat.add_comm 1 i]

theorem imap_id {α : Type} (f : Nat → α → α) (k : Nat) (l : List α) (h : ∀ i x, f i x = x) : imap f k l = l := by
  induction l generalizing k with
  | nil => rfl
  | cons x l ih => simp [imap, ih, h]

@[simp] theorem lmod_length {α : Type} (l : List α) (i : Nat) (f : α → α) : (lmod l i f).length = l.length := by
  induction l generalizing i with
  | nil => rfl
  | cons x l ih => cases i <;> simp [lmod, ih]

theorem lmod_getElem? {α : Type} (l : List α) (i j : Nat) (f : α → α) :
    (lmod l i f)[j]? = if j = i then l[j]?.map f else l[j]? := by
  induction l generalizing i j with
  | nil => simp [lmod]
  | cons x l ih =>
    cases i <;> cases j <;> simp [lmod, ih]

@[simp] theorem lmod_getElem?_same {α : Type} (l : List α) (i : Nat) (f : α → α) : (lmod l i f)[i]? = l[i]?.map f := by
  simp [lmod_getElem?]

theorem lmod_getElem?_ne {α : Type} (l : List α) {i j : Nat} (f : α → α) (h : j ≠ i) : (lmod l i f)[j]? = l[j]? := by
  simp [lmod_getElem?, h]

@[simp] theorem lmod_lmod {α : Type} (l : List α) (i : Nat) (f g : α → α) : lmod (lmod l i f) i g = lmod l i (g ∘ f) := by
  induction l generalizing i with
  | nil => rfl
  | cons x l ih => cases i <;> simp [lmod, ih]

theorem lmod_const_of_getElem? {α : Type} {l : List α} {i : Nat} {x : α} (f : α → α) (h : l[i]? = some x) :
    lmod l i f = lmod l i (fun _ => f x) := by
  induction l generalizing i with
  | nil => rfl
  | cons y l ih =>
    cases i with
    | zero => simp at h; simp [lmod, h]
    | succ i => simp at h; simp [lmod, ih h]

theorem lmod_eq_self {α : Type} {l : List α} {i : Nat} {x : α} (h : l[i]? = some x) : lmod l i (fun _ => x) = l := by
  induction l generalizing i with
  | nil => rfl
  | cons y l ih =>
    cases i with
    | zero => simp at h; simp [lmod, h]
    | succ i => simp at h; simp [lmod, ih h]

@[simp] theorem nth_imap {α : Type} (f : Nat → α → α) (l : List α) (t : Nat) (d : α) (h : t < l.length) :
    nth (imap f 0 l) t d = f t (nth l t d) := by
  simp [nth, List.getD_eq_getElem?_getD, List.getElem?_eq_getElem h]

theorem nth_lmod {α : Type} (l : List α) (i t : Nat) (f : α → α) (d : α) (h : t < l.length) :
    nth (lmod l i f) t d = if t = i then f (nth l t d) else nth l t d := by
  simp only [nth, List.getD_eq_getElem?_getD, lmod_getElem?]
  split <;> simp [List.getElem?_eq_getElem h]

/-! ### Association lists -/

@[simp] theorem aget_aset_same {α : Type} (l : List (Nat × α)) (a : Nat) (x : α) : aget (aset l a x) a = some x := by
  induction l with
  | nil => simp [aset, aget]
  | cons p l ih =>
    obtain ⟨k, v⟩ := p
    simp only [aset]
    split
    · simp [aget, *]
    · split
      · simp [aget]
      · simp [aget, *]

theorem aget_aset_ne {α : Type} (l : List (Nat × α)) {a c : Nat} (x : α) (h : c ≠ a) : aget (aset l a x) c = aget l c := by
  induction l with
  | nil => simp [aset, aget, h]
  | cons p l ih =>
    obtain ⟨k, v⟩ := p
    simp only [aset]
    split
    · subst a; simp [aget, h]
    · split
      · simp [aget, h]
      · simp [aget, ih]

@[simp] theorem aset_aset {α : Type} (l : List (Nat × α)) (a : Nat) (x y : α) : aset (aset l a x) a y = aset l a y := by
  induction l with
  | nil => simp [aset]
  | cons p l ih =>
    obtain ⟨k, v⟩ := p
    by_cases h : a = k
    · simp [aset, h]
    · by_cases h' : a < k
      · simp [aset, h, h']
      · simp [aset, h, h', ih]

/-! ### Masks -/

theorem bitsOf_lt (p : Nat → Bool) (n : Nat) : bitsOf p n < 2 ^ n := by
  induction n with
  | zero => simp [bitsOf]
  | succ n ih =>
    simp only [bitsOf, Nat.pow_succ]
    cases p n <;> simp <;> omega

theorem bitsOf_testBit (p : Nat → Bool) (n i : Nat) : (bitsOf p n).testBit i = (decide (i < n) && p i) := by
  induction n with
  | zero => simp [bitsOf]
  | succ n ih =>
    have hlt := bitsOf_lt p n
    cases hp : p n
    · simp only [bitsOf, hp, cond_false, Nat.zero_add, ih]
      by_cases h : i = n
      · subst h; simp [hp]
      · have : (i < n + 1) ↔ i < n := by omega
        simp [this]
    · simp only [bitsOf, hp, cond_true]
      by_cases h : i = n
      · subst h
        rw [Nat.testBit_two_pow_add_eq]
        simp [hp, Nat.testBit_lt_two_pow hlt]
      · by_cases h' : i < n
        · rw [Nat.testBit_two_pow_add_gt h', ih]
          have : i < n + 1 := by omega
          simp [h', this]
        · have : n < i := by omega
          rw [Nat.testBit_lt_two_pow]
          · have : ¬ i < n + 1 := by omega
            simp [this]
          · calc 2 ^ n + bitsOf p n < 2 ^ n + 2 ^ n := by omega
              _ = 2 ^ (n + 1) := by rw [Nat.pow_succ]; omega
              _ ≤ 2 ^ i := Nat.pow_le_pow_right (by omega) (by omega)

@[simp] theorem maskOf_getLsbD (p : Nat → Bool) (t : Nat) : (maskOf p).getLsbD t = (decide (t < 32) && p t) := by
  simp only [maskOf, BitVec.getLsbD_ofNat, bitsOf_testBit]
  cases decide (t < 32) <;> simp

theorem maskOf_eq_zero {p : Nat → Bool} (h : ∀ t, t < 32 → p t = false) : maskOf p = 0 := by
  apply BitVec.eq_of_getLsbD_eq
  intro i hi
  rw [maskOf_getLsbD]
  simp [h i hi]

theorem maskOf_self (m : Mask) : maskOf (fun t => m.getLsbD t) = m := by
  apply BitVec.eq_of_getLsbD_eq
  intro i hi
  rw [maskOf_getLsbD]
  simp [hi]

theorem mem_threadsOf {m : Mask} {t : Nat} : t ∈ threadsOf m ↔ t < 32 ∧ m.getLsbD t := by
  simp [threadsOf]

theorem mask_lt {m : Mask} {t : Nat} (h : m.getLsbD t = true) : t < 32 := by
  rcases Nat.lt_or_ge t 32 with h' | h'
  · exact h'
  · simp [BitVec.getLsbD_of_ge m t h'] at h

theorem threadsOf_nodup (m : Mask) : (threadsOf m).Nodup := List.Nodup.filter _ List.nodup_range

theorem mask_ne_zero {m : Mask} (h : m ≠ 0) : ∃ t, m.getLsbD t = true := by
  by_contra hn
  push Not at hn
  exact h (BitVec.eq_of_getLsbD_eq (fun i hi => by simpa using hn i))

end Sys2Proof.Machine
end

