-- ==== Sys2Proof/Laws/Rows.lean ====
section
/-! SUPPORT. What the row decision, the reads and the writes of a bundle do to the rows of its pack. -/

namespace Sys2Proof.Machine

open Sys2Proof

/-- `p'` is `p` with rows taken: old rows keep all but the current mark and the executing-bundle mark, new rows are empty. -/
structure Grew (p p' : Pack) : Prop where
  rows  : ∃ (f : Row → Row) (new : List Row), p'.rows = p.rows.map f ++ new ∧
    (∀ r, f r = { r with cur := (f r).cur, busy := (f r).busy }) ∧ ∀ r ∈ new, r.bound = 0
  rest  : { p' with rows := p.rows, nextId := p.nextId, granted := p.granted } = p
  wf    : p.WF → p'.WF

theorem Grew.refl (p : Pack) : Grew p p := ⟨⟨id, [], by simp, fun _ => rfl, by simp⟩, rfl, id⟩

theorem Grew.trans {p q r : Pack} (h1 : Grew p q) (h2 : Grew q r) : Grew p r := by
  obtain ⟨⟨f, n, hf, hf', hn⟩, hr, hw⟩ := h1
  obtain ⟨⟨g, m, hg, hg', hm⟩, hr', hw'⟩ := h2
  refine ⟨⟨g ∘ f, n.map g ++ m, by simp [hg, hf], fun x => ?_, ?_⟩, ?_, fun h => hw' (hw h)⟩
  · have h1 := hg' (f x)
    have h2 := hf' x
    simp only [Function.comp]
    rw [h1, h2]
  · intro x hx
    rcases List.mem_append.mp hx with hx | hx
    · obtain ⟨y, hy, rfl⟩ := List.mem_map.mp hx
      rw [hg' y]; exact hn y hy
    · exact hm x hx
  · have e := congrArg (fun y : Pack => { y with rows := p.rows, nextId := p.nextId, granted := p.granted }) hr'
    simpa [hr] using e

theorem find?_eq_of_all_false {α : Type} {l : List α} {f : α → Bool} (h : ∀ x ∈ l, f x = false) : l.find? f = none :=
  List.find?_eq_none.mpr (fun x hx => by simp [h x hx])

/-- A binding stands through the row decision, with its values and counts. -/
theorem Grew.bind {p p' : Pack} (h : Grew p p') (n t : Nat) :
    ∃ f : Row → Row, (∀ r, f r = { r with cur := (f r).cur, busy := (f r).busy }) ∧ p'.bind n t = (p.bind n t).map f := by
  obtain ⟨f, new, hr, hf, hn⟩ := h.rows
  refine ⟨f, hf, ?_⟩
  have hnew : new.find? (fun r => r.name == n && r.binds t) = none :=
    find?_eq_of_all_false (fun x hx => by simp [Row.binds, hn x hx])
  simp only [Pack.bind, hr, List.find?_append, hnew, List.find?_map, Option.or_none]
  congr 2
  funext r
  rw [Function.comp, hf r]
  rfl

theorem Grew.value {p p' : Pack} (h : Grew p p') (n t : Nat) (wide : Bool) (comp : Comp) :
    p'.value n t wide comp = p.value n t wide comp := by
  obtain ⟨f, hf, hb⟩ := h.bind n t
  unfold Pack.value
  rw [hb]
  cases p.bind n t with
  | none => rfl
  | some r =>
    rw [Option.map_some]
    dsimp only
    rw [hf r]

theorem Grew.count {p p' : Pack} (h : Grew p p') (n t : Nat) : p'.count n t = p.count n t := by
  obtain ⟨f, hf, hb⟩ := h.bind n t
  unfold Pack.count
  rw [hb]
  cases p.bind n t with
  | none => rfl
  | some r =>
    rw [Option.map_some]
    dsimp only
    rw [hf r]
    rfl

theorem map_cur_ids (p : Pack) (n : Nat) :
    ((p.rows.map fun x => if x.name = n then { x with cur := false } else x).map (·.id)) = p.rows.map (·.id) := by
  rw [List.map_map]
  apply List.map_congr_left
  intro a _
  simp only [Function.comp]
  split <;> rfl

theorem Grew.addRow (p : Pack) (n : Nat) (wide : Bool) (till : Nat) : Grew p (p.addRow n wide till).1 := by
  refine ⟨⟨fun x => if x.name = n then { x with cur := false } else x, [{ id := p.nextId, name := n, wide := wide, lo := List.replicate 32 0, hi := List.replicate 32 0, count := List.replicate 32 0, bound := 0, cur := true, held := 0, busy := till, spent := 0, evLo := none, evHi := none, bad := 0, owed := [] }], rfl, ?_, by simp⟩, rfl, ?_⟩
  · intro r
    dsimp only
    split <;> rfl
  · rintro ⟨h1, h2, h3, h4, h5⟩
    refine ⟨h1, h2, by simp [Pack.addRow], ?_, ?_⟩
    · simp only [Pack.addRow, List.map_append, map_cur_ids, List.map_cons, List.map_nil]
      rw [List.nodup_append]
      refine ⟨h4, by simp, ?_⟩
      intro a ha b hb
      simp only [List.mem_singleton] at hb
      obtain ⟨r, hr, rfl⟩ := List.mem_map.mp ha
      have := (h5 r hr).2.1
      omega
    · intro r hr
      simp only [Pack.addRow, List.mem_append, List.mem_map, List.mem_singleton] at hr ⊢
      rcases hr with ⟨x, hx, rfl⟩ | rfl
      · have := h5 x hx
        have hlt : x.id < p.nextId + 1 := by omega
        split <;> exact ⟨this.1, hlt, this.2.2⟩
      · exact ⟨h3, by dsimp only; omega, by simp, by simp, by simp⟩

theorem Grew.modRow (p : Pack) (id : Nat) (f : Row → Row) (hf : ∀ r, f r = { r with cur := (f r).cur, busy := (f r).busy }) :
    Grew p (p.modRow id f) := by
  refine ⟨⟨fun r => if r.id = id then f r else r, [], by simp [Pack.modRow], ?_, by simp⟩, rfl, ?_⟩
  · intro r
    dsimp only
    split
    · exact hf r
    · rfl
  · rintro ⟨h1, h2, h3, h4, h5⟩
    have hk : ∀ r, (if r.id = id then f r else r) = { r with cur := (if r.id = id then f r else r).cur, busy := (if r.id = id then f r else r).busy } := by
      intro r
      split
      · exact hf r
      · rfl
    refine ⟨h1, h2, h3, ?_, ?_⟩
    · simp only [Pack.modRow, List.map_map]
      have : ((fun r : Row => r.id) ∘ fun r => if r.id = id then f r else r) = fun r : Row => r.id := by
        funext r
        simp only [Function.comp]
        rw [hk r]
      rw [this]; exact h4
    · intro r hr
      simp only [Pack.modRow, List.mem_map] at hr
      obtain ⟨x, hx, rfl⟩ := hr
      rw [hk x]
      exact h5 x hx

theorem row_of_mem {p : Pack} {r : Row} (hn : (p.rows.map (·.id)).Nodup) (hr : r ∈ p.rows) : p.row r.id = some r := by
  unfold Pack.row
  generalize p.rows = l at hn hr
  induction l with
  | nil => simp at hr
  | cons x l ih =>
    simp only [List.map_cons, List.nodup_cons] at hn
    rcases List.mem_cons.mp hr with rfl | hr
    · simp
    · have : x.id ≠ r.id := fun e => hn.1 (List.mem_map.mpr ⟨r, hr, e.symm⟩)
      rw [List.find?_cons_of_neg (by simp [this])]
      exact ih hn.2 hr

/-- The row a number names, after rows are taken, has its name, width and binding from before. -/
theorem Grew.row {p p' : Pack} (h : Grew p p') {id : Nat} {r : Row} (hr : p.row id = some r) :
    ∃ r', p'.row id = some r' ∧ r' = { r with cur := r'.cur, busy := r'.busy } := by
  obtain ⟨f, new, hr', hf, hn⟩ := h.rows
  refine ⟨f r, ?_, hf r⟩
  simp only [Pack.row, hr', List.find?_append, List.find?_map] at *
  have : ((fun x : Row => x.id == id) ∘ f) = fun x => x.id == id := by
    funext x
    simp only [Function.comp]
    rw [hf x]
  rw [this, hr]
  rfl

/-- What the row decision answers: rows are taken, one for each destination, of its name and width. -/
theorem decide_spec {p q : Pack} {now till ml : Nat} {w : Mask} {ds : List (Nat × Bool)} {p' : Pack} {ids : List Nat} {k : Nat}
    (hw : p.WF) (h : p.decide q now till ml w ds = some (p', ids, k)) :
    Grew p p' ∧ ids.length = ds.length ∧ ∀ (j n : Nat) (wide : Bool), ds[j]? = some (n, wide) → ∃ id r, ids[j]? = some id ∧ p'.row id = some r ∧
      r.name = n ∧ r.wide = wide ∧ id ≠ 0 := by
  induction ds generalizing p p' ids k with
  | nil =>
    simp only [Pack.decide, Option.some.injEq, Prod.mk.injEq] at h
    obtain ⟨rfl, rfl, rfl⟩ := h
    exact ⟨Grew.refl p, rfl, by simp⟩
  | cons d ds ih =>
    obtain ⟨n, wide⟩ := d
    -- the first destination's row
    have key : ∀ {one : Option (Pack × Nat × Nat)}, (∀ p1 i1 k1, one = some (p1, i1, k1) → Grew p p1 ∧ ∃ r, p1.row i1 = some r ∧ r.name = n ∧ r.wide = wide ∧ i1 ≠ 0) →
        (match one with
          | none => none
          | some (p1, i1, k1) =>
            match p1.decide q now till ml w ds with
            | none => none
            | some (p2, is, k') => some (p2, i1 :: is, k1 + k')) = some (p', ids, k) →
        Grew p p' ∧ ids.length = ds.length + 1 ∧ ∀ (j m : Nat) (v : Bool), ((n, wide) :: ds)[j]? = some (m, v) → ∃ id r, ids[j]? = some id ∧ p'.row id = some r ∧
          r.name = m ∧ r.wide = v ∧ id ≠ 0 := by
      intro one hone hm
      cases one with
      | none => simp at hm
      | some x =>
        obtain ⟨p1, i1, k1⟩ := x
        obtain ⟨hg1, r1, hr1, hn1, hw1, hi1⟩ := hone _ _ _ rfl
        dsimp only at hm
        cases hd : p1.decide q now till ml w ds with
        | none => simp [hd] at hm
        | some y =>
          obtain ⟨p2, is, k'⟩ := y
          simp only [hd, Option.some.injEq, Prod.mk.injEq] at hm
          obtain ⟨rfl, rfl, rfl⟩ := hm
          obtain ⟨hg2, hl, hj⟩ := ih (hg1.wf hw) hd
          refine ⟨hg1.trans hg2, by simp [hl], ?_⟩
          intro j m v hmv
          cases j with
          | zero =>
            simp only [List.getElem?_cons_zero, Option.some.injEq, Prod.mk.injEq] at hmv
            obtain ⟨rfl, rfl⟩ := hmv
            obtain ⟨r', hr', he⟩ := hg2.row hr1
            refine ⟨i1, r', rfl, hr', ?_, ?_, hi1⟩
            · rw [he]; exact hn1
            · rw [he]; exact hw1
          | succ j =>
            simp only [List.getElem?_cons_succ] at hmv ⊢
            exact hj j m v hmv
    -- a fresh row, or the current one filled
    have hfresh : ∀ p1 i1 k1, (if p.rowTotalFor q now + (if wide then 2 else 1) > ml then none
        else some ((p.addRow n wide till).1, (p.addRow n wide till).2, (if wide then 2 else 1))) = some (p1, i1, k1) →
        Grew p p1 ∧ ∃ r, p1.row i1 = some r ∧ r.name = n ∧ r.wide = wide ∧ i1 ≠ 0 := by
      intro p1 i1 k1 hf
      by_cases hl : p.rowTotalFor q now + (if wide then 2 else 1) > ml
      · rw [if_pos hl] at hf
        simp at hf
      · rw [if_neg hl] at hf
        simp only [Option.some.injEq, Prod.mk.injEq] at hf
        obtain ⟨rfl, rfl, rfl⟩ := hf
        have hg := Grew.addRow p n wide till
        refine ⟨hg, ⟨p.nextId, n, wide, List.replicate 32 0, List.replicate 32 0, List.replicate 32 0, 0, true, 0, till, 0, none, none, 0, []⟩, ?_, rfl, rfl, ?_⟩
        · exact row_of_mem (hg.wf hw).2.2.2.1 (List.mem_append_right _ (List.mem_singleton.mpr rfl))
        · show p.nextId ≠ 0
          have := hw.2.2.1
          omega
    unfold Pack.decide at h
    refine key ?_ h
    intro p1 i1 k1 h1
    split at h1
    · rename_i r hc
      split at h1
      · rename_i hfill
        simp only [Option.some.injEq, Prod.mk.injEq] at h1
        obtain ⟨rfl, rfl, rfl⟩ := h1
        have hg := Grew.modRow p r.id (fun r => { r with busy := max r.busy till }) (fun _ => rfl)
        have hmem : r ∈ p.rows := List.mem_of_find?_eq_some hc
        have hname : r.name = n := by
          have := List.find?_some hc
          simp only [Bool.and_eq_true, beq_iff_eq] at this
          exact this.1
        have hwide : r.wide = wide := by
          simp only [Row.fillable, Bool.and_eq_true, beq_iff_eq] at hfill
          exact hfill.1.1.1
        obtain ⟨r', hr', he⟩ := hg.row (row_of_mem hw.2.2.2.1 hmem)
        refine ⟨hg, r', hr', by rw [he]; exact hname, by rw [he]; exact hwide, ?_⟩
        have := (hw.2.2.2.2 r hmem).1
        omega
      · exact hfresh _ _ _ h1
    · exact hfresh _ _ _ h1

end Sys2Proof.Machine
end

