-- ==== Sys2Proof/Laws/Names.lean ====
section
/-! SUPPORT. What a bundle's reads and writes do to values and counts of names (R57 to R62). -/

namespace Sys2Proof.Machine

open Sys2Proof

theorem find?_unique {α : Type} {l : List α} {f : α → Bool} {r : α} (hm : r ∈ l) (hr : f r = true) (hu : ∀ x ∈ l, f x = true → x = r) :
    l.find? f = some r := by
  induction l with
  | nil => simp at hm
  | cons x l ih =>
    by_cases hx : f x = true
    · rw [List.find?_cons_of_pos hx, hu x (List.mem_cons_self) hx]
    · rw [List.find?_cons_of_neg hx]
      rcases List.mem_cons.mp hm with rfl | hm
      · exact absurd hr hx
      · exact ih hm (fun y hy => hu y (List.mem_cons_of_mem _ hy))

theorem find?_same {α : Type} {l : List α} {f g : α → Bool} (h : ∀ x ∈ l, f x = g x) : l.find? f = l.find? g := by
  induction l with
  | nil => rfl
  | cons x l ih =>
    rw [List.find?_cons, List.find?_cons, h x List.mem_cons_self, ih (fun y hy => h y (List.mem_cons_of_mem _ hy))]

theorem row_mem {p : Pack} {id : Nat} {r : Row} (h : p.row id = some r) : r ∈ p.rows ∧ r.id = id := by
  refine ⟨List.mem_of_find?_eq_some h, ?_⟩
  have := List.find?_some h
  simpa using this

theorem bind_mem {p : Pack} {n t : Nat} {r : Row} (h : p.bind n t = some r) : r ∈ p.rows ∧ r.name = n ∧ r.binds t = true := by
  refine ⟨List.mem_of_find?_eq_some h, ?_⟩
  have := List.find?_some h
  simpa using this

/-! ### Reads -/

/-- One row under the reads of a bundle. -/
def spentRow (e : Mask) (reads : List Nat) (after : Nat → Nat) (r : Row) : Row :=
  let k := reads.count r.name
  if k = 0 || (r.bound &&& e) = 0 then r
  else { r with spent := (threadsOf (r.bound &&& e)).foldl (fun a t => max a (after t)) r.spent, count := imap (fun t c => if e.getLsbD t && r.bound.getLsbD t && c != 15 then c - k else c) 0 r.count }

theorem spendBy_rows (p : Pack) (e : Mask) (reads : List Nat) (after : Nat → Nat) : (p.spendBy e reads after).rows = p.rows.map (spentRow e reads after) := rfl

theorem spentRow_eq (e : Mask) (reads : List Nat) (after : Nat → Nat) (r : Row) :
    spentRow e reads after r = { r with spent := (spentRow e reads after r).spent, count := (spentRow e reads after r).count } := by
  unfold spentRow
  dsimp only
  split <;> rfl

theorem spentRow_count_length (e : Mask) (reads : List Nat) (after : Nat → Nat) (r : Row) : (spentRow e reads after r).count.length = r.count.length := by
  unfold spentRow
  dsimp only
  split <;> simp

theorem spentRow_countOf {e : Mask} {reads : List Nat} {after : Nat → Nat} {r : Row} {t : Nat} (hl : t < r.count.length) (hb : r.binds t = true) :
    (spentRow e reads after r).countOf t =
      if e.getLsbD t && r.countOf t != 15 then r.countOf t - reads.count r.name else r.countOf t := by
  unfold spentRow
  dsimp only
  split
  · rename_i h
    simp only [Bool.or_eq_true, decide_eq_true_eq] at h
    rcases h with h | h
    · simp [h]
    · have : e.getLsbD t = false := by
        have := congrArg (fun m : Mask => m.getLsbD t) h
        simp only [BitVec.getLsbD_and] at this
        rw [show r.bound.getLsbD t = true from hb] at this
        simpa using this
      simp [this]
  · simp only [Row.countOf]
    rw [nth_imap _ _ _ _ hl]
    rw [show r.bound.getLsbD t = true from hb]
    simp

theorem spendBy_bind (p : Pack) (e : Mask) (reads : List Nat) (after : Nat → Nat) (n t : Nat) :
    (p.spendBy e reads after).bind n t = (p.bind n t).map (spentRow e reads after) := by
  simp only [Pack.bind, spendBy_rows, List.find?_map]
  congr 2
  funext r
  rw [Function.comp, spentRow_eq]
  rfl

theorem spendBy_value (p : Pack) (e : Mask) (reads : List Nat) (after : Nat → Nat) (n t : Nat) (wide : Bool) (comp : Comp) :
    (p.spendBy e reads after).value n t wide comp = p.value n t wide comp := by
  unfold Pack.value
  rw [spendBy_bind]
  cases p.bind n t with
  | none => rfl
  | some r =>
    rw [Option.map_some]
    dsimp only
    rw [spentRow_eq]

theorem spendBy_count {p : Pack} (hw : p.WF) (e : Mask) (reads : List Nat) (after : Nat → Nat) (n t : Nat) (ht : t < 32) :
    (p.spendBy e reads after).count n t =
      if e.getLsbD t && p.count n t != 15 then p.count n t - reads.count n else p.count n t := by
  unfold Pack.count
  rw [spendBy_bind]
  cases h : p.bind n t with
  | none => simp
  | some r =>
    obtain ⟨hm, hn, hb⟩ := bind_mem h
    rw [Option.map_some]
    dsimp only
    rw [spentRow_countOf (by rw [(hw.2.2.2.2 r hm).2.2.2.2]; exact ht) hb, hn]

theorem spendBy_wf {p : Pack} (hw : p.WF) (e : Mask) (reads : List Nat) (after : Nat → Nat) : (p.spendBy e reads after).WF := by
  obtain ⟨h1, h2, h3, h4, h5⟩ := hw
  refine ⟨h1, h2, h3, ?_, ?_⟩
  · rw [spendBy_rows, List.map_map]
    have : ((fun r : Row => r.id) ∘ spentRow e reads after) = fun r : Row => r.id := by
      funext r
      rw [Function.comp, spentRow_eq]
    rw [this]; exact h4
  · intro r hr
    rw [spendBy_rows] at hr
    obtain ⟨x, hx, rfl⟩ := List.mem_map.mp hr
    have := h5 x hx
    rw [spentRow_count_length]
    rw [spentRow_eq]
    exact this

/-! ### The row decision of a bundle -/

theorem alignRows_spec {P : Nat → Nat → Bool → Prop} {dests : List Dst} {ids : List Nat}
    (h : ∀ (k n : Nat) (w : Bool), (dests.filterMap Dst.live)[k]? = some (n, w) → ∃ id, ids[k]? = some id ∧ P id n w) :
    ∀ (j : Nat) (d : Dst), dests[j]? = some d →
      (d.live = none → (alignRows dests ids)[j]? = some 0) ∧
      ∀ n w, d.live = some (n, w) → ∃ id, (alignRows dests ids)[j]? = some id ∧ P id n w := by
  induction dests generalizing ids with
  | nil => simp
  | cons x xs ih =>
    intro j d hd
    cases hx : x.live with
    | none =>
      have hfm : (x :: xs).filterMap Dst.live = xs.filterMap Dst.live := List.filterMap_cons_none hx
      rw [hfm] at h
      have := ih (ids := ids) h
      cases j with
      | zero =>
        simp only [List.getElem?_cons_zero, Option.some.injEq] at hd
        subst hd
        simp [alignRows, hx]
      | succ j =>
        simp only [List.getElem?_cons_succ] at hd
        simp only [alignRows, hx, Option.isSome_none, Bool.false_eq_true, if_false, List.getElem?_cons_succ]
        exact this j d hd
    | some y =>
      obtain ⟨n0, w0⟩ := y
      have hfm : (x :: xs).filterMap Dst.live = (n0, w0) :: xs.filterMap Dst.live := List.filterMap_cons_some hx
      rw [hfm] at h
      obtain ⟨id0, hid0, hP0⟩ := h 0 n0 w0 rfl
      have := ih (ids := ids.tail) (fun k n w hk => by
        obtain ⟨id, hid, hP⟩ := h (k + 1) n w (by simpa using hk)
        exact ⟨id, by simpa using hid, hP⟩)
      cases j with
      | zero =>
        simp only [List.getElem?_cons_zero, Option.some.injEq] at hd
        subst hd
        refine ⟨by simp [hx], ?_⟩
        intro n w hnw
        rw [hx] at hnw
        simp only [Option.some.injEq, Prod.mk.injEq] at hnw
        obtain ⟨rfl, rfl⟩ := hnw
        refine ⟨id0, ?_, hP0⟩
        cases ids with
        | nil => simp at hid0
        | cons a ids => simp at hid0; simp [alignRows, hx, hid0]
      | succ j =>
        simp only [List.getElem?_cons_succ] at hd
        simp only [alignRows, hx, Option.isSome_some, if_true, List.getElem?_cons_succ]
        exact this j d hd

theorem alignRows_nil (dests : List Dst) (j : Nat) (d : Dst) (h : dests[j]? = some d) : (alignRows dests [])[j]? = some 0 := by
  induction dests generalizing j with
  | nil => simp at h
  | cons x xs ih =>
    cases j with
    | zero => cases hx : x.live <;> simp [alignRows, hx]
    | succ j =>
      simp only [List.getElem?_cons_succ] at h
      cases hx : x.live <;> simp [alignRows, hx, ih j h]

/-- The rows decided for a bundle: one for each destination that takes a row, of its name and width. -/
structure Rowed (p : Pack) (dests : List Dst) (rows : List Nat) : Prop where
  live : ∀ (j : Nat) (d : Dst) (n : Nat) (wd : Bool), dests[j]? = some d → d.live = some (n, wd) →
    ∃ id r, rows[j]? = some id ∧ p.row id = some r ∧ r.name = n ∧ r.wide = wd ∧ id ≠ 0
  dead : ∀ (j : Nat) (d : Dst), dests[j]? = some d → d.live = none → rows[j]? = some 0
  past : ∀ (j id : Nat), rows[j]? = some id → ∃ d, dests[j]? = some d

theorem alignRows_length (dests : List Dst) (ids : List Nat) : (alignRows dests ids).length = dests.length := by
  induction dests generalizing ids with
  | nil => rfl
  | cons x xs ih => cases hx : x.live <;> simp [alignRows, hx, ih]

theorem rowsFor_spec {p q : Pack} {t : Team} {now till ml : Nat} {w : Mask} {dests : List Dst} {p' : Pack} {rows : List Nat}
    (hw : p.WF) (h : p.rowsFor q t now till ml w dests = .ok p' rows) :
    Grew p p' ∧ (w ≠ 0 → Rowed p' dests rows) := by
  unfold Pack.rowsFor at h
  dsimp only at h
  have past : ∀ (ids : List Nat) (j id : Nat), (alignRows dests ids)[j]? = some id → ∃ d, dests[j]? = some d := by
    intro ids j id hj
    have hl : j < (alignRows dests ids).length := by
      rcases Nat.lt_or_ge j (alignRows dests ids).length with hl | hl
      · exact hl
      · rw [List.getElem?_eq_none hl] at hj; cases hj
    rw [alignRows_length] at hl
    exact ⟨dests[j], List.getElem?_eq_getElem hl⟩
  split at h
  · rename_i he
    simp only [Rows.ok.injEq] at h
    obtain ⟨rfl, rfl⟩ := h
    refine ⟨Grew.refl p, fun hw0 => ?_⟩
    have hempty : dests.filterMap Dst.live = [] := by
      rcases (Bool.or_eq_true _ _).mp he with he | he
      · exact List.isEmpty_iff.mp he
      · exact absurd (by simpa using he) hw0
    have hs := alignRows_spec (P := fun _ _ _ => False) (dests := dests) (ids := []) (by simp [hempty])
    refine ⟨fun j d n wd hd hl => ?_, fun j d hd hl => (hs j d hd).1 hl, past []⟩
    obtain ⟨id, _, hf⟩ := (hs j d hd).2 n wd hl
    exact hf.elim
  · cases hd : p.decide q now till ml w (dests.filterMap Dst.live) with
    | none => simp [hd] at h
    | some x =>
      obtain ⟨p1, ids, need⟩ := x
      simp only [hd] at h
      split at h
      · simp only [Rows.ok.injEq] at h
        obtain ⟨rfl, rfl⟩ := h
        obtain ⟨hg, _, hj⟩ := decide_spec hw hd
        have hs := alignRows_spec (P := fun id n wd => ∃ r, p1.row id = some r ∧ r.name = n ∧ r.wide = wd ∧ id ≠ 0) (dests := dests) (ids := ids)
          (fun k n w hk => by obtain ⟨id, r, h1, h2⟩ := hj k n w hk; exact ⟨id, h1, r, h2⟩)
        refine ⟨⟨hg.rows, hg.rest, hg.wf⟩, fun _ => ⟨fun j d n wd hd hl => ?_, fun j d hd hl => (hs j d hd).1 hl, past ids⟩⟩
        obtain ⟨id, h1, r, h2⟩ := (hs j d hd).2 n wd hl
        exact ⟨id, r, h1, h2⟩
      · simp at h

/-! ### Writes -/

/-- One row under the writes of a bundle. -/
def writtenRow (dests : List Dst) (done : Mask) (rows : Nat → List Nat) (val : Nat → Nat → Nat) (r : Row) : Row :=
  let at_ := fun t => if done.getLsbD t then placeOf (rows t) r.id else none
  let cnt := fun j => match dests[j]? with | some (.name _ _ c) => c | _ => 0
  { r with
    lo := imap (fun t x => match at_ t with | some j => BitVec.ofNat 32 (val t j) | none => x) 0 r.lo,
    hi := imap (fun t x => match at_ t with | some j => BitVec.ofNat 32 (val t j / 2 ^ 32) | none => x) 0 r.hi,
    count := imap (fun t x => match at_ t with | some j => cnt j | none => x) 0 r.count,
    bound := maskOf fun t =>
      match at_ t with
      | some _ => true
      | none => r.bound.getLsbD t && !(done.getLsbD t && dests.any fun d => match d.live with | some (n, _) => n == r.name | none => false),
    bad := r.bad &&& ~~~maskOf fun t => (at_ t).isSome }

theorem writeAll_rows (p : Pack) (dests : List Dst) (done : Mask) (rows : Nat → List Nat) (val : Nat → Nat → Nat)
    (h : (done = 0 || dests.all (fun d => d.live.isNone)) = false) :
    (p.writeAll dests done rows val).rows = p.rows.map (writtenRow dests done rows val) := by
  unfold Pack.writeAll
  rw [if_neg (by rw [h]; exact Bool.false_ne_true)]
  rfl

theorem writeAll_rest (p : Pack) (dests : List Dst) (done : Mask) (rows : Nat → List Nat) (val : Nat → Nat → Nat) :
    p.writeAll dests done rows val = { p with rows := (p.writeAll dests done rows val).rows } := by
  unfold Pack.writeAll
  split <;> rfl

theorem writtenRow_id (dests : List Dst) (done : Mask) (rows : Nat → List Nat) (val : Nat → Nat → Nat) (r : Row) :
    (writtenRow dests done rows val r).id = r.id ∧ (writtenRow dests done rows val r).name = r.name ∧
    (writtenRow dests done rows val r).wide = r.wide := ⟨rfl, rfl, rfl⟩

theorem writeAll_wf {p : Pack} (hw : p.WF) (dests : List Dst) (done : Mask) (rows : Nat → List Nat) (val : Nat → Nat → Nat) :
    (p.writeAll dests done rows val).WF := by
  by_cases h : (done = 0 || dests.all (fun d => d.live.isNone)) = true
  · unfold Pack.writeAll
    rw [if_pos h]
    exact hw
  · have hr := writeAll_rows p dests done rows val (by simpa using h)
    have hrest := writeAll_rest p dests done rows val
    obtain ⟨h1, h2, h3, h4, h5⟩ := hw
    refine ⟨?_, ?_, ?_, ?_, ?_⟩
    · rw [congrArg Pack.threads hrest]; exact h1
    · rw [congrArg Pack.scal hrest]; exact h2
    · rw [congrArg Pack.nextId hrest]; exact h3
    · rw [hr, List.map_map]
      exact h4
    · intro r hm
      rw [hr] at hm
      obtain ⟨x, hx, rfl⟩ := List.mem_map.mp hm
      have := h5 x hx
      rw [congrArg Pack.nextId hrest]
      simp only [writtenRow, imap_length]
      exact this

theorem placeOf_none {rows : List Nat} {id : Nat} (h : ∀ j : Nat, rows[j]? = some id → id = 0) : placeOf rows id = none := by
  unfold placeOf
  split
  · rfl
  · rename_i h0
    rw [List.find?_eq_none]
    intro j hj
    simp only [List.mem_range] at hj
    rw [List.getD_eq_getElem?_getD, List.getElem?_eq_getElem hj]
    simp only [Option.getD_some, beq_iff_eq]
    intro he
    exact h0 (h j (by rw [List.getElem?_eq_getElem hj, he]))

theorem placeOf_some {rows : List Nat} {id j : Nat} (h : placeOf rows id = some j) : rows[j]? = some id ∧ id ≠ 0 := by
  unfold placeOf at h
  split at h
  · cases h
  · rename_i h0
    have hm := List.mem_of_find?_eq_some h
    have hs := List.find?_some h
    simp only [List.mem_range] at hm
    rw [List.getD_eq_getElem?_getD, List.getElem?_eq_getElem hm] at hs
    simp only [Option.getD_some, beq_iff_eq] at hs
    exact ⟨by rw [List.getElem?_eq_getElem hm, hs], h0⟩

theorem placeOf_isSome {rows : List Nat} {id j : Nat} (h : rows[j]? = some id) (h0 : id ≠ 0) : ∃ k, placeOf rows id = some k := by
  cases hp : placeOf rows id with
  | some k => exact ⟨k, rfl⟩
  | none =>
    unfold placeOf at hp
    rw [if_neg h0, List.find?_eq_none] at hp
    have hl : j < rows.length := by
      rcases Nat.lt_or_ge j rows.length with hl | hl
      · exact hl
      · rw [List.getElem?_eq_none hl] at h; cases h
    have := hp j (by simpa using hl)
    rw [List.getD_eq_getElem?_getD, h] at this
    simp at this

/-- A name that no destination of thread t is, and every name of a thread that does not write, keeps its row. -/
theorem writeAll_bind_other {p : Pack} {dests : List Dst} {done : Mask} {rows : Nat → List Nat} {val : Nat → Nat → Nat} {n t : Nat}
    (hw : p.WF) (ht : t < 32)
    (hrow : done.getLsbD t = true → Rowed p dests (rows t))
    (ho : done.getLsbD t = true → ∀ d ∈ dests, ∀ wd, d.live ≠ some (n, wd)) :
    (p.writeAll dests done rows val).value n t = p.value n t ∧ (p.writeAll dests done rows val).count n t = p.count n t := by
  by_cases hz : (done = 0 || dests.all (fun d => d.live.isNone)) = true
  · unfold Pack.writeAll
    rw [if_pos hz]
    exact ⟨rfl, rfl⟩
  have hr := writeAll_rows p dests done rows val (by simpa using hz)
  -- no row of the name is a destination's row of t
  have hat : ∀ r ∈ p.rows, r.name = n → (if done.getLsbD t then placeOf (rows t) r.id else none) = none := by
    intro r hm hn
    split
    · rename_i hd
      cases hp : placeOf (rows t) r.id with
      | none => rfl
      | some j =>
        exfalso
        obtain ⟨hj, h0⟩ := placeOf_some hp
        obtain ⟨d, hdj⟩ := (hrow hd).past j r.id hj
        cases hl : d.live with
        | none =>
          have := (hrow hd).dead j d hdj hl
          rw [hj] at this
          exact h0 (by simpa using this)
        | some y =>
          obtain ⟨m, wd⟩ := y
          obtain ⟨id, r', h1, h2, h3, h4, h5⟩ := (hrow hd).live j d m wd hdj hl
          rw [hj] at h1
          simp only [Option.some.injEq] at h1
          subst h1
          rw [row_of_mem hw.2.2.2.1 hm] at h2
          simp only [Option.some.injEq] at h2
          subst h2
          rw [hn] at h3
          subst h3
          exact ho hd d (List.mem_of_getElem? hdj) wd hl
    · rfl
  have hdest : done.getLsbD t = true → (dests.any fun d => match d.live with | some (m, _) => m == n | none => false) = false := by
    intro hd
    rw [List.any_eq_false]
    intro d hdm
    cases hl : d.live with
    | none => simp
    | some y =>
      obtain ⟨m, wd⟩ := y
      simp only [beq_iff_eq]
      rintro rfl
      exact ho hd d hdm wd hl
  have hbound : ∀ r ∈ p.rows, r.name = n → (writtenRow dests done rows val r).binds t = r.binds t := by
    intro r hm hn
    simp only [Row.binds, writtenRow, maskOf_getLsbD, hat r hm hn, ht, decide_true, Bool.true_and, hn]
    cases hd : done.getLsbD t with
    | false => simp
    | true => simp [hdest hd]
  have hb : (p.writeAll dests done rows val).bind n t = (p.bind n t).map (writtenRow dests done rows val) := by
    unfold Pack.bind
    rw [hr, List.find?_map, find?_same (g := fun r => r.name == n && r.binds t)]
    intro r hm
    show (r.name == n && (writtenRow dests done rows val r).binds t) = (r.name == n && r.binds t)
    by_cases hn : r.name = n
    · rw [hbound r hm hn]
    · rw [beq_false_of_ne hn, Bool.false_and, Bool.false_and]
  constructor
  · funext wide comp
    unfold Pack.value
    rw [hb]
    cases h : p.bind n t with
    | none => rfl
    | some r =>
      obtain ⟨hm, hn, _⟩ := bind_mem h
      have hl := hw.2.2.2.2 r hm
      have e1 : nth (writtenRow dests done rows val r).lo t 0 = nth r.lo t 0 := by
        simp only [writtenRow]
        rw [nth_imap _ _ _ _ (by omega), hat r hm hn]
      have e2 : nth (writtenRow dests done rows val r).hi t 0 = nth r.hi t 0 := by
        simp only [writtenRow]
        rw [nth_imap _ _ _ _ (by omega), hat r hm hn]
      show (if wide then _ else _) = _
      rw [e1, e2, (writtenRow_id dests done rows val r).2.2]
  · unfold Pack.count
    rw [hb]
    cases h : p.bind n t with
    | none => rfl
    | some r =>
      obtain ⟨hm, hn, _⟩ := bind_mem h
      have hl := hw.2.2.2.2 r hm
      show nth (writtenRow dests done rows val r).count t 0 = nth r.count t 0
      simp only [writtenRow]
      rw [nth_imap _ _ _ _ (by omega), hat r hm hn]

/-- The live names of the destinations stand once each. -/
def Apart (dests : List Dst) : Prop :=
  ∀ (i j n : Nat) (d e : Dst) (v w : Bool), dests[i]? = some d → dests[j]? = some e → d.live = some (n, v) → e.live = some (n, w) → i = j

/-- A destination's value and count as a thread that writes leaves them (R60). -/
theorem writeAll_dest {p : Pack} {dests : List Dst} {done : Mask} {rows : Nat → List Nat} {val : Nat → Nat → Nat} {t j n cnt : Nat} {wd : Bool}
    (hw : p.WF) (hd : done.getLsbD t = true) (hrow : Rowed p dests (rows t)) (ha : Apart dests)
    (hj : dests[j]? = some (.name n wd cnt)) (hc : cnt ≠ 0) :
    (p.writeAll dests done rows val).value n t wd .whole = val t j % 2 ^ (if wd then 64 else 32) ∧
    (p.writeAll dests done rows val).count n t = cnt ∧
    ∃ r, (p.writeAll dests done rows val).bind n t = some r ∧ (rows t)[j]? = some r.id ∧ r.id ≠ 0 := by
  have ht := mask_lt hd
  have hlive : (Dst.name n wd cnt).live = some (n, wd) := by simp [Dst.live, hc]
  have hz : (done = 0 || dests.all (fun d => d.live.isNone)) = false := by
    rw [Bool.or_eq_false_iff]
    constructor
    · simp only [decide_eq_false_iff_not]
      rintro rfl
      simp at hd
    · rw [List.all_eq_false]
      exact ⟨_, List.mem_of_getElem? hj, by simp [hlive]⟩
  have hr := writeAll_rows p dests done rows val hz
  obtain ⟨id, r, hid, hrw, hname, hwide, h0⟩ := hrow.live j _ n wd hj hlive
  obtain ⟨hm, hrid⟩ := row_mem hrw
  -- the place of a row of the name among the rows of t is j
  have hat : ∀ x ∈ p.rows, ∀ k, placeOf (rows t) x.id = some k → x.name = n → x = r ∧ k = j := by
    intro x hx k hk hn
    obtain ⟨hk1, hx0⟩ := placeOf_some hk
    obtain ⟨d, hdk⟩ := hrow.past k x.id hk1
    cases hl : d.live with
    | none =>
      have := hrow.dead k d hdk hl
      rw [hk1] at this
      exact absurd (by simpa using this) hx0
    | some y =>
      obtain ⟨m, v⟩ := y
      obtain ⟨id', r', h1, h2, h3, h4, h5⟩ := hrow.live k d m v hdk hl
      rw [hk1] at h1
      simp only [Option.some.injEq] at h1
      subst h1
      rw [row_of_mem hw.2.2.2.1 hx] at h2
      simp only [Option.some.injEq] at h2
      subst h2
      rw [hn] at h3
      subst h3
      have hkj : k = j := ha k j n d _ v wd hdk hj hl hlive
      subst hkj
      rw [hk1] at hid
      simp only [Option.some.injEq] at hid
      refine ⟨?_, rfl⟩
      have := row_of_mem hw.2.2.2.1 hx
      rw [hid, hrw] at this
      simpa using this.symm
  obtain ⟨k, hk⟩ := placeOf_isSome hid h0
  have hkj : k = j := (hat r hm k (by rw [hrid]; exact hk) hname).2
  subst hkj
  have hpr : placeOf (rows t) r.id = some k := by rw [hrid]; exact hk
  have hin : (writtenRow dests done rows val r).binds t = true := by
    simp only [Row.binds, writtenRow, maskOf_getLsbD, hd, if_true, hpr, ht, decide_true, Bool.true_and]
  have hout : ∀ x ∈ p.rows, (writtenRow dests done rows val x).name = n → (writtenRow dests done rows val x).binds t = true → x = r := by
    intro x hx hxn hxb
    replace hxn : x.name = n := hxn
    cases hp : placeOf (rows t) x.id with
    | some k' => exact (hat x hx k' hp hxn).1
    | none =>
      exfalso
      simp only [Row.binds, writtenRow, maskOf_getLsbD, hd, if_true, ht, decide_true, Bool.true_and, hp, Bool.and_eq_true,
        Bool.not_eq_true'] at hxb
      have := List.any_eq_false.mp hxb.2 _ (List.mem_of_getElem? hj)
      simp [hlive, hxn] at this
  have hb : (p.writeAll dests done rows val).bind n t = some (writtenRow dests done rows val r) := by
    unfold Pack.bind
    rw [hr, List.find?_map, find?_unique (r := r) hm]
    · rfl
    · show ((writtenRow dests done rows val r).name == n && (writtenRow dests done rows val r).binds t) = true
      rw [hin, Bool.and_true, beq_iff_eq]
      exact hname
    · intro x hx hx1
      have hx2 : ((writtenRow dests done rows val x).name == n && (writtenRow dests done rows val x).binds t) = true := hx1
      rw [Bool.and_eq_true, beq_iff_eq] at hx2
      exact hout x hx hx2.1 hx2.2
  have hl := hw.2.2.2.2 r hm
  refine ⟨?_, ?_, _, hb, by rw [(writtenRow_id dests done rows val r).1, hrid]; exact hid, by rw [(writtenRow_id dests done rows val r).1, hrid]; exact h0⟩
  · unfold Pack.value
    rw [hb]
    dsimp only
    simp only [writtenRow, hwide]
    rw [nth_imap _ _ _ _ (by omega), nth_imap _ _ _ _ (by omega)]
    simp only [hd, if_true, hpr, BitVec.toNat_ofNat]
    cases wd
    · simp
    · simp only [if_true]
      have := Nat.div_add_mod (val t k % 2 ^ 64) (2 ^ 32)
      have e1 : val t k % 2 ^ 64 % 2 ^ 32 = val t k % 2 ^ 32 := Nat.mod_mod_of_dvd _ (by norm_num)
      have e2 : val t k % 2 ^ 64 / 2 ^ 32 = val t k / 2 ^ 32 % 2 ^ 32 := by
        rw [show (2 : Nat) ^ 64 = 2 ^ 32 * 2 ^ 32 by norm_num, Nat.mod_mul_right_div_self]
      rw [e1, e2] at this
      omega
  · unfold Pack.count
    rw [hb]
    dsimp only
    simp only [writtenRow, Row.countOf]
    rw [nth_imap _ _ _ _ (by omega)]
    simp [hd, hpr, hj]

end Sys2Proof.Machine
end

