-- ==== Sys2Proof/Laws/Issue.lean ====
section
/-! SUPPORT. What the issue of an instruction comes to when nothing stops it, and what the end of its bundle leaves. -/

namespace Sys2Proof.Machine

open Sys2Proof

/-! ### Teams and packs of the device -/

@[simp] theorem core_setCore (d : Device) (c : Nat) (x : Core) : (d.setCore c x).core c = x := by
  simp [Device.setCore, Device.core]
@[simp] theorem setCore_setCore (d : Device) (c : Nat) (x y : Core) : (d.setCore c x).setCore c y = d.setCore c y := by
  simp [Device.setCore]
@[simp] theorem team_setTeam (d : Device) (c k : Nat) (t : Team) : (d.setTeam c k t).team c k = some t := by
  simp [Device.setTeam, Device.modCore, Device.team]
@[simp] theorem setTeam_setTeam (d : Device) (c k : Nat) (t t' : Team) : (d.setTeam c k t).setTeam c k t' = d.setTeam c k t' := by
  simp [Device.setTeam, Device.modCore]

theorem modTeam_eq {d : Device} {c k : Nat} {t : Team} (h : d.team c k = some t) (f : Team → Team) : d.modTeam c k f = d.setTeam c k (f t) := by
  simp [Device.modTeam, h]
@[simp] theorem modTeam_setTeam (d : Device) (c k : Nat) (t : Team) (f : Team → Team) : (d.setTeam c k t).modTeam c k f = d.setTeam c k (f t) := by
  simp [Device.modTeam]
theorem modPack_eq {d : Device} {c k : Nat} {t : Team} (h : d.team c k = some t) (i : Nat) (f : Pack → Pack) :
    d.modPack c k i f = d.setTeam c k (t.modPack i f) := modTeam_eq h _
@[simp] theorem modPack_setTeam (d : Device) (c k i : Nat) (t : Team) (f : Pack → Pack) :
    (d.setTeam c k t).modPack c k i f = d.setTeam c k (t.modPack i f) := modTeam_setTeam ..
@[simp] theorem Team.modPack_modPack (t : Team) (i : Nat) (f g : Pack → Pack) : (t.modPack i f).modPack i g = t.modPack i (g ∘ f) := by
  simp [Team.modPack]
theorem Team.modPack_const {t : Team} {i : Nat} {p : Pack} (h : t.packs[i]? = some p) (f : Pack → Pack) : t.modPack i f = t.modPack i (fun _ => f p) := by
  simp only [Team.modPack, lmod_const_of_getElem? f h]

theorem modPack_modPack (d : Device) (c k i : Nat) (f g : Pack → Pack) : (d.modPack c k i f).modPack c k i g = d.modPack c k i (g ∘ f) := by
  cases h : d.team c k with
  | none => simp [Device.modPack, Device.modTeam, h]
  | some t => simp [modPack_eq h]

theorem modPack_const {d : Device} {c k i : Nat} {p : Pack} (h : d.pack c k i = some p) (f : Pack → Pack) :
    d.modPack c k i f = d.modPack c k i (fun _ => f p) := by
  cases ht : d.team c k with
  | none => simp [Device.pack, ht] at h
  | some t =>
    simp only [Device.pack, ht, Option.bind_some] at h
    rw [modPack_eq ht, modPack_eq ht, Team.modPack_const h]

theorem pack_modPack (d : Device) (c k i : Nat) (f : Pack → Pack) : (d.modPack c k i f).pack c k i = (d.pack c k i).map f := by
  cases ht : d.team c k with
  | none => simp [Device.pack, Device.modPack, Device.modTeam, ht]
  | some t => simp [Device.pack, modPack_eq ht, ht, Team.modPack]

/-- The parts of a bundle as BUNDLE_START left them. -/
theorem bun_spec {d : Device} {h : Hdr} {flat : Bool} {b : Bun} (hb : d.bun h flat = some b) :
    d.team b.core b.slot = some b.team ∧ b.team.packs[b.index]? = some b.pack ∧ b.dev = d ∧ b.h = h ∧ b.part = 0 ∧
    ∃ c, d.cur = some c ∧ c.core = b.core ∧ c.slot = b.slot ∧ c.pack = b.index ∧ c.mask = b.mask ∧ c.pc = b.pc := by
  unfold Device.bun at hb
  split at hb
  · cases hb
  · rename_i c hc
    split at hb
    · cases hb
    · rename_i t ht
      split at hb
      · cases hb
      · rename_i p hp
        simp only [Option.some.injEq] at hb
        subst hb
        exact ⟨ht, hp, rfl, rfl, rfl, c, hc, rfl, rfl, rfl, rfl, rfl⟩

theorem bun_pack {d : Device} {h : Hdr} {flat : Bool} {b : Bun} (hb : d.bun h flat = some b) : d.pack b.core b.slot b.index = some b.pack := by
  obtain ⟨ht, hp, _⟩ := bun_spec hb
  simp [Device.pack, ht, hp]

/-! ### The end of a bundle -/

/-- The pack as an instruction's own execution finds it: rows taken and reads spent. -/
structure Taken (b : Bun) (u : Use) (p : Pack) (rows : List Nat) : Prop where
  wf     : p.WF
  value  : ∀ n t wide comp, p.value n t wide comp = b.pack.value n t wide comp
  count  : ∀ n t, t < 32 → p.count n t = b.left u n t
  rest   : { p with rows := b.pack.rows, nextId := b.pack.nextId, granted := b.pack.granted } = b.pack
  rowed  : b.partOf u ≠ 0 → Rowed p u.dests rows

theorem Issues.partOf_mask {s : State} {h : Hdr} {u : Use} {b : Bun} (_ : Issues s h u b) {t : Nat} (ht : (b.partOf u).getLsbD t = true) :
    b.mask.getLsbD t = true := by
  simp only [Bun.partOf, maskOf_getLsbD, Bool.and_eq_true, decide_eq_true_eq] at ht
  exact ht.2.1.1.1

theorem Issues.mem_partOf {s : State} {h : Hdr} {u : Use} {b : Bun} (hI : Issues s h u b) {t : Nat} :
    (b.partOf u).getLsbD t = true ↔ b.mask.getLsbD t = true ∧ b.pack.guard b.h t = true := by
  constructor
  · intro ht
    simp only [Bun.partOf, maskOf_getLsbD, Bool.and_eq_true, decide_eq_true_eq] at ht
    exact ht.2.1.1
  · rintro ⟨h1, h2⟩
    have ht := mask_lt h1
    rw [Bun.partOf, maskOf_getLsbD]
    simp [ht, h1, h2, hI.counts t ht h1, hI.sound t ht h1]

theorem Issues.writers_eq {s : State} {h : Hdr} {u : Use} {b : Bun} (hI : Issues s h u b) : b.writers u = b.partOf u := by
  apply BitVec.eq_of_getLsbD_eq
  intro t ht
  rw [Bun.writers, maskOf_getLsbD]
  cases hp : (b.partOf u).getLsbD t with
  | false => simp
  | true => simp [ht, hI.fresh t ht (hI.partOf_mask hp)]

theorem Issues.taken {s : State} {h : Hdr} {u : Use} {b : Bun} (hI : Issues s h u b) {p : Pack} {rows : List Nat}
    (hr : (b.spentPack u).rowsFor b.pack b.team b.dev.now b.till (s.start.maxlive b.team.grid) (b.writers u) u.dests = .ok p rows) (k : Nat) :
    Taken b u { p with nextId := p.nextId + k } rows := by
  have hws : (b.spentPack u).WF := spendBy_wf hI.wf ..
  obtain ⟨hg, hrow⟩ := rowsFor_spec hws hr
  rw [hI.writers_eq] at hrow
  refine ⟨?_, ?_, ?_, ?_, ?_⟩
  · obtain ⟨h1, h2, h3, h4, h5⟩ := hg.wf hws
    exact ⟨h1, h2, Nat.lt_of_lt_of_le h3 (Nat.le_add_right _ _), h4, fun r hr => ⟨(h5 r hr).1, Nat.lt_of_lt_of_le (h5 r hr).2.1 (Nat.le_add_right _ _), (h5 r hr).2.2⟩⟩
  · intro n t wide comp
    show p.value n t wide comp = _
    rw [hg.value, Bun.spentPack, spendBy_value]
  · intro n t ht
    show p.count n t = _
    rw [hg.count, Bun.spentPack, spendBy_count hI.wf _ _ _ _ _ ht, Bun.left, maskOf_getLsbD]
    cases hm : b.mask.getLsbD t with
    | false => simp
    | true => simp [ht, hI.counts t ht hm]
  · have := hg.rest
    rw [← show (b.spentPack u).granted = b.pack.granted from rfl, ← show (b.spentPack u).nextId = b.pack.nextId from rfl]
    have e := congrArg (fun x : Pack => { x with rows := b.pack.rows }) this
    exact e
  · intro hne
    exact ⟨(hrow hne).live, (hrow hne).dead, (hrow hne).past⟩

/-- No thread of the bundle faults, parks or is held. -/
def Bun.Clean (b : Bun) (res : Nat → Res) : Prop := ∀ t, b.mask.getLsbD t = true → (res t).fate.kept = false

theorem Bun.Clean.kept {b : Bun} {res : Nat → Res} (h : b.Clean res) : b.kept res = 0 := by
  apply maskOf_eq_zero
  intro t _
  cases hm : b.mask.getLsbD t with
  | false => rfl
  | true => simp [h t hm]

theorem Bun.Clean.done {b : Bun} {res : Nat → Res} (h : b.Clean res) (hp : ∀ t, b.part.getLsbD t = true → b.mask.getLsbD t = true) :
    b.done res = b.part := by
  apply BitVec.eq_of_getLsbD_eq
  intro t ht
  rw [Bun.done, maskOf_getLsbD]
  cases hq : b.part.getLsbD t with
  | false => simp
  | true => simp [ht, h t (hp t hq)]

theorem Bun.Clean.raiseAll {b : Bun} {res : Nat → Res} (h : b.Clean res) (d : Device) : b.raiseAll res d = d := by
  unfold Bun.raiseAll
  have : ∀ (l : List Nat), (∀ t ∈ l, b.mask.getLsbD t = true) → ∀ (acc : Device × List Code),
      (l.foldl (fun (acc : Device × List Code) t =>
        match (res t).fate with
        | .fault c detail addr =>
          (acc.1.raise (b.id t) c detail b.pc addr false (!acc.2.contains c), c :: acc.2)
        | _ => acc) acc) = acc := by
    intro l hl
    induction l with
    | nil => intro acc; rfl
    | cons t l ih =>
      intro acc
      rw [List.foldl_cons]
      have hk := h t (hl t List.mem_cons_self)
      have : (match (res t).fate with
        | .fault c detail addr =>
          (acc.1.raise (b.id t) c detail b.pc addr false (!acc.2.contains c), c :: acc.2)
        | _ => acc) = acc := by
        cases hf : (res t).fate <;> simp_all [Fate.kept]
      rw [this]
      exact ih (fun u hu => hl u (List.mem_cons_of_mem _ hu)) acc
  exact congrArg Prod.fst (this (threadsOf b.mask) (fun t ht => (mem_threadsOf.mp ht).2) (d, []))

theorem Bun.Clean.settle {b : Bun} {res : Nat → Res} (h : b.Clean res) (d : Device) (u : Use) :
    d.settle b u res =
      { d.modPack b.core b.slot b.index (fun p => (b.endPack u res p).refund b.pack (b.opens res)) with cur := none } := by
  rw [Device.settle, h.raiseAll]

/-- No thread of the bundle leaves reads open. -/
theorem Bun.opens_eq_zero {b : Bun} {res : Nat → Res} (h : ∀ t, b.mask.getLsbD t = true → (res t).fate.opens = false) : b.opens res = 0 := by
  apply maskOf_eq_zero
  intro t _
  cases hm : b.mask.getLsbD t with
  | false => rfl
  | true => simp [h t hm]

@[simp] theorem Pack.refund_zero (p q : Pack) : p.refund q 0 = p := by simp [Pack.refund]

/-- A bundle that is converged where R44 asks for it. -/
theorem Issues.converged {s : State} {h : Hdr} {u : Use} {b : Bun} (hI : Issues s h u b) :
    (u.collective && (b.mask != BitVec.allOnes 32 ||
      ((maskOf fun t => b.mask.getLsbD t && b.pack.guard b.h t) != 0 && (maskOf fun t => b.mask.getLsbD t && b.pack.guard b.h t) != b.mask))) = false := by
  cases hc : u.collective with
  | false => rfl
  | true =>
    obtain ⟨hm, hg⟩ := hI.joint hc
    rcases hg with hg | hg
    · have : (maskOf fun t => b.mask.getLsbD t && b.pack.guard b.h t) = b.mask := by
        apply BitVec.eq_of_getLsbD_eq
        intro t ht
        rw [maskOf_getLsbD]
        simp [ht, hg t ht]
      rw [this, hm]
      simp
    · have : (maskOf fun t => b.mask.getLsbD t && b.pack.guard b.h t) = 0 := by
        apply maskOf_eq_zero
        intro t ht
        simp [hg t ht]
      rw [this, hm]
      simp

theorem goOn_converged {d : Device} {b : Bun} {u : Use} {body : Bun → Device → Device × (Nat → Res)} {p : Pack} {part : Mask}
    {rows : List Nat} {limit : Nat → Bool}
    (hc : (u.collective && (b.mask != BitVec.allOnes 32 ||
      ((maskOf fun t => b.mask.getLsbD t && b.pack.guard b.h t) != 0 && (maskOf fun t => b.mask.getLsbD t && b.pack.guard b.h t) != b.mask))) = false) :
    d.goOn b u body p part rows limit =
      (let b' := b.taking u p part rows
       let r := body b' (d.taking b u p)
       r.1.settle b' u (b'.result u limit r.2)) := by
  unfold Device.goOn
  exact if_neg (by rw [Bool.not_eq_true]; exact hc)

/-- THE ISSUE OF AN INSTRUCTION that nothing stops: its own execution runs on the device with the rows taken, and the bundle ends. -/
theorem Issues.issue {s : State} {h : Hdr} {u : Use} {b : Bun} (hI : Issues s h u b) (body : Bun → Device → Device × (Nat → Res)) :
    ∃ p rows fls, Taken b u p rows ∧
      s.start.issue h u body =
        (let b' := { b with part := b.partOf u, rows := rows, fls := fls }
         let r := body b' (s.start.modPack b.core b.slot b.index fun _ => p)
         r.1.settle b' u (b'.result u (fun _ => false) r.2)) := by
  obtain ⟨p, rows, hr⟩ := hI.room
  obtain ⟨ht, hp, hd, hh, _, _⟩ := bun_spec hI.bun
  refine ⟨{ p with nextId := p.nextId + if u.long then u.dests.length else 0 }, rows, (List.range u.dests.length).map (p.nextId + ·), hI.taken hr _, ?_⟩
  have hr' := hr
  rw [hd] at hr'
  have htk : s.start.taking b u p = s.start.modPack b.core b.slot b.index fun _ => { p with nextId := p.nextId + if u.long then u.dests.length else 0 } := by
    rw [modPack_eq ht]
    unfold Device.taking
    congr 2
    funext _
    split <;> rfl
  rw [← htk]
  unfold Device.issue
  rw [hI.bun]
  dsimp only
  rw [hr']
  exact goOn_converged hI.converged

end Sys2Proof.Machine
end

