-- ==== Sys2Proof/Laws/Ended.lean ====
section
/-! SUPPORT. What the end of a bundle leaves of its pack: threads, names, scalars, predicates. -/

namespace Sys2Proof.Machine

open Sys2Proof

/-- What a fate that keeps the thread going does to it. -/
def Fate.go (b : Bun) (f : Fate) (x : Thread) : Thread :=
  match f with
  | .next => { x with pc := nextPc b.pc }
  | .goto pc => { x with pc := pc }
  | .wait w => { x with status := .atBarrier w }
  | _ => x

theorem after_eq {b : Bun} {u : Use} {f : Fate} (hf : f.kept = false) (done : Bool) (t : Nat) (x : Thread) :
    b.after u f done t x = { f.go b x with lane := b.cycle t + 1, was := b.pc, since := b.since t, holds := (b.after u f done t x).holds,
                                           again := (b.after u f done t x).again, start := (b.after u f done t x).start } := by
  cases f <;> first | (simp [Fate.kept] at hf; done) | rfl

theorem go_preds (b : Bun) (f : Fate) (x : Thread) : (f.go b x).preds = x.preds := by cases f <;> rfl

theorem setPred_eq (x : Thread) (i : Nat) (v : Bool) : x.setPred i v = { x with preds := (x.setPred i v).preds } := by
  unfold Thread.setPred; split <;> rfl

theorem writePreds_eq (dests : List Dst) (vals : List Nat) (x : Thread) :
    writePreds dests vals x = { x with preds := (writePreds dests vals x).preds } := by
  unfold writePreds
  generalize dests.zip vals = l
  induction l generalizing x with
  | nil => rfl
  | cons a l ih =>
    rw [List.foldl_cons]
    obtain ⟨d, v⟩ := a
    cases d with
    | pred i =>
      rw [ih]
      dsimp only
      rw [setPred_eq]
    | _ => exact ih x

theorem oneHot8 (i j : Nat) : (BitVec.ofNat 8 (2 ^ i)).getLsbD j = (decide (j < 8) && decide (i = j)) := by
  rw [BitVec.getLsbD_ofNat, Nat.testBit_two_pow]

theorem setPred_pred (x : Thread) (i j : Nat) (v : Bool) (hi : i < 8) : (x.setPred i v).pred j = if j = i then (i == 0 || v) else x.pred j := by
  unfold Thread.setPred
  by_cases h0 : i = 0
  · subst h0
    by_cases hj : j = 0
    · subst hj; simp [Thread.pred]
    · simp [hj]
  · rw [if_neg h0]
    unfold Thread.pred
    by_cases hji : j = i
    · subst hji
      cases v
      · simp only [Bool.false_eq_true, if_false, BitVec.getLsbD_and, BitVec.getLsbD_not, oneHot8, hi, decide_true, Bool.and_self,
          Bool.not_true, Bool.and_false, if_true, Bool.or_false]
      · simp only [if_true, BitVec.getLsbD_or, oneHot8, hi, decide_true, Bool.and_self, Bool.or_true]
    · have hij : ¬ i = j := fun e => hji e.symm
      rw [if_neg hji]
      cases v
      · simp only [Bool.false_eq_true, if_false, BitVec.getLsbD_and, BitVec.getLsbD_not, oneHot8, hij, decide_false, Bool.and_false,
          Bool.not_false, Bool.and_true]
        by_cases h8 : j < 8
        · simp [h8]
        · simp [h8, BitVec.getLsbD_of_ge x.preds j (by omega)]
      · simp only [if_true, BitVec.getLsbD_or, oneHot8, hij, decide_false, Bool.and_false, Bool.or_false]

theorem setPred_pred_ne (x : Thread) (i j : Nat) (v : Bool) (hj : j ≠ i) : (x.setPred i v).pred j = x.pred j := by
  unfold Thread.setPred
  split
  · rfl
  · have hij : ¬ i = j := fun e => hj e.symm
    unfold Thread.pred
    cases v
    · simp only [Bool.false_eq_true, if_false, BitVec.getLsbD_and, BitVec.getLsbD_not, oneHot8, hij, decide_false, Bool.and_false,
        Bool.not_false, Bool.and_true]
      by_cases h8 : j < 8
      · simp [h8]
      · simp [h8, BitVec.getLsbD_of_ge x.preds j (by omega)]
    · simp only [if_true, BitVec.getLsbD_or, oneHot8, hij, decide_false, Bool.and_false, Bool.or_false]

theorem writePreds_pred_other {dests : List Dst} {vals : List Nat} {x : Thread} {j : Nat} (h : Dst.pred j ∉ dests) :
    (writePreds dests vals x).pred j = x.pred j := by
  unfold writePreds
  have hz : ∀ a ∈ dests.zip vals, a.1 ≠ .pred j := by
    rintro ⟨d, v⟩ ha rfl
    exact h (List.of_mem_zip ha).1
  generalize dests.zip vals = l at hz
  induction l generalizing x with
  | nil => rfl
  | cons a l ih =>
    rw [List.foldl_cons]
    obtain ⟨d, v⟩ := a
    have hl := fun b hb => hz b (List.mem_cons_of_mem _ hb)
    rw [ih hl]
    cases d with
    | pred i => exact setPred_pred_ne x i j _ (fun e => hz _ List.mem_cons_self (by rw [e]))
    | _ => rfl

/-! ### Scalars -/

theorem setScalar_eq (p : Pack) (i : Nat) (w : Bool) (v : Nat) : p.setScalar i w v = { p with scal := (p.setScalar i w v).scal } := rfl

theorem writeScals_eq (dests : List Dst) (vals : List Nat) (p : Pack) :
    writeScals dests vals p = { p with scal := (writeScals dests vals p).scal } := by
  unfold writeScals
  generalize dests.zip vals = l
  induction l generalizing p with
  | nil => rfl
  | cons a l ih =>
    rw [List.foldl_cons]
    obtain ⟨d, v⟩ := a
    cases d with
    | scal i w => rw [ih]; rfl
    | _ => exact ih p

theorem setScalar_other (p : Pack) {i j : Nat} (w : Bool) (v : Nat) (h : j ≠ i) : (p.setScalar i w v).scalar j = p.scalar j := by
  unfold Pack.setScalar Pack.scalar nth
  rw [List.getD_eq_getElem?_getD, List.getD_eq_getElem?_getD, lmod_getElem?_ne _ _ h]

theorem writeScals_other {dests : List Dst} {vals : List Nat} {p : Pack} {j : Nat} (h : ∀ w, Dst.scal j w ∉ dests) :
    (writeScals dests vals p).scalar j = p.scalar j := by
  unfold writeScals
  have hz : ∀ a ∈ dests.zip vals, ∀ w, a.1 ≠ .scal j w := by
    rintro ⟨d, v⟩ ha w rfl
    exact h w (List.of_mem_zip ha).1
  generalize dests.zip vals = l at hz
  induction l generalizing p with
  | nil => rfl
  | cons a l ih =>
    rw [List.foldl_cons]
    obtain ⟨d, v⟩ := a
    have hl := fun b hb => hz b (List.mem_cons_of_mem _ hb)
    rw [ih hl]
    cases d with
    | scal i w => exact setScalar_other p w v (fun e => hz _ List.mem_cons_self w (by rw [e]))
    | _ => rfl

theorem setScalar_same (p : Pack) {i : Nat} (w : Bool) (v : Nat) (h : i < p.scal.length) :
    ((p.setScalar i w v).scalar i).toNat = v % 2 ^ (if w then 64 else 32) := by
  unfold Pack.setScalar Pack.scalar
  rw [nth_lmod _ _ _ _ _ h, if_pos rfl, BitVec.toNat_ofNat]
  cases w
  · simp only [Bool.false_eq_true, if_false]
    exact Nat.mod_eq_of_lt (Nat.lt_trans (Nat.mod_lt _ (by norm_num)) (by norm_num))
  · simp

/-! ### The pack at the end -/

/-- The bundle as the instruction's own execution sees it. -/
abbrev Bun.going (b : Bun) (u : Use) (rows fls : List Nat) : Bun := { b with part := b.partOf u, rows := rows, fls := fls }

theorem going_short (b : Bun) (u : Use) (rows fls : List Nat) (t : Nat) : (b.going u rows fls).short u t = b.short u t := by
  unfold Bun.short; rfl
theorem going_spoilt (b : Bun) (u : Use) (rows fls : List Nat) (t : Nat) : (b.going u rows fls).spoilt u t = b.spoilt u t := by
  unfold Bun.spoilt; rfl
theorem going_since (b : Bun) (u : Use) (rows fls : List Nat) (t : Nat) : (b.going u rows fls).since t = b.since t := by unfold Bun.since; rfl
theorem going_cycle (b : Bun) (u : Use) (rows fls : List Nat) (t : Nat) : (b.going u rows fls).cycle t = b.cycle t := by
  unfold Bun.cycle; rfl
theorem going_till (b : Bun) (u : Use) (rows fls : List Nat) : (b.going u rows fls).till = b.till := by
  unfold Bun.till; rfl
theorem going_go (b : Bun) (u : Use) (rows fls : List Nat) (f : Fate) (x : Thread) : f.go (b.going u rows fls) x = f.go b x := by
  cases f <;> simp only [Fate.go]
theorem going_rowsOf (b : Bun) (u : Use) (rows fls : List Nat) (t : Nat) : (b.going u rows fls).rowsOf t = (b.pack.oldRows t).getD rows := by
  unfold Bun.rowsOf; rfl

theorem Issues.res_clean {s : State} {h : Hdr} {u : Use} {b : Bun} (hI : Issues s h u b) {rows fls : List Nat} {own : Nat → Res}
    (ho : ∀ t, (b.partOf u).getLsbD t = true → (own t).fate.kept = false) :
    (b.going u rows fls).Clean ((b.going u rows fls).result u (fun _ => false) own) := by
  intro t ht
  change b.mask.getLsbD t = true at ht
  have h1 : (b.going u rows fls).short u t = false := by
    rw [going_short]
    exact hI.counts t (mask_lt ht) ht
  unfold Bun.result
  rw [h1, going_spoilt, hI.sound t (mask_lt ht) ht]
  simp only [Bool.false_eq_true, if_false]
  split
  · rename_i hp; exact ho t hp
  · rfl

/-- What a thread of the bundle comes to. -/
def Bun.own (b : Bun) (u : Use) (own : Nat → Res) (t : Nat) : Res := if (b.partOf u).getLsbD t then own t else {}

theorem Issues.result_eq {s : State} {h : Hdr} {u : Use} {b : Bun} (hI : Issues s h u b) {rows fls : List Nat} {own : Nat → Res} {t : Nat}
    (ht : b.mask.getLsbD t = true) : (b.going u rows fls).result u (fun _ => false) own t = b.own u own t := by
  have h1 : (b.going u rows fls).short u t = false := by
    rw [going_short]
    exact hI.counts t (mask_lt ht) ht
  unfold Bun.result
  rw [h1, going_spoilt, hI.sound t (mask_lt ht) ht]
  simp only [Bool.false_eq_true, if_false]
  rfl

/-- The pack's names after the bundle's writes, as another pack that keeps the same rows would have them. -/
theorem value_of_rows {p q : Pack} (h : q.rows = p.rows) : q.value = p.value ∧ q.count = p.count ∧ q.row = p.row := by
  refine ⟨?_, ?_, ?_⟩
  · funext n t w c; simp only [Pack.value, Pack.bind, h]
  · funext n t; simp only [Pack.count, Pack.bind, h]
  · funext n; simp only [Pack.row, h]

/-- The pack as the bundle's own execution leaves it: threads changed by g, other parts by k, names and scalars as they were. -/
structure Moved (p p1 : Pack) (g : Nat → Thread → Thread) (k : Pack → Pack) : Prop where
  threads : p1.threads = imap g 0 p.threads
  rows    : p1.rows = p.rows
  scal    : p1.scal = p.scal
  flights : p1.flights = p.flights
  nextId  : p1.nextId = p.nextId
  rest    : ∀ b : Pack, { p with rows := b.rows, nextId := b.nextId, granted := b.granted } = b →
    { p1 with threads := b.threads, scal := b.scal, rows := b.rows, nextId := b.nextId, flights := b.flights, lanes := b.lanes,
              yielded := b.yielded, hold := b.hold, granted := b.granted, noEvict := b.noEvict, retired := b.retired } = k b

theorem Moved.refl (p : Pack) : Moved p p (fun _ x => x) id :=
  ⟨(imap_id _ _ _ (fun _ _ => rfl)).symm, rfl, rfl, rfl, rfl, fun b h => by
    have e := congrArg (fun y : Pack => { y with
      threads := b.threads, scal := b.scal, flights := b.flights, lanes := b.lanes, yielded := b.yielded, hold := b.hold,
      noEvict := b.noEvict, retired := b.retired }) h
    exact e⟩

theorem endPack_eq {b : Bun} {u : Use} {res : Nat → Res} (hk : b.kept res = 0) (p : Pack) :
    let w := p.writeAll u.dests (b.done res) b.rowsOf fun t j => if u.long then 0 else ((res t).vals).getD j 0
    let q := if u.long || b.done res = 0 then w else writeScals u.dests (res ((lowest (b.done res)).getD 0)).vals w
    b.endPack u res p = { q with
      threads := imap (b.endThread u res) 0 q.threads, flights := q.flights ++ b.flights u (b.done res) res,
      lanes := b.till :: q.lanes.filter (· > b.dev.now), yielded := b.h.yld || u.yields, hold := none, noEvict := false,
      retired := (b.endPack u res p).retired } := by
  have hr : (if u.reads.isEmpty then p else p.refund b.pack (b.kept res)) = p := by
    split
    · rfl
    · rw [hk]; rfl
  intro w q
  unfold Bun.endPack
  rw [hr]
  rfl

theorem endPack_threads {b : Bun} {u : Use} {res : Nat → Res} (hk : b.kept res = 0) (p : Pack) :
    (b.endPack u res p).threads = imap (b.endThread u res) 0 p.threads := by
  rw [endPack_eq hk]
  dsimp only
  congr 1
  split
  · rw [congrArg Pack.threads (writeAll_rest ..)]
  · rw [congrArg Pack.threads (writeScals_eq ..)]
    dsimp only
    rw [congrArg Pack.threads (writeAll_rest ..)]

theorem endPack_flights {b : Bun} {u : Use} {res : Nat → Res} (hk : b.kept res = 0) (p : Pack) :
    (b.endPack u res p).flights = p.flights ++ b.flights u (b.done res) res := by
  rw [endPack_eq hk]
  dsimp only
  congr 1
  split
  · rw [congrArg Pack.flights (writeAll_rest ..)]
  · rw [congrArg Pack.flights (writeScals_eq ..)]
    dsimp only
    rw [congrArg Pack.flights (writeAll_rest ..)]

theorem endPack_rows_eq {b : Bun} {u : Use} {res : Nat → Res} (hk : b.kept res = 0) (p : Pack) :
    (b.endPack u res p).rows = (p.writeAll u.dests (b.done res) b.rowsOf fun t j => if u.long then 0 else ((res t).vals).getD j 0).rows := by
  rw [endPack_eq hk]
  dsimp only
  split
  · rfl
  · rw [congrArg Pack.rows (writeScals_eq ..)]

theorem endPack_scalar {b : Bun} {u : Use} {res : Nat → Res} (hk : b.kept res = 0) (p : Pack) (hl : u.long = false) (hd : b.done res ≠ 0) (i : Nat) :
    (b.endPack u res p).scalar i = (writeScals u.dests (res ((lowest (b.done res)).getD 0)).vals
      (p.writeAll u.dests (b.done res) b.rowsOf fun t j => if u.long then 0 else ((res t).vals).getD j 0)).scalar i := by
  rw [endPack_eq hk]
  unfold Pack.scalar
  dsimp only
  rw [if_neg (by rw [hl]; simpa using hd)]

theorem endPack_ended {s : State} {h : Hdr} {u : Use} {b : Bun} (hI : Issues s h u b) {p p1 : Pack} {rows fls : List Nat} (hT : Taken b u p rows)
    {own : Nat → Res} {g : Nat → Thread → Thread} {k : Pack → Pack} (hM : Moved p p1 g k) (hg : ∀ t x, (g t x).preds = x.preds)
    (hgo : ∀ t, b.mask.getLsbD t = false → ∀ x, g t x = x)
    (ho : ∀ t, (b.partOf u).getLsbD t = true → (own t).fate.kept = false) :
    Ended b u (fun t x => (b.own u own t).fate.go b (g t x)) k ((b.going u rows fls).endPack u ((b.going u rows fls).result u (fun _ => false) own) p1) := by
  have hcl := hI.res_clean (rows := rows) (fls := fls) ho
  have hdone : (b.going u rows fls).done ((b.going u rows fls).result u (fun _ => false) own) = b.partOf u := hcl.done (fun t ht => hI.partOf_mask ht)
  have heq := endPack_eq (u := u) hcl.kept p1
  simp only at heq
  rw [hdone] at heq
  have hthp := congrArg (fun y : Pack => y.threads) hT.rest
  have hscp := congrArg (fun y : Pack => y.scal) hT.rest
  have hflp := congrArg (fun y : Pack => y.flights) hT.rest
  simp only at hthp hscp hflp
  -- the pack after names and scalars
  generalize hwd : p1.writeAll u.dests (b.partOf u) (b.going u rows fls).rowsOf (fun t j => if u.long then 0 else (((b.going u rows fls).result u (fun _ => false) own t).vals).getD j 0) = w at heq
  have hwr := writeAll_rest p1 u.dests (b.partOf u) (b.going u rows fls).rowsOf (fun t j => if u.long then 0 else (((b.going u rows fls).result u (fun _ => false) own t).vals).getD j 0)
  rw [hwd] at hwr
  have hsc := writeScals_eq u.dests ((b.going u rows fls).result u (fun _ => false) own ((lowest (b.partOf u)).getD 0)).vals w
  generalize hqd : (if u.long || b.partOf u = 0 then w else writeScals u.dests ((b.going u rows fls).result u (fun _ => false) own ((lowest (b.partOf u)).getD 0)).vals w) = q at heq
  have hq : q = { w with scal := q.scal } := by
    rw [← hqd]
    split
    · rfl
    · exact hsc
  have hqth : q.threads = imap g 0 b.pack.threads := by
    rw [hq]
    show w.threads = _
    rw [congrArg Pack.threads hwr, ← hthp]
    exact hM.threads
  -- names
  have hp1 : p1.WF := by
    obtain ⟨h1, h2, h3, h4, h5⟩ := hT.wf
    exact ⟨by rw [hM.threads, imap_length]; exact h1, by rw [hM.scal]; exact h2, by rw [hM.nextId]; exact h3, by rw [hM.rows]; exact h4,
      by rw [hM.rows, hM.nextId]; exact h5⟩
  have hp1v := value_of_rows hM.rows
  have hrow : ∀ t, (b.partOf u).getLsbD t = true → Rowed p1 u.dests ((b.going u rows fls).rowsOf t) := by
    intro t ht
    have hne : b.partOf u ≠ 0 := by
      intro e
      rw [e] at ht
      simp at ht
    have hro : (b.going u rows fls).rowsOf t = rows := by
      rw [going_rowsOf, hI.fresh t (mask_lt ht) (hI.partOf_mask ht)]
      rfl
    rw [hro]
    have := hT.rowed hne
    exact ⟨fun j d n wd h1 h2 => by rw [hp1v.2.2]; exact this.live j d n wd h1 h2, this.dead, this.past⟩
  have hqrow : q.rows = w.rows := by rw [hq]
  have hqv := value_of_rows (p := w) (q := ((b.going u rows fls).endPack u ((b.going u rows fls).result u (fun _ => false) own) p1)) (by rw [heq]; exact hqrow)
  have hother : ∀ n t, t < 32 → ¬ b.writesName u n t → w.value n t = p.value n t ∧ w.count n t = p.count n t := by
    intro n t ht hn
    rw [← hwd, ← hp1v.1, ← hp1v.2.1]
    refine writeAll_bind_other hp1 ht (hrow t) ?_
    intro hd d hdm wd hl
    exact hn ⟨hd, d, hdm, wd, hl⟩
  refine ⟨?_, ?_, ?_, ?_, ?_, ?_, ?_⟩
  · intro t x ht hx
    have hx' : b.pack.threads[t]? = some x := hx
    refine ⟨(b.going u rows fls).endThread u ((b.going u rows fls).result u (fun _ => false) own) t (g t x), ?_, ?_, ?_⟩
    · rw [Pack.thread, heq]
      show (imap ((b.going u rows fls).endThread u ((b.going u rows fls).result u (fun _ => false) own)) 0 q.threads)[t]? = _
      rw [hqth, imap_getElem?, imap_getElem?, hx']
      simp
    · unfold Bun.endThread
      rw [if_pos (show (b.going u rows fls).mask.getLsbD t = true from ht), hI.result_eq ht]
      have hk : (b.own u own t).fate.kept = false := by rw [← hI.result_eq (rows := rows) (fls := fls) ht]; exact hcl t ht
      have ha := after_eq (b := (b.going u rows fls)) (u := u) hk (((b.going u rows fls).done ((b.going u rows fls).result u (fun _ => false) own)).getLsbD t) t (g t x)
      rw [going_go, going_cycle, going_since] at ha
      dsimp only
      split
      · rw [ha]
      · rw [writePreds_eq, ha]
    · intro i hi
      unfold Bun.endThread
      rw [if_pos (show (b.going u rows fls).mask.getLsbD t = true from ht), hI.result_eq ht]
      have hk : (b.own u own t).fate.kept = false := by rw [← hI.result_eq (rows := rows) (fls := fls) ht]; exact hcl t ht
      have ha := after_eq (b := (b.going u rows fls)) (u := u) hk (((b.going u rows fls).done ((b.going u rows fls).result u (fun _ => false) own)).getLsbD t) t (g t x)
      have hpr : ((b.going u rows fls).after u (b.own u own t).fate (((b.going u rows fls).done ((b.going u rows fls).result u (fun _ => false) own)).getLsbD t) t (g t x)).preds = x.preds := by
        rw [ha]
        dsimp only
        rw [go_preds, hg]
      dsimp only
      split
      · simp only [Thread.pred, hpr]
      · rename_i hc
        rw [Bool.or_eq_true, not_or, Bool.not_eq_true, hdone] at hc
        rw [writePreds_pred_other]
        · simp only [Thread.pred, hpr]
        · intro hm
          refine hi ⟨hc.1, ?_, hm⟩
          simpa using hc.2
  · intro t ht
    rw [Pack.thread, heq]
    show (imap ((b.going u rows fls).endThread u ((b.going u rows fls).result u (fun _ => false) own)) 0 q.threads)[t]? = _
    rw [hqth, imap_getElem?, imap_getElem?]
    show _ = b.pack.threads[t]?
    cases b.pack.threads[t]? with
    | none => rfl
    | some x =>
      simp only [Option.map_some, Nat.zero_add, hgo t ht]
      unfold Bun.endThread
      rw [if_neg (show ¬ (b.going u rows fls).mask.getLsbD t = true by show ¬ b.mask.getLsbD t = true; simp [ht])]
  · intro n t wide comp ht hn
    rw [hqv.1, (hother n t ht hn).1, hT.value]
  · intro n t ht hn
    rw [hqv.2.1, (hother n t ht hn).2, hT.count n t ht]
  · intro i hi
    rw [heq]
    show q.scalar i = _
    have hws : w.scalar i = b.pack.scalar i := by
      simp only [Pack.scalar, congrArg Pack.scal hwr, hM.scal, hscp]
    rw [← hqd]
    split
    · exact hws
    · rename_i hc
      rw [Bool.or_eq_true, not_or, Bool.not_eq_true, decide_eq_true_eq] at hc
      rw [writeScals_other, hws]
      intro wd hm
      exact hi ⟨hc.1, hc.2, wd, hm⟩
  · refine ⟨(b.going u rows fls).flights u (b.partOf u) ((b.going u rows fls).result u (fun _ => false) own), ?_, ?_⟩
    · rw [heq]
      show q.flights ++ _ = _
      have : q.flights = b.pack.flights := by
        rw [hq]
        show w.flights = _
        rw [congrArg Pack.flights hwr]
        show p1.flights = _
        rw [hM.flights]
        exact hflp
      rw [this]
    · intro hl
      simp [Bun.flights, hl]
  · have hr := hM.rest b.pack hT.rest
    rw [heq, hq, hwr]
    exact hr

end Sys2Proof.Machine
end

