-- ==== Sys2Proof/Laws/Run.lean ====
section
/-! SUPPORT. The step of an instruction that nothing stops: what it writes at once and what it leaves pending. -/

namespace Sys2Proof.Machine

open Sys2Proof

theorem endPack_rows {s : State} {h : Hdr} {u : Use} {b : Bun} (hI : Issues s h u b) {p p1 : Pack} {rows fls : List Nat} (hT : Taken b u p rows)
    {own : Nat → Res} {g : Nat → Thread → Thread} {k : Pack → Pack} (hM : Moved p p1 g k)
    (ho : ∀ t, (b.partOf u).getLsbD t = true → (own t).fate.kept = false) (ha : Apart u.dests)
    {t j n c : Nat} {wd : Bool} (ht : (b.partOf u).getLsbD t = true) (hj : u.dests[j]? = some (.name n wd c)) (hc : c ≠ 0) :
    let q := (b.going u rows fls).endPack u ((b.going u rows fls).result u (fun _ => false) own) p1
    q.value n t wd .whole = (if u.long then 0 else (own t).vals.getD j 0) % 2 ^ (if wd then 64 else 32) ∧ q.count n t = c ∧
    ∃ r, q.bind n t = some r ∧ rows[j]? = some r.id ∧ r.id ≠ 0 := by
  have hcl := hI.res_clean (rows := rows) (fls := fls) ho
  have hdone : (b.going u rows fls).done ((b.going u rows fls).result u (fun _ => false) own) = b.partOf u := hcl.done (fun t ht => hI.partOf_mask ht)
  have hq := endPack_rows_eq (u := u) hcl.kept p1
  rw [hdone] at hq
  have hp1 : p1.WF := by
    obtain ⟨h1, h2, h3, h4, h5⟩ := hT.wf
    exact ⟨by rw [hM.threads, imap_length]; exact h1, by rw [hM.scal]; exact h2, by rw [hM.nextId]; exact h3, by rw [hM.rows]; exact h4,
      by rw [hM.rows, hM.nextId]; exact h5⟩
  have hp1v := value_of_rows hM.rows
  have hne : b.partOf u ≠ 0 := by
    intro e
    rw [e] at ht
    simp at ht
  have hro : (b.going u rows fls).rowsOf t = rows := by
    rw [going_rowsOf, hI.fresh t (mask_lt ht) (hI.partOf_mask ht)]
    rfl
  have hrow : Rowed p1 u.dests ((b.going u rows fls).rowsOf t) := by
    rw [hro]
    have := hT.rowed hne
    exact ⟨fun j d n wd h1 h2 => by rw [hp1v.2.2]; exact this.live j d n wd h1 h2, this.dead, this.past⟩
  have hw := writeAll_dest (val := fun t j => if u.long then 0 else (((b.going u rows fls).result u (fun _ => false) own t).vals).getD j 0) hp1 ht hrow ha hj hc
  have hres : ((b.going u rows fls).result u (fun _ => false) own t) = own t := by
    rw [hI.result_eq (hI.partOf_mask ht), Bun.own, if_pos ht]
  generalize p1.writeAll u.dests (b.partOf u) (b.going u rows fls).rowsOf (fun t j => if u.long then 0 else (((b.going u rows fls).result u (fun _ => false) own t).vals).getD j 0) = w at hq hw
  have hqv := value_of_rows hq
  have hqb : (((b.going u rows fls).endPack u ((b.going u rows fls).result u (fun _ => false) own) p1)).bind n t = w.bind n t := by
    simp only [Pack.bind, hq]
  refine ⟨?_, ?_, ?_⟩
  · rw [hqv.1, hw.1, hres]
  · rw [hqv.2.1, hw.2.1]
  · rw [hqb]
    obtain ⟨r, h1, h2, h3⟩ := hw.2.2
    rw [hro] at h2
    exact ⟨r, h1, h2, h3⟩

theorem Apart.single (d : Dst) : Apart [d] := by
  intro i j n d e v w hi hj _ _
  cases i <;> cases j <;> simp at hi hj ⊢

theorem lowest_mem {m : Mask} {t : Nat} (h : lowest m = some t) : m.getLsbD t = true :=
  (mem_threadsOf.mp (List.mem_of_head? h)).2

theorem endPack_result {s : State} {h : Hdr} {u : Use} {b : Bun} (hI : Issues s h u b) {p p1 : Pack} {rows fls : List Nat} (hT : Taken b u p rows)
    {own : Nat → Res} {g : Nat → Thread → Thread} {k : Pack → Pack} (hM : Moved p p1 g k)
    (ho : ∀ t, (b.partOf u).getLsbD t = true → (own t).fate.kept = false) (hl : u.long = false) {v : Nat → Nat}
    (hv : ∀ t, (b.partOf u).getLsbD t = true → (own t).vals = [v t]) :
    b.Result u v ((b.going u rows fls).endPack u ((b.going u rows fls).result u (fun _ => false) own) p1) := by
  have hcl := hI.res_clean (rows := rows) (fls := fls) ho
  have hdone : (b.going u rows fls).done ((b.going u rows fls).result u (fun _ => false) own) = b.partOf u := hcl.done (fun t ht => hI.partOf_mask ht)
  have hres : ∀ t, (b.partOf u).getLsbD t = true → ((b.going u rows fls).result u (fun _ => false) own t) = own t := by
    intro t ht
    rw [hI.result_eq (hI.partOf_mask ht), Bun.own, if_pos ht]
  refine ⟨?_, ?_, ?_⟩
  · intro n wd c hd hc t ht
    have := endPack_rows (fls := fls) hI hT hM ho (by rw [hd]; exact Apart.single _) ht (j := 0) (by rw [hd]; rfl) hc
    refine ⟨?_, this.2.1⟩
    rw [this.1, hl, hv t ht]
    rfl
  · intro i hd h0 h8 t ht
    have hmask := hI.partOf_mask ht
    have hlen : t < b.pack.threads.length := by rw [hI.wf.1]; exact mask_lt ht
    have hthp := congrArg (fun y : Pack => y.threads) hT.rest
    simp only at hthp
    have hth : ((b.going u rows fls).endPack u ((b.going u rows fls).result u (fun _ => false) own) p1).thread t =
        some ((b.going u rows fls).endThread u ((b.going u rows fls).result u (fun _ => false) own) t (g t (b.pack.threads[t]))) := by
      rw [Pack.thread, endPack_threads hcl.kept, hM.threads, imap_getElem?, imap_getElem?, hthp, List.getElem?_eq_getElem hlen]
      simp
    rw [Pack.pred, hth]
    dsimp only
    unfold Bun.endThread
    rw [if_pos (show (b.going u rows fls).mask.getLsbD t = true from hmask), hres t ht, hdone, hl, ht, hv t ht, hd]
    simp only [Bool.not_true, Bool.or_self, Bool.false_eq_true, if_false]
    show (Thread.setPred _ i (v t != 0)).pred i = _
    rw [setPred_pred _ _ _ _ h8, if_pos rfl]
    simp [h0]
  · intro i wd t hd h64 hlow
    have ht := lowest_mem hlow
    have hne : b.partOf u ≠ 0 := by
      intro e
      rw [e] at ht
      simp at ht
    have hsc := congrArg (fun y : Pack => y.scal) hT.rest
    simp only at hsc
    rw [endPack_scalar hcl.kept p1 hl (by rw [hdone]; exact hne), hdone, hlow, Option.getD_some, hres t ht, hv t ht, hd]
    show ((Pack.setScalar _ i wd (v t)).scalar i).toNat = _
    apply setScalar_same
    rw [congrArg Pack.scal (writeAll_rest ..)]
    show i < p1.scal.length
    rw [hM.scal, hsc, hI.wf.2.1]
    exact h64

theorem endPack_pending {s : State} {h : Hdr} {u : Use} {b : Bun} (hI : Issues s h u b) {p p1 : Pack} {rows fls : List Nat} (hT : Taken b u p rows)
    {own : Nat → Res} {g : Nat → Thread → Thread} {k : Pack → Pack} (hM : Moved p p1 g k)
    (ho : ∀ t, (b.partOf u).getLsbD t = true → (own t).fate.kept = false) (hl : u.long = true) {d : Dst} (hd : u.dests = [d]) :
    b.PendingAs u (fun t => (own t).vals) (fls.getD 0 0) ((b.going u rows fls).endPack u ((b.going u rows fls).result u (fun _ => false) own) p1) := by
  intro hne
  have hcl := hI.res_clean (rows := rows) (fls := fls) ho
  have hdone : (b.going u rows fls).done ((b.going u rows fls).result u (fun _ => false) own) = b.partOf u := hcl.done (fun t ht => hI.partOf_mask ht)
  have hres : ∀ t, (b.partOf u).getLsbD t = true → ((b.going u rows fls).result u (fun _ => false) own t) = own t := by
    intro t ht
    rw [hI.result_eq (hI.partOf_mask ht), Bun.own, if_pos ht]
  have hro : ∀ t, (b.partOf u).getLsbD t = true → (b.going u rows fls).rowsOf t = rows := by
    intro t ht
    rw [going_rowsOf, hI.fresh t (mask_lt ht) (hI.partOf_mask ht)]
    rfl
  let k0 := d.flight (rows.getD 0 0)
  have hkinds : ((threadsOf (b.partOf u)).map fun t => (u.dests.getD 0 (.pred 0)).flight (((b.going u rows fls).rowsOf t).getD 0 0)) =
      List.replicate (threadsOf (b.partOf u)).length k0 := by
    rw [List.eq_replicate_iff]
    refine ⟨by simp, ?_⟩
    intro x hx
    obtain ⟨t, ht, rfl⟩ := List.mem_map.mp hx
    rw [hro t (mem_threadsOf.mp ht).2, hd]
    rfl
  obtain ⟨t0, ht0⟩ := mask_ne_zero hne
  have hmem0 : t0 ∈ threadsOf (b.partOf u) := mem_threadsOf.mpr ⟨mask_lt ht0, ht0⟩
  have hk0 : k0 ∈ ((threadsOf (b.partOf u)).map fun t => (u.dests.getD 0 (.pred 0)).flight (((b.going u rows fls).rowsOf t).getD 0 0)).dedup := by
    rw [List.mem_dedup, hkinds, List.mem_replicate]
    exact ⟨by intro e; rw [List.length_eq_zero_iff] at e; rw [e] at hmem0; simp at hmem0, rfl⟩
  have hm : (maskOf fun t => (b.partOf u).getLsbD t && (u.dests.getD 0 (.pred 0)).flight (((b.going u rows fls).rowsOf t).getD 0 0) == k0) = b.partOf u := by
    apply BitVec.eq_of_getLsbD_eq
    intro t ht
    rw [maskOf_getLsbD]
    cases hp : (b.partOf u).getLsbD t with
    | false => simp
    | true =>
      rw [hro t hp, hd]
      simp [ht, k0]
  refine ⟨{ id := fls.getD 0 0, group := fls.getD 0 0, fixed := u.cross, dst := k0, name := (u.dests.getD 0 (.pred 0)).live.map (·.1), mask := b.partOf u, ready := some b.till, vals := (threadsOf (b.partOf u)).filterMap fun t => ((((b.going u rows fls).result u (fun _ => false) own t)).vals[0]?).map fun v => (t, BitVec.ofNat 64 v), parts := [] }, ?_, rfl, rfl, rfl, rfl, rfl, ?_, ?_, ?_, ?_⟩
  · rw [endPack_flights hcl.kept, hdone]
    apply List.mem_append_right
    unfold Bun.flights
    apply List.mem_append_left
    rw [if_pos (by rw [hl]; simpa using hne)]
    rw [show List.range u.dests.length = [0] by rw [hd]; rfl, List.flatMap_singleton, List.mem_map]
    refine ⟨k0, hk0, ?_⟩
    rw [hm, going_till]
  · intro t ht x hx
    rw [List.mem_filterMap]
    refine ⟨t, mem_threadsOf.mpr ⟨mask_lt ht, ht⟩, ?_⟩
    rw [hres t ht, hx]
    rfl
  · intro n wd c hn hc t ht
    have := endPack_rows (fls := fls) hI hT hM ho (by rw [hn]; exact Apart.single _) ht (j := 0) (by rw [hn]; rfl) hc
    obtain ⟨_, h2, r, h3, h4, h5⟩ := this
    refine ⟨h2, r, h3, ?_⟩
    have hdn : d = .name n wd c := by rw [hd] at hn; simpa using hn
    show d.flight (rows.getD 0 0) = _
    rw [hdn, List.getD_eq_getElem?_getD, h4]
    simp [Dst.flight, h5]
  · intro i hn
    have hdn : d = .pred i := by rw [hd] at hn; simpa using hn
    show d.flight _ = _
    rw [hdn]; rfl
  · intro i wd hn
    have hdn : d = .scal i wd := by rw [hd] at hn; simpa using hn
    show d.flight _ = _
    rw [hdn]; rfl

/-! ### The step -/

theorem writes_modCore (d : Device) (c : Nat) (f : Core → Core) : (d.modCore c f).writes = d.writes := rfl
theorem writes_modPack (d : Device) (c k i : Nat) (f : Pack → Pack) : (d.modPack c k i f).writes = d.writes := by
  unfold Device.modPack Device.modTeam
  split <;> rfl

theorem commit_after (s : State) (b : Bun) (q : Pack) :
    s.commit { s.start.modPack b.core b.slot b.index (fun _ => q) with cur := none } = s.after b q := by
  unfold State.commit State.after
  have h : (s.start.modPack b.core b.slot b.index fun _ => q).writes = [] := writes_modPack ..
  simp only [h]
  rfl

theorem Fate.go_next (b : Bun) (t : Nat) (x : Thread) : Fate.go b .next x = b.onward t x := rfl

theorem after_eq_afterOn (s : State) (b : Bun) (q : Pack) : s.afterOn s.start b q = s.after b q := commit_after s b q

/-- The threads of Part whose fate leaves reads open. -/
def Bun.openMask (b : Bun) (u : Use) (own : Nat → Res) : Mask := maskOf fun t => (b.partOf u).getLsbD t && (own t).fate.opens

/-- The same of the whole bundle. -/
theorem Issues.opens_eq {s : State} {h : Hdr} {u : Use} {b : Bun} (hI : Issues s h u b) {rows fls : List Nat} {own : Nat → Res} :
    (b.going u rows fls).opens ((b.going u rows fls).result u (fun _ => false) own) = b.openMask u own := by
  have hf : ∀ t, ((b.going u rows fls).mask.getLsbD t && ((b.going u rows fls).result u (fun _ => false) own t).fate.opens) =
      ((b.partOf u).getLsbD t && (own t).fate.opens) := by
    intro t
    have hmask : (b.going u rows fls).mask = b.mask := rfl
    rw [hmask]
    by_cases hm : b.mask.getLsbD t = true
    · rw [hI.result_eq hm, Bun.own, hm, Bool.true_and]
      by_cases hp : (b.partOf u).getLsbD t = true
      · rw [if_pos hp, hp, Bool.true_and]
      · rw [if_neg hp, Bool.not_eq_true _ |>.mp hp, Bool.false_and]
        simp only [Fate.opens]
    · have hp : (b.partOf u).getLsbD t = false := by
        by_contra hp
        exact hm (hI.partOf_mask (by simpa using hp))
      rw [Bool.not_eq_true _ |>.mp hm, hp, Bool.false_and, Bool.false_and]
  unfold Bun.opens Bun.openMask
  simp only [hf]

/-- A step whose execution leaves its bundle's pack changed by k and each thread by g, on the device D. The first flight number is
given, since the entries that the threads make name it. -/
theorem Issues.run_open {s : State} {h : Hdr} {u : Use} {b : Bun} (hI : Issues s h u b) {body : Bun → Device → Device × (Nat → Res)}
    {own : Nat → Res} {g : Nat → Nat → Thread → Thread} {k : Pack → Pack} {D : Device}
    (hbody : ∀ p rows fls, Taken b u p rows → ∃ p1, Moved p p1 (g (fls.getD 0 0)) k ∧
      body (b.going u rows fls) (s.start.modPack b.core b.slot b.index fun _ => p) = (D.modPack b.core b.slot b.index fun _ => p1, own))
    (hg : ∀ f t x, (g f t x).preds = x.preds) (hgo : ∀ f t, b.mask.getLsbD t = false → ∀ x, g f t x = x)
    (ho : ∀ t, (b.partOf u).getLsbD t = true → (own t).fate.kept = false) :
    ∃ q f, (s.run fun _ d => d.issue h u body) = .next (s.afterOn D b (q.refund b.pack (b.openMask u own))) ∧ Ended b u (fun t x => (b.own u own t).fate.go b (g f t x)) k q ∧
      (∀ v : Nat → Nat, u.long = false → (∀ t, (b.partOf u).getLsbD t = true → (own t).vals = [v t]) → b.Result u v q) ∧
      (∀ d, u.long = true → u.dests = [d] → b.PendingAs u (fun t => (own t).vals) f q) ∧
      (Apart u.dests → ∀ j n wd c, u.dests[j]? = some (.name n wd c) → c ≠ 0 → ∀ t, (b.partOf u).getLsbD t = true →
        q.value n t wd .whole = (if u.long then 0 else (own t).vals.getD j 0) % 2 ^ (if wd then 64 else 32) ∧ q.count n t = c) := by
  obtain ⟨p, rows, fls, hT, he⟩ := hI.issue body
  obtain ⟨p1, hM, hb⟩ := hbody p rows fls hT
  refine ⟨(b.going u rows fls).endPack u ((b.going u rows fls).result u (fun _ => false) own) p1, fls.getD 0 0, ?_,
    endPack_ended hI hT hM (hg _) (hgo _) ho, ?_, ?_, ?_⟩
  · unfold State.run
    dsimp only
    rw [he]
    dsimp only
    rw [hb]
    dsimp only
    rw [(hI.res_clean ho).settle]
    rw [hI.opens_eq (rows := rows) (fls := fls) (own := own)]
    have hp : (b.going u rows fls).pack = b.pack := rfl
    have hc : (b.going u rows fls).core = b.core := rfl
    have hs : (b.going u rows fls).slot = b.slot := rfl
    have hi : (b.going u rows fls).index = b.index := rfl
    rw [hp, hc, hs, hi, modPack_modPack, State.afterOn]
    generalize (b.going u rows fls).endPack u ((b.going u rows fls).result u (fun _ => false) own) = F
    generalize b.openMask u own = k
    have he : ((fun p => (F p).refund b.pack k) ∘ fun _ : Pack => p1) = fun _ => (F p1).refund b.pack k := rfl
    rw [he]
  · intro v hl hv
    exact endPack_result hI hT hM ho hl hv
  · intro d hl hd
    exact endPack_pending hI hT hM ho hl hd
  · intro ha j n wd c hj hc t ht
    have := endPack_rows (fls := fls) hI hT hM ho ha ht hj hc
    exact ⟨this.1, this.2.1⟩

/-- A step whose execution leaves its bundle's pack changed by k and each thread by g, on the device D. No thread leaves reads open. The first flight number is
given, since the entries that the threads make name it. -/
theorem Issues.run_on {s : State} {h : Hdr} {u : Use} {b : Bun} (hI : Issues s h u b) {body : Bun → Device → Device × (Nat → Res)}
    {own : Nat → Res} {g : Nat → Nat → Thread → Thread} {k : Pack → Pack} {D : Device}
    (hbody : ∀ p rows fls, Taken b u p rows → ∃ p1, Moved p p1 (g (fls.getD 0 0)) k ∧
      body (b.going u rows fls) (s.start.modPack b.core b.slot b.index fun _ => p) = (D.modPack b.core b.slot b.index fun _ => p1, own))
    (hg : ∀ f t x, (g f t x).preds = x.preds) (hgo : ∀ f t, b.mask.getLsbD t = false → ∀ x, g f t x = x)
    (hw : ∀ t, (b.partOf u).getLsbD t = true → (own t).fate.opens = false)
    (ho : ∀ t, (b.partOf u).getLsbD t = true → (own t).fate.kept = false) :
    ∃ q f, (s.run fun _ d => d.issue h u body) = .next (s.afterOn D b q) ∧ Ended b u (fun t x => (b.own u own t).fate.go b (g f t x)) k q ∧
      (∀ v : Nat → Nat, u.long = false → (∀ t, (b.partOf u).getLsbD t = true → (own t).vals = [v t]) → b.Result u v q) ∧
      (∀ d, u.long = true → u.dests = [d] → b.PendingAs u (fun t => (own t).vals) f q) ∧
      (Apart u.dests → ∀ j n wd c, u.dests[j]? = some (.name n wd c) → c ≠ 0 → ∀ t, (b.partOf u).getLsbD t = true →
        q.value n t wd .whole = (if u.long then 0 else (own t).vals.getD j 0) % 2 ^ (if wd then 64 else 32) ∧ q.count n t = c) := by
  have h0 : b.openMask u own = 0 := by
    apply maskOf_eq_zero
    intro t _
    cases hp : (b.partOf u).getLsbD t with
    | false => rfl
    | true => simp [hw t hp]
  have := hI.run_open hbody hg hgo ho
  rw [h0] at this
  simpa only [Pack.refund_zero] using this

/-- A step whose execution changes only its bundle's pack, by k and each thread by g. -/
theorem Issues.run {s : State} {h : Hdr} {u : Use} {b : Bun} (hI : Issues s h u b) {body : Bun → Device → Device × (Nat → Res)}
    {own : Nat → Res} {g : Nat → Thread → Thread} {k : Pack → Pack}
    (hbody : ∀ p rows fls, Taken b u p rows → ∃ p1, Moved p p1 g k ∧
      body (b.going u rows fls) (s.start.modPack b.core b.slot b.index fun _ => p) = (s.start.modPack b.core b.slot b.index fun _ => p1, own))
    (hg : ∀ t x, (g t x).preds = x.preds) (hgo : ∀ t, b.mask.getLsbD t = false → ∀ x, g t x = x)
    (hw : ∀ t, (b.partOf u).getLsbD t = true → (own t).fate.opens = false)
    (ho : ∀ t, (b.partOf u).getLsbD t = true → (own t).fate.kept = false) :
    ∃ q, (s.run fun _ d => d.issue h u body) = .next (s.after b q) ∧ Ended b u (fun t x => (b.own u own t).fate.go b (g t x)) k q ∧
      (∀ v : Nat → Nat, u.long = false → (∀ t, (b.partOf u).getLsbD t = true → (own t).vals = [v t]) → b.Result u v q) ∧
      (∀ d, u.long = true → u.dests = [d] → b.Pending u (fun t => (own t).vals) q) ∧
      (Apart u.dests → ∀ j n wd c, u.dests[j]? = some (.name n wd c) → c ≠ 0 → ∀ t, (b.partOf u).getLsbD t = true →
        q.value n t wd .whole = (if u.long then 0 else (own t).vals.getD j 0) % 2 ^ (if wd then 64 else 32) ∧ q.count n t = c) := by
  obtain ⟨q, f, h1, h2, h3, h4, h5⟩ := hI.run_on (g := fun _ => g) (k := k) (D := s.start) hbody (fun _ => hg) (fun _ => hgo) hw ho
  rw [after_eq_afterOn] at h1
  exact ⟨q, h1, h2, h3, fun d hl hd => ⟨f, h4 d hl hd⟩, h5⟩

/-- A step whose execution changes nothing but the destinations. -/
theorem Issues.run_pure {s : State} {h : Hdr} {u : Use} {b : Bun} (hI : Issues s h u b) {body : Bun → Device → Device × (Nat → Res)}
    {own : Nat → Res} (hbody : ∀ rows fls d, body (b.going u rows fls) d = (d, own))
    (hw : ∀ t, (b.partOf u).getLsbD t = true → (own t).fate.opens = false)
    (ho : ∀ t, (b.partOf u).getLsbD t = true → (own t).fate.kept = false) :
    ∃ q, (s.run fun _ d => d.issue h u body) = .next (s.after b q) ∧ Ended b u (fun t x => (b.own u own t).fate.go b x) id q ∧
      (∀ v : Nat → Nat, u.long = false → (∀ t, (b.partOf u).getLsbD t = true → (own t).vals = [v t]) → b.Result u v q) ∧
      (∀ d, u.long = true → u.dests = [d] → b.Pending u (fun t => (own t).vals) q) ∧
      (Apart u.dests → ∀ j n wd c, u.dests[j]? = some (.name n wd c) → c ≠ 0 → ∀ t, (b.partOf u).getLsbD t = true →
        q.value n t wd .whole = (if u.long then 0 else (own t).vals.getD j 0) % 2 ^ (if wd then 64 else 32) ∧ q.count n t = c) :=
  hI.run (g := fun _ x => x) (k := id) (fun p rows fls _ => ⟨p, Moved.refl p, hbody rows fls _⟩) (fun _ _ => rfl) (fun _ _ _ => rfl) hw ho

end Sys2Proof.Machine
end

