-- ==== Sys2Proof/Laws/Values.lean ====
section
/-! SUPPORT. What a thread reads does not depend on the rows its bundle takes, and the steps of the instructions that write one value
a thread. -/

namespace Sys2Proof.Machine

open Sys2Proof

section going
variable (b : Bun) (u : Use) (rows fls : List Nat) (t w : Nat)

@[simp] theorem going_name (n : NameSrc) : (b.going u rows fls).name t n = b.name t n := by unfold Bun.name; rfl
@[simp] theorem going_scalar (x : ScalSrc) : (b.going u rows fls).scalar x = b.scalar x := by unfold Bun.scalar; rfl
@[simp] theorem going_extName (i : BitVec 8) : (b.going u rows fls).extName t i w = b.extName t i w := by unfold Bun.extName; rfl
@[simp] theorem going_thread : (b.going u rows fls).thread t = b.thread t := by unfold Bun.thread; rfl
@[simp] theorem going_grid : (b.going u rows fls).grid = b.grid := by unfold Bun.grid; rfl
@[simp] theorem going_depth : (b.going u rows fls).depth = b.depth := by unfold Bun.depth; rw [going_grid]
@[simp] theorem going_privileged : (b.going u rows fls).privileged = b.privileged := by unfold Bun.privileged; rw [going_grid]
@[simp] theorem going_sysReg (i : Nat) : (b.going u rows fls).sysReg t i = b.sysReg t i := by
  simp only [Bun.sysReg, going_cycle, going_depth, going_thread]
@[simp] theorem going_inHandler : (b.going u rows fls).inHandler t = b.inHandler t := by unfold Bun.inHandler; rw [going_thread]
@[simp] theorem going_sysDenied (i : Nat) : (b.going u rows fls).sysDenied t i = b.sysDenied t i := by unfold Bun.sysDenied; rw [going_inHandler]
@[simp] theorem going_denied (a : Src) : (b.going u rows fls).denied t a = b.denied t a := by
  cases a <;> simp only [Bun.denied, going_sysDenied]
@[simp] theorem going_denied2 (a : Src2) : (b.going u rows fls).denied2 t a = b.denied2 t a := by
  cases a with
  | reg x y => simp only [Bun.denied2, going_denied]
  | wide x i => cases x <;> simp only [Bun.denied2, going_sysDenied]
@[simp] theorem going_int (a : Src) : (b.going u rows fls).int t w a = b.int t w a := by
  cases a <;> simp only [Bun.int, going_name, going_scalar, going_sysReg]
@[simp] theorem going_extInt (a : ExtSrc) : (b.going u rows fls).extInt t w a = b.extInt t w a := by
  cases a <;> simp only [Bun.extInt, going_extName, going_sysReg]
@[simp] theorem going_int2 (a : Src2) : (b.going u rows fls).int2 t w a = b.int2 t w a := by
  cases a <;> simp only [Bun.int2, going_int, going_extInt]
@[simp] theorem going_idx (a : Src) : (b.going u rows fls).idx t a = b.idx t a := by
  cases a <;> simp only [Bun.idx, going_name, going_scalar, going_sysReg]
@[simp] theorem going_idx2 (a : Src) : (b.going u rows fls).idx2 t a = b.idx2 t a := by
  cases a <;> simp only [Bun.idx2, going_idx]
@[simp] theorem going_fp (f : Fmt) (a : Src) : (b.going u rows fls).fp t f w a = b.fp t f w a := by
  cases a <;> simp only [Bun.fp, going_name, going_scalar]
@[simp] theorem going_extFp (f : Fmt) (a : ExtSrc) : (b.going u rows fls).extFp t f w a = b.extFp t f w a := by
  cases a <;> simp only [Bun.extFp, going_extName]
@[simp] theorem going_fp2 (f : Fmt) (a : Src2) : (b.going u rows fls).fp2 t f w a = b.fp2 t f w a := by
  cases a <;> simp only [Bun.fp2, going_fp, going_extFp]
@[simp] theorem going_lanes (f : Fmt) (a : Src) : (b.going u rows fls).lanes t f a = b.lanes t f a := by
  cases a <;> simp only [Bun.lanes]
@[simp] theorem going_extLanes (f : Fmt) (a : ExtSrc) : (b.going u rows fls).extLanes t f a = b.extLanes t f a := by
  cases a <;> simp only [Bun.extLanes, going_extName]
@[simp] theorem going_lanes2 (f : Fmt) (a : Src2) : (b.going u rows fls).lanes2 t f a = b.lanes2 t f a := by
  cases a <;> simp only [Bun.lanes2, going_lanes, going_extLanes]
@[simp] theorem going_draws (n : Nat) : (b.going u rows fls).draws t n = b.draws t n := by unfold Bun.draws; simp only [going_thread]
@[simp] theorem going_movVal (a : Src1) : (b.going u rows fls).movVal t w a = b.movVal t w a := by
  cases a with
  | reg x => cases x <;> simp only [Bun.movVal, going_name, going_int]
  | wide i => simp only [Bun.movVal]
@[simp] theorem going_deniedMov (a : Src1) : (b.going u rows fls).deniedMov t a = b.deniedMov t a := by
  cases a <;> simp only [Bun.deniedMov, going_denied]
@[simp] theorem going_scale (sc : Option (BitVec 8)) : (b.going u rows fls).scale t sc = b.scale t sc := by
  cases sc <;> simp only [Bun.scale, going_extName]
@[simp] theorem going_pkBits (a : Src) : (b.going u rows fls).pkBits t a = b.pkBits t a := by
  cases a <;> simp only [Bun.pkBits, going_name, going_scalar, going_fp]
@[simp] theorem going_clock (clk : Bool) (c : Nat) : (b.going u rows fls).clock clk c = b.clock clk c := by unfold Bun.clock; rfl
@[simp] theorem going_cycle' : (b.going u rows fls).cycle t = b.cycle t := going_cycle ..

end going

theorem Bun.own_next {b : Bun} {u : Use} {own : Nat → Res} (h : ∀ t, (b.partOf u).getLsbD t = true → (own t).fate = .next) :
    (fun t (x : Thread) => (b.own u own t).fate.go b x) = b.onward := by
  funext t x
  unfold Bun.own
  split
  · rename_i hp
    rw [h t hp]; rfl
  · rfl

/-- A step whose execution only gives every thread of Part its values. -/
theorem Issues.run_next {s : State} {h : Hdr} {u : Use} {b : Bun} (hI : Issues s h u b) {body : Bun → Device → Device × (Nat → Res)}
    {own : Nat → Res} (hbody : ∀ rows fls d, body (b.going u rows fls) d = (d, own))
    (ho : ∀ t, (b.partOf u).getLsbD t = true → (own t).fate = .next) :
    ∃ q, (s.run fun _ d => d.issue h u body) = .next (s.after b q) ∧ Ended b u b.onward id q ∧
      (∀ v : Nat → Nat, u.long = false → (∀ t, (b.partOf u).getLsbD t = true → (own t).vals = [v t]) → b.Result u v q) ∧
      (∀ d, u.long = true → u.dests = [d] → b.Pending u (fun t => (own t).vals) q) ∧
      (Apart u.dests → ∀ j n wd c, u.dests[j]? = some (.name n wd c) → c ≠ 0 → ∀ t, (b.partOf u).getLsbD t = true →
        q.value n t wd .whole = (if u.long then 0 else (own t).vals.getD j 0) % 2 ^ (if wd then 64 else 32) ∧ q.count n t = c) := by
  have := hI.run_pure hbody (fun t ht => by rw [ho t ht]; rfl) (fun t ht => by rw [ho t ht]; rfl)
  rw [Bun.own_next ho] at this
  exact this

theorem Bun.Pending.congr {b : Bun} {u : Use} {v w : Nat → List Nat} {q : Pack} (h : b.Pending u v q)
    (hvw : ∀ t, (b.partOf u).getLsbD t = true → v t = w t) : b.Pending u w q := by
  obtain ⟨k, h⟩ := h
  refine ⟨k, fun hne => ?_⟩
  obtain ⟨f, hf, h0, ha, hb, h1, h2, h3, h4⟩ := h hne
  exact ⟨f, hf, h0, ha, hb, h1, h2, fun t ht x hx => h3 t ht x (by rw [hvw t ht]; exact hx), h4⟩

/-- The step of an instruction of one value a thread. -/
theorem value_run {s : State} {i : Instr} {h : Hdr} {dest : Dst} {flat long : Bool} {f : Bun → Nat → Option Nat} {b : Bun}
    (hI : Issues s h { reads := i.reads, dests := [dest], flat := flat, long := long } b) (hh : i.hdr = some h) {v : Nat → Nat}
    (hi : ∀ rows fls, f (b.going { reads := i.reads, dests := [dest], flat := flat, long := long } rows fls) =
      f (b.going { reads := i.reads, dests := [dest], flat := flat, long := long } [] []))
    (hf : ∀ t, (b.partOf { reads := i.reads, dests := [dest], flat := flat, long := long }).getLsbD t = true →
      f (b.going { reads := i.reads, dests := [dest], flat := flat, long := long } [] []) t = some (v t)) :
    ∃ q, (s.run fun _ d => d.value i dest flat long f) = .next (s.after b q) ∧
      Ended b { reads := i.reads, dests := [dest], flat := flat, long := long } b.onward id q ∧
      (long = false → b.Result { reads := i.reads, dests := [dest], flat := flat, long := long } v q) ∧
      (long = true → b.Pending { reads := i.reads, dests := [dest], flat := flat, long := long } (fun t => [v t]) q) := by
  let u : Use := { reads := i.reads, dests := [dest], flat := flat, long := long }
  let own : Nat → Res := fun t => match f (b.going u [] []) t with | some v => .ok v | none => .fault .privilege 0
  have hown : ∀ t, (b.partOf u).getLsbD t = true → own t = .ok (v t) := by
    intro t ht
    show (match f (b.going u [] []) t with | some v => Res.ok v | none => .fault .privilege 0) = _
    rw [hf t ht]
  obtain ⟨q, h1, h2, h3, h4, _⟩ := hI.run_next (own := own)
    (body := fun b d => (d, fun t => match f b t with | some v => .ok v | none => .fault .privilege 0))
    (fun rows fls d => by simp only [hi rows fls]; rfl) (fun t ht => by rw [hown t ht]; rfl)
  refine ⟨q, ?_, h2, fun hl => h3 v hl (fun t ht => by rw [hown t ht]; rfl), fun hl => ?_⟩
  · rw [← h1]
    simp only [Device.value, hh] <;> rfl
  · exact (h4 dest hl rfl).congr (fun t ht => by rw [hown t ht]; rfl)

/-! ### Rounded results -/

theorem advance_modPack (d : Device) (b : Bun) (u : Use) (rows fls : List Nat) (m : Mask) (n : Nat) (p : Pack) :
    (d.modPack b.core b.slot b.index fun _ => p).advance (b.going u rows fls) m n =
      d.modPack b.core b.slot b.index fun _ => { p with threads := imap (fun t (x : Thread) => if m.getLsbD t then { x with gen := advanceBy n x.gen } else x) 0 p.threads } := by
  unfold Device.advance
  rw [modPack_modPack]
  rfl

theorem Moved.threads' (p : Pack) (g : Nat → Thread → Thread) : Moved p { p with threads := imap g 0 p.threads } g id :=
  ⟨rfl, rfl, rfl, rfl, rfl, fun b h => by
    have e := congrArg (fun y : Pack => { y with
      threads := b.threads, scal := b.scal, flights := b.flights, lanes := b.lanes, yielded := b.yielded, hold := b.hold,
      noEvict := b.noEvict, retired := b.retired }) h
    exact e⟩

/-- The step of an instruction whose threads draw from their generators before their values are given. -/
theorem Issues.run_drawing {s : State} {h : Hdr} {u : Use} {b : Bun} (hI : Issues s h u b) {body : Bun → Device → Device × (Nat → Res)}
    {own : Nat → Res} {r : Rnd} {n : Nat}
    (hbody : ∀ rows fls d, body (b.going u rows fls) d = (if r = .rs then d.advance (b.going u rows fls) (b.partOf u) n else d, own))
    (ho : ∀ t, (b.partOf u).getLsbD t = true → (own t).fate = .next) :
    ∃ q, (s.run fun _ d => d.issue h u body) = .next (s.after b q) ∧ Ended b u (b.drawing u r n) id q ∧
      (∀ v : Nat → Nat, u.long = false → (∀ t, (b.partOf u).getLsbD t = true → (own t).vals = [v t]) → b.Result u v q) ∧
      (∀ d, u.long = true → u.dests = [d] → b.Pending u (fun t => (own t).vals) q) := by
  let g : Nat → Thread → Thread := fun t x => if r = .rs ∧ (b.partOf u).getLsbD t = true then { x with gen := advanceBy n x.gen } else x
  have hgo : (fun t x => (b.own u own t).fate.go b (g t x)) = b.drawing u r n := by
    have h1 := Bun.own_next ho
    funext t x
    have h2 : (b.own u own t).fate.go b (g t x) = b.onward t (g t x) := congrFun (congrFun h1 t) (g t x)
    rw [h2]
    unfold Bun.drawing
    simp only [g]
    split <;> rfl
  obtain ⟨q, h1, h2, h3, h4, _⟩ := hI.run (body := body) (own := own) (g := g) (k := id) (fun p rows fls _ => by
      refine ⟨{ p with threads := imap g 0 p.threads }, Moved.threads' p g, ?_⟩
      rw [hbody]
      by_cases hr : r = .rs
      · rw [if_pos hr, advance_modPack]
        congr 2
        funext _
        congr 2
        funext t x
        simp only [g, hr, true_and]
      · rw [if_neg hr]
        congr 2
        funext _
        have : imap g 0 p.threads = p.threads := imap_id _ _ _ (fun i x => by simp only [g, hr, false_and, if_false])
        rw [this])
    (fun t x => by simp only [g]; split <;> rfl)
    (fun t ht x => by
      simp only [g]
      rw [if_neg]
      rintro ⟨_, hp⟩
      rw [hI.partOf_mask hp] at ht
      exact Bool.false_ne_true ht.symm)
    (fun t ht => by rw [ho t ht]; rfl) (fun t ht => by rw [ho t ht]; rfl)
  rw [hgo] at h2
  exact ⟨q, h1, h2, h3, h4⟩

/-- The step of an instruction that rounds n results for each thread. -/
theorem rounded_run {s : State} {i : Instr} {h : Hdr} {dest : Dst} {flat long : Bool} {r : Rnd} {n : Nat} {f : Bun → Nat → List Nat → Option Nat}
    {b : Bun} (hI : Issues s h { reads := i.reads, dests := [dest], flat := flat, long := long } b) (hh : i.hdr = some h) {v : Nat → Nat}
    (hi : ∀ rows fls, f (b.going { reads := i.reads, dests := [dest], flat := flat, long := long } rows fls) =
      f (b.going { reads := i.reads, dests := [dest], flat := flat, long := long } [] []))
    (hf : ∀ t, (b.partOf { reads := i.reads, dests := [dest], flat := flat, long := long }).getLsbD t = true →
      f (b.going { reads := i.reads, dests := [dest], flat := flat, long := long } [] []) t (if r = .rs then b.draws t n else []) = some (v t)) :
    ∃ q, (s.run fun _ d => d.rounded i dest flat long r n f) = .next (s.after b q) ∧
      Ended b { reads := i.reads, dests := [dest], flat := flat, long := long }
        (b.drawing { reads := i.reads, dests := [dest], flat := flat, long := long } r n) id q ∧
      (long = false → b.Result { reads := i.reads, dests := [dest], flat := flat, long := long } v q) ∧
      (long = true → b.Pending { reads := i.reads, dests := [dest], flat := flat, long := long } (fun t => [v t]) q) := by
  let u : Use := { reads := i.reads, dests := [dest], flat := flat, long := long }
  let w : Nat → Option Nat := fun t => f (b.going u [] []) t (if r = .rs then b.draws t n else [])
  let own : Nat → Res := fun t => match w t with | some v => .ok v | none => .fault .privilege 0
  have hw : ∀ t, (b.partOf u).getLsbD t = true → w t = some (v t) := hf
  have hown : ∀ t, (b.partOf u).getLsbD t = true → own t = .ok (v t) := by
    intro t ht
    simp only [own, hw t ht]
  have hm : (maskOf fun t => (b.partOf u).getLsbD t && (w t).isSome) = b.partOf u := by
    apply BitVec.eq_of_getLsbD_eq
    intro t ht
    rw [maskOf_getLsbD]
    cases hp : (b.partOf u).getLsbD t with
    | false => simp
    | true => simp [ht, hw t hp]
  obtain ⟨q, h1, h2, h3, h4⟩ := hI.run_drawing (own := own) (r := r) (n := n)
    (body := fun b d =>
      let v := fun t => f b t (if r = .rs then b.draws t n else [])
      (if r = .rs then d.advance b (maskOf fun t => b.part.getLsbD t && (v t).isSome) n else d,
       fun t => match v t with | some v => .ok v | none => .fault .privilege 0))
    (fun rows fls d => by
      simp only [hi rows fls, going_draws]
      have hm' : (maskOf fun t => (b.going u rows fls).part.getLsbD t && (w t).isSome) = b.partOf u := hm
      simp only [w] at hm'
      rw [hm'])
    (fun t ht => by rw [hown t ht]; rfl)
  refine ⟨q, ?_, h2, fun hl => h3 v hl (fun t ht => by rw [hown t ht]; rfl), fun hl => ?_⟩
  · rw [← h1]
    simp only [Device.rounded, hh] <;> rfl
  · exact (h4 dest hl rfl).congr (fun t ht => by rw [hown t ht]; rfl)

end Sys2Proof.Machine
end

