-- ==== Sys2Proof/Laws/Cores.lean ====
section
/-! SUPPORT. Translation, the tests of an access and the fetch of a line do not look at names, scalars or threads: they come to the
same when the packs of a core change. -/

namespace Sys2Proof.Machine

open Sys2Proof

/-- The device with its cores replaced. -/
def Device.withCores (d : Device) (cs : List (Nat × Core)) : Device := { d with cores := cs }

theorem modPack_withCores (d : Device) (c k i : Nat) (f : Pack → Pack) : d.modPack c k i f = d.withCores (d.modPack c k i f).cores := by
  unfold Device.modPack Device.modTeam
  split <;> rfl

section
variable (d : Device) (cs : List (Nat × Core)) (m : Memory)

@[simp] theorem withCores_ridge (r : Nat) : (d.withCores cs).ridge r = d.ridge r := rfl
@[simp] theorem withCores_part (p : Nat) : (d.withCores cs).part p = d.part p := rfl
@[simp] theorem withCores_die (n : Nat) : (d.withCores cs).die n = d.die n := rfl
@[simp] theorem withCores_trusted (n : Nat) : (d.withCores cs).trusted n = d.trusted n := rfl
@[simp] theorem withCores_alias (a n key : Nat) (w : Bool) : (d.withCores cs).alias a n key w = d.alias a n key w := rfl
@[simp] theorem withCores_isBad (a n : Nat) : (d.withCores cs).isBad a n = d.isBad a n := rfl
@[simp] theorem withCores_shut (a n : Nat) (w : Bool) : (d.withCores cs).shut a n w = d.shut a n w := rfl
@[simp] theorem withCores_rd (a : Nat) : (d.withCores cs).rd m a = d.rd m a := rfl
@[simp] theorem withCores_rdSeen (a : Nat) : (d.withCores cs).rdSeen m a = d.rdSeen m a := rfl
@[simp] theorem withCores_rdNat (a n : Nat) : (d.withCores cs).rdNat m a n = d.rdNat m a n := rfl
@[simp] theorem withCores_draws : (d.withCores cs).draws = d.draws := rfl
@[simp] theorem withCores_grid (g : Nat) : (d.withCores cs).grid g = d.grid g := rfl
@[simp] theorem withCores_lr (g : Nat) (f : BitVec 2048 → Nat) : (d.withCores cs).lr g f = d.lr g f := rfl
@[simp] theorem withCores_placeFault (pa n : Nat) (w : W64) (rd whole : Bool) : (d.withCores cs).placeFault pa n w rd whole = d.placeFault pa n w rd whole := rfl
@[simp] theorem withCores_modRidge (r : Nat) (f : Ridge → Ridge) : (d.withCores cs).modRidge r f = (d.modRidge r f).withCores cs := rfl
@[simp] theorem withCores_withDraws (n : Nat) : { d.withCores cs with draws := n } = { d with draws := n }.withCores cs := rfl

theorem withCores_wrBytes (a : Nat) (bs : List Byte) : (d.withCores cs).wrBytes a bs = (d.wrBytes a bs).withCores cs := by
  induction bs generalizing d a with
  | nil => rfl
  | cons x bs ih => exact ih (d.wr a x) (a + 1)

theorem withCores_foldl {α : Type} (f : Device → α → Device) (hf : ∀ d x, f (d.withCores cs) x = (f d x).withCores cs) (l : List α) :
    l.foldl f (d.withCores cs) = (l.foldl f d).withCores cs := by
  induction l generalizing d with
  | nil => rfl
  | cons x l ih => rw [List.foldl_cons, List.foldl_cons, hf, ih]

theorem withCores_setKeys (a n key : Nat) : (d.withCores cs).setKeys a n key = (d.setKeys a n key).withCores cs := by
  unfold Device.setKeys
  split
  · rfl
  · apply withCores_foldl
    intro d x
    have e : (d.withCores cs).keys = d.keys := rfl
    simp only [e]
    cases (decide (a ≤ (a / 128 + x) * 128) && decide ((a / 128 + x + 1) * 128 ≤ a + n)) <;> cases (aget d.keys (a / 128 + x)).isNone <;> rfl

theorem withCores_cleaned (a n : Nat) : (d.withCores cs).cleaned a n = (d.cleaned a n).withCores cs := by
  unfold Device.cleaned
  have e : (d.withCores cs).ridges = d.ridges := rfl
  simp only [e]
  split <;> rfl

theorem withCores_wrKey0 (a : Nat) (bs : List Byte) : (d.withCores cs).wrKey0 a bs = (d.wrKey0 a bs).withCores cs := by
  unfold Device.wrKey0
  apply withCores_foldl
  intro d x
  by_cases h : d.shut x.2.1 x.2.2 (x.2.2 == 128) = true
  · have h' : (d.withCores cs).shut x.2.1 x.2.2 (x.2.2 == 128) = true := h
    rw [if_pos h', if_pos h]
  · have h' : ¬ (d.withCores cs).shut x.2.1 x.2.2 (x.2.2 == 128) = true := h
    rw [if_neg h', if_neg h, withCores_cleaned, withCores_wrBytes, withCores_setKeys]

theorem withCores_dirtyOr (p pa : Nat) : (d.withCores cs).dirtyOr m p pa = (d.dirtyOr m p pa).withCores cs := by
  unfold Device.dirtyOr
  dsimp only
  rw [withCores_part, withCores_rd]
  split
  · exact withCores_wrKey0 ..
  · rfl

theorem withCores_walkFrom (va : Nat) (ls : List (Nat × Nat × Nat)) (level table : Nat) :
    walkFrom (d.withCores cs) m va ls level table = walkFrom d m va ls level table := by
  induction ls generalizing level table with
  | nil => rfl
  | cons x ls ih =>
    obtain ⟨sh, cnt, al⟩ := x
    simp only [walkFrom, withCores_shut, withCores_isBad, withCores_rdNat, ih]
    rfl

/-- A walker's routine does not look at the cores. -/
theorem withCores_runWalker (r : Nat) (n : Nat) (x : Rv) :
    Device.runWalker m r n (d.withCores cs) x = ((Device.runWalker m r n d x).1.withCores cs, (Device.runWalker m r n d x).2) := by
  induction n generalizing d x with
  | zero => rfl
  | succ n ih =>
    unfold Device.runWalker
    rw [withCores_ridge]
    cases rvFetch (leNat ((List.range 4).map fun i => (d.ridge r).storeByte ((x.pc.toNat + i) % 65536))) with
    | none => rfl
    | some o =>
      dsimp only
      cases x.exec o.1 o.2 with
      | next y => exact ih ..
      | ret y => rfl
      | load y a w ext rd =>
        by_cases h : (d.shut a.toNat w false || d.isBad a.toNat w) = true
        · have h' : ((d.withCores cs).shut a.toNat w false || (d.withCores cs).isBad a.toNat w) = true := h
          simp only [if_pos h', if_pos h]
        · have h' : ¬ ((d.withCores cs).shut a.toNat w false || (d.withCores cs).isBad a.toNat w) = true := h
          simp only [if_neg h', if_neg h]; exact ih ..
      | store y a w v =>
        by_cases h : (d.shut a.toNat w false || d.isBad a.toNat w) = true
        · have h' : ((d.withCores cs).shut a.toNat w false || (d.withCores cs).isBad a.toNat w) = true := h
          simp only [if_pos h', if_pos h]
        · have h' : ¬ ((d.withCores cs).shut a.toNat w false || (d.withCores cs).isBad a.toNat w) = true := h
          simp only [if_neg h', if_neg h, withCores_wrKey0]; exact ih ..

theorem withCores_walk (r p va kind : Nat) :
    (d.withCores cs).walk m r p va kind = ((d.walk m r p va kind).1.withCores cs, (d.walk m r p va kind).2) := by
  unfold Device.walk
  dsimp only
  by_cases hc : (decide (fld (d.part p).reg 63 0 = 0) && (d.ridge r).asShipped) = true
  · rw [if_pos (show (decide (fld ((d.withCores cs).part p).reg 63 0 = 0) && ((d.withCores cs).ridge r).asShipped) = true from hc), if_pos hc]
    simp only [withCores_part, withCores_walkFrom]
    rcases walkFrom d m va walkLevels 1 (fld (d.part p).reg 191 128) with _ | ⟨w, size, at_⟩
    · rfl
    · dsimp only
      by_cases hk : ((kind == 1 || kind == 2) && leafW w && !leafD w) = true
      · simp only [if_pos hk, withCores_wrKey0, withCores_dirtyOr, withCores_modRidge]
      · simp only [if_neg hk, withCores_modRidge]
  · rw [if_neg (show ¬ (decide (fld ((d.withCores cs).part p).reg 63 0 = 0) && ((d.withCores cs).ridge r).asShipped) = true from hc), if_neg hc]
    rw [show (d.withCores cs).walkEntry p va kind = d.walkEntry p va kind from rfl, withCores_draws, withCores_withDraws, withCores_runWalker]
    dsimp only
    cases (Device.runWalker m r 65536 { d with draws := d.draws + 1 } (d.walkEntry p va kind)).2.leaf with
    | none => rfl
    | some x =>
      dsimp only
      by_cases hk : leafV x.1 = true
      · rw [if_pos hk, if_pos hk]; rfl
      · rw [if_neg hk, if_neg hk]

/-- What a leaf comes to. -/
theorem withCores_useLeaf (p va kind size : Nat) (w : W64) :
    (if leafFault ((d.withCores cs).part p) w size va kind = true then (d.withCores cs, Tr.fault .pagePermission)
      else (d.withCores cs, .ok (leafPa w size va) w size)) =
    ((if leafFault (d.part p) w size va kind = true then (d, Tr.fault .pagePermission) else (d, .ok (leafPa w size va) w size)).1.withCores cs,
     (if leafFault (d.part p) w size va kind = true then (d, Tr.fault .pagePermission) else (d, .ok (leafPa w size va) w size)).2) := by
  by_cases hl : leafFault (d.part p) w size va kind = true
  · rw [if_pos (show leafFault ((d.withCores cs).part p) w size va kind = true from hl), if_pos hl]
  · rw [if_neg (show ¬ leafFault ((d.withCores cs).part p) w size va kind = true from hl), if_neg hl]

theorem withCores_translate (r p va kind : Nat) :
    (d.withCores cs).translate m r p va kind = ((d.translate m r p va kind).1.withCores cs, (d.translate m r p va kind).2) := by
  unfold Device.translate
  by_cases hv : va ≥ 2 ^ 57
  · rw [if_pos hv, if_pos hv]
  · rw [if_neg hv, if_neg hv]
    dsimp only
    rw [show (d.withCores cs).ridge r = d.ridge r from rfl]
    cases leastBy (·.size) ((d.ridge r).tlb.filter fun e => tlbHit e p va) with
    | some e =>
      dsimp only
      rw [withCores_modRidge]
      by_cases hk : ((kind == 1 || kind == 2) && leafW e.leaf && !leafD e.leaf) = true
      · rw [if_pos hk, if_pos hk, withCores_walk]
        rcases (d.modRidge r fun r => { r with tlb := r.tlb.filter fun x => !(tlbHit x p va && decide (x.size > e.size)) }).walk m r p va kind with ⟨d1, _ | ⟨w, size⟩⟩
        · rfl
        · exact withCores_useLeaf ..
      · rw [if_neg hk, if_neg hk]
        exact withCores_useLeaf ..
    | none =>
      dsimp only
      rw [withCores_walk]
      rcases d.walk m r p va kind with ⟨d1, _ | ⟨w, size⟩⟩
      · rfl
      · dsimp only
        by_cases hw : leafV w = true
        · rw [if_pos hw, if_pos hw]
          exact withCores_useLeaf ..
        · rw [if_neg hw, if_neg hw]

theorem withCores_translateAll (r p kind : Nat) (l : List (Nat × Nat × Nat)) :
    (d.withCores cs).translateAll m r p kind l = ((d.translateAll m r p kind l).1.withCores cs, (d.translateAll m r p kind l).2) := by
  induction l generalizing d with
  | nil => rfl
  | cons x l ih =>
    obtain ⟨f, va, n⟩ := x
    simp only [Device.translateAll, withCores_translate, ih]

end

end Sys2Proof.Machine
end

