-- ==== Sys2Proof/Laws/Decode.lean ====
section
/-! SUPPORT. Every operand form reads back from the field it encodes to, and the fields and bytes of a word from the word (R99 to R110). -/

namespace Sys2Proof

@[simp] theorem Half.ofCode_code (a : Half) : Half.ofCode a.code = a := by cases a <;> rfl
@[simp] theorem Comp.ofCode_code (a : Comp) : Comp.ofCode a.code = a := by cases a <;> rfl
@[simp] theorem Cond.ofCode_code (a : Cond) : Cond.ofCode a.code = a := by cases a <;> rfl
@[simp] theorem Rnd.ofCode_code (a : Rnd) : Rnd.ofCode a.code = a := by cases a <;> rfl
@[simp] theorem Scope.ofCode_code (a : Scope) : Scope.ofCode a.code = a := by cases a <;> rfl
@[simp] theorem Ord.ofCode_code (a : Ord) : Ord.ofCode a.code = a := by cases a <;> rfl
@[simp] theorem IKind.ofCode_code (a : IKind) : IKind.ofCode a.code = a := by cases a <;> rfl
theorem Half.code_lt (a : Half) : a.code < 3 := by cases a <;> decide
theorem Comp.code_lt (a : Comp) : a.code < 3 := by cases a <;> decide
theorem Cond.code_lt (a : Cond) : a.code < 7 := by cases a <;> decide
theorem Rnd.code_lt (a : Rnd) : a.code < 5 := by cases a <;> decide
theorem Scope.code_lt (a : Scope) : a.code < 4 := by cases a <;> decide
theorem Ord.code_lt (a : Ord) : a.code < 4 := by cases a <;> decide
theorem IKind.code_lt (a : IKind) : a.code < 6 := by cases a <;> decide

/-- A number equal to a bit vector's value reads back as it. -/
theorem ofNat_eq {n : Nat} {x : BitVec n} {m : Nat} (h : m = x.toNat) : BitVec.ofNat n m = x := by
  subst h; simp
/-- A number equal to a bit reads back as it. -/
theorem bit_eq {b : Bool} {m : Nat} (h : m = b.toNat) : (m == 1) = b := by
  subst h; cases b <;> rfl

theorem NameSrc.enc_lt (n : NameSrc) : (Src.name n).enc < 131072 := by
  have := n.idx.isLt; have := n.half.code_lt; have := n.comp.code_lt
  have := n.neg.toNat_lt; have := n.abs.toNat_lt; have := n.wide.toNat_lt
  simp only [Src.enc]; omega

@[simp] theorem Src.dec_enc (a : Src) : Src.dec a.enc = a := by
  cases a with
  | name n =>
    have := n.idx.isLt; have := n.half.code_lt; have := n.comp.code_lt
    have := n.neg.toNat_lt; have := n.abs.toNat_lt; have := n.wide.toNat_lt
    rw [Src.dec, if_pos (by simp only [Src.enc]; omega)]
    congr 1; cases n with | mk i ng ab hf wd cp => ?_
    simp only [Src.enc, NameSrc.mk.injEq] at *
    refine ⟨ofNat_eq (by omega), bit_eq (by omega), bit_eq (by omega), ?_, bit_eq (by omega), ?_⟩
    · rw [show (i.toNat * 512 + ng.toNat * 256 + ab.toNat * 128 + hf.code * 32 + wd.toNat * 8 + cp.code * 2) / 32 % 4 = hf.code
        by omega]; simp
    · rw [show (i.toNat * 512 + ng.toNat * 256 + ab.toNat * 128 + hf.code * 32 + wd.toNat * 8 + cp.code * 2) / 2 % 4 = cp.code
        by omega]; simp
  | scal n =>
    have := n.idx.isLt; have := n.half.code_lt
    have := n.neg.toNat_lt; have := n.abs.toNat_lt; have := n.wide.toNat_lt
    rw [Src.dec, if_neg (by simp only [Src.enc]; omega), if_pos (by simp only [Src.enc]; omega)]
    congr 1; cases n with | mk i ng ab hf wd => ?_
    simp only [Src.enc, ScalSrc.mk.injEq] at *
    refine ⟨ofNat_eq (by omega), bit_eq (by omega), bit_eq (by omega), ?_, bit_eq (by omega)⟩
    rw [show (131072 + i.toNat * 512 + ng.toNat * 256 + ab.toNat * 128 + hf.code * 32 + wd.toNat * 8) / 32 % 4 = hf.code
        by omega]; simp
  | pred i ng =>
    have := i.isLt; have := ng.toNat_lt
    rw [Src.dec, if_neg (by simp only [Src.enc]; omega), if_neg (by simp only [Src.enc]; omega),
      if_pos (by simp only [Src.enc]; omega)]
    simp only [Src.enc, Src.pred.injEq]
    exact ⟨ofNat_eq (by omega), bit_eq (by omega)⟩
  | tile i =>
    have := i.isLt
    rw [Src.dec, if_neg (by simp only [Src.enc]; omega), if_neg (by simp only [Src.enc]; omega), if_neg (by simp only [Src.enc]; omega), if_pos (by simp only [Src.enc]; omega), if_pos (by simp only [Src.enc]; omega)]
    simp only [Src.enc]
    exact congrArg _ (ofNat_eq (by omega))
  | slot i =>
    have := i.isLt
    rw [Src.dec, if_neg (by simp only [Src.enc]; omega), if_neg (by simp only [Src.enc]; omega), if_neg (by simp only [Src.enc]; omega), if_pos (by simp only [Src.enc]; omega), if_neg (by simp only [Src.enc]; omega), if_pos (by simp only [Src.enc]; omega)]
    simp only [Src.enc]
    exact congrArg _ (ofNat_eq (by omega))
  | bufr i =>
    have := i.isLt
    rw [Src.dec, if_neg (by simp only [Src.enc]; omega), if_neg (by simp only [Src.enc]; omega), if_neg (by simp only [Src.enc]; omega), if_pos (by simp only [Src.enc]; omega), if_neg (by simp only [Src.enc]; omega), if_neg (by simp only [Src.enc]; omega),
      if_pos (by simp only [Src.enc]; omega)]
    simp only [Src.enc]
    exact congrArg _ (ofNat_eq (by omega))
  | fmt i =>
    have := i.isLt
    rw [Src.dec, if_neg (by simp only [Src.enc]; omega), if_neg (by simp only [Src.enc]; omega), if_neg (by simp only [Src.enc]; omega), if_pos (by simp only [Src.enc]; omega), if_neg (by simp only [Src.enc]; omega), if_neg (by simp only [Src.enc]; omega),
      if_neg (by simp only [Src.enc]; omega), if_pos (by simp only [Src.enc]; omega)]
    simp only [Src.enc]
    exact congrArg _ (ofNat_eq (by omega))
  | sys i =>
    have := i.isLt
    rw [Src.dec, if_neg (by simp only [Src.enc]; omega), if_neg (by simp only [Src.enc]; omega), if_neg (by simp only [Src.enc]; omega), if_pos (by simp only [Src.enc]; omega), if_neg (by simp only [Src.enc]; omega), if_neg (by simp only [Src.enc]; omega),
      if_neg (by simp only [Src.enc]; omega), if_neg (by simp only [Src.enc]; omega)]
    simp only [Src.enc]
    exact congrArg _ (ofNat_eq (by omega))
  | imm v =>
    have := v.isLt
    rw [Src.dec, if_neg (by simp only [Src.enc]; omega), if_neg (by simp only [Src.enc]; omega), if_neg (by simp only [Src.enc]; omega), if_neg (by simp only [Src.enc]; omega), if_pos (by simp only [Src.enc]; omega)]
    simp only [Src.enc]
    exact congrArg _ (ofNat_eq (by omega))
  | span x =>
    have := x.first.isLt; have := x.len.isLt
    rw [Src.dec, if_neg (by simp only [Src.enc]; omega), if_neg (by simp only [Src.enc]; omega),
      if_neg (by simp only [Src.enc]; omega), if_neg (by simp only [Src.enc]; omega), if_neg (by simp only [Src.enc]; omega)]
    cases x with | mk f l => ?_
    simp only [Src.enc, Src.span.injEq, Span.mk.injEq] at *
    exact ⟨ofNat_eq (by omega), ofNat_eq (by omega)⟩

/-- Every source field has a kind below 7, so it is none of the unused-field patterns. -/
theorem Src.enc_lt (a : Src) : a.enc < 786432 := by
  cases a with
  | name n => have := n.enc_lt; omega
  | scal n =>
    have := n.idx.isLt; have := n.half.code_lt
    have := n.neg.toNat_lt; have := n.abs.toNat_lt; have := n.wide.toNat_lt
    simp only [Src.enc]; omega
  | pred i ng => have := i.isLt; have := ng.toNat_lt; simp only [Src.enc]; omega
  | tile i => have := i.isLt; simp only [Src.enc]; omega
  | slot i => have := i.isLt; simp only [Src.enc]; omega
  | bufr i => have := i.isLt; simp only [Src.enc]; omega
  | fmt i => have := i.isLt; simp only [Src.enc]; omega
  | sys i => have := i.isLt; simp only [Src.enc]; omega
  | imm v => have := v.isLt; simp only [Src.enc]; omega
  | span x => have := x.first.isLt; have := x.len.isLt; simp only [Src.enc]; omega

theorem VDst.enc_lt (d : VDst) : d.enc < 131072 := by
  have := d.idx.isLt; have := d.cnt.isLt; have := d.wide.toNat_lt
  simp only [VDst.enc]; omega
@[simp] theorem VDst.dec_enc (d : VDst) : VDst.dec d.enc = d := by
  have := d.idx.isLt; have := d.cnt.isLt; have := d.wide.toNat_lt
  cases d with | mk i c w => ?_
  simp only [VDst.enc, VDst.dec, VDst.mk.injEq] at *
  exact ⟨ofNat_eq (by omega), ofNat_eq (by omega), bit_eq (by omega)⟩
theorem SDst.enc_div (d : SDst) : d.enc / 131072 = 1 := by
  have := d.idx.isLt; have := d.wide.toNat_lt
  simp only [SDst.enc]; omega
@[simp] theorem SDst.dec_enc (d : SDst) : SDst.dec d.enc = d := by
  have := d.idx.isLt; have := d.wide.toNat_lt
  cases d with | mk i w => ?_
  simp only [SDst.enc, SDst.dec, SDst.mk.injEq] at *
  exact ⟨ofNat_eq (by omega), bit_eq (by omega)⟩
theorem encP_div (i : BitVec 3) : encP i / 131072 = 2 := by have := i.isLt; simp only [encP]; omega
@[simp] theorem decP_encP (i : BitVec 3) : decP (encP i) = i := by
  have := i.isLt; exact ofNat_eq (by simp only [encP]; omega)
theorem SpanD.enc_div (d : SpanD) : d.enc / 131072 = 5 := by
  have := d.first.isLt; have := d.cnt.isLt; have := d.len.isLt
  simp only [SpanD.enc]; omega
@[simp] theorem SpanD.dec_enc (d : SpanD) : SpanD.dec d.enc = d := by
  have := d.first.isLt; have := d.cnt.isLt; have := d.len.isLt
  cases d with | mk i c w => ?_
  simp only [SpanD.enc, SpanD.dec, SpanD.mk.injEq] at *
  exact ⟨ofNat_eq (by omega), ofNat_eq (by omega), ofNat_eq (by omega)⟩
theorem Span.enc_div (d : Span) : d.enc / 131072 = 5 := by
  have := d.first.isLt; have := d.len.isLt
  simp only [Span.enc]; omega
@[simp] theorem Span.dec_enc (d : Span) : Span.dec d.enc = d := by
  have := d.first.isLt; have := d.len.isLt
  cases d with | mk i w => ?_
  simp only [Span.enc, Span.dec, Span.mk.injEq] at *
  exact ⟨ofNat_eq (by omega), ofNat_eq (by omega)⟩
@[simp] theorem VSDst.dec_enc (d : VSDst) : VSDst.dec d.enc = d := by
  cases d with
  | v d => have := d.enc_lt; rw [VSDst.dec, if_neg (by simp only [VSDst.enc]; omega)]; simp [VSDst.enc]
  | s d => simp [VSDst.enc, VSDst.dec, d.enc_div]
@[simp] theorem VPDst.dec_enc (d : VPDst) : VPDst.dec d.enc = d := by
  cases d with
  | v d => have := d.enc_lt; rw [VPDst.dec, if_neg (by simp only [VPDst.enc]; omega)]; simp [VPDst.enc]
  | p i => simp [VPDst.enc, VPDst.dec, encP_div]
@[simp] theorem VNDst.dec_enc (d : VNDst) : VNDst.dec d.enc = d := by
  cases d with
  | v d => have := d.enc_lt; rw [VNDst.dec, if_neg (by simp only [VNDst.enc]; omega)]; simp [VNDst.enc]
  | n d => simp [VNDst.enc, VNDst.dec, d.enc_div]
@[simp] theorem decA_encA (i : BitVec 4) : decA (encA i) = i := by
  have := i.isLt; exact ofNat_eq (by simp only [encA]; omega)
@[simp] theorem decA_encGs (i : BitVec 4) : decA (encGs i) = i := by
  have := i.isLt; exact ofNat_eq (by simp only [encGs]; omega)
@[simp] theorem decB_encB (i : BitVec 5) : decB (encB i) = i := by
  have := i.isLt; exact ofNat_eq (by simp only [encB]; omega)
theorem encB_div (i : BitVec 5) : encB i / 131072 = 3 := by have := i.isLt; simp only [encB]; omega
@[simp] theorem decF_encF (i : BitVec 3) : decF (encF i) = i := by
  have := i.isLt; exact ofNat_eq (by simp only [encF]; omega)
@[simp] theorem decY_encY (i : BitVec 8) : decY (encY i) = i := by
  have := i.isLt; exact ofNat_eq (by simp only [encY]; omega)
@[simp] theorem decG_encG (g : Option (BitVec 4)) : decG (encG g) = g := by
  cases g with
  | none => rfl
  | some g =>
    have := g.isLt; rw [decG, if_neg (by simp only [encG, encGs, noneF]; omega)]; simp [encG]
@[simp] theorem decG_encOA (g : Option (BitVec 4)) : decG (encOA g) = g := by
  cases g with
  | none => rfl
  | some g =>
    have := g.isLt; rw [decG, if_neg (by simp only [encOA, encA, noneF]; omega)]; simp [encOA]
@[simp] theorem decOS_encOS (a : Option Src) : decOS (encOS a) = a := by
  cases a with
  | none => rfl
  | some a => have := a.enc_lt; rw [decOS, if_neg (by simp only [encOS, noneF]; omega)]; simp [encOS]
@[simp] theorem decT_encT (i : BitVec 6) : decT (encT i) = i := by
  have := i.isLt; exact ofNat_eq (by simp only [encT]; omega)
@[simp] theorem decI_imm (v : BitVec 17) : decI (524288 + v.toNat) = v := by
  have := v.isLt; exact ofNat_eq (by omega)

theorem ExtSrc.ext_lt (e : ExtSrc) : e.ext < 256 := by
  cases e <;> rename_i i <;> have := i.isLt <;> simp only [ExtSrc.ext] <;> omega
theorem ExtSrc.xcls_lt (e : ExtSrc) : e.xcls < 2 := by cases e <;> simp [ExtSrc.xcls]
@[simp] theorem ExtSrc.dec_ext (e : ExtSrc) : ExtSrc.dec e.xcls e.ext = e := by
  cases e with
  | name i => simp [ExtSrc.dec, ExtSrc.xcls, ExtSrc.ext]
  | scal i =>
    have := i.isLt
    rw [ExtSrc.dec, if_neg (by simp [ExtSrc.xcls]), if_pos (by simp only [ExtSrc.ext]; omega)]; simp [ExtSrc.ext]
  | sys i =>
    have := i.isLt
    rw [ExtSrc.dec, if_neg (by simp [ExtSrc.xcls]), if_neg (by simp only [ExtSrc.ext]; omega),
      if_pos (by simp only [ExtSrc.ext]; omega)]
    exact congrArg _ (by apply BitVec.eq_of_toNat_eq; simp [ExtSrc.ext]; omega)
  | pred i =>
    have := i.isLt
    rw [ExtSrc.dec, if_neg (by simp [ExtSrc.xcls]), if_neg (by simp only [ExtSrc.ext]; omega),
      if_neg (by simp only [ExtSrc.ext]; omega)]
    exact congrArg _ (by apply BitVec.eq_of_toNat_eq; simp [ExtSrc.ext]; omega)
theorem Wide.bits_lt (w : Wide) {x : Nat} (hx : x < 2) : w.bits x < 2 ^ 40 := by
  have := w.kind.code_lt; have := w.slot.isLt; have := w.imm.isLt
  simp only [Wide.bits]; omega
theorem Wide.ofBits_bits (w : Wide) {x : Nat} (hx : x < 2) : Wide.ofBits (w.bits x) = w := by
  have := w.kind.code_lt; have := w.slot.isLt; have := w.imm.isLt
  cases w with | mk k sl i => ?_
  simp only [Wide.bits, Wide.ofBits, Wide.mk.injEq] at *
  refine ⟨?_, ofNat_eq (by omega), ofNat_eq (by omega)⟩
  rw [show (k.code * 2 ^ 37 + x * 2 ^ 36 + sl.toNat * 2 ^ 32 + i.toNat) / 2 ^ 37 = k.code by omega]; simp
theorem Wide.bits_xcls (w : Wide) {x : Nat} (hx : x < 2) : w.bits x / 2 ^ 36 % 2 = x := by
  have := w.kind.code_lt; have := w.slot.isLt; have := w.imm.isLt
  simp only [Wide.bits]; omega

theorem Src2.wideBit_eq (a : Src2) : a.wideBit = 0 ∨ a.wideBit = 128 := by cases a <;> simp [Src2.wideBit]
theorem Src1.wideBit_eq (a : Src1) : a.wideBit = 0 ∨ a.wideBit = 128 := by cases a <;> simp [Src1.wideBit]
/-- Two sources read back from the fields of any word that holds them with MIN bits below the WIDE bit. -/
theorem Src2.dec_of (a : Src2) (f : Fields) (m : Nat) (hm : m < 128) (h1 : f.min = a.wideBit + m) (h2 : f.opa = a.opa)
    (h3 : f.opb = a.opb) (h4 : f.ext = a.ext) : Src2.dec f = a := by
  cases a with
  | reg x y =>
    simp only [Src2.wideBit] at h1
    rw [Src2.dec, if_neg (by omega), h2, h3]; simp [Src2.opa, Src2.opb]
  | wide e w =>
    simp only [Src2.wideBit] at h1
    have hx := e.xcls_lt
    rw [Src2.dec, if_pos (by omega), h2, h3, h4]
    simp only [Src2.opa, Src2.opb, Src2.ext]
    rw [show w.bits e.xcls / 1048576 * 1048576 + w.bits e.xcls % 1048576 = w.bits e.xcls by omega,
      Wide.bits_xcls w hx, Wide.ofBits_bits w hx]; simp
/-- One source reads back the same way. -/
theorem Src1.dec_of (a : Src1) (f : Fields) (h1 : f.min = a.wideBit) (h2 : f.opa = a.opa) (h3 : f.opb = a.opb) :
    Src1.dec f = a := by
  cases a with
  | reg x =>
    simp only [Src1.wideBit] at h1
    rw [Src1.dec, if_neg (by omega), h2]; simp [Src1.opa]
  | wide w =>
    simp only [Src1.wideBit] at h1
    rw [Src1.dec, if_pos (by omega), h2, h3]
    simp only [Src1.opa, Src1.opb]
    rw [show w.bits 0 / 1048576 * 1048576 + w.bits 0 % 1048576 = w.bits 0 by omega, Wide.ofBits_bits w (by omega)]

@[simp] theorem Hdr.ofFields_fields (h : Hdr) (j n d a b e : Nat) : Hdr.ofFields (h.fields j n d a b e) = h := by
  cases h with | mk g p l y u => ?_
  simp only [Hdr.ofFields, Hdr.fields, Hdr.mk.injEq]
  exact ⟨bit_eq rfl, ofNat_eq rfl, ofNat_eq rfl, bit_eq rfl, bit_eq rfl⟩

/-- Every field within its width. -/
def Fields.Fit (f : Fields) : Prop :=
  f.maj < 256 ∧ f.min < 256 ∧ f.gneg < 2 ∧ f.gpred < 8 ∧ f.la < 16 ∧ f.yld < 2 ∧ f.uexp < 2 ∧ f.rsv < 4 ∧ f.opd < 1048576 ∧
  f.opa < 1048576 ∧ f.opb < 1048576 ∧ f.ext < 256
theorem fieldsOf_wordOf (f : Fields) (h : f.Fit) : fieldsOf (wordOf f) = f := by
  obtain ⟨h1, h2, h3, h4, h5, h6, h7, h8, h9, h10, h11, h12⟩ := h
  cases f with | mk => ?_
  simp only [fieldsOf, wordOf, Fields.mk.injEq] at *
  refine ⟨?_, ?_, ?_, ?_, ?_, ?_, ?_, ?_, ?_, ?_, ?_, ?_⟩ <;> omega
theorem wordOf_lt (f : Fields) (h : f.Fit) : wordOf f < 2 ^ 96 := by
  obtain ⟨h1, h2, h3, h4, h5, h6, h7, h8, h9, h10, h11, h12⟩ := h
  simp only [wordOf]; omega
/-- A field cut off a number and the rest above it. -/
theorem cut_eq (w a b c : Nat) (h : c = a * b) : w / c * b + w / a % b = w / a := by
  rw [h, ← Nat.div_div_eq_div_mul]; exact Nat.div_add_mod' _ _
theorem wordOf_fieldsOf (w : Nat) (h : w < 2 ^ 96) : wordOf (fieldsOf w) = w := by
  have h0 : w / 2 ^ 88 < 256 := by omega
  have := cut_eq w (2 ^ 80) 256 (2 ^ 88) (by norm_num)
  have := cut_eq w (2 ^ 79) 2 (2 ^ 80) (by norm_num)
  have := cut_eq w (2 ^ 76) 8 (2 ^ 79) (by norm_num)
  have := cut_eq w (2 ^ 72) 16 (2 ^ 76) (by norm_num)
  have := cut_eq w (2 ^ 71) 2 (2 ^ 72) (by norm_num)
  have := cut_eq w (2 ^ 70) 2 (2 ^ 71) (by norm_num)
  have := cut_eq w (2 ^ 68) 4 (2 ^ 70) (by norm_num)
  have := cut_eq w (2 ^ 48) 1048576 (2 ^ 68) (by norm_num)
  have := cut_eq w (2 ^ 28) 1048576 (2 ^ 48) (by norm_num)
  have := cut_eq w (2 ^ 8) 1048576 (2 ^ 28) (by norm_num)
  have e0 := Nat.div_add_mod' w (2 ^ 8)
  simp only [fieldsOf, wordOf]
  rw [Nat.mod_eq_of_lt h0]
  generalize w / 2 ^ 80 % 256 = m80 at *
  generalize w / 2 ^ 79 % 2 = m79 at *
  generalize w / 2 ^ 76 % 8 = m76 at *
  generalize w / 2 ^ 72 % 16 = m72 at *
  generalize w / 2 ^ 71 % 2 = m71 at *
  generalize w / 2 ^ 70 % 2 = m70 at *
  generalize w / 2 ^ 68 % 4 = m68 at *
  generalize w / 2 ^ 48 % 1048576 = m48 at *
  generalize w / 2 ^ 28 % 1048576 = m28 at *
  generalize w / 2 ^ 8 % 1048576 = m8 at *
  rw [show (2 : Nat) ^ 8 = 256 by norm_num] at *
  generalize w % 256 = m0 at *
  generalize w / 2 ^ 88 = q88 at *
  generalize w / 2 ^ 80 = q80 at *
  generalize w / 2 ^ 79 = q79 at *
  generalize w / 2 ^ 76 = q76 at *
  generalize w / 2 ^ 72 = q72 at *
  generalize w / 2 ^ 71 = q71 at *
  generalize w / 2 ^ 70 = q70 at *
  generalize w / 2 ^ 68 = q68 at *
  generalize w / 2 ^ 48 = q48 at *
  generalize w / 2 ^ 28 = q28 at *
  generalize w / 256 = q8 at *
  clear h
  norm_num at *; linarith
@[simp] theorem leBytes_length (n x : Nat) : (leBytes n x).length = n := by
  induction n generalizing x with
  | zero => rfl
  | succ n ih => simp [leBytes, ih]
theorem leNat_leBytes (n x : Nat) : leNat (leBytes n x) = x % 256 ^ n := by
  induction n generalizing x with
  | zero => simp [leBytes, leNat, Nat.mod_one]
  | succ n ih =>
    rw [leBytes, leNat, ih, Nat.pow_succ']
    simp only [BitVec.toNat_ofNat]
    rw [Nat.mod_mul]; omega
theorem leNat_lt (bs : List Byte) : leNat bs < 256 ^ bs.length := by
  induction bs with
  | nil => simp [leNat]
  | cons b bs ih => have := b.isLt; simp only [leNat, List.length_cons, Nat.pow_succ']; omega

/-! Operand groups read back from a word's fields; bounds for `Fields.Fit`. -/

theorem SDst.enc_lt (d : SDst) : d.enc < 262144 := by
  have := d.idx.isLt; have := d.wide.toNat_lt; simp only [SDst.enc]; omega
theorem encP_lt (i : BitVec 3) : encP i < 266240 := by have := i.isLt; simp only [encP]; omega
theorem SpanD.enc_lt (d : SpanD) : d.enc < 786432 := by
  have := d.first.isLt; have := d.cnt.isLt; have := d.len.isLt; simp only [SpanD.enc]; omega
theorem Span.enc_lt (d : Span) : d.enc < 786432 := by
  have := d.first.isLt; have := d.len.isLt; simp only [Span.enc]; omega
theorem VSDst.enc_lt (d : VSDst) : d.enc < 262144 := by
  cases d with
  | v d => have := d.enc_lt; simp only [VSDst.enc]; omega
  | s d => exact d.enc_lt
theorem VPDst.enc_lt (d : VPDst) : d.enc < 266240 := by
  cases d with
  | v d => have := d.enc_lt; simp only [VPDst.enc]; omega
  | p d => exact encP_lt d
theorem VNDst.enc_lt (d : VNDst) : d.enc < 786432 := by
  cases d with
  | v d => have := d.enc_lt; simp only [VNDst.enc]; omega
  | n d => exact d.enc_lt
theorem encA_lt (i : BitVec 4) : encA i < 524288 := by have := i.isLt; simp only [encA]; omega
theorem encGs_lt (i : BitVec 4) : encGs i < 524288 := by have := i.isLt; simp only [encGs]; omega
theorem encB_lt (i : BitVec 5) : encB i < 524288 := by have := i.isLt; simp only [encB]; omega
theorem encF_lt (i : BitVec 3) : encF i < 524288 := by have := i.isLt; simp only [encF]; omega
theorem encY_lt (i : BitVec 8) : encY i < 524288 := by have := i.isLt; simp only [encY]; omega
theorem encT_lt (i : BitVec 6) : encT i < 262144 := by have := i.isLt; simp only [encT]; omega
theorem encG_lt (g : Option (BitVec 4)) : encG g < 1048576 := by
  cases g with
  | none => decide
  | some g => have := encGs_lt g; simp only [encG]; omega
theorem encOA_lt (g : Option (BitVec 4)) : encOA g < 1048576 := by
  cases g with
  | none => decide
  | some g => have := encA_lt g; simp only [encOA]; omega
theorem encOS_lt (a : Option Src) : encOS a < 1048576 := by
  cases a with
  | none => decide
  | some a => have := a.enc_lt; simp only [encOS]; omega
theorem encScale_lt (a : Option (BitVec 8)) : encScale a < 256 := by
  cases a with
  | none => decide
  | some a => exact a.isLt
theorem scaleBit_eq (a : Option (BitVec 8)) : scaleBit a = 0 ∨ scaleBit a = 16 := by cases a <;> simp [scaleBit]
theorem BsubLen.ext_lt (l : BsubLen) : l.ext < 256 := by
  cases l with
  | imm n => exact n.isLt
  | scal i => have := i.isLt; simp only [BsubLen.ext]; omega
  | rest => decide
theorem BsubLen.code_lt (l : BsubLen) : l.code < 3 := by cases l <;> simp [BsubLen.code]
@[simp] theorem BsubLen.dec_ext (l : BsubLen) : BsubLen.dec l.code l.ext = l := by
  cases l <;> simp [BsubLen.dec, BsubLen.code, BsubLen.ext]
theorem noneF_lt : noneF < 1048576 := by decide
theorem Src2.opa_lt (a : Src2) : a.opa < 1048576 := by
  cases a with
  | reg x y => have := x.enc_lt; simp only [Src2.opa]; omega
  | wide e w => have := w.bits_lt e.xcls_lt; simp only [Src2.opa]; omega
theorem Src2.opb_lt (a : Src2) : a.opb < 1048576 := by
  cases a with
  | reg x y => have := y.enc_lt; simp only [Src2.opb]; omega
  | wide e w => simp only [Src2.opb]; omega
theorem Src2.ext_lt (a : Src2) : a.ext < 256 := by
  cases a with
  | reg x y => simp [Src2.ext]
  | wide e w => exact e.ext_lt
theorem Src1.opa_lt (a : Src1) : a.opa < 1048576 := by
  cases a with
  | reg x => have := x.enc_lt; simp only [Src1.opa]; omega
  | wide w => have := w.bits_lt (x := 0) (by omega); simp only [Src1.opa]; omega
theorem Src1.opb_lt (a : Src1) : a.opb < 1048576 := by
  cases a with
  | reg x => exact noneF_lt
  | wide w => simp only [Src1.opb]; omega

theorem Hdr.fields_fit (h : Hdr) {j n d a b e : Nat} (h1 : j < 256) (h2 : n < 256) (h3 : d < 1048576) (h4 : a < 1048576)
    (h5 : b < 1048576) (h6 : e < 256) : (h.fields j n d a b e).Fit :=
  ⟨h1, h2, h.gneg.toNat_lt, h.gpred.isLt, h.la.isLt, h.yld.toNat_lt, h.uexp.toNat_lt, by simp [Hdr.fields], h3, h4, h5, h6⟩
theorem Op2.fields_fit (o : Op2) (h : Hdr) {j n : Nat} (h1 : j < 256) (h2 : n < 128) : (o.fields h j n).Fit := by
  have := o.d.enc_lt; have := o.s.wideBit_eq
  exact h.fields_fit h1 (by omega) (by omega) o.s.opa_lt o.s.opb_lt o.s.ext_lt
theorem Op3.fields_fit (o : Op3) (h : Hdr) {j n : Nat} (h1 : j < 256) (h2 : n < 256) : (o.fields h j n).Fit := by
  have := o.d.enc_lt; have := o.a.enc_lt; have := o.b.enc_lt
  exact h.fields_fit h1 h2 (by omega) (by omega) (by omega) o.c.isLt
theorem SOp2.fields_fit (o : SOp2) (h : Hdr) {j n : Nat} (h1 : j < 256) (h2 : n < 128) : (o.fields h j n).Fit := by
  have := o.d.enc_lt; have := o.s.wideBit_eq
  exact h.fields_fit h1 (by omega) (by omega) o.s.opa_lt o.s.opb_lt o.s.ext_lt
theorem ICmp.fields_fit (o : ICmp) (h : Hdr) {j : Nat} (h1 : j < 256) : (o.fields h j).Fit := by
  have := encP_lt o.p; have := o.s.wideBit_eq; have := o.w64.toNat_lt; have := o.sgn.toNat_lt; have := o.cond.code_lt
  exact h.fields_fit h1 (by omega) (by omega) o.s.opa_lt o.s.opb_lt o.s.ext_lt
theorem FCmp.fields_fit (o : FCmp) (h : Hdr) {j : Nat} (h1 : j < 256) : (o.fields h j).Fit := by
  have := encP_lt o.p; have := o.s.wideBit_eq; have := o.cond.code_lt
  exact h.fields_fit h1 (by omega) (by omega) o.s.opa_lt o.s.opb_lt o.s.ext_lt
theorem fields1_fit (h : Hdr) {j n : Nat} (d : VDst) (a : Src) (h1 : j < 256) (h2 : n < 256) : (fields1 h j n d a).Fit := by
  have := d.enc_lt; have := a.enc_lt
  exact h.fields_fit h1 h2 (by omega) (by omega) noneF_lt (by decide)
theorem LdOp.fields_fit (o : LdOp) (h : Hdr) {j : Nat} (h1 : j < 256) : (o.fields h j).Fit := by
  have := o.sz.isLt; have := o.ord.code_lt; have := o.scope.code_lt; have := o.d.enc_lt; have := encB_lt o.b
  have := o.idx.enc_lt
  exact h.fields_fit h1 (by omega) (by omega) (by omega) (by omega) o.w.isLt
theorem StOp.fields_fit (o : StOp) (h : Hdr) {j : Nat} (h1 : j < 256) : (o.fields h j).Fit := by
  have := o.sz.isLt; have := o.ord.code_lt; have := o.scope.code_lt; have := o.v.enc_lt; have := encB_lt o.b
  have := o.idx.enc_lt
  exact h.fields_fit h1 (by omega) (by omega) (by omega) (by omega) o.w.isLt
theorem MmaOp.fields_fit (o : MmaOp) (h : Hdr) {j : Nat} (h1 : j < 256) : (o.fields h j).Fit := by
  cases o with | mk g e t a sp f vs => ?_
  have := e.toNat_lt; have := t.toNat_lt; have := encA_lt a; have := sp.enc_lt; have := encF_lt f
  cases g with
  | none => exact h.fields_fit h1 (by simp only; omega) (by simp only; omega) (by simp only; omega) (by simp only; omega) vs.isLt
  | some g =>
    have := g.isLt
    exact h.fields_fit h1 (by simp only; omega) (by simp only; omega) (by simp only; omega) (by simp only; omega) vs.isLt

theorem Op2.dec_fields (o : Op2) (h : Hdr) {j n : Nat} (hn : n < 128) : Op2.dec (o.fields h j n) = o := by
  cases o with | mk d s => ?_
  have := Src2.dec_of s (Op2.fields h j n ⟨d, s⟩) n hn rfl rfl rfl rfl
  simp only [Op2.dec, this, Op2.mk.injEq, and_true]; exact VDst.dec_enc d
theorem Op3.dec_fields (o : Op3) (h : Hdr) {j n : Nat} : Op3.dec (o.fields h j n) = o := by
  cases o with | mk d a b c => ?_
  simp [Op3.dec, Op3.fields, Hdr.fields]
theorem SOp2.dec_fields (o : SOp2) (h : Hdr) {j n : Nat} (hn : n < 128) : SOp2.dec (o.fields h j n) = o := by
  cases o with | mk d s => ?_
  have := Src2.dec_of s (SOp2.fields h j n ⟨d, s⟩) n hn rfl rfl rfl rfl
  simp only [SOp2.dec, this, SOp2.mk.injEq, and_true]; exact SDst.dec_enc d
theorem ICmp.dec_fields (o : ICmp) (h : Hdr) {j : Nat} : ICmp.dec (o.fields h j) = o := by
  cases o with | mk p w g c s => ?_
  have h1 := s.wideBit_eq; have h2 := w.toNat_lt; have h3 := g.toNat_lt; have h4 := c.code_lt
  have h5 := Src2.dec_of s (ICmp.fields h j ⟨p, w, g, c, s⟩) (w.toNat * 16 + g.toNat * 8 + c.code) (by omega)
    (by simp only [ICmp.fields, Hdr.fields]; omega) rfl rfl rfl
  have h6 : (ICmp.fields h j ⟨p, w, g, c, s⟩).min = s.wideBit + w.toNat * 16 + g.toNat * 8 + c.code := rfl
  simp only [ICmp.dec, h5, h6, ICmp.mk.injEq, and_true]
  refine ⟨decP_encP p, bit_eq (by omega), bit_eq (by omega), ?_⟩
  rw [show (s.wideBit + w.toNat * 16 + g.toNat * 8 + c.code) % 8 = c.code by omega]; simp
theorem FCmp.dec_fields (o : FCmp) (h : Hdr) {j : Nat} : FCmp.dec (o.fields h j) = o := by
  cases o with | mk p c s => ?_
  have h1 := s.wideBit_eq; have h4 := c.code_lt
  have h5 := Src2.dec_of s (FCmp.fields h j ⟨p, c, s⟩) c.code (by omega) rfl rfl rfl rfl
  have h6 : (FCmp.fields h j ⟨p, c, s⟩).min = s.wideBit + c.code := rfl
  simp only [FCmp.dec, h5, h6, FCmp.mk.injEq, and_true]
  refine ⟨decP_encP p, ?_⟩
  rw [show (s.wideBit + c.code) % 8 = c.code by omega]; simp
/-- SZ, ORD and SCOPE share MIN (R193). -/
theorem ordScope_of (z : Nat) (o : Ord) (c : Scope) {m : Nat} (h : m = z * 16 + o.code * 4 + c.code) :
    m / 16 = z ∧ Ord.ofCode (m / 4 % 4) = o ∧ Scope.ofCode (m % 4) = c := by
  have h2 := o.code_lt; have h3 := c.code_lt
  refine ⟨by omega, ?_, ?_⟩
  · rw [show m / 4 % 4 = o.code by omega]; simp
  · rw [show m % 4 = c.code by omega]; simp
theorem LdOp.dec_fields (o : LdOp) (h : Hdr) {j : Nat} : LdOp.dec (o.fields h j) = o := by
  cases o with | mk z c o d b i w => ?_
  obtain ⟨h1, h2, h3⟩ := ordScope_of z.toNat o c (m := (LdOp.fields h j ⟨z, c, o, d, b, i, w⟩).min) rfl
  simp only [LdOp.dec, h1, h2, h3, LdOp.mk.injEq]
  exact ⟨ofNat_eq rfl, trivial, trivial, VDst.dec_enc d, decB_encB b, Src.dec_enc i, ofNat_eq rfl⟩
theorem StOp.dec_fields (o : StOp) (h : Hdr) {j : Nat} : StOp.dec (o.fields h j) = o := by
  cases o with | mk z c o b i v w => ?_
  obtain ⟨h1, h2, h3⟩ := ordScope_of z.toNat o c (m := (StOp.fields h j ⟨z, c, o, b, i, v, w⟩).min) rfl
  simp only [StOp.dec, h1, h2, h3, StOp.mk.injEq]
  exact ⟨ofNat_eq rfl, trivial, trivial, decB_encB b, Src.dec_enc i, Src.dec_enc v, ofNat_eq rfl⟩
theorem MmaOp.dec_fields (o : MmaOp) (h : Hdr) {j : Nat} : MmaOp.dec (o.fields h j) = o := by
  cases o with | mk g e t a sp f vs => ?_
  have h2 := e.toNat_lt; have h3 := t.toNat_lt
  cases g with
  | none =>
    have h1 : (MmaOp.fields h j ⟨none, e, t, a, sp, f, vs⟩).min = 0 + e.toNat * 32 + t.toNat * 64 := rfl
    simp only [MmaOp.dec, h1, MmaOp.mk.injEq]
    refine ⟨if_neg (by omega), bit_eq (by omega), bit_eq (by omega), decA_encA a, Span.dec_enc sp, decF_encF f, ofNat_eq rfl⟩
  | some g =>
    have h0 := g.isLt
    have h1 : (MmaOp.fields h j ⟨some g, e, t, a, sp, f, vs⟩).min = 16 + g.toNat + e.toNat * 32 + t.toNat * 64 := rfl
    simp only [MmaOp.dec, h1, MmaOp.mk.injEq]
    rw [if_pos (by omega)]
    refine ⟨congrArg _ (ofNat_eq (by omega)), bit_eq (by omega), bit_eq (by omega), decA_encA a, Span.dec_enc sp, decF_encF f,
      ofNat_eq rfl⟩
theorem decScale_of (sc : Option (BitVec 8)) (f : Fields) (h1 : f.min = scaleBit sc) (h2 : f.ext = encScale sc) :
    decScale f = sc := by
  cases sc with
  | none => simp [decScale, h1, scaleBit]
  | some v => simp [decScale, h1, h2, scaleBit, encScale]

end Sys2Proof
end

