-- ==== Sys2Proof/Laws/Mem.lean ====
section
/-! SUPPORT. Memory: reading after writing, and that every memory operation keeps the canonical form (R6; log 5). -/

namespace Sys2Proof.Machine

open Sys2Proof

theorem Memory.wf_cons {x : Nat} {b : Byte} {m : Memory} :
    Memory.wf ((x, b) :: m) = true ↔ b ≠ 0 ∧ (∀ c ∈ m, x < c.1) ∧ Memory.wf m = true := by
  simp [Memory.wf, and_assoc]

/-- Every address below the first listed one reads 0. -/
theorem Memory.read_below {m : Memory} {a : Nat} (h : ∀ c ∈ m, a < c.1) : m.read a = 0 := by
  cases m with
  | nil => rfl
  | cons c m =>
    obtain ⟨x, b⟩ := c
    have := h (x, b) (by simp)
    simp only at this
    rw [Memory.read, if_neg (by omega), if_pos this]

theorem Memory.mem_set {m : Memory} {a : Nat} {v : Byte} {c : Host.Cell} (h : c ∈ m.set a v) : c = (a, v) ∨ c ∈ m := by
  induction m with
  | nil => simp only [Memory.set] at h; split at h <;> simp_all
  | cons p m ih =>
    obtain ⟨x, b⟩ := p
    simp only [Memory.set] at h
    split at h
    · split at h <;> simp_all
      rcases h with h | h <;> simp [h]
    · split at h
      · split at h <;> simp_all
      · rcases List.mem_cons.mp h with h | h
        · simp [h]
        · rcases ih h with h | h <;> simp [h]

/-- A write keeps the canonical form. -/
theorem Memory.set_wf {m : Memory} (h : m.wf = true) (a : Nat) (v : Byte) : (m.set a v).wf = true := by
  induction m with
  | nil => simp only [Memory.set]; split <;> simp_all [Memory.wf]
  | cons p m ih =>
    obtain ⟨x, b⟩ := p
    obtain ⟨hb, hx, hm⟩ := Memory.wf_cons.mp h
    simp only [Memory.set]
    split
    · subst x
      split
      · exact hm
      · exact Memory.wf_cons.mpr ⟨‹_›, hx, hm⟩
    · split
      · split
        · exact h
        · refine Memory.wf_cons.mpr ⟨‹_›, ?_, h⟩
          intro c hc
          rcases List.mem_cons.mp hc with rfl | hc
          · assumption
          · exact Nat.lt_trans ‹_› (hx c hc)
      · refine Memory.wf_cons.mpr ⟨hb, ?_, ih hm⟩
        intro c hc
        rcases Memory.mem_set hc with rfl | hc
        · simp only; omega
        · exact hx c hc

/-- A byte reads back as it was written. -/
@[simp] theorem Memory.read_set_same {m : Memory} (h : m.wf = true) (a : Nat) (v : Byte) : (m.set a v).read a = v := by
  induction m with
  | nil => simp only [Memory.set]; split <;> simp_all [Memory.read]
  | cons p m ih =>
    obtain ⟨x, b⟩ := p
    obtain ⟨hb, hx, hm⟩ := Memory.wf_cons.mp h
    simp only [Memory.set]
    split
    · subst x
      split
      · subst v; exact Memory.read_below hx
      · simp [Memory.read]
    · split
      · split
        · subst v; rw [Memory.read, if_neg (by assumption), if_pos (by assumption)]
        · simp [Memory.read]
      · rw [Memory.read, if_neg (by assumption), if_neg (by assumption), ih hm]

/-- A write leaves every other byte alone. -/
theorem Memory.read_set_ne {m : Memory} (h : m.wf = true) {a c : Nat} (v : Byte) (hne : c ≠ a) :
    (m.set a v).read c = m.read c := by
  induction m with
  | nil => simp only [Memory.set]; split <;> simp_all [Memory.read]
  | cons p m ih =>
    obtain ⟨x, b⟩ := p
    obtain ⟨hb, hx, hm⟩ := Memory.wf_cons.mp h
    simp only [Memory.set]
    split
    · subst x
      split
      · rw [Memory.read, if_neg hne]
        split
        · exact Memory.read_below fun d hd => Nat.lt_trans ‹_› (hx d hd)
        · rfl
      · simp [Memory.read, hne]
    · split
      · split
        · rfl
        · rw [Memory.read, if_neg hne]
          split
          · rw [Memory.read, if_neg (by omega), if_pos (by omega)]
          · rfl
      · rw [Memory.read, Memory.read, ih hm]

theorem Memory.read_set {m : Memory} (h : m.wf = true) (a c : Nat) (v : Byte) :
    (m.set a v).read c = if c = a then v else m.read c := by
  split
  · subst c; exact Memory.read_set_same h a v
  · exact Memory.read_set_ne h v ‹_›

/-- The writes of a step keep the canonical form. -/
theorem Memory.apply_wf {m : Memory} (h : m.wf = true) (ws : List Host.Cell) : (m.apply ws).wf = true := by
  induction ws with
  | nil => exact h
  | cons c ws ih => exact Memory.set_wf ih c.1 c.2

/-- After the writes of a step a byte reads as the newest write to it, or as before. -/
theorem Memory.read_apply {m : Memory} (h : m.wf = true) (ws : List Host.Cell) (a : Nat) :
    (m.apply ws).read a = match ws.find? (fun c => c.1 == a) with | some c => c.2 | none => m.read a := by
  induction ws with
  | nil => rfl
  | cons c ws ih =>
    obtain ⟨x, v⟩ := c
    show ((m.apply ws).set x v).read a = _
    rw [Memory.read_set (Memory.apply_wf h ws), List.find?_cons]
    by_cases hx : a = x
    · simp [hx]
    · rw [if_neg hx, ih, show (x == a) = false by simpa using Ne.symm hx]

theorem Memory.setBytes_wf {m : Memory} (h : m.wf = true) (bs : List Byte) (a : Nat) : (m.setBytes a bs).wf = true := by
  induction bs generalizing m a with
  | nil => exact h
  | cons b bs ih => exact ih (Memory.set_wf h a b) (a + 1)

@[simp] theorem Memory.bytes_length (m : Memory) (a n : Nat) : (m.bytes a n).length = n := by
  induction n generalizing a with
  | zero => rfl
  | succ n ih => simp [Memory.bytes, ih]

/-- Two memories in canonical form that read alike everywhere are equal. -/
theorem Memory.ext {m n : Memory} (hm : m.wf = true) (hn : n.wf = true) (h : ∀ a, m.read a = n.read a) : m = n := by
  induction m generalizing n with
  | nil =>
    cases n with
    | nil => rfl
    | cons c n =>
      obtain ⟨x, b⟩ := c
      have := h x
      simp [Memory.read] at this
      exact absurd this.symm (Memory.wf_cons.mp hn).1
  | cons c m ih =>
    obtain ⟨x, b⟩ := c
    obtain ⟨hb, hx, hm'⟩ := Memory.wf_cons.mp hm
    cases n with
    | nil => have := h x; simp [Memory.read] at this; exact absurd this hb
    | cons e n =>
      obtain ⟨y, v⟩ := e
      obtain ⟨hv, hy, hn'⟩ := Memory.wf_cons.mp hn
      have hxy : x = y := by
        rcases Nat.lt_trichotomy x y with hlt | heq | hlt
        · have := h x
          rw [Memory.read, if_pos rfl, Memory.read, if_neg (by omega), if_pos hlt] at this
          exact absurd this hb
        · exact heq
        · have := h y
          rw [Memory.read, if_neg (by omega), if_pos hlt, Memory.read, if_pos rfl] at this
          exact absurd this.symm hv
      subst y
      have hbv : b = v := by have := h x; simpa [Memory.read] using this
      subst v
      congr 1
      refine ih hm' hn' fun a => ?_
      have := h a
      by_cases ha : a ≤ x
      · rw [Memory.read_below fun d hd => Nat.lt_of_le_of_lt ha (hx d hd),
          Memory.read_below fun d hd => Nat.lt_of_le_of_lt ha (hy d hd)]
      · rw [Memory.read, if_neg (by omega), if_neg (by omega), Memory.read, if_neg (by omega), if_neg (by omega)] at this
        exact this

/-- The one way a step writes memory keeps the canonical form and leaves no write pending. -/
theorem State.commit_inv {s : State} (h : s.mem.wf = true) (d : Device) : (s.commit d).mem.wf = true ∧ (s.commit d).dev.writes = [] :=
  ⟨Memory.apply_wf h d.writes, rfl⟩

end Sys2Proof.Machine
end

