-- ==== Sys2Proof/Laws/Moves.lean ====
section
/-! SUPPORT. What the shared conditions and ends of moves say: a thread's own cycle, its waits, and the completion of long-latency
instructions. -/

namespace Sys2Proof.Machine

open Sys2Proof

theorem Thread.reached_of_lane {x : Thread} {now : Nat} (po : Nat) (h : x.lane ≤ now + 1) : x.reached now po = true := by
  simp [Thread.reached, h]
theorem Thread.reached_of_before {x : Thread} {po : Nat} (now : Nat) (h : po < x.since) : x.reached now po = true := by
  simp [Thread.reached, h]

/-- No entry leaves before its thread's own cycle (R43, R224). -/
theorem Device.leaves_reached {d : Device} {i : ThreadId} {x : Thread} {e : Entry} (h : d.leaves i x e = true) : x.reached d.now e.po = true := by
  simp only [Device.leaves, Bool.and_eq_true] at h
  simp_all
theorem Device.mayLoad_reached {d : Device} {i : ThreadId} {x : Thread} {e : Entry} (h : d.mayLoad i x e = true) : x.reached d.now e.po = true := by
  simp only [Device.mayLoad, Bool.and_eq_true] at h
  exact h.1.1.1
theorem Device.retires_reached {d : Device} {i : ThreadId} {x : Thread} {e : Entry} (h : d.retires i x e = true) : x.reached d.now e.po = true := by
  simp only [Device.retires, Bool.and_eq_true] at h
  exact h.1

/-- A wait that may end is that of a thread at barrier whose own cycle has come, in a pack that no save has taken (R38, R43, R323). -/
theorem Device.waitOf_some {d : Device} {i : ThreadId} {w : Wait} (h : d.waitOf i = some w) :
    ∃ t p x, d.team i.core i.slot = some t ∧ d.pack i.core i.slot i.pack = some p ∧ d.thread i = some x ∧ t.saving = none ∧ p.sliceDone = false ∧
      x.lane ≤ d.now + 1 ∧ x.status = .atBarrier w := by
  unfold Device.waitOf at h
  split at h
  · rename_i t p x ht hp hx
    split at h
    · cases h
    · rename_i hc
      simp only [Bool.or_eq_true, decide_eq_true_eq, not_or, Bool.not_eq_true, Option.isSome_eq_false_iff, Option.isNone_iff_eq_none,
        Nat.not_lt] at hc
      split at h
      · rename_i w' hs
        cases h
        exact ⟨t, p, x, ht, hp, hx, hc.1.1, hc.1.2, hc.2, hs⟩
      · cases h
  · cases h

/-- An instruction with a value still to come changes nothing by the arrival of another (R45; log 96). -/
theorem Pack.finish_of_unsettled {p : Pack} {group : Nat} (h : p.settled group = false) : p.finish group = p := by
  simp [Pack.finish, h]
theorem Pack.arrive_of_unsettled {p : Pack} {now id : Nat} (h : ∀ f ∈ p.flights, p.settled f.group = false) : p.arrive now id = p := by
  unfold Pack.arrive
  split
  · exact Pack.finish_of_unsettled (h _ (List.mem_of_find?_eq_some ‹_›))
  · rfl

/-- A list of pending faults gains no other than the one put in (R328). -/
theorem mem_insertFault {f g : PendFault} {l : List PendFault} (h : g ∈ insertFault f l) : g = f ∨ g ∈ l := by
  induction l with
  | nil => simpa [insertFault] using h
  | cons a l ih =>
    simp only [insertFault] at h
    split at h
    · rcases List.mem_cons.mp h with h | h
      · exact .inr (h ▸ List.mem_cons_self ..)
      · exact (ih h).imp_right (List.mem_cons_of_mem _)
    · split at h
      · exact .inr h
      · exact (List.mem_cons.mp h).imp_right id

end Sys2Proof.Machine
end

