-- ==== Sys2Proof/Laws/PerInstr.lean ====
section
/-! SUPPORT. The family `ReadBack`: for every constructor, the fields of its word fit and the opcode map reads the instruction back from them. -/

namespace Sys2Proof

theorem Rnd.of_eq {a : Rnd} {m : Nat} (h : m = a.code) : Rnd.ofCode m = a := by subst h; simp
theorem Scope.of_eq {a : Scope} {m : Nat} (h : m = a.code) : Scope.ofCode m = a := by subst h; simp
theorem Ord.of_eq {a : Ord} {m : Nat} (h : m = a.code) : Ord.ofCode m = a := by subst h; simp
theorem BsubLen.of_eq (l : BsubLen) {m : Nat} (h : m = l.code) : BsubLen.dec m l.ext = l := by subst h; simp
theorem cntrOne_ne {f : BitVec 2} (h : Hdr) (n : Src) (d : VSDst) (hw : (Instr.cntr h (.one f d) n).wf = true) : ¬ f.toNat = 3 := by
  intro hf
  rw [show f = 3 from BitVec.eq_of_toNat_eq hf] at hw
  simp [Instr.wf] at hw

/-- The fields of the word of a well-formed i fit, and the opcode map reads i back from them. -/
def Laws.ReadBack.Statement (i : Instr) : Prop :=
  i.wf = true → ∀ f, i.toFields = some f → f.Fit ∧ build f = some i

/-- The raw fields of a hint word, its major 240 + m. -/
def Fields.hint (f : Fields) (m : Nat) : HintWord :=
  ⟨BitVec.ofNat 4 m, BitVec.ofNat 8 f.min, BitVec.ofNat 2 f.rsv, BitVec.ofNat 20 f.opd, BitVec.ofNat 20 f.opa,
    BitVec.ofNat 20 f.opb, BitVec.ofNat 8 f.ext⟩
theorem buildHint_near (h : Hdr) (f : Fields) (m : Nat) (hm : f.maj = 240 + m) (hn : (f.hint m).isNear = true) :
    buildHint h f = .hnear h (BitVec.ofNat 2 f.min) (decB f.opa) (Src.dec f.opb) := by
  simp only [Fields.hint] at hn
  simp only [buildHint, hm, Nat.add_sub_cancel_left, hn, if_true]
theorem buildHint_est (h : Hdr) (f : Fields) (m : Nat) (hm : f.maj = 240 + m) (hn : (f.hint m).isNear = false)
    (he : (f.hint m).isEst = true) : buildHint h f = .hest h (VDst.dec f.opd) := by
  simp only [Fields.hint] at hn he
  simp [buildHint, hm, Nat.add_sub_cancel_left, hn, he]
/-- The raw fields of a well-formed `hnear` are those of R117. -/
theorem isNear_of (h : Hdr) (c : BitVec 2) (b : BitVec 5) (idx : Src) (hw : (Instr.hnear h c b idx).wf = true) :
    ((h.fields 240 c.toNat noneF (encB b) idx.enc 0).hint 0).isNear = true := by
  simp only [Fields.hint, Hdr.fields]
  have hb := b.isLt
  have hbe : (BitVec.ofNat 20 (encB b)).toNat = 425984 + b.toNat * 64 := by
    simp only [encB, BitVec.toNat_ofNat]; omega
  have hi : (BitVec.ofNat 20 idx.enc).toNat = idx.enc := by
    have := idx.enc_lt; simp only [BitVec.toNat_ofNat]; omega
  have hc0 := c.isLt
  have hc : (BitVec.ofNat 8 c.toNat).toNat = c.toNat := by simp only [BitVec.toNat_ofNat]; omega
  simp only [Instr.wf, hnearOk, Bool.and_eq_true, bne_iff_ne, ne_eq] at hw
  have hc3 : c.toNat ≠ 3 := fun hx => hw.1 (BitVec.eq_of_toNat_eq hx)
  simp only [HintWord.isNear, hbe, hi, hc, Bool.and_eq_true, Bool.or_eq_true, beq_iff_eq, decide_eq_true_eq]
  refine ⟨⟨⟨⟨⟨⟨⟨⟨rfl, by omega⟩, rfl⟩, rfl⟩, rfl⟩, by omega⟩, by omega⟩, by omega⟩, ?_⟩
  have hw2 := hw.2
  cases idx with
  | imm v => left; have := v.isLt; simp only [Src.enc]; omega
  | name n =>
    right
    have := n.idx.isLt; have := n.comp.code_lt
    simp only [nameOk, NameSrc.shapeOk] at hw2
    cases n with | mk i ng ab hf wd cp => ?_
    cases ng <;> cases ab <;> cases hf <;> cases wd <;> simp at hw2
    simp only [Src.enc, Half.code, Bool.toNat_false] at *
    omega
  | _ => simp at hw2

/-- The raw fields of a well-formed `hest` are those of R118, and not those of R117. -/
theorem isEst_of (h : Hdr) (d : VDst) (hw : (Instr.hest h d).wf = true) :
    ((h.fields 241 0 d.enc noneF noneF 0).hint 1).isNear = false ∧ ((h.fields 241 0 d.enc noneF noneF 0).hint 1).isEst = true := by
  simp only [Fields.hint, Hdr.fields]
  have hd : (BitVec.ofNat 20 d.enc).toNat = d.enc := by
    have := d.enc_lt; simp only [BitVec.toNat_ofNat]; omega
  refine ⟨by simp [HintWord.isNear], ?_⟩
  simp only [HintWord.isEst, hd, Bool.and_eq_true, beq_iff_eq]
  have := d.idx.isLt; have := d.cnt.isLt
  cases d with | mk i c w => ?_
  cases w <;> simp [Instr.wf] at hw
  simp only [VDst.enc, Bool.toNat_false] at *
  refine ⟨⟨⟨⟨⟨⟨⟨rfl, rfl⟩, rfl⟩, by omega⟩, by omega⟩, by decide⟩, by decide⟩, rfl⟩

theorem Laws.ReadBack.nop (h : Hdr) : Laws.ReadBack.Statement (.nop h) := by
  intro hw f hf
  obtain rfl := Option.some.inj hf
  have := noneF_lt
  exact ⟨Hdr.fields_fit _ (by decide) (by omega) (by omega) (by omega) (by omega) (by omega), congrArg some (Eq.mpr (Instr.nop.injEq ..) (Hdr.ofFields_fields ..))⟩
theorem Laws.ReadBack.bra (h : Hdr) (disp : BitVec 17) (slot : BitVec 4) : Laws.ReadBack.Statement (.bra h disp slot) := by
  intro hw f hf
  obtain rfl := Option.some.inj hf
  have := noneF_lt; have := disp.isLt; have := slot.isLt; have := encA_lt slot; have := encGs_lt slot
  exact ⟨Hdr.fields_fit _ (by decide) (by omega) (by omega) (by omega) (by omega) (by omega), congrArg some (Eq.mpr (Instr.bra.injEq ..) ⟨Hdr.ofFields_fields .., decI_imm _, ofNat_eq (by first | rfl | (simp only [Op2.fields, SOp2.fields, Hdr.fields, fields1]; omega))⟩)⟩
theorem Laws.ReadBack.brx (h : Hdr) (a : Src) : Laws.ReadBack.Statement (.brx h a) := by
  intro hw f hf
  obtain rfl := Option.some.inj hf
  have := noneF_lt; have := a.enc_lt
  exact ⟨Hdr.fields_fit _ (by decide) (by omega) (by omega) (by omega) (by omega) (by omega), congrArg some (Eq.mpr (Instr.brx.injEq ..) ⟨Hdr.ofFields_fields .., Src.dec_enc _⟩)⟩
theorem Laws.ReadBack.call (h : Hdr) (dst : VSDst) (disp : BitVec 17) (slot : BitVec 4) : Laws.ReadBack.Statement (.call h dst disp slot) := by
  intro hw f hf
  obtain rfl := Option.some.inj hf
  have := noneF_lt; have := dst.enc_lt; have := disp.isLt; have := slot.isLt; have := encA_lt slot; have := encGs_lt slot
  exact ⟨Hdr.fields_fit _ (by decide) (by omega) (by omega) (by omega) (by omega) (by omega), congrArg some (Eq.mpr (Instr.call.injEq ..) ⟨Hdr.ofFields_fields .., VSDst.dec_enc _, decI_imm _, ofNat_eq (by first | rfl | (simp only [Op2.fields, SOp2.fields, Hdr.fields, fields1]; omega))⟩)⟩
theorem Laws.ReadBack.ret (h : Hdr) (a : Src) : Laws.ReadBack.Statement (.ret h a) := by
  intro hw f hf
  obtain rfl := Option.some.inj hf
  have := noneF_lt; have := a.enc_lt
  exact ⟨Hdr.fields_fit _ (by decide) (by omega) (by omega) (by omega) (by omega) (by omega), congrArg some (Eq.mpr (Instr.ret.injEq ..) ⟨Hdr.ofFields_fields .., Src.dec_enc _⟩)⟩
theorem Laws.ReadBack.split (h : Hdr) (disp : BitVec 17) (slot : BitVec 4) : Laws.ReadBack.Statement (.split h disp slot) := by
  intro hw f hf
  obtain rfl := Option.some.inj hf
  have := noneF_lt; have := disp.isLt; have := slot.isLt; have := encA_lt slot; have := encGs_lt slot
  exact ⟨Hdr.fields_fit _ (by decide) (by omega) (by omega) (by omega) (by omega) (by omega), congrArg some (Eq.mpr (Instr.split.injEq ..) ⟨Hdr.ofFields_fields .., decI_imm _, ofNat_eq (by first | rfl | (simp only [Op2.fields, SOp2.fields, Hdr.fields, fields1]; omega))⟩)⟩
theorem Laws.ReadBack.join (h : Hdr) : Laws.ReadBack.Statement (.join h) := by
  intro hw f hf
  obtain rfl := Option.some.inj hf
  have := noneF_lt
  exact ⟨Hdr.fields_fit _ (by decide) (by omega) (by omega) (by omega) (by omega) (by omega), congrArg some (Eq.mpr (Instr.join.injEq ..) (Hdr.ofFields_fields ..))⟩
theorem Laws.ReadBack.brk (h : Hdr) (n : BitVec 4) (disp : BitVec 17) (slot : BitVec 4) : Laws.ReadBack.Statement (.brk h n disp slot) := by
  intro hw f hf
  obtain rfl := Option.some.inj hf
  have := noneF_lt; have := n.isLt; have := encA_lt n; have := encGs_lt n; have := disp.isLt; have := slot.isLt; have := encA_lt slot; have := encGs_lt slot
  exact ⟨Hdr.fields_fit _ (by decide) (by omega) (by omega) (by omega) (by omega) (by omega), congrArg some (Eq.mpr (Instr.brk.injEq ..) ⟨Hdr.ofFields_fields .., ofNat_eq (by first | rfl | (simp only [Op2.fields, SOp2.fields, Hdr.fields, fields1]; omega)), decI_imm _, ofNat_eq (by first | rfl | (simp only [Op2.fields, SOp2.fields, Hdr.fields, fields1]; omega))⟩)⟩
theorem Laws.ReadBack.exit (h : Hdr) : Laws.ReadBack.Statement (.exit h) := by
  intro hw f hf
  obtain rfl := Option.some.inj hf
  have := noneF_lt
  exact ⟨Hdr.fields_fit _ (by decide) (by omega) (by omega) (by omega) (by omega) (by omega), congrArg some (Eq.mpr (Instr.exit.injEq ..) (Hdr.ofFields_fields ..))⟩
theorem Laws.ReadBack.yield (h : Hdr) : Laws.ReadBack.Statement (.yield h) := by
  intro hw f hf
  obtain rfl := Option.some.inj hf
  have := noneF_lt
  exact ⟨Hdr.fields_fit _ (by decide) (by omega) (by omega) (by omega) (by omega) (by omega), congrArg some (Eq.mpr (Instr.yield.injEq ..) (Hdr.ofFields_fields ..))⟩
theorem Laws.ReadBack.trap (h : Hdr) (n : BitVec 17) : Laws.ReadBack.Statement (.trap h n) := by
  intro hw f hf
  obtain rfl := Option.some.inj hf
  have := noneF_lt; have := n.isLt
  exact ⟨Hdr.fields_fit _ (by decide) (by omega) (by omega) (by omega) (by omega) (by omega), congrArg some (Eq.mpr (Instr.trap.injEq ..) ⟨Hdr.ofFields_fields .., decI_imm _⟩)⟩
theorem Laws.ReadBack.trapDbg (h : Hdr) (n : BitVec 17) : Laws.ReadBack.Statement (.trapDbg h n) := by
  intro hw f hf
  obtain rfl := Option.some.inj hf
  have := noneF_lt; have := n.isLt
  exact ⟨Hdr.fields_fit _ (by decide) (by omega) (by omega) (by omega) (by omega) (by omega), congrArg some (Eq.mpr (Instr.trapDbg.injEq ..) ⟨Hdr.ofFields_fields .., decI_imm _⟩)⟩
theorem Laws.ReadBack.spawn (h : Hdr) (d : VDst) (b : BitVec 5) (idx : Src) : Laws.ReadBack.Statement (.spawn h d b idx) := by
  intro hw f hf
  obtain rfl := Option.some.inj hf
  have := noneF_lt; have := d.enc_lt; have := b.isLt; have := encB_lt b; have := idx.enc_lt
  exact ⟨Hdr.fields_fit _ (by decide) (by omega) (by omega) (by omega) (by omega) (by omega), congrArg some (Eq.mpr (Instr.spawn.injEq ..) ⟨Hdr.ofFields_fields .., VDst.dec_enc _, decB_encB _, Src.dec_enc _⟩)⟩
theorem Laws.ReadBack.cwait (h : Hdr) (a : Src) : Laws.ReadBack.Statement (.cwait h a) := by
  intro hw f hf
  obtain rfl := Option.some.inj hf
  have := noneF_lt; have := a.enc_lt
  exact ⟨Hdr.fields_fit _ (by decide) (by omega) (by omega) (by omega) (by omega) (by omega), congrArg some (Eq.mpr (Instr.cwait.injEq ..) ⟨Hdr.ofFields_fields .., Src.dec_enc _⟩)⟩
theorem Laws.ReadBack.cwaitAll (h : Hdr) : Laws.ReadBack.Statement (.cwaitAll h) := by
  intro hw f hf
  obtain rfl := Option.some.inj hf
  have := noneF_lt
  exact ⟨Hdr.fields_fit _ (by decide) (by omega) (by omega) (by omega) (by omega) (by omega), congrArg some (Eq.mpr (Instr.cwaitAll.injEq ..) (Hdr.ofFields_fields ..))⟩
theorem Laws.ReadBack.sleep (h : Hdr) (a : Src) : Laws.ReadBack.Statement (.sleep h a) := by
  intro hw f hf
  obtain rfl := Option.some.inj hf
  have := noneF_lt; have := a.enc_lt
  exact ⟨Hdr.fields_fit _ (by decide) (by omega) (by omega) (by omega) (by omega) (by omega), congrArg some (Eq.mpr (Instr.sleep.injEq ..) ⟨Hdr.ofFields_fields .., Src.dec_enc _⟩)⟩
theorem Laws.ReadBack.mov (h : Hdr) (dst : VNDst) (a : Src1) (ext : BitVec 8) : Laws.ReadBack.Statement (.mov h dst a ext) := by
  intro hw f hf
  obtain rfl := Option.some.inj hf
  have := noneF_lt; have := dst.enc_lt; have := a.wideBit_eq; have := a.opa_lt; have := a.opb_lt; have := ext.isLt; have := encY_lt ext
  exact ⟨Hdr.fields_fit _ (by decide) (by omega) (by omega) (by omega) (by omega) (by omega), congrArg some (Eq.mpr (Instr.mov.injEq ..) ⟨Hdr.ofFields_fields .., VNDst.dec_enc _, Src1.dec_of _ _ rfl rfl rfl, ofNat_eq (by first | rfl | (simp only [Op2.fields, SOp2.fields, Hdr.fields, fields1]; omega))⟩)⟩
theorem Laws.ReadBack.drop (h : Hdr) (k : BitVec 4) (v : Src) (ext : BitVec 8) : Laws.ReadBack.Statement (.drop h k v ext) := by
  intro hw f hf
  obtain rfl := Option.some.inj hf
  have := noneF_lt; have := k.isLt; have := encA_lt k; have := encGs_lt k; have := v.enc_lt; have := ext.isLt; have := encY_lt ext
  exact ⟨Hdr.fields_fit _ (by decide) (by omega) (by omega) (by omega) (by omega) (by omega), congrArg some (Eq.mpr (Instr.drop.injEq ..) ⟨Hdr.ofFields_fields .., ofNat_eq (by first | rfl | (simp only [Op2.fields, SOp2.fields, Hdr.fields, fields1]; omega)), Src.dec_enc _, ofNat_eq (by first | rfl | (simp only [Op2.fields, SOp2.fields, Hdr.fields, fields1]; omega))⟩)⟩
theorem Laws.ReadBack.keep (h : Hdr) (k : BitVec 4) (v : Src) (ext : BitVec 8) : Laws.ReadBack.Statement (.keep h k v ext) := by
  intro hw f hf
  obtain rfl := Option.some.inj hf
  have := noneF_lt; have := k.isLt; have := encA_lt k; have := encGs_lt k; have := v.enc_lt; have := ext.isLt; have := encY_lt ext
  exact ⟨Hdr.fields_fit _ (by decide) (by omega) (by omega) (by omega) (by omega) (by omega), congrArg some (Eq.mpr (Instr.keep.injEq ..) ⟨Hdr.ofFields_fields .., ofNat_eq (by first | rfl | (simp only [Op2.fields, SOp2.fields, Hdr.fields, fields1]; omega)), Src.dec_enc _, ofNat_eq (by first | rfl | (simp only [Op2.fields, SOp2.fields, Hdr.fields, fields1]; omega))⟩)⟩
theorem Laws.ReadBack.live (h : Hdr) (form : LiveForm) (d : VDst) : Laws.ReadBack.Statement (.live h form d) := by
  intro hw f hf
  cases form with
  | plain v =>
    obtain rfl := Option.some.inj hf
    have := noneF_lt; have := d.enc_lt; have := v.enc_lt
    exact ⟨Hdr.fields_fit _ (by decide) (by omega) (by omega) (by omega) (by omega) (by omega), congrArg some (Eq.mpr (Instr.live.injEq ..) ⟨Hdr.ofFields_fields .., congrArg LiveForm.plain (Src.dec_enc _), VDst.dec_enc _⟩)⟩
  | pack =>
    obtain rfl := Option.some.inj hf
    have := noneF_lt; have := d.enc_lt
    exact ⟨Hdr.fields_fit _ (by decide) (by omega) (by omega) (by omega) (by omega) (by omega), congrArg some (Eq.mpr (Instr.live.injEq ..) ⟨Hdr.ofFields_fields .., rfl, VDst.dec_enc _⟩)⟩
  | team =>
    obtain rfl := Option.some.inj hf
    have := noneF_lt; have := d.enc_lt
    exact ⟨Hdr.fields_fit _ (by decide) (by omega) (by omega) (by omega) (by omega) (by omega), congrArg some (Eq.mpr (Instr.live.injEq ..) ⟨Hdr.ofFields_fields .., rfl, VDst.dec_enc _⟩)⟩
theorem Laws.ReadBack.iadd (h : Hdr) (o : Op2) : Laws.ReadBack.Statement (.iadd h o) := by
  intro hw f hf
  obtain rfl := Option.some.inj hf
  have := noneF_lt; have := o.s.wideBit_eq
  exact ⟨Op2.fields_fit _ _ (by decide) (by omega), congrArg some (Eq.mpr (Instr.iadd.injEq ..) ⟨Hdr.ofFields_fields .., Op2.dec_fields _ _ (by omega)⟩)⟩
theorem Laws.ReadBack.isub (h : Hdr) (o : Op2) : Laws.ReadBack.Statement (.isub h o) := by
  intro hw f hf
  obtain rfl := Option.some.inj hf
  have := noneF_lt; have := o.s.wideBit_eq
  exact ⟨Op2.fields_fit _ _ (by decide) (by omega), congrArg some (Eq.mpr (Instr.isub.injEq ..) ⟨Hdr.ofFields_fields .., Op2.dec_fields _ _ (by omega)⟩)⟩
theorem Laws.ReadBack.imul (h : Hdr) (o : Op2) : Laws.ReadBack.Statement (.imul h o) := by
  intro hw f hf
  obtain rfl := Option.some.inj hf
  have := noneF_lt; have := o.s.wideBit_eq
  exact ⟨Op2.fields_fit _ _ (by decide) (by omega), congrArg some (Eq.mpr (Instr.imul.injEq ..) ⟨Hdr.ofFields_fields .., Op2.dec_fields _ _ (by omega)⟩)⟩
theorem Laws.ReadBack.imulh (h : Hdr) (sgn : Bool) (o : Op2) : Laws.ReadBack.Statement (.imulh h sgn o) := by
  intro hw f hf
  obtain rfl := Option.some.inj hf
  have := noneF_lt; have := sgn.toNat_lt; have := o.s.wideBit_eq
  exact ⟨Op2.fields_fit _ _ (by decide) (by omega), congrArg some (Eq.mpr (Instr.imulh.injEq ..) ⟨Hdr.ofFields_fields .., bit_eq (by first | rfl | (simp only [Op2.fields, SOp2.fields, Hdr.fields, fields1]; omega)), Op2.dec_fields _ _ (by omega)⟩)⟩
theorem Laws.ReadBack.imad (h : Hdr) (o : Op3) : Laws.ReadBack.Statement (.imad h o) := by
  intro hw f hf
  obtain rfl := Option.some.inj hf
  have := noneF_lt
  exact ⟨Op3.fields_fit _ _ (by decide) (by omega), congrArg some (Eq.mpr (Instr.imad.injEq ..) ⟨Hdr.ofFields_fields .., Op3.dec_fields _ _⟩)⟩
theorem Laws.ReadBack.imadw (h : Hdr) (sgn : Bool) (o : Op3) : Laws.ReadBack.Statement (.imadw h sgn o) := by
  intro hw f hf
  obtain rfl := Option.some.inj hf
  have := noneF_lt; have := sgn.toNat_lt
  exact ⟨Op3.fields_fit _ _ (by decide) (by omega), congrArg some (Eq.mpr (Instr.imadw.injEq ..) ⟨Hdr.ofFields_fields .., bit_eq (by first | rfl | (simp only [Op3.fields, Hdr.fields]; omega)), Op3.dec_fields _ _⟩)⟩
theorem Laws.ReadBack.imin (h : Hdr) (sgn : Bool) (o : Op2) : Laws.ReadBack.Statement (.imin h sgn o) := by
  intro hw f hf
  obtain rfl := Option.some.inj hf
  have := noneF_lt; have := sgn.toNat_lt; have := o.s.wideBit_eq
  exact ⟨Op2.fields_fit _ _ (by decide) (by omega), congrArg some (Eq.mpr (Instr.imin.injEq ..) ⟨Hdr.ofFields_fields .., bit_eq (by first | rfl | (simp only [Op2.fields, SOp2.fields, Hdr.fields, fields1]; omega)), Op2.dec_fields _ _ (by omega)⟩)⟩
theorem Laws.ReadBack.imax (h : Hdr) (sgn : Bool) (o : Op2) : Laws.ReadBack.Statement (.imax h sgn o) := by
  intro hw f hf
  obtain rfl := Option.some.inj hf
  have := noneF_lt; have := sgn.toNat_lt; have := o.s.wideBit_eq
  exact ⟨Op2.fields_fit _ _ (by decide) (by omega), congrArg some (Eq.mpr (Instr.imax.injEq ..) ⟨Hdr.ofFields_fields .., bit_eq (by first | rfl | (simp only [Op2.fields, SOp2.fields, Hdr.fields, fields1]; omega)), Op2.dec_fields _ _ (by omega)⟩)⟩
theorem Laws.ReadBack.iabs (h : Hdr) (d : VDst) (a : Src) : Laws.ReadBack.Statement (.iabs h d a) := by
  intro hw f hf
  obtain rfl := Option.some.inj hf
  have := noneF_lt; have := d.enc_lt; have := a.enc_lt
  exact ⟨fields1_fit _ _ _ (by decide) (by omega), congrArg some (Eq.mpr (Instr.iabs.injEq ..) ⟨Hdr.ofFields_fields .., VDst.dec_enc _, Src.dec_enc _⟩)⟩
theorem Laws.ReadBack.and (h : Hdr) (o : Op2) : Laws.ReadBack.Statement (.and h o) := by
  intro hw f hf
  obtain rfl := Option.some.inj hf
  have := noneF_lt; have := o.s.wideBit_eq
  exact ⟨Op2.fields_fit _ _ (by decide) (by omega), congrArg some (Eq.mpr (Instr.and.injEq ..) ⟨Hdr.ofFields_fields .., Op2.dec_fields _ _ (by omega)⟩)⟩
theorem Laws.ReadBack.or (h : Hdr) (o : Op2) : Laws.ReadBack.Statement (.or h o) := by
  intro hw f hf
  obtain rfl := Option.some.inj hf
  have := noneF_lt; have := o.s.wideBit_eq
  exact ⟨Op2.fields_fit _ _ (by decide) (by omega), congrArg some (Eq.mpr (Instr.or.injEq ..) ⟨Hdr.ofFields_fields .., Op2.dec_fields _ _ (by omega)⟩)⟩
theorem Laws.ReadBack.xor (h : Hdr) (o : Op2) : Laws.ReadBack.Statement (.xor h o) := by
  intro hw f hf
  obtain rfl := Option.some.inj hf
  have := noneF_lt; have := o.s.wideBit_eq
  exact ⟨Op2.fields_fit _ _ (by decide) (by omega), congrArg some (Eq.mpr (Instr.xor.injEq ..) ⟨Hdr.ofFields_fields .., Op2.dec_fields _ _ (by omega)⟩)⟩
theorem Laws.ReadBack.not (h : Hdr) (d : VDst) (a : Src) : Laws.ReadBack.Statement (.not h d a) := by
  intro hw f hf
  obtain rfl := Option.some.inj hf
  have := noneF_lt; have := d.enc_lt; have := a.enc_lt
  exact ⟨fields1_fit _ _ _ (by decide) (by omega), congrArg some (Eq.mpr (Instr.not.injEq ..) ⟨Hdr.ofFields_fields .., VDst.dec_enc _, Src.dec_enc _⟩)⟩
theorem Laws.ReadBack.shl (h : Hdr) (o : Op2) : Laws.ReadBack.Statement (.shl h o) := by
  intro hw f hf
  obtain rfl := Option.some.inj hf
  have := noneF_lt; have := o.s.wideBit_eq
  exact ⟨Op2.fields_fit _ _ (by decide) (by omega), congrArg some (Eq.mpr (Instr.shl.injEq ..) ⟨Hdr.ofFields_fields .., Op2.dec_fields _ _ (by omega)⟩)⟩
theorem Laws.ReadBack.shr (h : Hdr) (o : Op2) : Laws.ReadBack.Statement (.shr h o) := by
  intro hw f hf
  obtain rfl := Option.some.inj hf
  have := noneF_lt; have := o.s.wideBit_eq
  exact ⟨Op2.fields_fit _ _ (by decide) (by omega), congrArg some (Eq.mpr (Instr.shr.injEq ..) ⟨Hdr.ofFields_fields .., Op2.dec_fields _ _ (by omega)⟩)⟩
theorem Laws.ReadBack.sar (h : Hdr) (o : Op2) : Laws.ReadBack.Statement (.sar h o) := by
  intro hw f hf
  obtain rfl := Option.some.inj hf
  have := noneF_lt; have := o.s.wideBit_eq
  exact ⟨Op2.fields_fit _ _ (by decide) (by omega), congrArg some (Eq.mpr (Instr.sar.injEq ..) ⟨Hdr.ofFields_fields .., Op2.dec_fields _ _ (by omega)⟩)⟩
theorem Laws.ReadBack.bfx (h : Hdr) (sgn : Bool) (o : Op2) : Laws.ReadBack.Statement (.bfx h sgn o) := by
  intro hw f hf
  obtain rfl := Option.some.inj hf
  have := noneF_lt; have := sgn.toNat_lt; have := o.s.wideBit_eq
  exact ⟨Op2.fields_fit _ _ (by decide) (by omega), congrArg some (Eq.mpr (Instr.bfx.injEq ..) ⟨Hdr.ofFields_fields .., bit_eq (by first | rfl | (simp only [Op2.fields, SOp2.fields, Hdr.fields, fields1]; omega)), Op2.dec_fields _ _ (by omega)⟩)⟩
theorem Laws.ReadBack.bfi (h : Hdr) (o : Op3) : Laws.ReadBack.Statement (.bfi h o) := by
  intro hw f hf
  obtain rfl := Option.some.inj hf
  have := noneF_lt
  exact ⟨Op3.fields_fit _ _ (by decide) (by omega), congrArg some (Eq.mpr (Instr.bfi.injEq ..) ⟨Hdr.ofFields_fields .., Op3.dec_fields _ _⟩)⟩
theorem Laws.ReadBack.popc (h : Hdr) (d : VDst) (a : Src) : Laws.ReadBack.Statement (.popc h d a) := by
  intro hw f hf
  obtain rfl := Option.some.inj hf
  have := noneF_lt; have := d.enc_lt; have := a.enc_lt
  exact ⟨fields1_fit _ _ _ (by decide) (by omega), congrArg some (Eq.mpr (Instr.popc.injEq ..) ⟨Hdr.ofFields_fields .., VDst.dec_enc _, Src.dec_enc _⟩)⟩
theorem Laws.ReadBack.clz (h : Hdr) (d : VDst) (a : Src) : Laws.ReadBack.Statement (.clz h d a) := by
  intro hw f hf
  obtain rfl := Option.some.inj hf
  have := noneF_lt; have := d.enc_lt; have := a.enc_lt
  exact ⟨fields1_fit _ _ _ (by decide) (by omega), congrArg some (Eq.mpr (Instr.clz.injEq ..) ⟨Hdr.ofFields_fields .., VDst.dec_enc _, Src.dec_enc _⟩)⟩
theorem Laws.ReadBack.icmp (h : Hdr) (o : ICmp) : Laws.ReadBack.Statement (.icmp h o) := by
  intro hw f hf
  obtain rfl := Option.some.inj hf
  have := noneF_lt
  exact ⟨ICmp.fields_fit _ _ (by decide), congrArg some (Eq.mpr (Instr.icmp.injEq ..) ⟨Hdr.ofFields_fields .., ICmp.dec_fields _ _⟩)⟩
theorem Laws.ReadBack.sel (h : Hdr) (k : BitVec 3) (o : Op2) : Laws.ReadBack.Statement (.sel h k o) := by
  intro hw f hf
  obtain rfl := Option.some.inj hf
  have := noneF_lt; have := k.isLt; have := encP_lt k; have := encF_lt k; have := o.s.wideBit_eq
  exact ⟨Op2.fields_fit _ _ (by decide) (by omega), congrArg some (Eq.mpr (Instr.sel.injEq ..) ⟨Hdr.ofFields_fields .., ofNat_eq (by first | rfl | (simp only [Op2.fields, SOp2.fields, Hdr.fields, fields1]; omega)), Op2.dec_fields _ _ (by omega)⟩)⟩
theorem Laws.ReadBack.iadds (h : Hdr) (sgn : Bool) (o : Op2) : Laws.ReadBack.Statement (.iadds h sgn o) := by
  intro hw f hf
  obtain rfl := Option.some.inj hf
  have := noneF_lt; have := sgn.toNat_lt; have := o.s.wideBit_eq
  exact ⟨Op2.fields_fit _ _ (by decide) (by omega), congrArg some (Eq.mpr (Instr.iadds.injEq ..) ⟨Hdr.ofFields_fields .., bit_eq (by first | rfl | (simp only [Op2.fields, SOp2.fields, Hdr.fields, fields1]; omega)), Op2.dec_fields _ _ (by omega)⟩)⟩
theorem Laws.ReadBack.lea (h : Hdr) (n : BitVec 3) (sgn : Bool) (o : Op2) : Laws.ReadBack.Statement (.lea h n sgn o) := by
  intro hw f hf
  obtain rfl := Option.some.inj hf
  have := noneF_lt; have := n.isLt; have := encP_lt n; have := encF_lt n; have := sgn.toNat_lt; have := o.s.wideBit_eq
  exact ⟨Op2.fields_fit _ _ (by decide) (by omega), congrArg some (Eq.mpr (Instr.lea.injEq ..) ⟨Hdr.ofFields_fields .., ofNat_eq (by first | rfl | (simp only [Op2.fields, SOp2.fields, Hdr.fields, fields1]; omega)), bit_eq (by first | rfl | (simp only [Op2.fields, SOp2.fields, Hdr.fields, fields1]; omega)), Op2.dec_fields _ _ (by omega)⟩)⟩
theorem Laws.ReadBack.sadd (h : Hdr) (o : SOp2) : Laws.ReadBack.Statement (.sadd h o) := by
  intro hw f hf
  obtain rfl := Option.some.inj hf
  have := noneF_lt; have := o.s.wideBit_eq
  exact ⟨SOp2.fields_fit _ _ (by decide) (by omega), congrArg some (Eq.mpr (Instr.sadd.injEq ..) ⟨Hdr.ofFields_fields .., SOp2.dec_fields _ _ (by omega)⟩)⟩
theorem Laws.ReadBack.ssub (h : Hdr) (o : SOp2) : Laws.ReadBack.Statement (.ssub h o) := by
  intro hw f hf
  obtain rfl := Option.some.inj hf
  have := noneF_lt; have := o.s.wideBit_eq
  exact ⟨SOp2.fields_fit _ _ (by decide) (by omega), congrArg some (Eq.mpr (Instr.ssub.injEq ..) ⟨Hdr.ofFields_fields .., SOp2.dec_fields _ _ (by omega)⟩)⟩
theorem Laws.ReadBack.smul (h : Hdr) (o : SOp2) : Laws.ReadBack.Statement (.smul h o) := by
  intro hw f hf
  obtain rfl := Option.some.inj hf
  have := noneF_lt; have := o.s.wideBit_eq
  exact ⟨SOp2.fields_fit _ _ (by decide) (by omega), congrArg some (Eq.mpr (Instr.smul.injEq ..) ⟨Hdr.ofFields_fields .., SOp2.dec_fields _ _ (by omega)⟩)⟩
theorem Laws.ReadBack.smov (h : Hdr) (d : SDst) (a : Src1) : Laws.ReadBack.Statement (.smov h d a) := by
  intro hw f hf
  obtain rfl := Option.some.inj hf
  have := noneF_lt; have := d.enc_lt; have := a.wideBit_eq; have := a.opa_lt; have := a.opb_lt
  exact ⟨Hdr.fields_fit _ (by decide) (by omega) (by omega) (by omega) (by omega) (by omega), congrArg some (Eq.mpr (Instr.smov.injEq ..) ⟨Hdr.ofFields_fields .., SDst.dec_enc _, Src1.dec_of _ _ rfl rfl rfl⟩)⟩
theorem Laws.ReadBack.scmp (h : Hdr) (o : ICmp) : Laws.ReadBack.Statement (.scmp h o) := by
  intro hw f hf
  obtain rfl := Option.some.inj hf
  have := noneF_lt
  exact ⟨ICmp.fields_fit _ _ (by decide), congrArg some (Eq.mpr (Instr.scmp.injEq ..) ⟨Hdr.ofFields_fields .., ICmp.dec_fields _ _⟩)⟩
theorem Laws.ReadBack.sbcast (h : Hdr) (d : SDst) (a : Src) : Laws.ReadBack.Statement (.sbcast h d a) := by
  intro hw f hf
  obtain rfl := Option.some.inj hf
  have := noneF_lt; have := d.enc_lt; have := a.enc_lt
  exact ⟨Hdr.fields_fit _ (by decide) (by omega) (by omega) (by omega) (by omega) (by omega), congrArg some (Eq.mpr (Instr.sbcast.injEq ..) ⟨Hdr.ofFields_fields .., SDst.dec_enc _, Src.dec_enc _⟩)⟩
theorem Laws.ReadBack.sget (h : Hdr) (d : SDst) (a : Src) : Laws.ReadBack.Statement (.sget h d a) := by
  intro hw f hf
  obtain rfl := Option.some.inj hf
  have := noneF_lt; have := d.enc_lt; have := a.enc_lt
  exact ⟨Hdr.fields_fit _ (by decide) (by omega) (by omega) (by omega) (by omega) (by omega), congrArg some (Eq.mpr (Instr.sget.injEq ..) ⟨Hdr.ofFields_fields .., SDst.dec_enc _, Src.dec_enc _⟩)⟩
theorem Laws.ReadBack.sand (h : Hdr) (op : BitVec 3) (o : SOp2) : Laws.ReadBack.Statement (.sand h op o) := by
  intro hw f hf
  obtain rfl := Option.some.inj hf
  have := noneF_lt; have := op.isLt; have := encP_lt op; have := encF_lt op; have := o.s.wideBit_eq
  exact ⟨SOp2.fields_fit _ _ (by decide) (by omega), congrArg some (Eq.mpr (Instr.sand.injEq ..) ⟨Hdr.ofFields_fields .., ofNat_eq (by first | rfl | (simp only [Op2.fields, SOp2.fields, Hdr.fields, fields1]; omega)), SOp2.dec_fields _ _ (by omega)⟩)⟩
theorem Laws.ReadBack.fadd (h : Hdr) (r : Rnd) (o : Op2) : Laws.ReadBack.Statement (.fadd h r o) := by
  intro hw f hf
  obtain rfl := Option.some.inj hf
  have := noneF_lt; have := r.code_lt; have := o.s.wideBit_eq
  exact ⟨Op2.fields_fit _ _ (by decide) (by omega), congrArg some (Eq.mpr (Instr.fadd.injEq ..) ⟨Hdr.ofFields_fields .., Rnd.of_eq (by first | rfl | (simp only [Op2.fields, SOp2.fields, Hdr.fields, fields1]; omega)), Op2.dec_fields _ _ (by omega)⟩)⟩
theorem Laws.ReadBack.fsub (h : Hdr) (r : Rnd) (o : Op2) : Laws.ReadBack.Statement (.fsub h r o) := by
  intro hw f hf
  obtain rfl := Option.some.inj hf
  have := noneF_lt; have := r.code_lt; have := o.s.wideBit_eq
  exact ⟨Op2.fields_fit _ _ (by decide) (by omega), congrArg some (Eq.mpr (Instr.fsub.injEq ..) ⟨Hdr.ofFields_fields .., Rnd.of_eq (by first | rfl | (simp only [Op2.fields, SOp2.fields, Hdr.fields, fields1]; omega)), Op2.dec_fields _ _ (by omega)⟩)⟩
theorem Laws.ReadBack.fmul (h : Hdr) (r : Rnd) (o : Op2) : Laws.ReadBack.Statement (.fmul h r o) := by
  intro hw f hf
  obtain rfl := Option.some.inj hf
  have := noneF_lt; have := r.code_lt; have := o.s.wideBit_eq
  exact ⟨Op2.fields_fit _ _ (by decide) (by omega), congrArg some (Eq.mpr (Instr.fmul.injEq ..) ⟨Hdr.ofFields_fields .., Rnd.of_eq (by first | rfl | (simp only [Op2.fields, SOp2.fields, Hdr.fields, fields1]; omega)), Op2.dec_fields _ _ (by omega)⟩)⟩
theorem Laws.ReadBack.ffma (h : Hdr) (r : Rnd) (o : Op3) : Laws.ReadBack.Statement (.ffma h r o) := by
  intro hw f hf
  obtain rfl := Option.some.inj hf
  have := noneF_lt; have := r.code_lt
  exact ⟨Op3.fields_fit _ _ (by decide) (by omega), congrArg some (Eq.mpr (Instr.ffma.injEq ..) ⟨Hdr.ofFields_fields .., Rnd.of_eq (by first | rfl | (simp only [Op3.fields, Hdr.fields]; omega)), Op3.dec_fields _ _⟩)⟩
theorem Laws.ReadBack.fmin (h : Hdr) (nan : Bool) (o : Op2) : Laws.ReadBack.Statement (.fmin h nan o) := by
  intro hw f hf
  obtain rfl := Option.some.inj hf
  have := noneF_lt; have := nan.toNat_lt; have := o.s.wideBit_eq
  exact ⟨Op2.fields_fit _ _ (by decide) (by omega), congrArg some (Eq.mpr (Instr.fmin.injEq ..) ⟨Hdr.ofFields_fields .., bit_eq (by first | rfl | (simp only [Op2.fields, SOp2.fields, Hdr.fields, fields1]; omega)), Op2.dec_fields _ _ (by omega)⟩)⟩
theorem Laws.ReadBack.fmax (h : Hdr) (nan : Bool) (o : Op2) : Laws.ReadBack.Statement (.fmax h nan o) := by
  intro hw f hf
  obtain rfl := Option.some.inj hf
  have := noneF_lt; have := nan.toNat_lt; have := o.s.wideBit_eq
  exact ⟨Op2.fields_fit _ _ (by decide) (by omega), congrArg some (Eq.mpr (Instr.fmax.injEq ..) ⟨Hdr.ofFields_fields .., bit_eq (by first | rfl | (simp only [Op2.fields, SOp2.fields, Hdr.fields, fields1]; omega)), Op2.dec_fields _ _ (by omega)⟩)⟩
theorem Laws.ReadBack.fcmp (h : Hdr) (o : FCmp) : Laws.ReadBack.Statement (.fcmp h o) := by
  intro hw f hf
  obtain rfl := Option.some.inj hf
  have := noneF_lt
  exact ⟨FCmp.fields_fit _ _ (by decide), congrArg some (Eq.mpr (Instr.fcmp.injEq ..) ⟨Hdr.ofFields_fields .., FCmp.dec_fields _ _⟩)⟩
theorem Laws.ReadBack.frnd (h : Hdr) (r : Rnd) (d : VDst) (a : Src) : Laws.ReadBack.Statement (.frnd h r d a) := by
  intro hw f hf
  obtain rfl := Option.some.inj hf
  have := noneF_lt; have := r.code_lt; have := d.enc_lt; have := a.enc_lt
  exact ⟨fields1_fit _ _ _ (by decide) (by omega), congrArg some (Eq.mpr (Instr.frnd.injEq ..) ⟨Hdr.ofFields_fields .., Rnd.of_eq (by first | rfl | (simp only [Op2.fields, SOp2.fields, Hdr.fields, fields1]; omega)), VDst.dec_enc _, Src.dec_enc _⟩)⟩
theorem Laws.ReadBack.frcp (h : Hdr) (r : Rnd) (d : VDst) (a : Src) : Laws.ReadBack.Statement (.frcp h r d a) := by
  intro hw f hf
  obtain rfl := Option.some.inj hf
  have := noneF_lt; have := r.code_lt; have := d.enc_lt; have := a.enc_lt
  exact ⟨fields1_fit _ _ _ (by decide) (by omega), congrArg some (Eq.mpr (Instr.frcp.injEq ..) ⟨Hdr.ofFields_fields .., Rnd.of_eq (by first | rfl | (simp only [Op2.fields, SOp2.fields, Hdr.fields, fields1]; omega)), VDst.dec_enc _, Src.dec_enc _⟩)⟩
theorem Laws.ReadBack.frsq (h : Hdr) (r : Rnd) (d : VDst) (a : Src) : Laws.ReadBack.Statement (.frsq h r d a) := by
  intro hw f hf
  obtain rfl := Option.some.inj hf
  have := noneF_lt; have := r.code_lt; have := d.enc_lt; have := a.enc_lt
  exact ⟨fields1_fit _ _ _ (by decide) (by omega), congrArg some (Eq.mpr (Instr.frsq.injEq ..) ⟨Hdr.ofFields_fields .., Rnd.of_eq (by first | rfl | (simp only [Op2.fields, SOp2.fields, Hdr.fields, fields1]; omega)), VDst.dec_enc _, Src.dec_enc _⟩)⟩
theorem Laws.ReadBack.fsqrt (h : Hdr) (r : Rnd) (d : VDst) (a : Src) : Laws.ReadBack.Statement (.fsqrt h r d a) := by
  intro hw f hf
  obtain rfl := Option.some.inj hf
  have := noneF_lt; have := r.code_lt; have := d.enc_lt; have := a.enc_lt
  exact ⟨fields1_fit _ _ _ (by decide) (by omega), congrArg some (Eq.mpr (Instr.fsqrt.injEq ..) ⟨Hdr.ofFields_fields .., Rnd.of_eq (by first | rfl | (simp only [Op2.fields, SOp2.fields, Hdr.fields, fields1]; omega)), VDst.dec_enc _, Src.dec_enc _⟩)⟩
theorem Laws.ReadBack.fex2 (h : Hdr) (r : Rnd) (d : VDst) (a : Src) : Laws.ReadBack.Statement (.fex2 h r d a) := by
  intro hw f hf
  obtain rfl := Option.some.inj hf
  have := noneF_lt; have := r.code_lt; have := d.enc_lt; have := a.enc_lt
  exact ⟨fields1_fit _ _ _ (by decide) (by omega), congrArg some (Eq.mpr (Instr.fex2.injEq ..) ⟨Hdr.ofFields_fields .., Rnd.of_eq (by first | rfl | (simp only [Op2.fields, SOp2.fields, Hdr.fields, fields1]; omega)), VDst.dec_enc _, Src.dec_enc _⟩)⟩
theorem Laws.ReadBack.flg2 (h : Hdr) (r : Rnd) (d : VDst) (a : Src) : Laws.ReadBack.Statement (.flg2 h r d a) := by
  intro hw f hf
  obtain rfl := Option.some.inj hf
  have := noneF_lt; have := r.code_lt; have := d.enc_lt; have := a.enc_lt
  exact ⟨fields1_fit _ _ _ (by decide) (by omega), congrArg some (Eq.mpr (Instr.flg2.injEq ..) ⟨Hdr.ofFields_fields .., Rnd.of_eq (by first | rfl | (simp only [Op2.fields, SOp2.fields, Hdr.fields, fields1]; omega)), VDst.dec_enc _, Src.dec_enc _⟩)⟩
theorem Laws.ReadBack.fsin (h : Hdr) (r : Rnd) (d : VDst) (a : Src) : Laws.ReadBack.Statement (.fsin h r d a) := by
  intro hw f hf
  obtain rfl := Option.some.inj hf
  have := noneF_lt; have := r.code_lt; have := d.enc_lt; have := a.enc_lt
  exact ⟨fields1_fit _ _ _ (by decide) (by omega), congrArg some (Eq.mpr (Instr.fsin.injEq ..) ⟨Hdr.ofFields_fields .., Rnd.of_eq (by first | rfl | (simp only [Op2.fields, SOp2.fields, Hdr.fields, fields1]; omega)), VDst.dec_enc _, Src.dec_enc _⟩)⟩
theorem Laws.ReadBack.fcos (h : Hdr) (r : Rnd) (d : VDst) (a : Src) : Laws.ReadBack.Statement (.fcos h r d a) := by
  intro hw f hf
  obtain rfl := Option.some.inj hf
  have := noneF_lt; have := r.code_lt; have := d.enc_lt; have := a.enc_lt
  exact ⟨fields1_fit _ _ _ (by decide) (by omega), congrArg some (Eq.mpr (Instr.fcos.injEq ..) ⟨Hdr.ofFields_fields .., Rnd.of_eq (by first | rfl | (simp only [Op2.fields, SOp2.fields, Hdr.fields, fields1]; omega)), VDst.dec_enc _, Src.dec_enc _⟩)⟩
theorem Laws.ReadBack.fdiv (h : Hdr) (r : Rnd) (o : Op2) : Laws.ReadBack.Statement (.fdiv h r o) := by
  intro hw f hf
  obtain rfl := Option.some.inj hf
  have := noneF_lt; have := r.code_lt; have := o.s.wideBit_eq
  exact ⟨Op2.fields_fit _ _ (by decide) (by omega), congrArg some (Eq.mpr (Instr.fdiv.injEq ..) ⟨Hdr.ofFields_fields .., Rnd.of_eq (by first | rfl | (simp only [Op2.fields, SOp2.fields, Hdr.fields, fields1]; omega)), Op2.dec_fields _ _ (by omega)⟩)⟩
theorem Laws.ReadBack.dadd (h : Hdr) (r : Rnd) (o : Op2) : Laws.ReadBack.Statement (.dadd h r o) := by
  intro hw f hf
  obtain rfl := Option.some.inj hf
  have := noneF_lt; have := r.code_lt; have := o.s.wideBit_eq
  exact ⟨Op2.fields_fit _ _ (by decide) (by omega), congrArg some (Eq.mpr (Instr.dadd.injEq ..) ⟨Hdr.ofFields_fields .., Rnd.of_eq (by first | rfl | (simp only [Op2.fields, SOp2.fields, Hdr.fields, fields1]; omega)), Op2.dec_fields _ _ (by omega)⟩)⟩
theorem Laws.ReadBack.dmul (h : Hdr) (r : Rnd) (o : Op2) : Laws.ReadBack.Statement (.dmul h r o) := by
  intro hw f hf
  obtain rfl := Option.some.inj hf
  have := noneF_lt; have := r.code_lt; have := o.s.wideBit_eq
  exact ⟨Op2.fields_fit _ _ (by decide) (by omega), congrArg some (Eq.mpr (Instr.dmul.injEq ..) ⟨Hdr.ofFields_fields .., Rnd.of_eq (by first | rfl | (simp only [Op2.fields, SOp2.fields, Hdr.fields, fields1]; omega)), Op2.dec_fields _ _ (by omega)⟩)⟩
theorem Laws.ReadBack.dfma (h : Hdr) (r : Rnd) (o : Op3) : Laws.ReadBack.Statement (.dfma h r o) := by
  intro hw f hf
  obtain rfl := Option.some.inj hf
  have := noneF_lt; have := r.code_lt
  exact ⟨Op3.fields_fit _ _ (by decide) (by omega), congrArg some (Eq.mpr (Instr.dfma.injEq ..) ⟨Hdr.ofFields_fields .., Rnd.of_eq (by first | rfl | (simp only [Op3.fields, Hdr.fields]; omega)), Op3.dec_fields _ _⟩)⟩
theorem Laws.ReadBack.dcmp (h : Hdr) (o : FCmp) : Laws.ReadBack.Statement (.dcmp h o) := by
  intro hw f hf
  obtain rfl := Option.some.inj hf
  have := noneF_lt
  exact ⟨FCmp.fields_fit _ _ (by decide), congrArg some (Eq.mpr (Instr.dcmp.injEq ..) ⟨Hdr.ofFields_fields .., FCmp.dec_fields _ _⟩)⟩
theorem Laws.ReadBack.hadd2 (h : Hdr) (bf : Bool) (r : Rnd) (o : Op2) : Laws.ReadBack.Statement (.hadd2 h bf r o) := by
  intro hw f hf
  obtain rfl := Option.some.inj hf
  have := noneF_lt; have := bf.toNat_lt; have := r.code_lt; have := o.s.wideBit_eq
  exact ⟨Op2.fields_fit _ _ (by decide) (by omega), congrArg some (Eq.mpr (Instr.hadd2.injEq ..) ⟨Hdr.ofFields_fields .., bit_eq (by first | rfl | (simp only [Op2.fields, SOp2.fields, Hdr.fields, fields1]; omega)), Rnd.of_eq (by first | rfl | (simp only [Op2.fields, SOp2.fields, Hdr.fields, fields1]; omega)), Op2.dec_fields _ _ (by omega)⟩)⟩
theorem Laws.ReadBack.hmul2 (h : Hdr) (bf : Bool) (r : Rnd) (o : Op2) : Laws.ReadBack.Statement (.hmul2 h bf r o) := by
  intro hw f hf
  obtain rfl := Option.some.inj hf
  have := noneF_lt; have := bf.toNat_lt; have := r.code_lt; have := o.s.wideBit_eq
  exact ⟨Op2.fields_fit _ _ (by decide) (by omega), congrArg some (Eq.mpr (Instr.hmul2.injEq ..) ⟨Hdr.ofFields_fields .., bit_eq (by first | rfl | (simp only [Op2.fields, SOp2.fields, Hdr.fields, fields1]; omega)), Rnd.of_eq (by first | rfl | (simp only [Op2.fields, SOp2.fields, Hdr.fields, fields1]; omega)), Op2.dec_fields _ _ (by omega)⟩)⟩
theorem Laws.ReadBack.hfma2 (h : Hdr) (bf : Bool) (r : Rnd) (o : Op3) : Laws.ReadBack.Statement (.hfma2 h bf r o) := by
  intro hw f hf
  obtain rfl := Option.some.inj hf
  have := noneF_lt; have := bf.toNat_lt; have := r.code_lt
  exact ⟨Op3.fields_fit _ _ (by decide) (by omega), congrArg some (Eq.mpr (Instr.hfma2.injEq ..) ⟨Hdr.ofFields_fields .., bit_eq (by first | rfl | (simp only [Op3.fields, Hdr.fields]; omega)), Rnd.of_eq (by first | rfl | (simp only [Op3.fields, Hdr.fields]; omega)), Op3.dec_fields _ _⟩)⟩
theorem Laws.ReadBack.hmax2 (h : Hdr) (bf : Bool) (nan : Bool) (o : Op2) : Laws.ReadBack.Statement (.hmax2 h bf nan o) := by
  intro hw f hf
  obtain rfl := Option.some.inj hf
  have := noneF_lt; have := bf.toNat_lt; have := nan.toNat_lt; have := o.s.wideBit_eq
  exact ⟨Op2.fields_fit _ _ (by decide) (by omega), congrArg some (Eq.mpr (Instr.hmax2.injEq ..) ⟨Hdr.ofFields_fields .., bit_eq (by first | rfl | (simp only [Op2.fields, SOp2.fields, Hdr.fields, fields1]; omega)), bit_eq (by first | rfl | (simp only [Op2.fields, SOp2.fields, Hdr.fields, fields1]; omega)), Op2.dec_fields _ _ (by omega)⟩)⟩
theorem Laws.ReadBack.cvt (h : Hdr) (sat : Bool) (r : Rnd) (dt : BitVec 4) (st : BitVec 4) (d : VDst) (a : Src) : Laws.ReadBack.Statement (.cvt h sat r dt st d a) := by
  intro hw f hf
  obtain rfl := Option.some.inj hf
  have := noneF_lt; have := sat.toNat_lt; have := r.code_lt; have := dt.isLt; have := encA_lt dt; have := encGs_lt dt; have := st.isLt; have := encA_lt st; have := encGs_lt st; have := d.enc_lt; have := a.enc_lt
  exact ⟨Hdr.fields_fit _ (by decide) (by omega) (by omega) (by omega) (by omega) (by omega), congrArg some (Eq.mpr (Instr.cvt.injEq ..) ⟨Hdr.ofFields_fields .., bit_eq (by first | rfl | (simp only [Op2.fields, SOp2.fields, Hdr.fields, fields1]; omega)), Rnd.of_eq (by first | rfl | (simp only [Op2.fields, SOp2.fields, Hdr.fields, fields1]; omega)), ofNat_eq (by first | rfl | (simp only [Op2.fields, SOp2.fields, Hdr.fields, fields1]; omega)), ofNat_eq (by first | rfl | (simp only [Op2.fields, SOp2.fields, Hdr.fields, fields1]; omega)), VDst.dec_enc _, Src.dec_enc _⟩)⟩
theorem Laws.ReadBack.cvtn (h : Hdr) (d : VDst) (x : Src) (f : BitVec 3) (scale : Option (BitVec 8)) : Laws.ReadBack.Statement (.cvtn h d x f scale) := by
  intro hw f hf
  obtain rfl := Option.some.inj hf
  have := noneF_lt; have := d.enc_lt; have := x.enc_lt; have := f.isLt; have := encP_lt f; have := encF_lt f; have := encScale_lt scale; have := scaleBit_eq scale
  exact ⟨Hdr.fields_fit _ (by decide) (by omega) (by omega) (by omega) (by omega) (by omega), congrArg some (Eq.mpr (Instr.cvtn.injEq ..) ⟨Hdr.ofFields_fields .., VDst.dec_enc _, Src.dec_enc _, decF_encF _, decScale_of _ _ rfl rfl⟩)⟩
theorem Laws.ReadBack.cvtw (h : Hdr) (d : VDst) (c : Src) (f : BitVec 3) (scale : Option (BitVec 8)) : Laws.ReadBack.Statement (.cvtw h d c f scale) := by
  intro hw f hf
  obtain rfl := Option.some.inj hf
  have := noneF_lt; have := d.enc_lt; have := c.enc_lt; have := f.isLt; have := encP_lt f; have := encF_lt f; have := encScale_lt scale; have := scaleBit_eq scale
  exact ⟨Hdr.fields_fit _ (by decide) (by omega) (by omega) (by omega) (by omega) (by omega), congrArg some (Eq.mpr (Instr.cvtw.injEq ..) ⟨Hdr.ofFields_fields .., VDst.dec_enc _, Src.dec_enc _, decF_encF _, decScale_of _ _ rfl rfl⟩)⟩
theorem Laws.ReadBack.scl (h : Hdr) (d : VDst) (form : SclForm) : Laws.ReadBack.Statement (.scl h d form) := by
  intro hw f hf
  cases form with
  | exp r x n =>
    obtain rfl := Option.some.inj hf
    have := noneF_lt; have := d.enc_lt; have := r.code_lt; have := x.enc_lt; have := n.enc_lt
    exact ⟨Hdr.fields_fit _ (by decide) (by omega) (by omega) (by omega) (by omega) (by omega), congrArg some (Eq.mpr (Instr.scl.injEq ..) ⟨Hdr.ofFields_fields .., VDst.dec_enc _, (if_pos (by simp only [Hdr.fields] <;> omega)).trans (Eq.mpr (SclForm.exp.injEq ..) ⟨Rnd.of_eq (by simp only [Hdr.fields] <;> omega), Src.dec_enc _, Src.dec_enc _⟩)⟩)⟩
  | e8m0 x f =>
    obtain rfl := Option.some.inj hf
    have := noneF_lt; have := d.enc_lt; have := x.enc_lt; have := f.isLt; have := encP_lt f; have := encF_lt f
    exact ⟨Hdr.fields_fit _ (by decide) (by omega) (by omega) (by omega) (by omega) (by omega), congrArg some (Eq.mpr (Instr.scl.injEq ..) ⟨Hdr.ofFields_fields .., VDst.dec_enc _, (if_neg (by simp only [Hdr.fields] <;> omega)).trans ((if_pos (by simp only [Hdr.fields] <;> omega)).trans (Eq.mpr (SclForm.e8m0.injEq ..) ⟨Src.dec_enc _, decF_encF _⟩))⟩)⟩
  | rebase c n f =>
    obtain rfl := Option.some.inj hf
    have := noneF_lt; have := d.enc_lt; have := c.enc_lt; have := n.enc_lt; have := f.isLt; have := encP_lt f; have := encF_lt f
    exact ⟨Hdr.fields_fit _ (by decide) (by omega) (by omega) (by omega) (by omega) (by omega), congrArg some (Eq.mpr (Instr.scl.injEq ..) ⟨Hdr.ofFields_fields .., VDst.dec_enc _, (if_neg (by simp only [Hdr.fields] <;> omega)).trans ((if_neg (by simp only [Hdr.fields] <;> omega)).trans (Eq.mpr (SclForm.rebase.injEq ..) ⟨Src.dec_enc _, Src.dec_enc _, ofNat_eq rfl⟩))⟩)⟩
theorem Laws.ReadBack.pk2 (h : Hdr) (form : PkForm) (d : VDst) (a : Src) (b : Src) : Laws.ReadBack.Statement (.pk2 h form d a b) := by
  intro hw f hf
  cases form with
  | bits =>
    obtain rfl := Option.some.inj hf
    have := noneF_lt; have := d.enc_lt; have := a.enc_lt; have := b.enc_lt
    exact ⟨Hdr.fields_fit _ (by decide) (by omega) (by omega) (by omega) (by omega) (by omega), congrArg some (Eq.mpr (Instr.pk2.injEq ..) ⟨Hdr.ofFields_fields .., if_pos (by simp only [Hdr.fields] <;> omega), VDst.dec_enc _, Src.dec_enc _, Src.dec_enc _⟩)⟩
  | f16 r =>
    obtain rfl := Option.some.inj hf
    have := noneF_lt; have := d.enc_lt; have := a.enc_lt; have := b.enc_lt; have := r.code_lt
    exact ⟨Hdr.fields_fit _ (by decide) (by omega) (by omega) (by omega) (by omega) (by omega), congrArg some (Eq.mpr (Instr.pk2.injEq ..) ⟨Hdr.ofFields_fields .., (if_neg (by simp only [Hdr.fields] <;> omega)).trans ((if_pos (by simp only [Hdr.fields] <;> omega)).trans (congrArg PkForm.f16 (Rnd.of_eq (by simp only [Hdr.fields] <;> omega)))), VDst.dec_enc _, Src.dec_enc _, Src.dec_enc _⟩)⟩
  | bf16 r =>
    obtain rfl := Option.some.inj hf
    have := noneF_lt; have := d.enc_lt; have := a.enc_lt; have := b.enc_lt; have := r.code_lt
    exact ⟨Hdr.fields_fit _ (by decide) (by omega) (by omega) (by omega) (by omega) (by omega), congrArg some (Eq.mpr (Instr.pk2.injEq ..) ⟨Hdr.ofFields_fields .., (if_neg (by simp only [Hdr.fields] <;> omega)).trans ((if_neg (by simp only [Hdr.fields] <;> omega)).trans (congrArg PkForm.bf16 (Rnd.of_eq (by simp only [Hdr.fields] <;> omega)))), VDst.dec_enc _, Src.dec_enc _, Src.dec_enc _⟩)⟩
theorem Laws.ReadBack.unpk (h : Hdr) (k : BitVec 2) (d : VDst) (a : Src) : Laws.ReadBack.Statement (.unpk h k d a) := by
  intro hw f hf
  obtain rfl := Option.some.inj hf
  have := noneF_lt; have := k.isLt; have := d.enc_lt; have := a.enc_lt
  exact ⟨fields1_fit _ _ _ (by decide) (by omega), congrArg some (Eq.mpr (Instr.unpk.injEq ..) ⟨Hdr.ofFields_fields .., ofNat_eq (by first | rfl | (simp only [Op2.fields, SOp2.fields, Hdr.fields, fields1]; omega)), VDst.dec_enc _, Src.dec_enc _⟩)⟩
theorem Laws.ReadBack.fcls (h : Hdr) (k : BitVec 2) (d : VDst) (a : Src) : Laws.ReadBack.Statement (.fcls h k d a) := by
  intro hw f hf
  obtain rfl := Option.some.inj hf
  have := noneF_lt; have := k.isLt; have := d.enc_lt; have := a.enc_lt
  exact ⟨fields1_fit _ _ _ (by decide) (by omega), congrArg some (Eq.mpr (Instr.fcls.injEq ..) ⟨Hdr.ofFields_fields .., ofNat_eq (by first | rfl | (simp only [Op2.fields, SOp2.fields, Hdr.fields, fields1]; omega)), VDst.dec_enc _, Src.dec_enc _⟩)⟩
theorem Laws.ReadBack.shfl (h : Hdr) (m : BitVec 2) (d : VDst) (a : Src) (l : Src) : Laws.ReadBack.Statement (.shfl h m d a l) := by
  intro hw f hf
  obtain rfl := Option.some.inj hf
  have := noneF_lt; have := m.isLt; have := d.enc_lt; have := a.enc_lt; have := l.enc_lt
  exact ⟨Hdr.fields_fit _ (by decide) (by omega) (by omega) (by omega) (by omega) (by omega), congrArg some (Eq.mpr (Instr.shfl.injEq ..) ⟨Hdr.ofFields_fields .., ofNat_eq (by first | rfl | (simp only [Op2.fields, SOp2.fields, Hdr.fields, fields1]; omega)), VDst.dec_enc _, Src.dec_enc _, Src.dec_enc _⟩)⟩
theorem Laws.ReadBack.vote (h : Hdr) (m : BitVec 2) (dst : VPDst) (a : Src) : Laws.ReadBack.Statement (.vote h m dst a) := by
  intro hw f hf
  obtain rfl := Option.some.inj hf
  have := noneF_lt; have := m.isLt; have := dst.enc_lt; have := a.enc_lt
  exact ⟨Hdr.fields_fit _ (by decide) (by omega) (by omega) (by omega) (by omega) (by omega), congrArg some (Eq.mpr (Instr.vote.injEq ..) ⟨Hdr.ofFields_fields .., ofNat_eq (by first | rfl | (simp only [Op2.fields, SOp2.fields, Hdr.fields, fields1]; omega)), VPDst.dec_enc _, Src.dec_enc _⟩)⟩
theorem Laws.ReadBack.ballot (h : Hdr) (dst : VSDst) (a : Src) : Laws.ReadBack.Statement (.ballot h dst a) := by
  intro hw f hf
  obtain rfl := Option.some.inj hf
  have := noneF_lt; have := dst.enc_lt; have := a.enc_lt
  exact ⟨Hdr.fields_fit _ (by decide) (by omega) (by omega) (by omega) (by omega) (by omega), congrArg some (Eq.mpr (Instr.ballot.injEq ..) ⟨Hdr.ofFields_fields .., VSDst.dec_enc _, Src.dec_enc _⟩)⟩
theorem Laws.ReadBack.redux (h : Hdr) (op : BitVec 4) (d : VDst) (a : Src) : Laws.ReadBack.Statement (.redux h op d a) := by
  intro hw f hf
  obtain rfl := Option.some.inj hf
  have := noneF_lt; have := op.isLt; have := encA_lt op; have := encGs_lt op; have := d.enc_lt; have := a.enc_lt
  exact ⟨fields1_fit _ _ _ (by decide) (by omega), congrArg some (Eq.mpr (Instr.redux.injEq ..) ⟨Hdr.ofFields_fields .., ofNat_eq (by first | rfl | (simp only [Op2.fields, SOp2.fields, Hdr.fields, fields1]; omega)), VDst.dec_enc _, Src.dec_enc _⟩)⟩
theorem Laws.ReadBack.scan (h : Hdr) (op : BitVec 4) (excl : Bool) (d : VDst) (a : Src) : Laws.ReadBack.Statement (.scan h op excl d a) := by
  intro hw f hf
  obtain rfl := Option.some.inj hf
  have := noneF_lt; have := op.isLt; have := encA_lt op; have := encGs_lt op; have := excl.toNat_lt; have := d.enc_lt; have := a.enc_lt
  exact ⟨fields1_fit _ _ _ (by decide) (by omega), congrArg some (Eq.mpr (Instr.scan.injEq ..) ⟨Hdr.ofFields_fields .., ofNat_eq (by first | rfl | (simp only [Op2.fields, SOp2.fields, Hdr.fields, fields1]; omega)), bit_eq (by first | rfl | (simp only [Op2.fields, SOp2.fields, Hdr.fields, fields1]; omega)), VDst.dec_enc _, Src.dec_enc _⟩)⟩
theorem Laws.ReadBack.topk (h : Hdr) (k : BitVec 3) (d : SpanD) (form : TopkForm) : Laws.ReadBack.Statement (.topk h k d form) := by
  intro hw f hf
  cases form with
  | fresh c x ext =>
    obtain rfl := Option.some.inj hf
    have := noneF_lt; have := k.isLt; have := encP_lt k; have := encF_lt k; have := d.enc_lt; have := c.enc_lt; have := x.enc_lt; have := ext.isLt; have := encY_lt ext
    exact ⟨Hdr.fields_fit _ (by decide) (by omega) (by omega) (by omega) (by omega) (by omega), congrArg some (Eq.mpr (Instr.topk.injEq ..) ⟨Hdr.ofFields_fields .., ofNat_eq (by first | rfl | (simp only [Op2.fields, SOp2.fields, Hdr.fields, fields1]; omega)), SpanD.dec_enc _, (if_pos (by simp only [Hdr.fields] <;> omega)).trans (Eq.mpr (TopkForm.fresh.injEq ..) ⟨Src.dec_enc _, Src.dec_enc _, ofNat_eq rfl⟩)⟩)⟩
  | ins ol c ixn x =>
    obtain rfl := Option.some.inj hf
    have := noneF_lt; have := k.isLt; have := encP_lt k; have := encF_lt k; have := d.enc_lt; have := ol.enc_lt; have := c.enc_lt; have := ixn.toNat_lt; have := x.isLt; have := encY_lt x
    exact ⟨Hdr.fields_fit _ (by decide) (by omega) (by omega) (by omega) (by omega) (by omega), congrArg some (Eq.mpr (Instr.topk.injEq ..) ⟨Hdr.ofFields_fields .., ofNat_eq (by first | rfl | (simp only [Op2.fields, SOp2.fields, Hdr.fields, fields1]; omega)), SpanD.dec_enc _, (if_neg (by simp only [Hdr.fields] <;> omega)).trans (Eq.mpr (TopkForm.ins.injEq ..) ⟨Span.dec_enc _, Src.dec_enc _, bit_eq (by simp only [Hdr.fields] <;> omega), ofNat_eq rfl⟩)⟩)⟩
theorem Laws.ReadBack.ld (h : Hdr) (o : LdOp) : Laws.ReadBack.Statement (.ld h o) := by
  intro hw f hf
  obtain rfl := Option.some.inj hf
  have := noneF_lt
  exact ⟨LdOp.fields_fit _ _ (by decide), congrArg some (Eq.mpr (Instr.ld.injEq ..) ⟨Hdr.ofFields_fields .., LdOp.dec_fields _ _⟩)⟩
theorem Laws.ReadBack.st (h : Hdr) (o : StOp) : Laws.ReadBack.Statement (.st h o) := by
  intro hw f hf
  obtain rfl := Option.some.inj hf
  have := noneF_lt
  exact ⟨StOp.fields_fit _ _ (by decide), congrArg some (Eq.mpr (Instr.st.injEq ..) ⟨Hdr.ofFields_fields .., StOp.dec_fields _ _⟩)⟩
theorem Laws.ReadBack.lds (h : Hdr) (o : LdOp) : Laws.ReadBack.Statement (.lds h o) := by
  intro hw f hf
  obtain rfl := Option.some.inj hf
  have := noneF_lt
  exact ⟨LdOp.fields_fit _ _ (by decide), congrArg some (Eq.mpr (Instr.lds.injEq ..) ⟨Hdr.ofFields_fields .., LdOp.dec_fields _ _⟩)⟩
theorem Laws.ReadBack.sts (h : Hdr) (o : StOp) : Laws.ReadBack.Statement (.sts h o) := by
  intro hw f hf
  obtain rfl := Option.some.inj hf
  have := noneF_lt
  exact ⟨StOp.fields_fit _ _ (by decide), congrArg some (Eq.mpr (Instr.sts.injEq ..) ⟨Hdr.ofFields_fields .., StOp.dec_fields _ _⟩)⟩
theorem Laws.ReadBack.ldp (h : Hdr) (o : LdOp) : Laws.ReadBack.Statement (.ldp h o) := by
  intro hw f hf
  obtain rfl := Option.some.inj hf
  have := noneF_lt
  exact ⟨LdOp.fields_fit _ _ (by decide), congrArg some (Eq.mpr (Instr.ldp.injEq ..) ⟨Hdr.ofFields_fields .., LdOp.dec_fields _ _⟩)⟩
theorem Laws.ReadBack.stp (h : Hdr) (o : StOp) : Laws.ReadBack.Statement (.stp h o) := by
  intro hw f hf
  obtain rfl := Option.some.inj hf
  have := noneF_lt
  exact ⟨StOp.fields_fit _ _ (by decide), congrArg some (Eq.mpr (Instr.stp.injEq ..) ⟨Hdr.ofFields_fields .., StOp.dec_fields _ _⟩)⟩
theorem Laws.ReadBack.sld (h : Hdr) (sz : BitVec 3) (scope : Scope) (ord : Ord) (d : SDst) (b : BitVec 5) (idx : Src) : Laws.ReadBack.Statement (.sld h sz scope ord d b idx) := by
  intro hw f hf
  obtain rfl := Option.some.inj hf
  have := noneF_lt; have := sz.isLt; have := encP_lt sz; have := encF_lt sz; have := scope.code_lt; have := ord.code_lt; have := d.enc_lt; have := b.isLt; have := encB_lt b; have := idx.enc_lt
  exact ⟨Hdr.fields_fit _ (by decide) (by omega) (by omega) (by omega) (by omega) (by omega), congrArg some (Eq.mpr (Instr.sld.injEq ..) ⟨Hdr.ofFields_fields .., ofNat_eq (by first | rfl | (simp only [Op2.fields, SOp2.fields, Hdr.fields, fields1]; omega)), Scope.of_eq (by first | rfl | (simp only [Op2.fields, SOp2.fields, Hdr.fields, fields1]; omega)), Ord.of_eq (by first | rfl | (simp only [Op2.fields, SOp2.fields, Hdr.fields, fields1]; omega)), SDst.dec_enc _, decB_encB _, Src.dec_enc _⟩)⟩
theorem Laws.ReadBack.ldc (h : Hdr) (sz : BitVec 3) (d : VDst) (disp : BitVec 17) (off : Src) : Laws.ReadBack.Statement (.ldc h sz d disp off) := by
  intro hw f hf
  obtain rfl := Option.some.inj hf
  have := noneF_lt; have := sz.isLt; have := encP_lt sz; have := encF_lt sz; have := d.enc_lt; have := disp.isLt; have := off.enc_lt
  exact ⟨Hdr.fields_fit _ (by decide) (by omega) (by omega) (by omega) (by omega) (by omega), congrArg some (Eq.mpr (Instr.ldc.injEq ..) ⟨Hdr.ofFields_fields .., ofNat_eq (by first | rfl | (simp only [Op2.fields, SOp2.fields, Hdr.fields, fields1]; omega)), VDst.dec_enc _, decI_imm _, Src.dec_enc _⟩)⟩
theorem Laws.ReadBack.pref (h : Hdr) (b : BitVec 5) (idx : Src) (ext : BitVec 8) : Laws.ReadBack.Statement (.pref h b idx ext) := by
  intro hw f hf
  obtain rfl := Option.some.inj hf
  have := noneF_lt; have := b.isLt; have := encB_lt b; have := idx.enc_lt; have := ext.isLt; have := encY_lt ext
  exact ⟨Hdr.fields_fit _ (by decide) (by omega) (by omega) (by omega) (by omega) (by omega), congrArg some (Eq.mpr (Instr.pref.injEq ..) ⟨Hdr.ofFields_fields .., decB_encB _, Src.dec_enc _, ofNat_eq (by first | rfl | (simp only [Op2.fields, SOp2.fields, Hdr.fields, fields1]; omega))⟩)⟩
theorem Laws.ReadBack.bsub (h : Hdr) (ro : Bool) (len : BsubLen) (bd : BitVec 5) (bs : BitVec 5) (off : Src) : Laws.ReadBack.Statement (.bsub h ro len bd bs off) := by
  intro hw f hf
  obtain rfl := Option.some.inj hf
  have := noneF_lt; have := ro.toNat_lt; have := len.ext_lt; have := len.code_lt; have := bd.isLt; have := encB_lt bd; have := bs.isLt; have := encB_lt bs; have := off.enc_lt
  exact ⟨Hdr.fields_fit _ (by decide) (by omega) (by omega) (by omega) (by omega) (by omega), congrArg some (Eq.mpr (Instr.bsub.injEq ..) ⟨Hdr.ofFields_fields .., bit_eq (by first | rfl | (simp only [Op2.fields, SOp2.fields, Hdr.fields, fields1]; omega)), BsubLen.of_eq _ (by first | rfl | (simp only [Op2.fields, SOp2.fields, Hdr.fields, fields1]; omega)), decB_encB _, decB_encB _, Src.dec_enc _⟩)⟩
theorem Laws.ReadBack.bget (h : Hdr) (f : BitVec 3) (dst : VSDst) (b : BitVec 5) : Laws.ReadBack.Statement (.bget h f dst b) := by
  intro hw f hf
  obtain rfl := Option.some.inj hf
  have := noneF_lt; have := f.isLt; have := encP_lt f; have := encF_lt f; have := dst.enc_lt; have := b.isLt; have := encB_lt b
  exact ⟨Hdr.fields_fit _ (by decide) (by omega) (by omega) (by omega) (by omega) (by omega), congrArg some (Eq.mpr (Instr.bget.injEq ..) ⟨Hdr.ofFields_fields .., ofNat_eq (by first | rfl | (simp only [Op2.fields, SOp2.fields, Hdr.fields, fields1]; omega)), VSDst.dec_enc _, decB_encB _⟩)⟩
theorem Laws.ReadBack.fence (h : Hdr) (scope : Scope) (ord : Ord) : Laws.ReadBack.Statement (.fence h scope ord) := by
  intro hw f hf
  obtain rfl := Option.some.inj hf
  have := noneF_lt; have := scope.code_lt; have := ord.code_lt
  exact ⟨Hdr.fields_fit _ (by decide) (by omega) (by omega) (by omega) (by omega) (by omega), congrArg some (Eq.mpr (Instr.fence.injEq ..) ⟨Hdr.ofFields_fields .., Scope.of_eq (by first | rfl | (simp only [Op2.fields, SOp2.fields, Hdr.fields, fields1]; omega)), Ord.of_eq (by first | rfl | (simp only [Op2.fields, SOp2.fields, Hdr.fields, fields1]; omega))⟩)⟩
theorem Laws.ReadBack.atom (h : Hdr) (op : BitVec 4) (scope : Scope) (ord : Ord) (d : VDst) (b : BitVec 5) (idx : Src) (v : Src) : Laws.ReadBack.Statement (.atom h op scope ord d b idx v) := by
  intro hw f hf
  obtain rfl := Option.some.inj hf
  have := noneF_lt; have := op.isLt; have := encA_lt op; have := encGs_lt op; have := scope.code_lt; have := ord.code_lt; have := d.enc_lt; have := b.isLt; have := encB_lt b; have := idx.enc_lt; have := v.enc_lt
  exact ⟨Hdr.fields_fit _ (by decide) (by omega) (by omega) (by omega) (by omega) (by omega), congrArg some (Eq.mpr (Instr.atom.injEq ..) ⟨Hdr.ofFields_fields .., ofNat_eq (by first | rfl | (simp only [Op2.fields, SOp2.fields, Hdr.fields, fields1]; omega)), Scope.of_eq (by first | rfl | (simp only [Op2.fields, SOp2.fields, Hdr.fields, fields1]; omega)), Ord.of_eq (by first | rfl | (simp only [Op2.fields, SOp2.fields, Hdr.fields, fields1]; omega)), VDst.dec_enc _, ofNat_eq (by first | rfl | (simp only [Op2.fields, SOp2.fields, Hdr.fields, fields1]; omega)), Src.dec_enc _, Src.dec_enc _⟩)⟩
theorem Laws.ReadBack.acas (h : Hdr) (scope : Scope) (ord : Ord) (d : VDst) (b : BitVec 5) (idx : Src) (v : Span) : Laws.ReadBack.Statement (.acas h scope ord d b idx v) := by
  intro hw f hf
  obtain rfl := Option.some.inj hf
  have := noneF_lt; have := scope.code_lt; have := ord.code_lt; have := d.enc_lt; have := b.isLt; have := encB_lt b; have := idx.enc_lt; have := v.enc_lt
  exact ⟨Hdr.fields_fit _ (by decide) (by omega) (by omega) (by omega) (by omega) (by omega), congrArg some (Eq.mpr (Instr.acas.injEq ..) ⟨Hdr.ofFields_fields .., Scope.of_eq (by first | rfl | (simp only [Op2.fields, SOp2.fields, Hdr.fields, fields1]; omega)), Ord.of_eq (by first | rfl | (simp only [Op2.fields, SOp2.fields, Hdr.fields, fields1]; omega)), VDst.dec_enc _, ofNat_eq (by first | rfl | (simp only [Op2.fields, SOp2.fields, Hdr.fields, fields1]; omega)), Src.dec_enc _, Span.dec_enc _⟩)⟩
theorem Laws.ReadBack.afadd (h : Hdr) (ty : BitVec 4) (scope : Scope) (ord : Ord) (d : VDst) (b : BitVec 5) (idx : Src) (v : Src) : Laws.ReadBack.Statement (.afadd h ty scope ord d b idx v) := by
  intro hw f hf
  obtain rfl := Option.some.inj hf
  have := noneF_lt; have := ty.isLt; have := encA_lt ty; have := encGs_lt ty; have := scope.code_lt; have := ord.code_lt; have := d.enc_lt; have := b.isLt; have := encB_lt b; have := idx.enc_lt; have := v.enc_lt
  exact ⟨Hdr.fields_fit _ (by decide) (by omega) (by omega) (by omega) (by omega) (by omega), congrArg some (Eq.mpr (Instr.afadd.injEq ..) ⟨Hdr.ofFields_fields .., ofNat_eq (by first | rfl | (simp only [Op2.fields, SOp2.fields, Hdr.fields, fields1]; omega)), Scope.of_eq (by first | rfl | (simp only [Op2.fields, SOp2.fields, Hdr.fields, fields1]; omega)), Ord.of_eq (by first | rfl | (simp only [Op2.fields, SOp2.fields, Hdr.fields, fields1]; omega)), VDst.dec_enc _, ofNat_eq (by first | rfl | (simp only [Op2.fields, SOp2.fields, Hdr.fields, fields1]; omega)), Src.dec_enc _, Src.dec_enc _⟩)⟩
theorem Laws.ReadBack.red (h : Hdr) (op : BitVec 4) (scope : Scope) (ord : Ord) (b : BitVec 5) (idx : Src) (v : Src) : Laws.ReadBack.Statement (.red h op scope ord b idx v) := by
  intro hw f hf
  obtain rfl := Option.some.inj hf
  have := noneF_lt; have := op.isLt; have := encA_lt op; have := encGs_lt op; have := scope.code_lt; have := ord.code_lt; have := b.isLt; have := encB_lt b; have := idx.enc_lt; have := v.enc_lt
  exact ⟨Hdr.fields_fit _ (by decide) (by omega) (by omega) (by omega) (by omega) (by omega), congrArg some (Eq.mpr (Instr.red.injEq ..) ⟨Hdr.ofFields_fields .., ofNat_eq (by first | rfl | (simp only [Op2.fields, SOp2.fields, Hdr.fields, fields1]; omega)), Scope.of_eq (by first | rfl | (simp only [Op2.fields, SOp2.fields, Hdr.fields, fields1]; omega)), Ord.of_eq (by first | rfl | (simp only [Op2.fields, SOp2.fields, Hdr.fields, fields1]; omega)), ofNat_eq (by first | rfl | (simp only [Op2.fields, SOp2.fields, Hdr.fields, fields1]; omega)), Src.dec_enc _, Src.dec_enc _⟩)⟩
theorem Laws.ReadBack.binit (h : Hdr) (scope : Scope) (b : BitVec 5) (idx : Src) (expa : Src) : Laws.ReadBack.Statement (.binit h scope b idx expa) := by
  intro hw f hf
  obtain rfl := Option.some.inj hf
  have := noneF_lt; have := scope.code_lt; have := b.isLt; have := encB_lt b; have := idx.enc_lt; have := expa.enc_lt
  exact ⟨Hdr.fields_fit _ (by decide) (by omega) (by omega) (by omega) (by omega) (by omega), congrArg some (Eq.mpr (Instr.binit.injEq ..) ⟨Hdr.ofFields_fields .., Scope.of_eq (by first | rfl | (simp only [Op2.fields, SOp2.fields, Hdr.fields, fields1]; omega)), ofNat_eq (by first | rfl | (simp only [Op2.fields, SOp2.fields, Hdr.fields, fields1]; omega)), Src.dec_enc _, Src.dec_enc _⟩)⟩
theorem Laws.ReadBack.barv (h : Hdr) (scope : Scope) (d : VDst) (b : BitVec 5) (idx : Src) (count : Src) : Laws.ReadBack.Statement (.barv h scope d b idx count) := by
  intro hw f hf
  obtain rfl := Option.some.inj hf
  have := noneF_lt; have := scope.code_lt; have := d.enc_lt; have := b.isLt; have := encB_lt b; have := idx.enc_lt; have := count.enc_lt
  exact ⟨Hdr.fields_fit _ (by decide) (by omega) (by omega) (by omega) (by omega) (by omega), congrArg some (Eq.mpr (Instr.barv.injEq ..) ⟨Hdr.ofFields_fields .., Scope.of_eq (by first | rfl | (simp only [Op2.fields, SOp2.fields, Hdr.fields, fields1]; omega)), VDst.dec_enc _, ofNat_eq (by first | rfl | (simp only [Op2.fields, SOp2.fields, Hdr.fields, fields1]; omega)), Src.dec_enc _, Src.dec_enc _⟩)⟩
theorem Laws.ReadBack.bexp (h : Hdr) (scope : Scope) (b : BitVec 5) (idx : Src) (bytes : Src) : Laws.ReadBack.Statement (.bexp h scope b idx bytes) := by
  intro hw f hf
  obtain rfl := Option.some.inj hf
  have := noneF_lt; have := scope.code_lt; have := b.isLt; have := encB_lt b; have := idx.enc_lt; have := bytes.enc_lt
  exact ⟨Hdr.fields_fit _ (by decide) (by omega) (by omega) (by omega) (by omega) (by omega), congrArg some (Eq.mpr (Instr.bexp.injEq ..) ⟨Hdr.ofFields_fields .., Scope.of_eq (by first | rfl | (simp only [Op2.fields, SOp2.fields, Hdr.fields, fields1]; omega)), ofNat_eq (by first | rfl | (simp only [Op2.fields, SOp2.fields, Hdr.fields, fields1]; omega)), Src.dec_enc _, Src.dec_enc _⟩)⟩
theorem Laws.ReadBack.bwait (h : Hdr) (lim : BitVec 5) (scope : Scope) (b : BitVec 5) (idx : Src) (ph : Src) : Laws.ReadBack.Statement (.bwait h lim scope b idx ph) := by
  intro hw f hf
  obtain rfl := Option.some.inj hf
  have := noneF_lt; have := lim.isLt; have := encB_lt lim; have := scope.code_lt; have := b.isLt; have := encB_lt b; have := idx.enc_lt; have := ph.enc_lt
  exact ⟨Hdr.fields_fit _ (by decide) (by omega) (by omega) (by omega) (by omega) (by omega), congrArg some (Eq.mpr (Instr.bwait.injEq ..) ⟨Hdr.ofFields_fields .., ofNat_eq (by first | rfl | (simp only [Op2.fields, SOp2.fields, Hdr.fields, fields1]; omega)), Scope.of_eq (by first | rfl | (simp only [Op2.fields, SOp2.fields, Hdr.fields, fields1]; omega)), ofNat_eq (by first | rfl | (simp only [Op2.fields, SOp2.fields, Hdr.fields, fields1]; omega)), Src.dec_enc _, Src.dec_enc _⟩)⟩
theorem Laws.ReadBack.btry (h : Hdr) (scope : Scope) (p : BitVec 3) (b : BitVec 5) (idx : Src) (ph : Src) : Laws.ReadBack.Statement (.btry h scope p b idx ph) := by
  intro hw f hf
  obtain rfl := Option.some.inj hf
  have := noneF_lt; have := scope.code_lt; have := p.isLt; have := encP_lt p; have := encF_lt p; have := b.isLt; have := encB_lt b; have := idx.enc_lt; have := ph.enc_lt
  exact ⟨Hdr.fields_fit _ (by decide) (by omega) (by omega) (by omega) (by omega) (by omega), congrArg some (Eq.mpr (Instr.btry.injEq ..) ⟨Hdr.ofFields_fields .., Scope.of_eq (by first | rfl | (simp only [Op2.fields, SOp2.fields, Hdr.fields, fields1]; omega)), decP_encP _, ofNat_eq (by first | rfl | (simp only [Op2.fields, SOp2.fields, Hdr.fields, fields1]; omega)), Src.dec_enc _, Src.dec_enc _⟩)⟩
theorem Laws.ReadBack.bar (h : Hdr) (lim : BitVec 5) (scope : Scope) (b : BitVec 5) (idx : Src) (count : Src) : Laws.ReadBack.Statement (.bar h lim scope b idx count) := by
  intro hw f hf
  obtain rfl := Option.some.inj hf
  have := noneF_lt; have := lim.isLt; have := encB_lt lim; have := scope.code_lt; have := b.isLt; have := encB_lt b; have := idx.enc_lt; have := count.enc_lt
  exact ⟨Hdr.fields_fit _ (by decide) (by omega) (by omega) (by omega) (by omega) (by omega), congrArg some (Eq.mpr (Instr.bar.injEq ..) ⟨Hdr.ofFields_fields .., ofNat_eq (by first | rfl | (simp only [Op2.fields, SOp2.fields, Hdr.fields, fields1]; omega)), Scope.of_eq (by first | rfl | (simp only [Op2.fields, SOp2.fields, Hdr.fields, fields1]; omega)), ofNat_eq (by first | rfl | (simp only [Op2.fields, SOp2.fields, Hdr.fields, fields1]; omega)), Src.dec_enc _, Src.dec_enc _⟩)⟩
theorem Laws.ReadBack.mldw (h : Hdr) (g : Option (BitVec 4)) (form : MldwForm) (f : BitVec 3) : Laws.ReadBack.Statement (.mldw h g form f) := by
  intro hw f hf
  cases form with
  | record b idx tagScal tag =>
    obtain rfl := Option.some.inj hf
    have := noneF_lt; have := encG_lt g; have := encOA_lt g; have := f.isLt; have := encP_lt f; have := encF_lt f; have := b.isLt; have := encB_lt b; have := idx.enc_lt; have := tagScal.toNat_lt; have := tag.isLt; have := encY_lt tag
    exact ⟨Hdr.fields_fit _ (by decide) (by omega) (by omega) (by omega) (by omega) (by omega), congrArg some (Eq.mpr (Instr.mldw.injEq ..) ⟨Hdr.ofFields_fields .., decG_encG _, (if_neg (by simp only [Hdr.fields, encB_div]; omega)).trans (Eq.mpr (MldwForm.record.injEq ..) ⟨decB_encB _, Src.dec_enc _, bit_eq (by simp only [Hdr.fields] <;> omega), ofNat_eq rfl⟩), ofNat_eq (by first | rfl | (simp only [Op2.fields, SOp2.fields, Hdr.fields, fields1]; omega))⟩)⟩
  | span x tag ext =>
    obtain rfl := Option.some.inj hf
    have := noneF_lt; have := encG_lt g; have := encOA_lt g; have := f.isLt; have := encP_lt f; have := encF_lt f; have := x.enc_lt; have := tag.enc_lt; have := ext.isLt; have := encY_lt ext
    exact ⟨Hdr.fields_fit _ (by decide) (by omega) (by omega) (by omega) (by omega) (by omega), congrArg some (Eq.mpr (Instr.mldw.injEq ..) ⟨Hdr.ofFields_fields .., decG_encG _, (if_pos (Span.enc_div _)).trans (Eq.mpr (MldwForm.span.injEq ..) ⟨Span.dec_enc _, Src.dec_enc _, ofNat_eq rfl⟩), ofNat_eq (by first | rfl | (simp only [Op2.fields, SOp2.fields, Hdr.fields, fields1]; omega))⟩)⟩
theorem Laws.ReadBack.mma (h : Hdr) (o : MmaOp) : Laws.ReadBack.Statement (.mma h o) := by
  intro hw f hf
  obtain rfl := Option.some.inj hf
  have := noneF_lt
  exact ⟨MmaOp.fields_fit _ _ (by decide), congrArg some (Eq.mpr (Instr.mma.injEq ..) ⟨Hdr.ofFields_fields .., MmaOp.dec_fields _ _⟩)⟩
theorem Laws.ReadBack.mmar (h : Hdr) (o : MmaOp) : Laws.ReadBack.Statement (.mmar h o) := by
  intro hw f hf
  obtain rfl := Option.some.inj hf
  have := noneF_lt
  exact ⟨MmaOp.fields_fit _ _ (by decide), congrArg some (Eq.mpr (Instr.mmar.injEq ..) ⟨Hdr.ofFields_fields .., MmaOp.dec_fields _ _⟩)⟩
theorem Laws.ReadBack.mfnc (h : Hdr) (a : Option Src) (ext : BitVec 8) : Laws.ReadBack.Statement (.mfnc h a ext) := by
  intro hw f hf
  obtain rfl := Option.some.inj hf
  have := noneF_lt; have := encOS_lt a; have := ext.isLt; have := encY_lt ext
  exact ⟨Hdr.fields_fit _ (by decide) (by omega) (by omega) (by omega) (by omega) (by omega), congrArg some (Eq.mpr (Instr.mfnc.injEq ..) ⟨Hdr.ofFields_fields .., decOS_encOS _, ofNat_eq (by first | rfl | (simp only [Op2.fields, SOp2.fields, Hdr.fields, fields1]; omega))⟩)⟩
theorem Laws.ReadBack.mwait (h : Hdr) (a : Option (BitVec 4)) : Laws.ReadBack.Statement (.mwait h a) := by
  intro hw f hf
  obtain rfl := Option.some.inj hf
  have := noneF_lt; have := encG_lt a; have := encOA_lt a
  exact ⟨Hdr.fields_fit _ (by decide) (by omega) (by omega) (by omega) (by omega) (by omega), congrArg some (Eq.mpr (Instr.mwait.injEq ..) ⟨Hdr.ofFields_fields .., decG_encOA _⟩)⟩
theorem Laws.ReadBack.mrd (h : Hdr) (d : SpanD) (a : BitVec 4) (row0 : Src) (ext : BitVec 8) : Laws.ReadBack.Statement (.mrd h d a row0 ext) := by
  intro hw f hf
  obtain rfl := Option.some.inj hf
  have := noneF_lt; have := d.enc_lt; have := a.isLt; have := encA_lt a; have := encGs_lt a; have := row0.enc_lt; have := ext.isLt; have := encY_lt ext
  exact ⟨Hdr.fields_fit _ (by decide) (by omega) (by omega) (by omega) (by omega) (by omega), congrArg some (Eq.mpr (Instr.mrd.injEq ..) ⟨Hdr.ofFields_fields .., SpanD.dec_enc _, decA_encA _, Src.dec_enc _, ofNat_eq (by first | rfl | (simp only [Op2.fields, SOp2.fields, Hdr.fields, fields1]; omega))⟩)⟩
theorem Laws.ReadBack.mzero (h : Hdr) (g : Option (BitVec 4)) (a : BitVec 4) : Laws.ReadBack.Statement (.mzero h g a) := by
  intro hw f hf
  obtain rfl := Option.some.inj hf
  have := noneF_lt; have := encG_lt g; have := encOA_lt g; have := a.isLt; have := encA_lt a; have := encGs_lt a
  exact ⟨Hdr.fields_fit _ (by decide) (by omega) (by omega) (by omega) (by omega) (by omega), congrArg some (Eq.mpr (Instr.mzero.injEq ..) ⟨Hdr.ofFields_fields .., decG_encG _, decA_encA _⟩)⟩
theorem Laws.ReadBack.mwr (h : Hdr) (g : Option (BitVec 4)) (a : BitVec 4) (sp : Span) (row0 : BitVec 8) : Laws.ReadBack.Statement (.mwr h g a sp row0) := by
  intro hw f hf
  obtain rfl := Option.some.inj hf
  have := noneF_lt; have := encG_lt g; have := encOA_lt g; have := a.isLt; have := encA_lt a; have := encGs_lt a; have := sp.enc_lt; have := row0.isLt; have := encY_lt row0
  exact ⟨Hdr.fields_fit _ (by decide) (by omega) (by omega) (by omega) (by omega) (by omega), congrArg some (Eq.mpr (Instr.mwr.injEq ..) ⟨Hdr.ofFields_fields .., decG_encG _, decA_encA _, Span.dec_enc _, ofNat_eq (by first | rfl | (simp only [Op2.fields, SOp2.fields, Hdr.fields, fields1]; omega))⟩)⟩
theorem Laws.ReadBack.mtag (h : Hdr) (g : Option (BitVec 4)) (b : BitVec 5) (idx : Src) (n : BitVec 8) : Laws.ReadBack.Statement (.mtag h g b idx n) := by
  intro hw f hf
  obtain rfl := Option.some.inj hf
  have := noneF_lt; have := encG_lt g; have := encOA_lt g; have := b.isLt; have := encB_lt b; have := idx.enc_lt; have := n.isLt; have := encY_lt n
  exact ⟨Hdr.fields_fit _ (by decide) (by omega) (by omega) (by omega) (by omega) (by omega), congrArg some (Eq.mpr (Instr.mtag.injEq ..) ⟨Hdr.ofFields_fields .., decG_encG _, decB_encB _, Src.dec_enc _, ofNat_eq (by first | rfl | (simp only [Op2.fields, SOp2.fields, Hdr.fields, fields1]; omega))⟩)⟩
theorem Laws.ReadBack.mstat (h : Hdr) (form : MstatForm) (d : SDst) : Laws.ReadBack.Statement (.mstat h form d) := by
  intro hw f hf
  cases form with
  | q =>
    obtain rfl := Option.some.inj hf
    have := noneF_lt; have := d.enc_lt
    exact ⟨Hdr.fields_fit _ (by decide) (by omega) (by omega) (by omega) (by omega) (by omega), congrArg some (Eq.mpr (Instr.mstat.injEq ..) ⟨Hdr.ofFields_fields .., rfl, SDst.dec_enc _⟩)⟩
  | b a =>
    obtain rfl := Option.some.inj hf
    have := noneF_lt; have := d.enc_lt; have := a.isLt; have := encA_lt a; have := encGs_lt a
    exact ⟨Hdr.fields_fit _ (by decide) (by omega) (by omega) (by omega) (by omega) (by omega), congrArg some (Eq.mpr (Instr.mstat.injEq ..) ⟨Hdr.ofFields_fields .., congrArg MstatForm.b (decA_encA _), SDst.dec_enc _⟩)⟩
  | m =>
    obtain rfl := Option.some.inj hf
    have := noneF_lt; have := d.enc_lt
    exact ⟨Hdr.fields_fit _ (by decide) (by omega) (by omega) (by omega) (by omega) (by omega), congrArg some (Eq.mpr (Instr.mstat.injEq ..) ⟨Hdr.ofFields_fields .., rfl, SDst.dec_enc _⟩)⟩
theorem Laws.ReadBack.mst (h : Hdr) (g : Option (BitVec 4)) (b : BitVec 5) (idx : Src) (tile : BitVec 4) (f : BitVec 3) : Laws.ReadBack.Statement (.mst h g b idx tile f) := by
  intro hw f hf
  obtain rfl := Option.some.inj hf
  have := noneF_lt; have := encG_lt g; have := encOA_lt g; have := b.isLt; have := encB_lt b; have := idx.enc_lt; have := tile.isLt; have := encA_lt tile; have := encGs_lt tile; have := f.isLt; have := encP_lt f; have := encF_lt f
  exact ⟨Hdr.fields_fit _ (by decide) (by omega) (by omega) (by omega) (by omega) (by omega), congrArg some (Eq.mpr (Instr.mst.injEq ..) ⟨Hdr.ofFields_fields .., decG_encG _, decB_encB _, Src.dec_enc _, ofNat_eq (by first | rfl | (simp only [Op2.fields, SOp2.fields, Hdr.fields, fields1]; omega)), ofNat_eq (by first | rfl | (simp only [Op2.fields, SOp2.fields, Hdr.fields, fields1]; omega))⟩)⟩
theorem Laws.ReadBack.gset (h : Hdr) (g : BitVec 4) (a : Src) : Laws.ReadBack.Statement (.gset h g a) := by
  intro hw f hf
  obtain rfl := Option.some.inj hf
  have := noneF_lt; have := g.isLt; have := encA_lt g; have := encGs_lt g; have := a.enc_lt
  exact ⟨Hdr.fields_fit _ (by decide) (by omega) (by omega) (by omega) (by omega) (by omega), congrArg some (Eq.mpr (Instr.gset.injEq ..) ⟨Hdr.ofFields_fields .., decA_encGs _, Src.dec_enc _⟩)⟩
theorem Laws.ReadBack.gclr (h : Hdr) (g : BitVec 4) : Laws.ReadBack.Statement (.gclr h g) := by
  intro hw f hf
  obtain rfl := Option.some.inj hf
  have := noneF_lt; have := g.isLt; have := encA_lt g; have := encGs_lt g
  exact ⟨Hdr.fields_fit _ (by decide) (by omega) (by omega) (by omega) (by omega) (by omega), congrArg some (Eq.mpr (Instr.gclr.injEq ..) ⟨Hdr.ofFields_fields .., decA_encGs _⟩)⟩
theorem Laws.ReadBack.gtst (h : Hdr) (resolved : Bool) (p : BitVec 3) (g : BitVec 4) : Laws.ReadBack.Statement (.gtst h resolved p g) := by
  intro hw f hf
  obtain rfl := Option.some.inj hf
  have := noneF_lt; have := resolved.toNat_lt; have := p.isLt; have := encP_lt p; have := encF_lt p; have := g.isLt; have := encA_lt g; have := encGs_lt g
  exact ⟨Hdr.fields_fit _ (by decide) (by omega) (by omega) (by omega) (by omega) (by omega), congrArg some (Eq.mpr (Instr.gtst.injEq ..) ⟨Hdr.ofFields_fields .., bit_eq (by first | rfl | (simp only [Op2.fields, SOp2.fields, Hdr.fields, fields1]; omega)), decP_encP _, decA_encGs _⟩)⟩
theorem Laws.ReadBack.cpy (h : Hdr) (bd : BitVec 5) (bs : BitVec 5) (bo : BitVec 6) : Laws.ReadBack.Statement (.cpy h bd bs bo) := by
  intro hw f hf
  obtain rfl := Option.some.inj hf
  have := noneF_lt; have := bd.isLt; have := encB_lt bd; have := bs.isLt; have := encB_lt bs; have := bo.isLt; have := encT_lt bo
  exact ⟨Hdr.fields_fit _ (by decide) (by omega) (by omega) (by omega) (by omega) (by omega), congrArg some (Eq.mpr (Instr.cpy.injEq ..) ⟨Hdr.ofFields_fields .., decB_encB _, decB_encB _, ofNat_eq (by first | rfl | (simp only [Op2.fields, SOp2.fields, Hdr.fields, fields1]; omega))⟩)⟩
theorem Laws.ReadBack.cpyg (h : Hdr) (bd : BitVec 5) (bs : BitVec 5) (bi : BitVec 5) (bo : BitVec 6) : Laws.ReadBack.Statement (.cpyg h bd bs bi bo) := by
  intro hw f hf
  obtain rfl := Option.some.inj hf
  have := noneF_lt; have := bd.isLt; have := encB_lt bd; have := bs.isLt; have := encB_lt bs; have := bi.isLt; have := encB_lt bi; have := bo.isLt; have := encT_lt bo
  exact ⟨Hdr.fields_fit _ (by decide) (by omega) (by omega) (by omega) (by omega) (by omega), congrArg some (Eq.mpr (Instr.cpyg.injEq ..) ⟨Hdr.ofFields_fields .., decB_encB _, decB_encB _, decB_encB _, ofNat_eq (by first | rfl | (simp only [Op2.fields, SOp2.fields, Hdr.fields, fields1]; omega))⟩)⟩
theorem Laws.ReadBack.cpys (h : Hdr) (bd : BitVec 5) (bs : BitVec 5) (bi : BitVec 5) (bo : BitVec 6) : Laws.ReadBack.Statement (.cpys h bd bs bi bo) := by
  intro hw f hf
  obtain rfl := Option.some.inj hf
  have := noneF_lt; have := bd.isLt; have := encB_lt bd; have := bs.isLt; have := encB_lt bs; have := bi.isLt; have := encB_lt bi; have := bo.isLt; have := encT_lt bo
  exact ⟨Hdr.fields_fit _ (by decide) (by omega) (by omega) (by omega) (by omega) (by omega), congrArg some (Eq.mpr (Instr.cpys.injEq ..) ⟨Hdr.ofFields_fields .., decB_encB _, decB_encB _, decB_encB _, ofNat_eq (by first | rfl | (simp only [Op2.fields, SOp2.fields, Hdr.fields, fields1]; omega))⟩)⟩
theorem Laws.ReadBack.cpyc (h : Hdr) (bh : BitVec 5) : Laws.ReadBack.Statement (.cpyc h bh) := by
  intro hw f hf
  obtain rfl := Option.some.inj hf
  have := noneF_lt; have := bh.isLt; have := encB_lt bh
  exact ⟨Hdr.fields_fit _ (by decide) (by omega) (by omega) (by omega) (by omega) (by omega), congrArg some (Eq.mpr (Instr.cpyc.injEq ..) ⟨Hdr.ofFields_fields .., decB_encB _⟩)⟩
theorem Laws.ReadBack.cpyr (h : Hdr) (op : BitVec 3) (bd : BitVec 5) (bs : BitVec 5) (bo : BitVec 6) : Laws.ReadBack.Statement (.cpyr h op bd bs bo) := by
  intro hw f hf
  obtain rfl := Option.some.inj hf
  have := noneF_lt; have := op.isLt; have := encP_lt op; have := encF_lt op; have := bd.isLt; have := encB_lt bd; have := bs.isLt; have := encB_lt bs; have := bo.isLt; have := encT_lt bo
  exact ⟨Hdr.fields_fit _ (by decide) (by omega) (by omega) (by omega) (by omega) (by omega), congrArg some (Eq.mpr (Instr.cpyr.injEq ..) ⟨Hdr.ofFields_fields .., ofNat_eq (by first | rfl | (simp only [Op2.fields, SOp2.fields, Hdr.fields, fields1]; omega)), decB_encB _, decB_encB _, ofNat_eq (by first | rfl | (simp only [Op2.fields, SOp2.fields, Hdr.fields, fields1]; omega))⟩)⟩
theorem Laws.ReadBack.cseq (h : Hdr) (done : Bool) (dst : VSDst) : Laws.ReadBack.Statement (.cseq h done dst) := by
  intro hw f hf
  obtain rfl := Option.some.inj hf
  have := noneF_lt; have := done.toNat_lt; have := dst.enc_lt
  exact ⟨Hdr.fields_fit _ (by decide) (by omega) (by omega) (by omega) (by omega) (by omega), congrArg some (Eq.mpr (Instr.cseq.injEq ..) ⟨Hdr.ofFields_fields .., bit_eq (by first | rfl | (simp only [Op2.fields, SOp2.fields, Hdr.fields, fields1]; omega)), VSDst.dec_enc _⟩)⟩
theorem Laws.ReadBack.cpyw (h : Hdr) (a : Src) : Laws.ReadBack.Statement (.cpyw h a) := by
  intro hw f hf
  obtain rfl := Option.some.inj hf
  have := noneF_lt; have := a.enc_lt
  exact ⟨Hdr.fields_fit _ (by decide) (by omega) (by omega) (by omega) (by omega) (by omega), congrArg some (Eq.mpr (Instr.cpyw.injEq ..) ⟨Hdr.ofFields_fields .., Src.dec_enc _⟩)⟩
theorem Laws.ReadBack.rsv (h : Hdr) (tr : Bool) (d : BitVec 6) (bd : BitVec 5) (bs : BitVec 5) (sc : BitVec 6) : Laws.ReadBack.Statement (.rsv h tr d bd bs sc) := by
  intro hw f hf
  obtain rfl := Option.some.inj hf
  have := noneF_lt; have := tr.toNat_lt; have := d.isLt; have := encT_lt d; have := bd.isLt; have := encB_lt bd; have := bs.isLt; have := encB_lt bs; have := sc.isLt; have := encT_lt sc
  exact ⟨Hdr.fields_fit _ (by decide) (by omega) (by omega) (by omega) (by omega) (by omega), congrArg some (Eq.mpr (Instr.rsv.injEq ..) ⟨Hdr.ofFields_fields .., bit_eq (by first | rfl | (simp only [Op2.fields, SOp2.fields, Hdr.fields, fields1]; omega)), decT_encT _, decB_encB _, decB_encB _, ofNat_eq (by first | rfl | (simp only [Op2.fields, SOp2.fields, Hdr.fields, fields1]; omega))⟩)⟩
theorem Laws.ReadBack.route (h : Hdr) (tk : BitVec 6) (bt : BitVec 5) (bk : BitVec 5) : Laws.ReadBack.Statement (.route h tk bt bk) := by
  intro hw f hf
  obtain rfl := Option.some.inj hf
  have := noneF_lt; have := tk.isLt; have := encT_lt tk; have := bt.isLt; have := encB_lt bt; have := bk.isLt; have := encB_lt bk
  exact ⟨Hdr.fields_fit _ (by decide) (by omega) (by omega) (by omega) (by omega) (by omega), congrArg some (Eq.mpr (Instr.route.injEq ..) ⟨Hdr.ofFields_fields .., decT_encT _, decB_encB _, ofNat_eq (by first | rfl | (simp only [Op2.fields, SOp2.fields, Hdr.fields, fields1]; omega))⟩)⟩
theorem Laws.ReadBack.rret (h : Hdr) (b : BitVec 5) (i : Src) : Laws.ReadBack.Statement (.rret h b i) := by
  intro hw f hf
  obtain rfl := Option.some.inj hf
  have := noneF_lt; have := b.isLt; have := encB_lt b; have := i.enc_lt
  exact ⟨Hdr.fields_fit _ (by decide) (by omega) (by omega) (by omega) (by omega) (by omega), congrArg some (Eq.mpr (Instr.rret.injEq ..) ⟨Hdr.ofFields_fields .., decB_encB _, Src.dec_enc _⟩)⟩
theorem Laws.ReadBack.rwait (h : Hdr) (tk : BitVec 6) : Laws.ReadBack.Statement (.rwait h tk) := by
  intro hw f hf
  obtain rfl := Option.some.inj hf
  have := noneF_lt; have := tk.isLt; have := encT_lt tk
  exact ⟨Hdr.fields_fit _ (by decide) (by omega) (by omega) (by omega) (by omega) (by omega), congrArg some (Eq.mpr (Instr.rwait.injEq ..) ⟨Hdr.ofFields_fields .., decT_encT _⟩)⟩
theorem Laws.ReadBack.rstat (h : Hdr) (f : BitVec 3) (dst : VSDst) (tk : BitVec 6) : Laws.ReadBack.Statement (.rstat h f dst tk) := by
  intro hw f hf
  obtain rfl := Option.some.inj hf
  have := noneF_lt; have := f.isLt; have := encP_lt f; have := encF_lt f; have := dst.enc_lt; have := tk.isLt; have := encT_lt tk
  exact ⟨Hdr.fields_fit _ (by decide) (by omega) (by omega) (by omega) (by omega) (by omega), congrArg some (Eq.mpr (Instr.rstat.injEq ..) ⟨Hdr.ofFields_fields .., ofNat_eq (by first | rfl | (simp only [Op2.fields, SOp2.fields, Hdr.fields, fields1]; omega)), VSDst.dec_enc _, decT_encT _⟩)⟩
theorem Laws.ReadBack.stile (h : Hdr) (d : SDst) (b : Option (BitVec 5)) : Laws.ReadBack.Statement (.stile h d b) := by
  intro hw f hf
  cases b with
  | none =>
    obtain rfl := Option.some.inj hf
    have := noneF_lt; have := d.enc_lt
    exact ⟨Hdr.fields_fit _ (by decide) (by omega) (by omega) (by omega) (by omega) (by omega), congrArg some (Eq.mpr (Instr.stile.injEq ..) ⟨Hdr.ofFields_fields .., SDst.dec_enc _, rfl⟩)⟩
  | some b =>
    obtain rfl := Option.some.inj hf
    have := noneF_lt; have := d.enc_lt; have := b.isLt; have := encB_lt b
    exact ⟨Hdr.fields_fit _ (by decide) (by omega) (by omega) (by omega) (by omega) (by omega), congrArg some (Eq.mpr (Instr.stile.injEq ..) ⟨Hdr.ofFields_fields .., SDst.dec_enc _, congrArg some (decB_encB _)⟩)⟩
theorem Laws.ReadBack.sflush (h : Hdr) (a : Src) : Laws.ReadBack.Statement (.sflush h a) := by
  intro hw f hf
  obtain rfl := Option.some.inj hf
  have := noneF_lt; have := a.enc_lt
  exact ⟨Hdr.fields_fit _ (by decide) (by omega) (by omega) (by omega) (by omega) (by omega), congrArg some (Eq.mpr (Instr.sflush.injEq ..) ⟨Hdr.ofFields_fields .., Src.dec_enc _⟩)⟩
theorem Laws.ReadBack.rfree (h : Hdr) (tk : BitVec 6) : Laws.ReadBack.Statement (.rfree h tk) := by
  intro hw f hf
  obtain rfl := Option.some.inj hf
  have := noneF_lt; have := tk.isLt; have := encT_lt tk
  exact ⟨Hdr.fields_fit _ (by decide) (by omega) (by omega) (by omega) (by omega) (by omega), congrArg some (Eq.mpr (Instr.rfree.injEq ..) ⟨Hdr.ofFields_fields .., decT_encT _⟩)⟩
theorem Laws.ReadBack.csr (h : Hdr) (dst : VSDst) (form : CsrForm) : Laws.ReadBack.Statement (.csr h dst form) := by
  intro hw f hf
  cases form with
  | direct i =>
    obtain rfl := Option.some.inj hf
    have := noneF_lt; have := dst.enc_lt; have := i.isLt; have := encY_lt i
    exact ⟨Hdr.fields_fit _ (by decide) (by omega) (by omega) (by omega) (by omega) (by omega), congrArg some (Eq.mpr (Instr.csr.injEq ..) ⟨Hdr.ofFields_fields .., VSDst.dec_enc _, congrArg CsrForm.direct (decY_encY _)⟩)⟩
  | ind a =>
    obtain rfl := Option.some.inj hf
    have := noneF_lt; have := dst.enc_lt; have := a.enc_lt
    exact ⟨Hdr.fields_fit _ (by decide) (by omega) (by omega) (by omega) (by omega) (by omega), congrArg some (Eq.mpr (Instr.csr.injEq ..) ⟨Hdr.ofFields_fields .., VSDst.dec_enc _, congrArg CsrForm.ind (Src.dec_enc _)⟩)⟩
theorem Laws.ReadBack.csw (h : Hdr) (n : BitVec 8) (a : Src) : Laws.ReadBack.Statement (.csw h n a) := by
  intro hw f hf
  obtain rfl := Option.some.inj hf
  have := noneF_lt; have := n.isLt; have := encY_lt n; have := a.enc_lt
  exact ⟨Hdr.fields_fit _ (by decide) (by omega) (by omega) (by omega) (by omega) (by omega), congrArg some (Eq.mpr (Instr.csw.injEq ..) ⟨Hdr.ofFields_fields .., decY_encY _, Src.dec_enc _⟩)⟩
theorem Laws.ReadBack.tret (h : Hdr) (k : BitVec 2) : Laws.ReadBack.Statement (.tret h k) := by
  intro hw f hf
  obtain rfl := Option.some.inj hf
  have := noneF_lt; have := k.isLt
  exact ⟨Hdr.fields_fit _ (by decide) (by omega) (by omega) (by omega) (by omega) (by omega), congrArg some (Eq.mpr (Instr.tret.injEq ..) ⟨Hdr.ofFields_fields .., ofNat_eq (by first | rfl | (simp only [Op2.fields, SOp2.fields, Hdr.fields, fields1]; omega))⟩)⟩
theorem Laws.ReadBack.nsave (h : Hdr) (d : SDst) (b : BitVec 5) (idx : Src) : Laws.ReadBack.Statement (.nsave h d b idx) := by
  intro hw f hf
  obtain rfl := Option.some.inj hf
  have := noneF_lt; have := d.enc_lt; have := b.isLt; have := encB_lt b; have := idx.enc_lt
  exact ⟨Hdr.fields_fit _ (by decide) (by omega) (by omega) (by omega) (by omega) (by omega), congrArg some (Eq.mpr (Instr.nsave.injEq ..) ⟨Hdr.ofFields_fields .., SDst.dec_enc _, decB_encB _, Src.dec_enc _⟩)⟩
theorem Laws.ReadBack.nload (h : Hdr) (b : BitVec 5) (idx : Src) (sn : BitVec 6) : Laws.ReadBack.Statement (.nload h b idx sn) := by
  intro hw f hf
  obtain rfl := Option.some.inj hf
  have := noneF_lt; have := b.isLt; have := encB_lt b; have := idx.enc_lt; have := sn.isLt; have := encT_lt sn
  exact ⟨Hdr.fields_fit _ (by decide) (by omega) (by omega) (by omega) (by omega) (by omega), congrArg some (Eq.mpr (Instr.nload.injEq ..) ⟨Hdr.ofFields_fields .., decB_encB _, Src.dec_enc _, ofNat_eq (by first | rfl | (simp only [Op2.fields, SOp2.fields, Hdr.fields, fields1]; omega))⟩)⟩
theorem Laws.ReadBack.tstamp (h : Hdr) (clk : Bool) (fence : Bool) (dst : VSDst) : Laws.ReadBack.Statement (.tstamp h clk fence dst) := by
  intro hw f hf
  obtain rfl := Option.some.inj hf
  have := noneF_lt; have := clk.toNat_lt; have := fence.toNat_lt; have := dst.enc_lt
  exact ⟨Hdr.fields_fit _ (by decide) (by omega) (by omega) (by omega) (by omega) (by omega), congrArg some (Eq.mpr (Instr.tstamp.injEq ..) ⟨Hdr.ofFields_fields .., bit_eq (by first | rfl | (simp only [Op2.fields, SOp2.fields, Hdr.fields, fields1]; omega)), bit_eq (by first | rfl | (simp only [Op2.fields, SOp2.fields, Hdr.fields, fields1]; omega)), VSDst.dec_enc _⟩)⟩
theorem Laws.ReadBack.cntr (h : Hdr) (form : CntrForm) (n : Src) : Laws.ReadBack.Statement (.cntr h form n) := by
  intro hw f hf
  cases form with
  | one f d =>
    obtain rfl := Option.some.inj hf
    have := noneF_lt; have := n.enc_lt; have := f.isLt; have := d.enc_lt
    exact ⟨Hdr.fields_fit _ (by decide) (by omega) (by omega) (by omega) (by omega) (by omega), congrArg some (Eq.mpr (Instr.cntr.injEq ..) ⟨Hdr.ofFields_fields .., (if_neg (cntrOne_ne h n d hw)).trans (Eq.mpr (CntrForm.one.injEq ..) ⟨ofNat_eq rfl, VSDst.dec_enc _⟩), Src.dec_enc _⟩)⟩
  | all d ext =>
    obtain rfl := Option.some.inj hf
    have := noneF_lt; have := n.enc_lt; have := d.enc_lt; have := ext.isLt; have := encY_lt ext
    exact ⟨Hdr.fields_fit _ (by decide) (by omega) (by omega) (by omega) (by omega) (by omega), congrArg some (Eq.mpr (Instr.cntr.injEq ..) ⟨Hdr.ofFields_fields .., Eq.mpr (CntrForm.all.injEq ..) ⟨SpanD.dec_enc _, ofNat_eq rfl⟩, Src.dec_enc _⟩)⟩
theorem Laws.ReadBack.probe (h : Hdr) (dst : VSDst) (off : Src) : Laws.ReadBack.Statement (.probe h dst off) := by
  intro hw f hf
  obtain rfl := Option.some.inj hf
  have := noneF_lt; have := dst.enc_lt; have := off.enc_lt
  exact ⟨Hdr.fields_fit _ (by decide) (by omega) (by omega) (by omega) (by omega) (by omega), congrArg some (Eq.mpr (Instr.probe.injEq ..) ⟨Hdr.ofFields_fields .., VSDst.dec_enc _, Src.dec_enc _⟩)⟩
theorem Laws.ReadBack.icinv (h : Hdr) (b : Option (BitVec 5)) : Laws.ReadBack.Statement (.icinv h b) := by
  intro hw f hf
  cases b with
  | none =>
    obtain rfl := Option.some.inj hf
    have := noneF_lt
    exact ⟨Hdr.fields_fit _ (by decide) (by omega) (by omega) (by omega) (by omega) (by omega), congrArg some (Eq.mpr (Instr.icinv.injEq ..) ⟨Hdr.ofFields_fields .., rfl⟩)⟩
  | some b =>
    obtain rfl := Option.some.inj hf
    have := noneF_lt; have := b.isLt; have := encB_lt b
    exact ⟨Hdr.fields_fit _ (by decide) (by omega) (by omega) (by omega) (by omega) (by omega), congrArg some (Eq.mpr (Instr.icinv.injEq ..) ⟨Hdr.ofFields_fields .., congrArg some (decB_encB _)⟩)⟩
theorem Laws.ReadBack.mark (h : Hdr) (n : BitVec 17) : Laws.ReadBack.Statement (.mark h n) := by
  intro hw f hf
  obtain rfl := Option.some.inj hf
  have := noneF_lt; have := n.isLt
  exact ⟨Hdr.fields_fit _ (by decide) (by omega) (by omega) (by omega) (by omega) (by omega), congrArg some (Eq.mpr (Instr.mark.injEq ..) ⟨Hdr.ofFields_fields .., decI_imm _⟩)⟩
theorem Laws.ReadBack.hnear (h : Hdr) (c : BitVec 2) (b : BitVec 5) (idx : Src) :
    Laws.ReadBack.Statement (.hnear h c b idx) := by
  intro hw f hf
  obtain rfl := Option.some.inj hf
  have := noneF_lt; have := c.isLt; have := encB_lt b; have := idx.enc_lt
  refine ⟨Hdr.fields_fit _ (by decide) (by omega) (by omega) (by omega) (by omega) (by omega), ?_⟩
  have hb : build (h.fields 240 c.toNat noneF (encB b) idx.enc 0) = some (buildHint h (h.fields 240 c.toNat noneF (encB b) idx.enc 0)) :=
    congrArg some (congrFun (congrArg buildHint (Hdr.ofFields_fields ..)) _)
  rw [hb, buildHint_near h (h.fields 240 c.toNat noneF (encB b) idx.enc 0) 0 rfl (isNear_of h c b idx hw)]
  exact congrArg some (Eq.mpr (Instr.hnear.injEq ..) ⟨rfl, ofNat_eq rfl, decB_encB _, Src.dec_enc _⟩)
theorem Laws.ReadBack.hest (h : Hdr) (d : VDst) : Laws.ReadBack.Statement (.hest h d) := by
  intro hw f hf
  obtain rfl := Option.some.inj hf
  have := noneF_lt; have := d.enc_lt
  refine ⟨Hdr.fields_fit _ (by decide) (by omega) (by omega) (by omega) (by omega) (by omega), ?_⟩
  have hb : build (h.fields 241 0 d.enc noneF noneF 0) = some (buildHint h (h.fields 241 0 d.enc noneF noneF 0)) :=
    congrArg some (congrFun (congrArg buildHint (Hdr.ofFields_fields ..)) _)
  have hn := isEst_of h d hw
  rw [hb, buildHint_est h (h.fields 241 0 d.enc noneF noneF 0) 1 rfl hn.1 hn.2]
  exact congrArg some (Eq.mpr (Instr.hest.injEq ..) ⟨rfl, VDst.dec_enc _⟩)
theorem Laws.ReadBack.unimplementedHint (h : Hdr) (w : HintWord) :
    Laws.ReadBack.Statement (.unimplementedHint h w) := by
  intro hw f hf
  obtain rfl := Option.some.inj hf
  cases w with | mk j n r d a b e => ?_
  simp only [Instr.wf, Bool.and_eq_true, decide_eq_true_eq, Bool.not_eq_true'] at hw
  have := j.isLt
  refine ⟨⟨by simp only; omega, n.isLt, h.gneg.toNat_lt, h.gpred.isLt, h.la.isLt, h.yld.toNat_lt, h.uexp.toNat_lt, r.isLt, d.isLt,
    a.isLt, b.isLt, e.isLt⟩, ?_⟩
  simp only [build]
  iterate 8 rw [if_neg (by omega)]
  rw [if_pos (by simp; omega)]
  refine congrArg some ?_
  have hj : BitVec.ofNat 4 (240 + j.toNat - 240) = j := ofNat_eq (by omega)
  have hh : Hdr.ofFields ⟨240 + j.toNat, n.toNat, h.gneg.toNat, h.gpred.toNat, h.la.toNat, h.yld.toNat, h.uexp.toNat, r.toNat,
      d.toNat, a.toNat, b.toNat, e.toNat⟩ = h := Hdr.ofFields_fields h 0 0 0 0 0 0
  simp only [buildHint, hj, hh, BitVec.ofNat_toNat, BitVec.setWidth_eq]
  rw [if_neg (by simp [hw.1.2]), if_neg (by simp [hw.2])]
theorem Laws.ReadBack.bundleStart (core : Nat) (q : Nat) : Laws.ReadBack.Statement (.bundleStart core q) := fun _ _ h => nomatch h
theorem Laws.ReadBack.joinRelease (p : PackId) : Laws.ReadBack.Statement (.joinRelease p) := fun _ _ h => nomatch h
theorem Laws.ReadBack.pendingValueArrive (p : PackId) (flight : Nat) : Laws.ReadBack.Statement (.pendingValueArrive p flight) := fun _ _ h => nomatch h
theorem Laws.ReadBack.rowFree (p : PackId) (row : Nat) : Laws.ReadBack.Statement (.rowFree p row) := fun _ _ h => nomatch h
theorem Laws.ReadBack.rowsGranted (core : Nat) (slot : Nat) : Laws.ReadBack.Statement (.rowsGranted core slot) := fun _ _ h => nomatch h
theorem Laws.ReadBack.allocationDeadlock (core : Nat) (slot : Nat) : Laws.ReadBack.Statement (.allocationDeadlock core slot) := fun _ _ h => nomatch h
theorem Laws.ReadBack.rowEvict (core : Nat) (slot : Nat) : Laws.ReadBack.Statement (.rowEvict core slot) := fun _ _ h => nomatch h
theorem Laws.ReadBack.rowRestore (p : PackId) : Laws.ReadBack.Statement (.rowRestore p) := fun _ _ h => nomatch h
theorem Laws.ReadBack.storeLeave (t : ThreadId) (po : Nat) : Laws.ReadBack.Statement (.storeLeave t po) := fun _ _ h => nomatch h
theorem Laws.ReadBack.markerRetire (t : ThreadId) (po : Nat) : Laws.ReadBack.Statement (.markerRetire t po) := fun _ _ h => nomatch h
theorem Laws.ReadBack.loadPerform (t : ThreadId) (po : Nat) : Laws.ReadBack.Statement (.loadPerform t po) := fun _ _ h => nomatch h
theorem Laws.ReadBack.reductionCombine (i : Nat) (j : Nat) : Laws.ReadBack.Statement (.reductionCombine i j) := fun _ _ h => nomatch h
theorem Laws.ReadBack.reductionApply (i : Nat) : Laws.ReadBack.Statement (.reductionApply i) := fun _ _ h => nomatch h
theorem Laws.ReadBack.barrierWake (t : ThreadId) : Laws.ReadBack.Statement (.barrierWake t) := fun _ _ h => nomatch h
theorem Laws.ReadBack.barrierTimeout (t : ThreadId) : Laws.ReadBack.Statement (.barrierTimeout t) := fun _ _ h => nomatch h
theorem Laws.ReadBack.sleepWake (t : ThreadId) : Laws.ReadBack.Statement (.sleepWake t) := fun _ _ h => nomatch h
theorem Laws.ReadBack.cwaitWake (t : ThreadId) : Laws.ReadBack.Statement (.cwaitWake t) := fun _ _ h => nomatch h
theorem Laws.ReadBack.mwaitWake (t : ThreadId) : Laws.ReadBack.Statement (.mwaitWake t) := fun _ _ h => nomatch h
theorem Laws.ReadBack.cpywWake (t : ThreadId) : Laws.ReadBack.Statement (.cpywWake t) := fun _ _ h => nomatch h
theorem Laws.ReadBack.rwaitWake (t : ThreadId) : Laws.ReadBack.Statement (.rwaitWake t) := fun _ _ h => nomatch h
theorem Laws.ReadBack.rsvEntryFreed (p : PackId) : Laws.ReadBack.Statement (.rsvEntryFreed p) := fun _ _ h => nomatch h
theorem Laws.ReadBack.spawnHoldRelease (t : ThreadId) : Laws.ReadBack.Statement (.spawnHoldRelease t) := fun _ _ h => nomatch h
theorem Laws.ReadBack.spawnSubmit (t : ThreadId) (po : Nat) : Laws.ReadBack.Statement (.spawnSubmit t po) := fun _ _ h => nomatch h
theorem Laws.ReadBack.tlbMissWalk (ridge : Nat) (part : Nat) (va : Nat) (kind : Nat) : Laws.ReadBack.Statement (.tlbMissWalk ridge part va kind) := fun _ _ h => nomatch h
theorem Laws.ReadBack.walkStopped (ridge : Nat) (part : Nat) (va : Nat) (kind : Nat) : Laws.ReadBack.Statement (.walkStopped ridge part va kind) := fun _ _ h => nomatch h
theorem Laws.ReadBack.matrixCommandStart (c : CmdId) : Laws.ReadBack.Statement (.matrixCommandStart c) := fun _ _ h => nomatch h
theorem Laws.ReadBack.engineReadMove (c : CmdId) (start : Nat) (len : Nat) : Laws.ReadBack.Statement (.engineReadMove c start len) := fun _ _ h => nomatch h
theorem Laws.ReadBack.engineWriteMove (c : CmdId) (start : Nat) (len : Nat) : Laws.ReadBack.Statement (.engineWriteMove c start len) := fun _ _ h => nomatch h
theorem Laws.ReadBack.commandRetire (c : CmdId) : Laws.ReadBack.Statement (.commandRetire c) := fun _ _ h => nomatch h
theorem Laws.ReadBack.operandReadyRetire (p : PackId) (fence : Nat) : Laws.ReadBack.Statement (.operandReadyRetire p fence) := fun _ _ h => nomatch h
theorem Laws.ReadBack.powerLeaveGrant (c : CmdId) : Laws.ReadBack.Statement (.powerLeaveGrant c) := fun _ _ h => nomatch h
theorem Laws.ReadBack.shadowResolve (core : Nat) (slot : Nat) (g : BitVec 4) : Laws.ReadBack.Statement (.shadowResolve core slot g) := fun _ _ h => nomatch h
theorem Laws.ReadBack.chainEntry (c : CmdId) : Laws.ReadBack.Statement (.chainEntry c) := fun _ _ h => nomatch h
theorem Laws.ReadBack.pinTimeout (part : Nat) (va : Nat) : Laws.ReadBack.Statement (.pinTimeout part va) := fun _ _ h => nomatch h
theorem Laws.ReadBack.engineHangTimeout (core : Nat) (q : Nat) : Laws.ReadBack.Statement (.engineHangTimeout core q) := fun _ _ h => nomatch h
theorem Laws.ReadBack.engineReturnToService (core : Nat) (q : Nat) : Laws.ReadBack.Statement (.engineReturnToService core q) := fun _ _ h => nomatch h
theorem Laws.ReadBack.routeTableRead (p : PackId) : Laws.ReadBack.Statement (.routeTableRead p) := fun _ _ h => nomatch h
theorem Laws.ReadBack.routeStallResume (p : PackId) : Laws.ReadBack.Statement (.routeStallResume p) := fun _ _ h => nomatch h
theorem Laws.ReadBack.recordStoreResolve (p : PackId) : Laws.ReadBack.Statement (.recordStoreResolve p) := fun _ _ h => nomatch h
theorem Laws.ReadBack.flushTimerExpiry (part : Nat) (station : Nat) : Laws.ReadBack.Statement (.flushTimerExpiry part station) := fun _ _ h => nomatch h
theorem Laws.ReadBack.stationTeamLaunch (part : Nat) (station : Nat) : Laws.ReadBack.Statement (.stationTeamLaunch part station) := fun _ _ h => nomatch h
theorem Laws.ReadBack.rretClaim (t : ThreadId) : Laws.ReadBack.Statement (.rretClaim t) := fun _ _ h => nomatch h
theorem Laws.ReadBack.rretArrival (t : ThreadId) : Laws.ReadBack.Statement (.rretArrival t) := fun _ _ h => nomatch h
theorem Laws.ReadBack.reservationTimeout (core : Nat) (entry : Nat) : Laws.ReadBack.Statement (.reservationTimeout core entry) := fun _ _ h => nomatch h
theorem Laws.ReadBack.rowCombine (core : Nat) (entry : Nat) (row : Nat) : Laws.ReadBack.Statement (.rowCombine core entry row) := fun _ _ h => nomatch h
theorem Laws.ReadBack.icinvDrop (p : PackId) : Laws.ReadBack.Statement (.icinvDrop p) := fun _ _ h => nomatch h
theorem Laws.ReadBack.tstampFenceSample (t : ThreadId) : Laws.ReadBack.Statement (.tstampFenceSample t) := fun _ _ h => nomatch h
theorem Laws.ReadBack.teamRetire (core : Nat) (slot : Nat) : Laws.ReadBack.Statement (.teamRetire core slot) := fun _ _ h => nomatch h
theorem Laws.ReadBack.gridRetire (fe : Nat) (grid : Nat) : Laws.ReadBack.Statement (.gridRetire fe grid) := fun _ _ h => nomatch h
theorem Laws.ReadBack.launchAccept (fe : Nat) : Laws.ReadBack.Statement (.launchAccept fe) := fun _ _ h => nomatch h
theorem Laws.ReadBack.teamPlace (fe : Nat) : Laws.ReadBack.Statement (.teamPlace fe) := fun _ _ h => nomatch h
theorem Laws.ReadBack.asyncFaultDelivery (t : ThreadId) : Laws.ReadBack.Statement (.asyncFaultDelivery t) := fun _ _ h => nomatch h
theorem Laws.ReadBack.sliceTimerExpiry (part : Nat) : Laws.ReadBack.Statement (.sliceTimerExpiry part) := fun _ _ h => nomatch h
theorem Laws.ReadBack.sliceEndEntry (p : PackId) : Laws.ReadBack.Statement (.sliceEndEntry p) := fun _ _ h => nomatch h
theorem Laws.ReadBack.budgetExpiry (core : Nat) : Laws.ReadBack.Statement (.budgetExpiry core) := fun _ _ h => nomatch h
theorem Laws.ReadBack.saveDrainTimeout (core : Nat) (slot : Nat) : Laws.ReadBack.Statement (.saveDrainTimeout core slot) := fun _ _ h => nomatch h
theorem Laws.ReadBack.teamSave (core : Nat) (slot : Nat) : Laws.ReadBack.Statement (.teamSave core slot) := fun _ _ h => nomatch h
theorem Laws.ReadBack.teamRestore (fe : Nat) : Laws.ReadBack.Statement (.teamRestore fe) := fun _ _ h => nomatch h
theorem Laws.ReadBack.hostMemoryRequest (r : HostReq) : Laws.ReadBack.Statement (.hostMemoryRequest r) := fun _ _ h => nomatch h
theorem Laws.ReadBack.hostAtomicRead (r : HostAtomic) : Laws.ReadBack.Statement (.hostAtomicRead r) := fun _ _ h => nomatch h
theorem Laws.ReadBack.hostAtomicWrite (r : HostAtomic) : Laws.ReadBack.Statement (.hostAtomicWrite r) := fun _ _ h => nomatch h
theorem Laws.ReadBack.mreset : Laws.ReadBack.Statement (.mreset) := fun _ _ h => nomatch h
theorem Laws.ReadBack.dierst (die : Nat) : Laws.ReadBack.Statement (.dierst die) := fun _ _ h => nomatch h
theorem Laws.ReadBack.quar (die : Nat) : Laws.ReadBack.Statement (.quar die) := fun _ _ h => nomatch h
theorem Laws.ReadBack.ptpstep (ns : BitVec 64) : Laws.ReadBack.Statement (.ptpstep ns) := fun _ _ h => nomatch h
theorem Laws.ReadBack.keyregen (key : Nat) : Laws.ReadBack.Statement (.keyregen key) := fun _ _ h => nomatch h
theorem Laws.ReadBack.engrst (core : Nat) (q : Nat) : Laws.ReadBack.Statement (.engrst core q) := fun _ _ h => nomatch h
theorem Laws.ReadBack.activate (part : Nat) : Laws.ReadBack.Statement (.activate part) := fun _ _ h => nomatch h
theorem Laws.ReadBack.deactivate (part : Nat) : Laws.ReadBack.Statement (.deactivate part) := fun _ _ h => nomatch h
theorem Laws.ReadBack.partitionReset (part : Nat) : Laws.ReadBack.Statement (.partitionReset part) := fun _ _ h => nomatch h
theorem Laws.ReadBack.resetDrainTimeout (part : Nat) : Laws.ReadBack.Statement (.resetDrainTimeout part) := fun _ _ h => nomatch h
theorem Laws.ReadBack.endSlice (part : Nat) : Laws.ReadBack.Statement (.endSlice part) := fun _ _ h => nomatch h
theorem Laws.ReadBack.resume (part : Nat) : Laws.ReadBack.Statement (.resume part) := fun _ _ h => nomatch h
theorem Laws.ReadBack.resolve (part : Nat) (va : Nat) (outcome : Nat) : Laws.ReadBack.Statement (.resolve part va outcome) := fun _ _ h => nomatch h
theorem Laws.ReadBack.stationActivate (part : Nat) (station : Nat) : Laws.ReadBack.Statement (.stationActivate part station) := fun _ _ h => nomatch h
theorem Laws.ReadBack.stationDeactivate (part : Nat) (station : Nat) : Laws.ReadBack.Statement (.stationDeactivate part station) := fun _ _ h => nomatch h
theorem Laws.ReadBack.queueRegister (fe : Nat) (q : Nat) (cfg : BitVec 64) : Laws.ReadBack.Statement (.queueRegister fe q cfg) := fun _ _ h => nomatch h
theorem Laws.ReadBack.queueUnregister (fe : Nat) (q : Nat) : Laws.ReadBack.Statement (.queueUnregister fe q) := fun _ _ h => nomatch h
theorem Laws.ReadBack.qwr (fe : Nat) (q : Nat) (value : BitVec 32) : Laws.ReadBack.Statement (.qwr fe q value) := fun _ _ h => nomatch h
theorem Laws.ReadBack.pcSample (core : Nat) (part : Nat) : Laws.ReadBack.Statement (.pcSample core part) := fun _ _ h => nomatch h
theorem Laws.ReadBack.counterRotate (ridge : Nat) : Laws.ReadBack.Statement (.counterRotate ridge) := fun _ _ h => nomatch h
theorem Laws.ReadBack.attestationTimeout (die : Nat) : Laws.ReadBack.Statement (.attestationTimeout die) := fun _ _ h => nomatch h
theorem Laws.ReadBack.keyRollover (src : Nat) (dst : Nat) : Laws.ReadBack.Statement (.keyRollover src dst) := fun _ _ h => nomatch h
theorem Laws.ReadBack.keySwitch (src : Nat) (dst : Nat) : Laws.ReadBack.Statement (.keySwitch src dst) := fun _ _ h => nomatch h
theorem Laws.ReadBack.oldKeyRetire (src : Nat) (dst : Nat) : Laws.ReadBack.Statement (.oldKeyRetire src dst) := fun _ _ h => nomatch h
theorem Laws.ReadBack.linkFailure (src : Nat) (dst : Nat) : Laws.ReadBack.Statement (.linkFailure src dst) := fun _ _ h => nomatch h
theorem Laws.ReadBack.dieQuarantine (die : Nat) : Laws.ReadBack.Statement (.dieQuarantine die) := fun _ _ h => nomatch h
theorem Laws.ReadBack.tlbInvalidation (part : Nat) (va : Nat) : Laws.ReadBack.Statement (.tlbInvalidation part va) := fun _ _ h => nomatch h
theorem Laws.ReadBack.snapshot (part : Nat) : Laws.ReadBack.Statement (.snapshot part) := fun _ _ h => nomatch h
theorem Laws.ReadBack.migrationStop (part : Nat) : Laws.ReadBack.Statement (.migrationStop part) := fun _ _ h => nomatch h
theorem Laws.ReadBack.migrationStart (part : Nat) : Laws.ReadBack.Statement (.migrationStart part) := fun _ _ h => nomatch h
theorem Laws.ReadBack.registrationUpdate (part : Nat) (off : Nat) (value : BitVec 64) : Laws.ReadBack.Statement (.registrationUpdate part off value) := fun _ _ h => nomatch h
theorem Laws.ReadBack.loan (part : Nat) (k : Nat) (partner : Nat) : Laws.ReadBack.Statement (.loan part k partner) := fun _ _ h => nomatch h
theorem Laws.ReadBack.reclaim (part : Nat) (k : Nat) (partner : Nat) : Laws.ReadBack.Statement (.reclaim part k partner) := fun _ _ h => nomatch h
theorem Laws.ReadBack.dbgrel (part : Nat) (t : ThreadId) (atPc : Bool) : Laws.ReadBack.Statement (.dbgrel part t atPc) := fun _ _ h => nomatch h
theorem Laws.ReadBack.rcmd (die : Nat) : Laws.ReadBack.Statement (.rcmd die) := fun _ _ h => nomatch h
theorem Laws.ReadBack.mgmtRegisterWrite (off : Nat) (value : BitVec 64) : Laws.ReadBack.Statement (.mgmtRegisterWrite off value) := fun _ _ h => nomatch h
theorem Laws.ReadBack.ptpEventMessage (port : Nat) (oneStep : Bool) (origin : Nat) : Laws.ReadBack.Statement (.ptpEventMessage port oneStep origin) := fun _ _ h => nomatch h
theorem Laws.ReadBack.powerGood (die : Nat) : Laws.ReadBack.Statement (.powerGood die) := fun _ _ h => nomatch h
theorem Laws.ReadBack.bootMeasured (die : Nat) (digest : BitVec 256) : Laws.ReadBack.Statement (.bootMeasured die digest) := fun _ _ h => nomatch h
theorem Laws.ReadBack.bootImageRejected (die : Nat) : Laws.ReadBack.Statement (.bootImageRejected die) := fun _ _ h => nomatch h
theorem Laws.ReadBack.getVersion (die : Nat) (versions : List Nat) : Laws.ReadBack.Statement (.getVersion die versions) := fun _ _ h => nomatch h
theorem Laws.ReadBack.getCapabilities (die : Nat) (cert : Bool) (chal : Bool) (meas : Bool) (keyEx : Bool) (encMac : Bool) : Laws.ReadBack.Statement (.getCapabilities die cert chal meas keyEx encMac) := fun _ _ h => nomatch h
theorem Laws.ReadBack.negotiateAlgorithms (die : Nat) (rsa3072 : Bool) (sha256 : Bool) (secp384r1 : Bool) (aes256gcm : Bool) : Laws.ReadBack.Statement (.negotiateAlgorithms die rsa3072 sha256 secp384r1 aes256gcm) := fun _ _ h => nomatch h
theorem Laws.ReadBack.getDigests (die : Nat) (slot0 : Bool) : Laws.ReadBack.Statement (.getDigests die slot0) := fun _ _ h => nomatch h
theorem Laws.ReadBack.getCertificate (die : Nat) (root : BitVec 256) (leaf : Nat × Bool × BitVec 3072) : Laws.ReadBack.Statement (.getCertificate die root leaf) := fun _ _ h => nomatch h
theorem Laws.ReadBack.challenge (die : Nat) (verifies : Bool) : Laws.ReadBack.Statement (.challenge die verifies) := fun _ _ h => nomatch h
theorem Laws.ReadBack.getMeasurements (die : Nat) (signed : Bool) : Laws.ReadBack.Statement (.getMeasurements die signed) := fun _ _ h => nomatch h
theorem Laws.ReadBack.keyExchange (die : Nat) (established : Bool) : Laws.ReadBack.Statement (.keyExchange die established) := fun _ _ h => nomatch h
theorem Laws.ReadBack.finish (die : Nat) (completes : Bool) : Laws.ReadBack.Statement (.finish die completes) := fun _ _ h => nomatch h
theorem Laws.ReadBack.linkKeyInstall (src : Nat) (dst : Nat) : Laws.ReadBack.Statement (.linkKeyInstall src dst) := fun _ _ h => nomatch h
theorem Laws.ReadBack.flitReceive (src : Nat) (dst : Nat) (key : Bool) (f : Flit) : Laws.ReadBack.Statement (.flitReceive src dst key f) := fun _ _ h => nomatch h
theorem Laws.ReadBack.ridgeReopen (die : Nat) : Laws.ReadBack.Statement (.ridgeReopen die) := fun _ _ h => nomatch h
theorem Laws.ReadBack.recoveryComplete (die : Nat) (ok : Bool) : Laws.ReadBack.Statement (.recoveryComplete die ok) := fun _ _ h => nomatch h
theorem Laws.ReadBack.icinvManagementEquivalent (part : Nat) : Laws.ReadBack.Statement (.icinvManagementEquivalent part) := fun _ _ h => nomatch h
theorem Laws.ReadBack.dirtyRidgeCacheLineError (ridge : Nat) (line : Nat) : Laws.ReadBack.Statement (.dirtyRidgeCacheLineError ridge line) := fun _ _ h => nomatch h
theorem Laws.ReadBack.segmentFormTranslator (part : Nat) (src : Nat) (dst : Nat) (lines : Nat) : Laws.ReadBack.Statement (.segmentFormTranslator part src dst lines) := fun _ _ h => nomatch h
theorem Laws.ReadBack.ptpEventMessageEgress (port : Nat) : Laws.ReadBack.Statement (.ptpEventMessageEgress port) := fun _ _ h => nomatch h

end Sys2Proof
end

