-- ==== Sys2Proof/Laws/State.lean ====
section
/-! SUPPORT. One lemma per field per update of the state: what each named update leaves as it was, and what the two ends of a step do. -/

namespace Sys2Proof.Machine

open Sys2Proof

/-! Device.setCore -/
@[simp] theorem Device.setCore_now (d : Device) (c : Nat) (x : Core) : (d.setCore c x).now = d.now := rfl
@[simp] theorem Device.setCore_draws (d : Device) (c : Nat) (x : Core) : (d.setCore c x).draws = d.draws := rfl
@[simp] theorem Device.setCore_nextCmd (d : Device) (c : Nat) (x : Core) : (d.setCore c x).nextCmd = d.nextCmd := rfl
@[simp] theorem Device.setCore_nextBundle (d : Device) (c : Nat) (x : Core) : (d.setCore c x).nextBundle = d.nextBundle := rfl
@[simp] theorem Device.setCore_keys (d : Device) (c : Nat) (x : Core) : (d.setCore c x).keys = d.keys := rfl
@[simp] theorem Device.setCore_bad (d : Device) (c : Nat) (x : Core) : (d.setCore c x).bad = d.bad := rfl
@[simp] theorem Device.setCore_lostKeys (d : Device) (c : Nat) (x : Core) : (d.setCore c x).lostKeys = d.lostKeys := rfl
@[simp] theorem Device.setCore_ridges (d : Device) (c : Nat) (x : Core) : (d.setCore c x).ridges = d.ridges := rfl
@[simp] theorem Device.setCore_grids (d : Device) (c : Nat) (x : Core) : (d.setCore c x).grids = d.grids := rfl
@[simp] theorem Device.setCore_submits (d : Device) (c : Nat) (x : Core) : (d.setCore c x).submits = d.submits := rfl
@[simp] theorem Device.setCore_fronts (d : Device) (c : Nat) (x : Core) : (d.setCore c x).fronts = d.fronts := rfl
@[simp] theorem Device.setCore_parts (d : Device) (c : Nat) (x : Core) : (d.setCore c x).parts = d.parts := rfl
@[simp] theorem Device.setCore_dies (d : Device) (c : Nat) (x : Core) : (d.setCore c x).dies = d.dies := rfl
@[simp] theorem Device.setCore_links (d : Device) (c : Nat) (x : Core) : (d.setCore c x).links = d.links := rfl
@[simp] theorem Device.setCore_clock (d : Device) (c : Nat) (x : Core) : (d.setCore c x).clock = d.clock := rfl
@[simp] theorem Device.setCore_module (d : Device) (c : Nat) (x : Core) : (d.setCore c x).module = d.module := rfl
@[simp] theorem Device.setCore_pool (d : Device) (c : Nat) (x : Core) : (d.setCore c x).pool = d.pool := rfl
@[simp] theorem Device.setCore_hostAtoms (d : Device) (c : Nat) (x : Core) : (d.setCore c x).hostAtoms = d.hostAtoms := rfl
@[simp] theorem Device.setCore_hostReply (d : Device) (c : Nat) (x : Core) : (d.setCore c x).hostReply = d.hostReply := rfl
@[simp] theorem Device.setCore_cur (d : Device) (c : Nat) (x : Core) : (d.setCore c x).cur = d.cur := rfl
@[simp] theorem Device.setCore_writes (d : Device) (c : Nat) (x : Core) : (d.setCore c x).writes = d.writes := rfl
@[simp] theorem Device.setCore_nextSpawn (d : Device) (c : Nat) (x : Core) : (d.setCore c x).nextSpawn = d.nextSpawn := rfl
@[simp] theorem Device.setCore_nextEvent (d : Device) (c : Nat) (x : Core) : (d.setCore c x).nextEvent = d.nextEvent := rfl

/-! Device.modCore -/
@[simp] theorem Device.modCore_now (d : Device) (c : Nat) (f : Core → Core) : (d.modCore c f).now = d.now := rfl
@[simp] theorem Device.modCore_draws (d : Device) (c : Nat) (f : Core → Core) : (d.modCore c f).draws = d.draws := rfl
@[simp] theorem Device.modCore_nextCmd (d : Device) (c : Nat) (f : Core → Core) : (d.modCore c f).nextCmd = d.nextCmd := rfl
@[simp] theorem Device.modCore_nextBundle (d : Device) (c : Nat) (f : Core → Core) : (d.modCore c f).nextBundle = d.nextBundle := rfl
@[simp] theorem Device.modCore_keys (d : Device) (c : Nat) (f : Core → Core) : (d.modCore c f).keys = d.keys := rfl
@[simp] theorem Device.modCore_bad (d : Device) (c : Nat) (f : Core → Core) : (d.modCore c f).bad = d.bad := rfl
@[simp] theorem Device.modCore_lostKeys (d : Device) (c : Nat) (f : Core → Core) : (d.modCore c f).lostKeys = d.lostKeys := rfl
@[simp] theorem Device.modCore_ridges (d : Device) (c : Nat) (f : Core → Core) : (d.modCore c f).ridges = d.ridges := rfl
@[simp] theorem Device.modCore_grids (d : Device) (c : Nat) (f : Core → Core) : (d.modCore c f).grids = d.grids := rfl
@[simp] theorem Device.modCore_submits (d : Device) (c : Nat) (f : Core → Core) : (d.modCore c f).submits = d.submits := rfl
@[simp] theorem Device.modCore_fronts (d : Device) (c : Nat) (f : Core → Core) : (d.modCore c f).fronts = d.fronts := rfl
@[simp] theorem Device.modCore_parts (d : Device) (c : Nat) (f : Core → Core) : (d.modCore c f).parts = d.parts := rfl
@[simp] theorem Device.modCore_dies (d : Device) (c : Nat) (f : Core → Core) : (d.modCore c f).dies = d.dies := rfl
@[simp] theorem Device.modCore_links (d : Device) (c : Nat) (f : Core → Core) : (d.modCore c f).links = d.links := rfl
@[simp] theorem Device.modCore_clock (d : Device) (c : Nat) (f : Core → Core) : (d.modCore c f).clock = d.clock := rfl
@[simp] theorem Device.modCore_module (d : Device) (c : Nat) (f : Core → Core) : (d.modCore c f).module = d.module := rfl
@[simp] theorem Device.modCore_pool (d : Device) (c : Nat) (f : Core → Core) : (d.modCore c f).pool = d.pool := rfl
@[simp] theorem Device.modCore_hostAtoms (d : Device) (c : Nat) (f : Core → Core) : (d.modCore c f).hostAtoms = d.hostAtoms := rfl
@[simp] theorem Device.modCore_hostReply (d : Device) (c : Nat) (f : Core → Core) : (d.modCore c f).hostReply = d.hostReply := rfl
@[simp] theorem Device.modCore_cur (d : Device) (c : Nat) (f : Core → Core) : (d.modCore c f).cur = d.cur := rfl
@[simp] theorem Device.modCore_writes (d : Device) (c : Nat) (f : Core → Core) : (d.modCore c f).writes = d.writes := rfl
@[simp] theorem Device.modCore_nextSpawn (d : Device) (c : Nat) (f : Core → Core) : (d.modCore c f).nextSpawn = d.nextSpawn := rfl
@[simp] theorem Device.modCore_nextEvent (d : Device) (c : Nat) (f : Core → Core) : (d.modCore c f).nextEvent = d.nextEvent := rfl

/-! Device.modRidge -/
@[simp] theorem Device.modRidge_now (d : Device) (r : Nat) (f : Ridge → Ridge) : (d.modRidge r f).now = d.now := rfl
@[simp] theorem Device.modRidge_draws (d : Device) (r : Nat) (f : Ridge → Ridge) : (d.modRidge r f).draws = d.draws := rfl
@[simp] theorem Device.modRidge_nextCmd (d : Device) (r : Nat) (f : Ridge → Ridge) : (d.modRidge r f).nextCmd = d.nextCmd := rfl
@[simp] theorem Device.modRidge_nextBundle (d : Device) (r : Nat) (f : Ridge → Ridge) : (d.modRidge r f).nextBundle = d.nextBundle := rfl
@[simp] theorem Device.modRidge_keys (d : Device) (r : Nat) (f : Ridge → Ridge) : (d.modRidge r f).keys = d.keys := rfl
@[simp] theorem Device.modRidge_bad (d : Device) (r : Nat) (f : Ridge → Ridge) : (d.modRidge r f).bad = d.bad := rfl
@[simp] theorem Device.modRidge_lostKeys (d : Device) (r : Nat) (f : Ridge → Ridge) : (d.modRidge r f).lostKeys = d.lostKeys := rfl
@[simp] theorem Device.modRidge_cores (d : Device) (r : Nat) (f : Ridge → Ridge) : (d.modRidge r f).cores = d.cores := rfl
@[simp] theorem Device.modRidge_grids (d : Device) (r : Nat) (f : Ridge → Ridge) : (d.modRidge r f).grids = d.grids := rfl
@[simp] theorem Device.modRidge_submits (d : Device) (r : Nat) (f : Ridge → Ridge) : (d.modRidge r f).submits = d.submits := rfl
@[simp] theorem Device.modRidge_fronts (d : Device) (r : Nat) (f : Ridge → Ridge) : (d.modRidge r f).fronts = d.fronts := rfl
@[simp] theorem Device.modRidge_parts (d : Device) (r : Nat) (f : Ridge → Ridge) : (d.modRidge r f).parts = d.parts := rfl
@[simp] theorem Device.modRidge_dies (d : Device) (r : Nat) (f : Ridge → Ridge) : (d.modRidge r f).dies = d.dies := rfl
@[simp] theorem Device.modRidge_links (d : Device) (r : Nat) (f : Ridge → Ridge) : (d.modRidge r f).links = d.links := rfl
@[simp] theorem Device.modRidge_clock (d : Device) (r : Nat) (f : Ridge → Ridge) : (d.modRidge r f).clock = d.clock := rfl
@[simp] theorem Device.modRidge_module (d : Device) (r : Nat) (f : Ridge → Ridge) : (d.modRidge r f).module = d.module := rfl
@[simp] theorem Device.modRidge_pool (d : Device) (r : Nat) (f : Ridge → Ridge) : (d.modRidge r f).pool = d.pool := rfl
@[simp] theorem Device.modRidge_hostAtoms (d : Device) (r : Nat) (f : Ridge → Ridge) : (d.modRidge r f).hostAtoms = d.hostAtoms := rfl
@[simp] theorem Device.modRidge_hostReply (d : Device) (r : Nat) (f : Ridge → Ridge) : (d.modRidge r f).hostReply = d.hostReply := rfl
@[simp] theorem Device.modRidge_cur (d : Device) (r : Nat) (f : Ridge → Ridge) : (d.modRidge r f).cur = d.cur := rfl
@[simp] theorem Device.modRidge_writes (d : Device) (r : Nat) (f : Ridge → Ridge) : (d.modRidge r f).writes = d.writes := rfl
@[simp] theorem Device.modRidge_nextSpawn (d : Device) (r : Nat) (f : Ridge → Ridge) : (d.modRidge r f).nextSpawn = d.nextSpawn := rfl
@[simp] theorem Device.modRidge_nextEvent (d : Device) (r : Nat) (f : Ridge → Ridge) : (d.modRidge r f).nextEvent = d.nextEvent := rfl

/-! Device.modPart -/
@[simp] theorem Device.modPart_now (d : Device) (p : Nat) (f : Part → Part) : (d.modPart p f).now = d.now := rfl
@[simp] theorem Device.modPart_draws (d : Device) (p : Nat) (f : Part → Part) : (d.modPart p f).draws = d.draws := rfl
@[simp] theorem Device.modPart_nextCmd (d : Device) (p : Nat) (f : Part → Part) : (d.modPart p f).nextCmd = d.nextCmd := rfl
@[simp] theorem Device.modPart_nextBundle (d : Device) (p : Nat) (f : Part → Part) : (d.modPart p f).nextBundle = d.nextBundle := rfl
@[simp] theorem Device.modPart_keys (d : Device) (p : Nat) (f : Part → Part) : (d.modPart p f).keys = d.keys := rfl
@[simp] theorem Device.modPart_bad (d : Device) (p : Nat) (f : Part → Part) : (d.modPart p f).bad = d.bad := rfl
@[simp] theorem Device.modPart_lostKeys (d : Device) (p : Nat) (f : Part → Part) : (d.modPart p f).lostKeys = d.lostKeys := rfl
@[simp] theorem Device.modPart_cores (d : Device) (p : Nat) (f : Part → Part) : (d.modPart p f).cores = d.cores := rfl
@[simp] theorem Device.modPart_ridges (d : Device) (p : Nat) (f : Part → Part) : (d.modPart p f).ridges = d.ridges := rfl
@[simp] theorem Device.modPart_grids (d : Device) (p : Nat) (f : Part → Part) : (d.modPart p f).grids = d.grids := rfl
@[simp] theorem Device.modPart_submits (d : Device) (p : Nat) (f : Part → Part) : (d.modPart p f).submits = d.submits := rfl
@[simp] theorem Device.modPart_fronts (d : Device) (p : Nat) (f : Part → Part) : (d.modPart p f).fronts = d.fronts := rfl
@[simp] theorem Device.modPart_dies (d : Device) (p : Nat) (f : Part → Part) : (d.modPart p f).dies = d.dies := rfl
@[simp] theorem Device.modPart_links (d : Device) (p : Nat) (f : Part → Part) : (d.modPart p f).links = d.links := rfl
@[simp] theorem Device.modPart_clock (d : Device) (p : Nat) (f : Part → Part) : (d.modPart p f).clock = d.clock := rfl
@[simp] theorem Device.modPart_module (d : Device) (p : Nat) (f : Part → Part) : (d.modPart p f).module = d.module := rfl
@[simp] theorem Device.modPart_pool (d : Device) (p : Nat) (f : Part → Part) : (d.modPart p f).pool = d.pool := rfl
@[simp] theorem Device.modPart_hostAtoms (d : Device) (p : Nat) (f : Part → Part) : (d.modPart p f).hostAtoms = d.hostAtoms := rfl
@[simp] theorem Device.modPart_hostReply (d : Device) (p : Nat) (f : Part → Part) : (d.modPart p f).hostReply = d.hostReply := rfl
@[simp] theorem Device.modPart_cur (d : Device) (p : Nat) (f : Part → Part) : (d.modPart p f).cur = d.cur := rfl
@[simp] theorem Device.modPart_writes (d : Device) (p : Nat) (f : Part → Part) : (d.modPart p f).writes = d.writes := rfl
@[simp] theorem Device.modPart_nextSpawn (d : Device) (p : Nat) (f : Part → Part) : (d.modPart p f).nextSpawn = d.nextSpawn := rfl
@[simp] theorem Device.modPart_nextEvent (d : Device) (p : Nat) (f : Part → Part) : (d.modPart p f).nextEvent = d.nextEvent := rfl

/-! Device.modFront -/
@[simp] theorem Device.modFront_now (d : Device) (n : Nat) (f : FrontEnd → FrontEnd) : (d.modFront n f).now = d.now := rfl
@[simp] theorem Device.modFront_draws (d : Device) (n : Nat) (f : FrontEnd → FrontEnd) : (d.modFront n f).draws = d.draws := rfl
@[simp] theorem Device.modFront_nextCmd (d : Device) (n : Nat) (f : FrontEnd → FrontEnd) : (d.modFront n f).nextCmd = d.nextCmd := rfl
@[simp] theorem Device.modFront_nextBundle (d : Device) (n : Nat) (f : FrontEnd → FrontEnd) : (d.modFront n f).nextBundle = d.nextBundle := rfl
@[simp] theorem Device.modFront_keys (d : Device) (n : Nat) (f : FrontEnd → FrontEnd) : (d.modFront n f).keys = d.keys := rfl
@[simp] theorem Device.modFront_bad (d : Device) (n : Nat) (f : FrontEnd → FrontEnd) : (d.modFront n f).bad = d.bad := rfl
@[simp] theorem Device.modFront_lostKeys (d : Device) (n : Nat) (f : FrontEnd → FrontEnd) : (d.modFront n f).lostKeys = d.lostKeys := rfl
@[simp] theorem Device.modFront_cores (d : Device) (n : Nat) (f : FrontEnd → FrontEnd) : (d.modFront n f).cores = d.cores := rfl
@[simp] theorem Device.modFront_ridges (d : Device) (n : Nat) (f : FrontEnd → FrontEnd) : (d.modFront n f).ridges = d.ridges := rfl
@[simp] theorem Device.modFront_grids (d : Device) (n : Nat) (f : FrontEnd → FrontEnd) : (d.modFront n f).grids = d.grids := rfl
@[simp] theorem Device.modFront_submits (d : Device) (n : Nat) (f : FrontEnd → FrontEnd) : (d.modFront n f).submits = d.submits := rfl
@[simp] theorem Device.modFront_parts (d : Device) (n : Nat) (f : FrontEnd → FrontEnd) : (d.modFront n f).parts = d.parts := rfl
@[simp] theorem Device.modFront_dies (d : Device) (n : Nat) (f : FrontEnd → FrontEnd) : (d.modFront n f).dies = d.dies := rfl
@[simp] theorem Device.modFront_links (d : Device) (n : Nat) (f : FrontEnd → FrontEnd) : (d.modFront n f).links = d.links := rfl
@[simp] theorem Device.modFront_clock (d : Device) (n : Nat) (f : FrontEnd → FrontEnd) : (d.modFront n f).clock = d.clock := rfl
@[simp] theorem Device.modFront_module (d : Device) (n : Nat) (f : FrontEnd → FrontEnd) : (d.modFront n f).module = d.module := rfl
@[simp] theorem Device.modFront_pool (d : Device) (n : Nat) (f : FrontEnd → FrontEnd) : (d.modFront n f).pool = d.pool := rfl
@[simp] theorem Device.modFront_hostAtoms (d : Device) (n : Nat) (f : FrontEnd → FrontEnd) : (d.modFront n f).hostAtoms = d.hostAtoms := rfl
@[simp] theorem Device.modFront_hostReply (d : Device) (n : Nat) (f : FrontEnd → FrontEnd) : (d.modFront n f).hostReply = d.hostReply := rfl
@[simp] theorem Device.modFront_cur (d : Device) (n : Nat) (f : FrontEnd → FrontEnd) : (d.modFront n f).cur = d.cur := rfl
@[simp] theorem Device.modFront_writes (d : Device) (n : Nat) (f : FrontEnd → FrontEnd) : (d.modFront n f).writes = d.writes := rfl
@[simp] theorem Device.modFront_nextSpawn (d : Device) (n : Nat) (f : FrontEnd → FrontEnd) : (d.modFront n f).nextSpawn = d.nextSpawn := rfl
@[simp] theorem Device.modFront_nextEvent (d : Device) (n : Nat) (f : FrontEnd → FrontEnd) : (d.modFront n f).nextEvent = d.nextEvent := rfl

/-! Device.setTeam -/
@[simp] theorem Device.setTeam_now (d : Device) (c k : Nat) (t : Team) : (d.setTeam c k t).now = d.now := rfl
@[simp] theorem Device.setTeam_draws (d : Device) (c k : Nat) (t : Team) : (d.setTeam c k t).draws = d.draws := rfl
@[simp] theorem Device.setTeam_nextCmd (d : Device) (c k : Nat) (t : Team) : (d.setTeam c k t).nextCmd = d.nextCmd := rfl
@[simp] theorem Device.setTeam_nextBundle (d : Device) (c k : Nat) (t : Team) : (d.setTeam c k t).nextBundle = d.nextBundle := rfl
@[simp] theorem Device.setTeam_keys (d : Device) (c k : Nat) (t : Team) : (d.setTeam c k t).keys = d.keys := rfl
@[simp] theorem Device.setTeam_bad (d : Device) (c k : Nat) (t : Team) : (d.setTeam c k t).bad = d.bad := rfl
@[simp] theorem Device.setTeam_lostKeys (d : Device) (c k : Nat) (t : Team) : (d.setTeam c k t).lostKeys = d.lostKeys := rfl
@[simp] theorem Device.setTeam_ridges (d : Device) (c k : Nat) (t : Team) : (d.setTeam c k t).ridges = d.ridges := rfl
@[simp] theorem Device.setTeam_grids (d : Device) (c k : Nat) (t : Team) : (d.setTeam c k t).grids = d.grids := rfl
@[simp] theorem Device.setTeam_submits (d : Device) (c k : Nat) (t : Team) : (d.setTeam c k t).submits = d.submits := rfl
@[simp] theorem Device.setTeam_fronts (d : Device) (c k : Nat) (t : Team) : (d.setTeam c k t).fronts = d.fronts := rfl
@[simp] theorem Device.setTeam_parts (d : Device) (c k : Nat) (t : Team) : (d.setTeam c k t).parts = d.parts := rfl
@[simp] theorem Device.setTeam_dies (d : Device) (c k : Nat) (t : Team) : (d.setTeam c k t).dies = d.dies := rfl
@[simp] theorem Device.setTeam_links (d : Device) (c k : Nat) (t : Team) : (d.setTeam c k t).links = d.links := rfl
@[simp] theorem Device.setTeam_clock (d : Device) (c k : Nat) (t : Team) : (d.setTeam c k t).clock = d.clock := rfl
@[simp] theorem Device.setTeam_module (d : Device) (c k : Nat) (t : Team) : (d.setTeam c k t).module = d.module := rfl
@[simp] theorem Device.setTeam_pool (d : Device) (c k : Nat) (t : Team) : (d.setTeam c k t).pool = d.pool := rfl
@[simp] theorem Device.setTeam_hostAtoms (d : Device) (c k : Nat) (t : Team) : (d.setTeam c k t).hostAtoms = d.hostAtoms := rfl
@[simp] theorem Device.setTeam_hostReply (d : Device) (c k : Nat) (t : Team) : (d.setTeam c k t).hostReply = d.hostReply := rfl
@[simp] theorem Device.setTeam_cur (d : Device) (c k : Nat) (t : Team) : (d.setTeam c k t).cur = d.cur := rfl
@[simp] theorem Device.setTeam_writes (d : Device) (c k : Nat) (t : Team) : (d.setTeam c k t).writes = d.writes := rfl
@[simp] theorem Device.setTeam_nextSpawn (d : Device) (c k : Nat) (t : Team) : (d.setTeam c k t).nextSpawn = d.nextSpawn := rfl
@[simp] theorem Device.setTeam_nextEvent (d : Device) (c k : Nat) (t : Team) : (d.setTeam c k t).nextEvent = d.nextEvent := rfl

/-! Device.modEngine -/
@[simp] theorem Device.modEngine_now (d : Device) (c q : Nat) (f : Engine → Engine) : (d.modEngine c q f).now = d.now := rfl
@[simp] theorem Device.modEngine_draws (d : Device) (c q : Nat) (f : Engine → Engine) : (d.modEngine c q f).draws = d.draws := rfl
@[simp] theorem Device.modEngine_nextCmd (d : Device) (c q : Nat) (f : Engine → Engine) : (d.modEngine c q f).nextCmd = d.nextCmd := rfl
@[simp] theorem Device.modEngine_nextBundle (d : Device) (c q : Nat) (f : Engine → Engine) : (d.modEngine c q f).nextBundle = d.nextBundle := rfl
@[simp] theorem Device.modEngine_keys (d : Device) (c q : Nat) (f : Engine → Engine) : (d.modEngine c q f).keys = d.keys := rfl
@[simp] theorem Device.modEngine_bad (d : Device) (c q : Nat) (f : Engine → Engine) : (d.modEngine c q f).bad = d.bad := rfl
@[simp] theorem Device.modEngine_lostKeys (d : Device) (c q : Nat) (f : Engine → Engine) : (d.modEngine c q f).lostKeys = d.lostKeys := rfl
@[simp] theorem Device.modEngine_ridges (d : Device) (c q : Nat) (f : Engine → Engine) : (d.modEngine c q f).ridges = d.ridges := rfl
@[simp] theorem Device.modEngine_grids (d : Device) (c q : Nat) (f : Engine → Engine) : (d.modEngine c q f).grids = d.grids := rfl
@[simp] theorem Device.modEngine_submits (d : Device) (c q : Nat) (f : Engine → Engine) : (d.modEngine c q f).submits = d.submits := rfl
@[simp] theorem Device.modEngine_fronts (d : Device) (c q : Nat) (f : Engine → Engine) : (d.modEngine c q f).fronts = d.fronts := rfl
@[simp] theorem Device.modEngine_parts (d : Device) (c q : Nat) (f : Engine → Engine) : (d.modEngine c q f).parts = d.parts := rfl
@[simp] theorem Device.modEngine_dies (d : Device) (c q : Nat) (f : Engine → Engine) : (d.modEngine c q f).dies = d.dies := rfl
@[simp] theorem Device.modEngine_links (d : Device) (c q : Nat) (f : Engine → Engine) : (d.modEngine c q f).links = d.links := rfl
@[simp] theorem Device.modEngine_clock (d : Device) (c q : Nat) (f : Engine → Engine) : (d.modEngine c q f).clock = d.clock := rfl
@[simp] theorem Device.modEngine_module (d : Device) (c q : Nat) (f : Engine → Engine) : (d.modEngine c q f).module = d.module := rfl
@[simp] theorem Device.modEngine_pool (d : Device) (c q : Nat) (f : Engine → Engine) : (d.modEngine c q f).pool = d.pool := rfl
@[simp] theorem Device.modEngine_hostAtoms (d : Device) (c q : Nat) (f : Engine → Engine) : (d.modEngine c q f).hostAtoms = d.hostAtoms := rfl
@[simp] theorem Device.modEngine_hostReply (d : Device) (c q : Nat) (f : Engine → Engine) : (d.modEngine c q f).hostReply = d.hostReply := rfl
@[simp] theorem Device.modEngine_cur (d : Device) (c q : Nat) (f : Engine → Engine) : (d.modEngine c q f).cur = d.cur := rfl
@[simp] theorem Device.modEngine_writes (d : Device) (c q : Nat) (f : Engine → Engine) : (d.modEngine c q f).writes = d.writes := rfl
@[simp] theorem Device.modEngine_nextSpawn (d : Device) (c q : Nat) (f : Engine → Engine) : (d.modEngine c q f).nextSpawn = d.nextSpawn := rfl
@[simp] theorem Device.modEngine_nextEvent (d : Device) (c q : Nat) (f : Engine → Engine) : (d.modEngine c q f).nextEvent = d.nextEvent := rfl

/-! Device.modDie -/
@[simp] theorem Device.modDie_now (d : Device) (n : Nat) (f : Die → Die) : (d.modDie n f).now = d.now := rfl
@[simp] theorem Device.modDie_draws (d : Device) (n : Nat) (f : Die → Die) : (d.modDie n f).draws = d.draws := rfl
@[simp] theorem Device.modDie_nextCmd (d : Device) (n : Nat) (f : Die → Die) : (d.modDie n f).nextCmd = d.nextCmd := rfl
@[simp] theorem Device.modDie_nextBundle (d : Device) (n : Nat) (f : Die → Die) : (d.modDie n f).nextBundle = d.nextBundle := rfl
@[simp] theorem Device.modDie_keys (d : Device) (n : Nat) (f : Die → Die) : (d.modDie n f).keys = d.keys := rfl
@[simp] theorem Device.modDie_bad (d : Device) (n : Nat) (f : Die → Die) : (d.modDie n f).bad = d.bad := rfl
@[simp] theorem Device.modDie_lostKeys (d : Device) (n : Nat) (f : Die → Die) : (d.modDie n f).lostKeys = d.lostKeys := rfl
@[simp] theorem Device.modDie_cores (d : Device) (n : Nat) (f : Die → Die) : (d.modDie n f).cores = d.cores := rfl
@[simp] theorem Device.modDie_ridges (d : Device) (n : Nat) (f : Die → Die) : (d.modDie n f).ridges = d.ridges := rfl
@[simp] theorem Device.modDie_grids (d : Device) (n : Nat) (f : Die → Die) : (d.modDie n f).grids = d.grids := rfl
@[simp] theorem Device.modDie_submits (d : Device) (n : Nat) (f : Die → Die) : (d.modDie n f).submits = d.submits := rfl
@[simp] theorem Device.modDie_fronts (d : Device) (n : Nat) (f : Die → Die) : (d.modDie n f).fronts = d.fronts := rfl
@[simp] theorem Device.modDie_parts (d : Device) (n : Nat) (f : Die → Die) : (d.modDie n f).parts = d.parts := rfl
@[simp] theorem Device.modDie_links (d : Device) (n : Nat) (f : Die → Die) : (d.modDie n f).links = d.links := rfl
@[simp] theorem Device.modDie_clock (d : Device) (n : Nat) (f : Die → Die) : (d.modDie n f).clock = d.clock := rfl
@[simp] theorem Device.modDie_module (d : Device) (n : Nat) (f : Die → Die) : (d.modDie n f).module = d.module := rfl
@[simp] theorem Device.modDie_pool (d : Device) (n : Nat) (f : Die → Die) : (d.modDie n f).pool = d.pool := rfl
@[simp] theorem Device.modDie_hostAtoms (d : Device) (n : Nat) (f : Die → Die) : (d.modDie n f).hostAtoms = d.hostAtoms := rfl
@[simp] theorem Device.modDie_hostReply (d : Device) (n : Nat) (f : Die → Die) : (d.modDie n f).hostReply = d.hostReply := rfl
@[simp] theorem Device.modDie_cur (d : Device) (n : Nat) (f : Die → Die) : (d.modDie n f).cur = d.cur := rfl
@[simp] theorem Device.modDie_writes (d : Device) (n : Nat) (f : Die → Die) : (d.modDie n f).writes = d.writes := rfl
@[simp] theorem Device.modDie_nextSpawn (d : Device) (n : Nat) (f : Die → Die) : (d.modDie n f).nextSpawn = d.nextSpawn := rfl
@[simp] theorem Device.modDie_nextEvent (d : Device) (n : Nat) (f : Die → Die) : (d.modDie n f).nextEvent = d.nextEvent := rfl

/-! Device.modLink -/
@[simp] theorem Device.modLink_now (d : Device) (a b : Nat) (f : Link → Link) : (d.modLink a b f).now = d.now := rfl
@[simp] theorem Device.modLink_draws (d : Device) (a b : Nat) (f : Link → Link) : (d.modLink a b f).draws = d.draws := rfl
@[simp] theorem Device.modLink_nextCmd (d : Device) (a b : Nat) (f : Link → Link) : (d.modLink a b f).nextCmd = d.nextCmd := rfl
@[simp] theorem Device.modLink_nextBundle (d : Device) (a b : Nat) (f : Link → Link) : (d.modLink a b f).nextBundle = d.nextBundle := rfl
@[simp] theorem Device.modLink_keys (d : Device) (a b : Nat) (f : Link → Link) : (d.modLink a b f).keys = d.keys := rfl
@[simp] theorem Device.modLink_bad (d : Device) (a b : Nat) (f : Link → Link) : (d.modLink a b f).bad = d.bad := rfl
@[simp] theorem Device.modLink_lostKeys (d : Device) (a b : Nat) (f : Link → Link) : (d.modLink a b f).lostKeys = d.lostKeys := rfl
@[simp] theorem Device.modLink_cores (d : Device) (a b : Nat) (f : Link → Link) : (d.modLink a b f).cores = d.cores := rfl
@[simp] theorem Device.modLink_ridges (d : Device) (a b : Nat) (f : Link → Link) : (d.modLink a b f).ridges = d.ridges := rfl
@[simp] theorem Device.modLink_grids (d : Device) (a b : Nat) (f : Link → Link) : (d.modLink a b f).grids = d.grids := rfl
@[simp] theorem Device.modLink_submits (d : Device) (a b : Nat) (f : Link → Link) : (d.modLink a b f).submits = d.submits := rfl
@[simp] theorem Device.modLink_fronts (d : Device) (a b : Nat) (f : Link → Link) : (d.modLink a b f).fronts = d.fronts := rfl
@[simp] theorem Device.modLink_parts (d : Device) (a b : Nat) (f : Link → Link) : (d.modLink a b f).parts = d.parts := rfl
@[simp] theorem Device.modLink_dies (d : Device) (a b : Nat) (f : Link → Link) : (d.modLink a b f).dies = d.dies := rfl
@[simp] theorem Device.modLink_clock (d : Device) (a b : Nat) (f : Link → Link) : (d.modLink a b f).clock = d.clock := rfl
@[simp] theorem Device.modLink_module (d : Device) (a b : Nat) (f : Link → Link) : (d.modLink a b f).module = d.module := rfl
@[simp] theorem Device.modLink_pool (d : Device) (a b : Nat) (f : Link → Link) : (d.modLink a b f).pool = d.pool := rfl
@[simp] theorem Device.modLink_hostAtoms (d : Device) (a b : Nat) (f : Link → Link) : (d.modLink a b f).hostAtoms = d.hostAtoms := rfl
@[simp] theorem Device.modLink_hostReply (d : Device) (a b : Nat) (f : Link → Link) : (d.modLink a b f).hostReply = d.hostReply := rfl
@[simp] theorem Device.modLink_cur (d : Device) (a b : Nat) (f : Link → Link) : (d.modLink a b f).cur = d.cur := rfl
@[simp] theorem Device.modLink_writes (d : Device) (a b : Nat) (f : Link → Link) : (d.modLink a b f).writes = d.writes := rfl
@[simp] theorem Device.modLink_nextSpawn (d : Device) (a b : Nat) (f : Link → Link) : (d.modLink a b f).nextSpawn = d.nextSpawn := rfl
@[simp] theorem Device.modLink_nextEvent (d : Device) (a b : Nat) (f : Link → Link) : (d.modLink a b f).nextEvent = d.nextEvent := rfl

/-! Device.reply -/
@[simp] theorem Device.reply_now (d : Device) (p v : Nat) : (d.reply p v).now = d.now := rfl
@[simp] theorem Device.reply_draws (d : Device) (p v : Nat) : (d.reply p v).draws = d.draws := rfl
@[simp] theorem Device.reply_nextCmd (d : Device) (p v : Nat) : (d.reply p v).nextCmd = d.nextCmd := rfl
@[simp] theorem Device.reply_nextBundle (d : Device) (p v : Nat) : (d.reply p v).nextBundle = d.nextBundle := rfl
@[simp] theorem Device.reply_keys (d : Device) (p v : Nat) : (d.reply p v).keys = d.keys := rfl
@[simp] theorem Device.reply_bad (d : Device) (p v : Nat) : (d.reply p v).bad = d.bad := rfl
@[simp] theorem Device.reply_lostKeys (d : Device) (p v : Nat) : (d.reply p v).lostKeys = d.lostKeys := rfl
@[simp] theorem Device.reply_cores (d : Device) (p v : Nat) : (d.reply p v).cores = d.cores := rfl
@[simp] theorem Device.reply_ridges (d : Device) (p v : Nat) : (d.reply p v).ridges = d.ridges := rfl
@[simp] theorem Device.reply_grids (d : Device) (p v : Nat) : (d.reply p v).grids = d.grids := rfl
@[simp] theorem Device.reply_submits (d : Device) (p v : Nat) : (d.reply p v).submits = d.submits := rfl
@[simp] theorem Device.reply_fronts (d : Device) (p v : Nat) : (d.reply p v).fronts = d.fronts := rfl
@[simp] theorem Device.reply_parts (d : Device) (p v : Nat) : (d.reply p v).parts = d.parts := rfl
@[simp] theorem Device.reply_dies (d : Device) (p v : Nat) : (d.reply p v).dies = d.dies := rfl
@[simp] theorem Device.reply_links (d : Device) (p v : Nat) : (d.reply p v).links = d.links := rfl
@[simp] theorem Device.reply_clock (d : Device) (p v : Nat) : (d.reply p v).clock = d.clock := rfl
@[simp] theorem Device.reply_module (d : Device) (p v : Nat) : (d.reply p v).module = d.module := rfl
@[simp] theorem Device.reply_pool (d : Device) (p v : Nat) : (d.reply p v).pool = d.pool := rfl
@[simp] theorem Device.reply_hostAtoms (d : Device) (p v : Nat) : (d.reply p v).hostAtoms = d.hostAtoms := rfl
@[simp] theorem Device.reply_cur (d : Device) (p v : Nat) : (d.reply p v).cur = d.cur := rfl
@[simp] theorem Device.reply_writes (d : Device) (p v : Nat) : (d.reply p v).writes = d.writes := rfl
@[simp] theorem Device.reply_nextSpawn (d : Device) (p v : Nat) : (d.reply p v).nextSpawn = d.nextSpawn := rfl
@[simp] theorem Device.reply_nextEvent (d : Device) (p v : Nat) : (d.reply p v).nextEvent = d.nextEvent := rfl

/-! Device.wr -/
@[simp] theorem Device.wr_now (d : Device) (a : Nat) (b : Byte) : (d.wr a b).now = d.now := rfl
@[simp] theorem Device.wr_draws (d : Device) (a : Nat) (b : Byte) : (d.wr a b).draws = d.draws := rfl
@[simp] theorem Device.wr_nextCmd (d : Device) (a : Nat) (b : Byte) : (d.wr a b).nextCmd = d.nextCmd := rfl
@[simp] theorem Device.wr_nextBundle (d : Device) (a : Nat) (b : Byte) : (d.wr a b).nextBundle = d.nextBundle := rfl
@[simp] theorem Device.wr_keys (d : Device) (a : Nat) (b : Byte) : (d.wr a b).keys = d.keys := rfl
@[simp] theorem Device.wr_bad (d : Device) (a : Nat) (b : Byte) : (d.wr a b).bad = d.bad := rfl
@[simp] theorem Device.wr_lostKeys (d : Device) (a : Nat) (b : Byte) : (d.wr a b).lostKeys = d.lostKeys := rfl
@[simp] theorem Device.wr_cores (d : Device) (a : Nat) (b : Byte) : (d.wr a b).cores = d.cores := rfl
@[simp] theorem Device.wr_ridges (d : Device) (a : Nat) (b : Byte) : (d.wr a b).ridges = d.ridges := rfl
@[simp] theorem Device.wr_grids (d : Device) (a : Nat) (b : Byte) : (d.wr a b).grids = d.grids := rfl
@[simp] theorem Device.wr_submits (d : Device) (a : Nat) (b : Byte) : (d.wr a b).submits = d.submits := rfl
@[simp] theorem Device.wr_fronts (d : Device) (a : Nat) (b : Byte) : (d.wr a b).fronts = d.fronts := rfl
@[simp] theorem Device.wr_parts (d : Device) (a : Nat) (b : Byte) : (d.wr a b).parts = d.parts := rfl
@[simp] theorem Device.wr_dies (d : Device) (a : Nat) (b : Byte) : (d.wr a b).dies = d.dies := rfl
@[simp] theorem Device.wr_links (d : Device) (a : Nat) (b : Byte) : (d.wr a b).links = d.links := rfl
@[simp] theorem Device.wr_clock (d : Device) (a : Nat) (b : Byte) : (d.wr a b).clock = d.clock := rfl
@[simp] theorem Device.wr_module (d : Device) (a : Nat) (b : Byte) : (d.wr a b).module = d.module := rfl
@[simp] theorem Device.wr_pool (d : Device) (a : Nat) (b : Byte) : (d.wr a b).pool = d.pool := rfl
@[simp] theorem Device.wr_hostAtoms (d : Device) (a : Nat) (b : Byte) : (d.wr a b).hostAtoms = d.hostAtoms := rfl
@[simp] theorem Device.wr_hostReply (d : Device) (a : Nat) (b : Byte) : (d.wr a b).hostReply = d.hostReply := rfl
@[simp] theorem Device.wr_cur (d : Device) (a : Nat) (b : Byte) : (d.wr a b).cur = d.cur := rfl
@[simp] theorem Device.wr_nextSpawn (d : Device) (a : Nat) (b : Byte) : (d.wr a b).nextSpawn = d.nextSpawn := rfl
@[simp] theorem Device.wr_nextEvent (d : Device) (a : Nat) (b : Byte) : (d.wr a b).nextEvent = d.nextEvent := rfl

/-! Device.modTeam -/
@[simp] theorem Device.modTeam_now (d : Device) (c k : Nat) (f : Team → Team) : (d.modTeam c k f).now = d.now := by unfold Device.modTeam; split <;> rfl
@[simp] theorem Device.modTeam_draws (d : Device) (c k : Nat) (f : Team → Team) : (d.modTeam c k f).draws = d.draws := by unfold Device.modTeam; split <;> rfl
@[simp] theorem Device.modTeam_nextCmd (d : Device) (c k : Nat) (f : Team → Team) : (d.modTeam c k f).nextCmd = d.nextCmd := by unfold Device.modTeam; split <;> rfl
@[simp] theorem Device.modTeam_nextBundle (d : Device) (c k : Nat) (f : Team → Team) : (d.modTeam c k f).nextBundle = d.nextBundle := by unfold Device.modTeam; split <;> rfl
@[simp] theorem Device.modTeam_keys (d : Device) (c k : Nat) (f : Team → Team) : (d.modTeam c k f).keys = d.keys := by unfold Device.modTeam; split <;> rfl
@[simp] theorem Device.modTeam_bad (d : Device) (c k : Nat) (f : Team → Team) : (d.modTeam c k f).bad = d.bad := by unfold Device.modTeam; split <;> rfl
@[simp] theorem Device.modTeam_lostKeys (d : Device) (c k : Nat) (f : Team → Team) : (d.modTeam c k f).lostKeys = d.lostKeys := by unfold Device.modTeam; split <;> rfl
@[simp] theorem Device.modTeam_ridges (d : Device) (c k : Nat) (f : Team → Team) : (d.modTeam c k f).ridges = d.ridges := by unfold Device.modTeam; split <;> rfl
@[simp] theorem Device.modTeam_grids (d : Device) (c k : Nat) (f : Team → Team) : (d.modTeam c k f).grids = d.grids := by unfold Device.modTeam; split <;> rfl
@[simp] theorem Device.modTeam_submits (d : Device) (c k : Nat) (f : Team → Team) : (d.modTeam c k f).submits = d.submits := by unfold Device.modTeam; split <;> rfl
@[simp] theorem Device.modTeam_fronts (d : Device) (c k : Nat) (f : Team → Team) : (d.modTeam c k f).fronts = d.fronts := by unfold Device.modTeam; split <;> rfl
@[simp] theorem Device.modTeam_parts (d : Device) (c k : Nat) (f : Team → Team) : (d.modTeam c k f).parts = d.parts := by unfold Device.modTeam; split <;> rfl
@[simp] theorem Device.modTeam_dies (d : Device) (c k : Nat) (f : Team → Team) : (d.modTeam c k f).dies = d.dies := by unfold Device.modTeam; split <;> rfl
@[simp] theorem Device.modTeam_links (d : Device) (c k : Nat) (f : Team → Team) : (d.modTeam c k f).links = d.links := by unfold Device.modTeam; split <;> rfl
@[simp] theorem Device.modTeam_clock (d : Device) (c k : Nat) (f : Team → Team) : (d.modTeam c k f).clock = d.clock := by unfold Device.modTeam; split <;> rfl
@[simp] theorem Device.modTeam_module (d : Device) (c k : Nat) (f : Team → Team) : (d.modTeam c k f).module = d.module := by unfold Device.modTeam; split <;> rfl
@[simp] theorem Device.modTeam_pool (d : Device) (c k : Nat) (f : Team → Team) : (d.modTeam c k f).pool = d.pool := by unfold Device.modTeam; split <;> rfl
@[simp] theorem Device.modTeam_hostAtoms (d : Device) (c k : Nat) (f : Team → Team) : (d.modTeam c k f).hostAtoms = d.hostAtoms := by unfold Device.modTeam; split <;> rfl
@[simp] theorem Device.modTeam_hostReply (d : Device) (c k : Nat) (f : Team → Team) : (d.modTeam c k f).hostReply = d.hostReply := by unfold Device.modTeam; split <;> rfl
@[simp] theorem Device.modTeam_cur (d : Device) (c k : Nat) (f : Team → Team) : (d.modTeam c k f).cur = d.cur := by unfold Device.modTeam; split <;> rfl
@[simp] theorem Device.modTeam_writes (d : Device) (c k : Nat) (f : Team → Team) : (d.modTeam c k f).writes = d.writes := by unfold Device.modTeam; split <;> rfl
@[simp] theorem Device.modTeam_nextSpawn (d : Device) (c k : Nat) (f : Team → Team) : (d.modTeam c k f).nextSpawn = d.nextSpawn := by unfold Device.modTeam; split <;> rfl
@[simp] theorem Device.modTeam_nextEvent (d : Device) (c k : Nat) (f : Team → Team) : (d.modTeam c k f).nextEvent = d.nextEvent := by unfold Device.modTeam; split <;> rfl

/-! Device.modGrid -/
@[simp] theorem Device.modGrid_now (d : Device) (g : Nat) (f : Grid → Grid) : (d.modGrid g f).now = d.now := by unfold Device.modGrid; split <;> rfl
@[simp] theorem Device.modGrid_draws (d : Device) (g : Nat) (f : Grid → Grid) : (d.modGrid g f).draws = d.draws := by unfold Device.modGrid; split <;> rfl
@[simp] theorem Device.modGrid_nextCmd (d : Device) (g : Nat) (f : Grid → Grid) : (d.modGrid g f).nextCmd = d.nextCmd := by unfold Device.modGrid; split <;> rfl
@[simp] theorem Device.modGrid_nextBundle (d : Device) (g : Nat) (f : Grid → Grid) : (d.modGrid g f).nextBundle = d.nextBundle := by unfold Device.modGrid; split <;> rfl
@[simp] theorem Device.modGrid_keys (d : Device) (g : Nat) (f : Grid → Grid) : (d.modGrid g f).keys = d.keys := by unfold Device.modGrid; split <;> rfl
@[simp] theorem Device.modGrid_bad (d : Device) (g : Nat) (f : Grid → Grid) : (d.modGrid g f).bad = d.bad := by unfold Device.modGrid; split <;> rfl
@[simp] theorem Device.modGrid_lostKeys (d : Device) (g : Nat) (f : Grid → Grid) : (d.modGrid g f).lostKeys = d.lostKeys := by unfold Device.modGrid; split <;> rfl
@[simp] theorem Device.modGrid_cores (d : Device) (g : Nat) (f : Grid → Grid) : (d.modGrid g f).cores = d.cores := by unfold Device.modGrid; split <;> rfl
@[simp] theorem Device.modGrid_ridges (d : Device) (g : Nat) (f : Grid → Grid) : (d.modGrid g f).ridges = d.ridges := by unfold Device.modGrid; split <;> rfl
@[simp] theorem Device.modGrid_submits (d : Device) (g : Nat) (f : Grid → Grid) : (d.modGrid g f).submits = d.submits := by unfold Device.modGrid; split <;> rfl
@[simp] theorem Device.modGrid_fronts (d : Device) (g : Nat) (f : Grid → Grid) : (d.modGrid g f).fronts = d.fronts := by unfold Device.modGrid; split <;> rfl
@[simp] theorem Device.modGrid_parts (d : Device) (g : Nat) (f : Grid → Grid) : (d.modGrid g f).parts = d.parts := by unfold Device.modGrid; split <;> rfl
@[simp] theorem Device.modGrid_dies (d : Device) (g : Nat) (f : Grid → Grid) : (d.modGrid g f).dies = d.dies := by unfold Device.modGrid; split <;> rfl
@[simp] theorem Device.modGrid_links (d : Device) (g : Nat) (f : Grid → Grid) : (d.modGrid g f).links = d.links := by unfold Device.modGrid; split <;> rfl
@[simp] theorem Device.modGrid_clock (d : Device) (g : Nat) (f : Grid → Grid) : (d.modGrid g f).clock = d.clock := by unfold Device.modGrid; split <;> rfl
@[simp] theorem Device.modGrid_module (d : Device) (g : Nat) (f : Grid → Grid) : (d.modGrid g f).module = d.module := by unfold Device.modGrid; split <;> rfl
@[simp] theorem Device.modGrid_pool (d : Device) (g : Nat) (f : Grid → Grid) : (d.modGrid g f).pool = d.pool := by unfold Device.modGrid; split <;> rfl
@[simp] theorem Device.modGrid_hostAtoms (d : Device) (g : Nat) (f : Grid → Grid) : (d.modGrid g f).hostAtoms = d.hostAtoms := by unfold Device.modGrid; split <;> rfl
@[simp] theorem Device.modGrid_hostReply (d : Device) (g : Nat) (f : Grid → Grid) : (d.modGrid g f).hostReply = d.hostReply := by unfold Device.modGrid; split <;> rfl
@[simp] theorem Device.modGrid_cur (d : Device) (g : Nat) (f : Grid → Grid) : (d.modGrid g f).cur = d.cur := by unfold Device.modGrid; split <;> rfl
@[simp] theorem Device.modGrid_writes (d : Device) (g : Nat) (f : Grid → Grid) : (d.modGrid g f).writes = d.writes := by unfold Device.modGrid; split <;> rfl
@[simp] theorem Device.modGrid_nextSpawn (d : Device) (g : Nat) (f : Grid → Grid) : (d.modGrid g f).nextSpawn = d.nextSpawn := by unfold Device.modGrid; split <;> rfl
@[simp] theorem Device.modGrid_nextEvent (d : Device) (g : Nat) (f : Grid → Grid) : (d.modGrid g f).nextEvent = d.nextEvent := by unfold Device.modGrid; split <;> rfl

/-! Device.modPack -/
@[simp] theorem Device.modPack_now (d : Device) (c k i : Nat) (f : Pack → Pack) : (d.modPack c k i f).now = d.now := Device.modTeam_now d c k _
@[simp] theorem Device.modPack_draws (d : Device) (c k i : Nat) (f : Pack → Pack) : (d.modPack c k i f).draws = d.draws := Device.modTeam_draws d c k _
@[simp] theorem Device.modPack_nextCmd (d : Device) (c k i : Nat) (f : Pack → Pack) : (d.modPack c k i f).nextCmd = d.nextCmd := Device.modTeam_nextCmd d c k _
@[simp] theorem Device.modPack_nextBundle (d : Device) (c k i : Nat) (f : Pack → Pack) : (d.modPack c k i f).nextBundle = d.nextBundle := Device.modTeam_nextBundle d c k _
@[simp] theorem Device.modPack_keys (d : Device) (c k i : Nat) (f : Pack → Pack) : (d.modPack c k i f).keys = d.keys := Device.modTeam_keys d c k _
@[simp] theorem Device.modPack_bad (d : Device) (c k i : Nat) (f : Pack → Pack) : (d.modPack c k i f).bad = d.bad := Device.modTeam_bad d c k _
@[simp] theorem Device.modPack_lostKeys (d : Device) (c k i : Nat) (f : Pack → Pack) : (d.modPack c k i f).lostKeys = d.lostKeys := Device.modTeam_lostKeys d c k _
@[simp] theorem Device.modPack_ridges (d : Device) (c k i : Nat) (f : Pack → Pack) : (d.modPack c k i f).ridges = d.ridges := Device.modTeam_ridges d c k _
@[simp] theorem Device.modPack_grids (d : Device) (c k i : Nat) (f : Pack → Pack) : (d.modPack c k i f).grids = d.grids := Device.modTeam_grids d c k _
@[simp] theorem Device.modPack_submits (d : Device) (c k i : Nat) (f : Pack → Pack) : (d.modPack c k i f).submits = d.submits := Device.modTeam_submits d c k _
@[simp] theorem Device.modPack_fronts (d : Device) (c k i : Nat) (f : Pack → Pack) : (d.modPack c k i f).fronts = d.fronts := Device.modTeam_fronts d c k _
@[simp] theorem Device.modPack_parts (d : Device) (c k i : Nat) (f : Pack → Pack) : (d.modPack c k i f).parts = d.parts := Device.modTeam_parts d c k _
@[simp] theorem Device.modPack_dies (d : Device) (c k i : Nat) (f : Pack → Pack) : (d.modPack c k i f).dies = d.dies := Device.modTeam_dies d c k _
@[simp] theorem Device.modPack_links (d : Device) (c k i : Nat) (f : Pack → Pack) : (d.modPack c k i f).links = d.links := Device.modTeam_links d c k _
@[simp] theorem Device.modPack_clock (d : Device) (c k i : Nat) (f : Pack → Pack) : (d.modPack c k i f).clock = d.clock := Device.modTeam_clock d c k _
@[simp] theorem Device.modPack_module (d : Device) (c k i : Nat) (f : Pack → Pack) : (d.modPack c k i f).module = d.module := Device.modTeam_module d c k _
@[simp] theorem Device.modPack_pool (d : Device) (c k i : Nat) (f : Pack → Pack) : (d.modPack c k i f).pool = d.pool := Device.modTeam_pool d c k _
@[simp] theorem Device.modPack_hostAtoms (d : Device) (c k i : Nat) (f : Pack → Pack) : (d.modPack c k i f).hostAtoms = d.hostAtoms := Device.modTeam_hostAtoms d c k _
@[simp] theorem Device.modPack_hostReply (d : Device) (c k i : Nat) (f : Pack → Pack) : (d.modPack c k i f).hostReply = d.hostReply := Device.modTeam_hostReply d c k _
@[simp] theorem Device.modPack_cur (d : Device) (c k i : Nat) (f : Pack → Pack) : (d.modPack c k i f).cur = d.cur := Device.modTeam_cur d c k _
@[simp] theorem Device.modPack_writes (d : Device) (c k i : Nat) (f : Pack → Pack) : (d.modPack c k i f).writes = d.writes := Device.modTeam_writes d c k _
@[simp] theorem Device.modPack_nextSpawn (d : Device) (c k i : Nat) (f : Pack → Pack) : (d.modPack c k i f).nextSpawn = d.nextSpawn := Device.modTeam_nextSpawn d c k _
@[simp] theorem Device.modPack_nextEvent (d : Device) (c k i : Nat) (f : Pack → Pack) : (d.modPack c k i f).nextEvent = d.nextEvent := Device.modTeam_nextEvent d c k _

/-! Device.modThread -/
@[simp] theorem Device.modThread_now (d : Device) (i : ThreadId) (f : Thread → Thread) : (d.modThread i f).now = d.now := Device.modPack_now d i.core i.slot i.pack _
@[simp] theorem Device.modThread_draws (d : Device) (i : ThreadId) (f : Thread → Thread) : (d.modThread i f).draws = d.draws := Device.modPack_draws d i.core i.slot i.pack _
@[simp] theorem Device.modThread_nextCmd (d : Device) (i : ThreadId) (f : Thread → Thread) : (d.modThread i f).nextCmd = d.nextCmd := Device.modPack_nextCmd d i.core i.slot i.pack _
@[simp] theorem Device.modThread_nextBundle (d : Device) (i : ThreadId) (f : Thread → Thread) : (d.modThread i f).nextBundle = d.nextBundle := Device.modPack_nextBundle d i.core i.slot i.pack _
@[simp] theorem Device.modThread_keys (d : Device) (i : ThreadId) (f : Thread → Thread) : (d.modThread i f).keys = d.keys := Device.modPack_keys d i.core i.slot i.pack _
@[simp] theorem Device.modThread_bad (d : Device) (i : ThreadId) (f : Thread → Thread) : (d.modThread i f).bad = d.bad := Device.modPack_bad d i.core i.slot i.pack _
@[simp] theorem Device.modThread_lostKeys (d : Device) (i : ThreadId) (f : Thread → Thread) : (d.modThread i f).lostKeys = d.lostKeys := Device.modPack_lostKeys d i.core i.slot i.pack _
@[simp] theorem Device.modThread_ridges (d : Device) (i : ThreadId) (f : Thread → Thread) : (d.modThread i f).ridges = d.ridges := Device.modPack_ridges d i.core i.slot i.pack _
@[simp] theorem Device.modThread_grids (d : Device) (i : ThreadId) (f : Thread → Thread) : (d.modThread i f).grids = d.grids := Device.modPack_grids d i.core i.slot i.pack _
@[simp] theorem Device.modThread_submits (d : Device) (i : ThreadId) (f : Thread → Thread) : (d.modThread i f).submits = d.submits := Device.modPack_submits d i.core i.slot i.pack _
@[simp] theorem Device.modThread_fronts (d : Device) (i : ThreadId) (f : Thread → Thread) : (d.modThread i f).fronts = d.fronts := Device.modPack_fronts d i.core i.slot i.pack _
@[simp] theorem Device.modThread_parts (d : Device) (i : ThreadId) (f : Thread → Thread) : (d.modThread i f).parts = d.parts := Device.modPack_parts d i.core i.slot i.pack _
@[simp] theorem Device.modThread_dies (d : Device) (i : ThreadId) (f : Thread → Thread) : (d.modThread i f).dies = d.dies := Device.modPack_dies d i.core i.slot i.pack _
@[simp] theorem Device.modThread_links (d : Device) (i : ThreadId) (f : Thread → Thread) : (d.modThread i f).links = d.links := Device.modPack_links d i.core i.slot i.pack _
@[simp] theorem Device.modThread_clock (d : Device) (i : ThreadId) (f : Thread → Thread) : (d.modThread i f).clock = d.clock := Device.modPack_clock d i.core i.slot i.pack _
@[simp] theorem Device.modThread_module (d : Device) (i : ThreadId) (f : Thread → Thread) : (d.modThread i f).module = d.module := Device.modPack_module d i.core i.slot i.pack _
@[simp] theorem Device.modThread_pool (d : Device) (i : ThreadId) (f : Thread → Thread) : (d.modThread i f).pool = d.pool := Device.modPack_pool d i.core i.slot i.pack _
@[simp] theorem Device.modThread_hostAtoms (d : Device) (i : ThreadId) (f : Thread → Thread) : (d.modThread i f).hostAtoms = d.hostAtoms := Device.modPack_hostAtoms d i.core i.slot i.pack _
@[simp] theorem Device.modThread_hostReply (d : Device) (i : ThreadId) (f : Thread → Thread) : (d.modThread i f).hostReply = d.hostReply := Device.modPack_hostReply d i.core i.slot i.pack _
@[simp] theorem Device.modThread_cur (d : Device) (i : ThreadId) (f : Thread → Thread) : (d.modThread i f).cur = d.cur := Device.modPack_cur d i.core i.slot i.pack _
@[simp] theorem Device.modThread_writes (d : Device) (i : ThreadId) (f : Thread → Thread) : (d.modThread i f).writes = d.writes := Device.modPack_writes d i.core i.slot i.pack _
@[simp] theorem Device.modThread_nextSpawn (d : Device) (i : ThreadId) (f : Thread → Thread) : (d.modThread i f).nextSpawn = d.nextSpawn := Device.modPack_nextSpawn d i.core i.slot i.pack _
@[simp] theorem Device.modThread_nextEvent (d : Device) (i : ThreadId) (f : Thread → Thread) : (d.modThread i f).nextEvent = d.nextEvent := Device.modPack_nextEvent d i.core i.slot i.pack _

/-! Team.modPack -/
@[simp] theorem Team.modPack_grid (y : Team) (i : Nat) (f : Pack → Pack) : (y.modPack i f).grid = y.grid := rfl
@[simp] theorem Team.modPack_part (y : Team) (i : Nat) (f : Pack → Pack) : (y.modPack i f).part = y.part := rfl
@[simp] theorem Team.modPack_fe (y : Team) (i : Nat) (f : Pack → Pack) : (y.modPack i f).fe = y.fe := rfl
@[simp] theorem Team.modPack_index (y : Team) (i : Nat) (f : Pack → Pack) : (y.modPack i f).index = y.index := rfl
@[simp] theorem Team.modPack_recs (y : Team) (i : Nat) (f : Pack → Pack) : (y.modPack i f).recs = y.recs := rfl
@[simp] theorem Team.modPack_fmts (y : Team) (i : Nat) (f : Pack → Pack) : (y.modPack i f).fmts = y.fmts := rfl
@[simp] theorem Team.modPack_quota (y : Team) (i : Nat) (f : Pack → Pack) : (y.modPack i f).quota = y.quota := rfl
@[simp] theorem Team.modPack_guards (y : Team) (i : Nat) (f : Pack → Pack) : (y.modPack i f).guards = y.guards := rfl
@[simp] theorem Team.modPack_tiles (y : Team) (i : Nat) (f : Pack → Pack) : (y.modPack i f).tiles = y.tiles := rfl
@[simp] theorem Team.modPack_shadows (y : Team) (i : Nat) (f : Pack → Pack) : (y.modPack i f).shadows = y.shadows := rfl
@[simp] theorem Team.modPack_bindings (y : Team) (i : Nat) (f : Pack → Pack) : (y.modPack i f).bindings = y.bindings := rfl
@[simp] theorem Team.modPack_resolvedAt (y : Team) (i : Nat) (f : Pack → Pack) : (y.modPack i f).resolvedAt = y.resolvedAt := rfl
@[simp] theorem Team.modPack_uncovered (y : Team) (i : Nat) (f : Pack → Pack) : (y.modPack i f).uncovered = y.uncovered := rfl
@[simp] theorem Team.modPack_scratch (y : Team) (i : Nat) (f : Pack → Pack) : (y.modPack i f).scratch = y.scratch := rfl
@[simp] theorem Team.modPack_priv (y : Team) (i : Nat) (f : Pack → Pack) : (y.modPack i f).priv = y.priv := rfl
@[simp] theorem Team.modPack_spn (y : Team) (i : Nat) (f : Pack → Pack) : (y.modPack i f).spn = y.spn := rfl
@[simp] theorem Team.modPack_cmp (y : Team) (i : Nat) (f : Pack → Pack) : (y.modPack i f).cmp = y.cmp := rfl
@[simp] theorem Team.modPack_childDone (y : Team) (i : Nat) (f : Pack → Pack) : (y.modPack i f).childDone = y.childDone := rfl
@[simp] theorem Team.modPack_iss (y : Team) (i : Nat) (f : Pack → Pack) : (y.modPack i f).iss = y.iss := rfl
@[simp] theorem Team.modPack_doneSeq (y : Team) (i : Nat) (f : Pack → Pack) : (y.modPack i f).doneSeq = y.doneSeq := rfl
@[simp] theorem Team.modPack_miss (y : Team) (i : Nat) (f : Pack → Pack) : (y.modPack i f).miss = y.miss := rfl
@[simp] theorem Team.modPack_copyQ (y : Team) (i : Nat) (f : Pack → Pack) : (y.modPack i f).copyQ = y.copyQ := rfl
@[simp] theorem Team.modPack_spillSlot (y : Team) (i : Nat) (f : Pack → Pack) : (y.modPack i f).spillSlot = y.spillSlot := rfl
@[simp] theorem Team.modPack_evict (y : Team) (i : Nat) (f : Pack → Pack) : (y.modPack i f).evict = y.evict := rfl
@[simp] theorem Team.modPack_taken (y : Team) (i : Nat) (f : Pack → Pack) : (y.modPack i f).taken = y.taken := rfl
@[simp] theorem Team.modPack_station (y : Team) (i : Nat) (f : Pack → Pack) : (y.modPack i f).station = y.station := rfl
@[simp] theorem Team.modPack_saving (y : Team) (i : Nat) (f : Pack → Pack) : (y.modPack i f).saving = y.saving := rfl
@[simp] theorem Team.modPack_stopping (y : Team) (i : Nat) (f : Pack → Pack) : (y.modPack i f).stopping = y.stopping := rfl
@[simp] theorem Team.modPack_badScr (y : Team) (i : Nat) (f : Pack → Pack) : (y.modPack i f).badScr = y.badScr := rfl
@[simp] theorem Team.modPack_badPriv (y : Team) (i : Nat) (f : Pack → Pack) : (y.modPack i f).badPriv = y.badPriv := rfl
@[simp] theorem Team.modPack_round (y : Team) (i : Nat) (f : Pack → Pack) : (y.modPack i f).round = y.round := rfl

/-! Pack.modThread -/
@[simp] theorem Pack.modThread_scal (p : Pack) (t : Nat) (f : Thread → Thread) : (p.modThread t f).scal = p.scal := rfl
@[simp] theorem Pack.modThread_rows (p : Pack) (t : Nat) (f : Thread → Thread) : (p.modThread t f).rows = p.rows := rfl
@[simp] theorem Pack.modThread_nextId (p : Pack) (t : Nat) (f : Thread → Thread) : (p.modThread t f).nextId = p.nextId := rfl
@[simp] theorem Pack.modThread_flights (p : Pack) (t : Nat) (f : Thread → Thread) : (p.modThread t f).flights = p.flights := rfl
@[simp] theorem Pack.modThread_stack (p : Pack) (t : Nat) (f : Thread → Thread) : (p.modThread t f).stack = p.stack := rfl
@[simp] theorem Pack.modThread_serial (p : Pack) (t : Nat) (f : Thread → Thread) : (p.modThread t f).serial = p.serial := rfl
@[simp] theorem Pack.modThread_fair (p : Pack) (t : Nat) (f : Thread → Thread) : (p.modThread t f).fair = p.fair := rfl
@[simp] theorem Pack.modThread_cursor (p : Pack) (t : Nat) (f : Thread → Thread) : (p.modThread t f).cursor = p.cursor := rfl
@[simp] theorem Pack.modThread_quad (p : Pack) (t : Nat) (f : Thread → Thread) : (p.modThread t f).quad = p.quad := rfl
@[simp] theorem Pack.modThread_stamp (p : Pack) (t : Nat) (f : Thread → Thread) : (p.modThread t f).stamp = p.stamp := rfl
@[simp] theorem Pack.modThread_lastStart (p : Pack) (t : Nat) (f : Thread → Thread) : (p.modThread t f).lastStart = p.lastStart := rfl
@[simp] theorem Pack.modThread_yielded (p : Pack) (t : Nat) (f : Thread → Thread) : (p.modThread t f).yielded = p.yielded := rfl
@[simp] theorem Pack.modThread_rotated (p : Pack) (t : Nat) (f : Thread → Thread) : (p.modThread t f).rotated = p.rotated := rfl
@[simp] theorem Pack.modThread_lanes (p : Pack) (t : Nat) (f : Thread → Thread) : (p.modThread t f).lanes = p.lanes := rfl
@[simp] theorem Pack.modThread_hold (p : Pack) (t : Nat) (f : Thread → Thread) : (p.modThread t f).hold = p.hold := rfl
@[simp] theorem Pack.modThread_granted (p : Pack) (t : Nat) (f : Thread → Thread) : (p.modThread t f).granted = p.granted := rfl
@[simp] theorem Pack.modThread_noEvict (p : Pack) (t : Nat) (f : Thread → Thread) : (p.modThread t f).noEvict = p.noEvict := rfl
@[simp] theorem Pack.modThread_latch (p : Pack) (t : Nat) (f : Thread → Thread) : (p.modThread t f).latch = p.latch := rfl
@[simp] theorem Pack.modThread_fences (p : Pack) (t : Nat) (f : Thread → Thread) : (p.modThread t f).fences = p.fences := rfl
@[simp] theorem Pack.modThread_retired (p : Pack) (t : Nat) (f : Thread → Thread) : (p.modThread t f).retired = p.retired := rfl
@[simp] theorem Pack.modThread_asideStack (p : Pack) (t : Nat) (f : Thread → Thread) : (p.modThread t f).asideStack = p.asideStack := rfl
@[simp] theorem Pack.modThread_asideSerial (p : Pack) (t : Nat) (f : Thread → Thread) : (p.modThread t f).asideSerial = p.asideSerial := rfl
@[simp] theorem Pack.modThread_inSlice (p : Pack) (t : Nat) (f : Thread → Thread) : (p.modThread t f).inSlice = p.inSlice := rfl
@[simp] theorem Pack.modThread_sliceDone (p : Pack) (t : Nat) (f : Thread → Thread) : (p.modThread t f).sliceDone = p.sliceDone := rfl
@[simp] theorem Pack.modThread_restorePage (p : Pack) (t : Nat) (f : Thread → Thread) : (p.modThread t f).restorePage = p.restorePage := rfl
@[simp] theorem Pack.modThread_asideHold (p : Pack) (t : Nat) (f : Thread → Thread) : (p.modThread t f).asideHold = p.asideHold := rfl
@[simp] theorem Pack.modThread_elder (p : Pack) (t : Nat) (f : Thread → Thread) : (p.modThread t f).elder = p.elder := rfl

/-! Pack.modRow -/
@[simp] theorem Pack.modRow_threads (p : Pack) (i : Nat) (f : Row → Row) : (p.modRow i f).threads = p.threads := rfl
@[simp] theorem Pack.modRow_scal (p : Pack) (i : Nat) (f : Row → Row) : (p.modRow i f).scal = p.scal := rfl
@[simp] theorem Pack.modRow_nextId (p : Pack) (i : Nat) (f : Row → Row) : (p.modRow i f).nextId = p.nextId := rfl
@[simp] theorem Pack.modRow_flights (p : Pack) (i : Nat) (f : Row → Row) : (p.modRow i f).flights = p.flights := rfl
@[simp] theorem Pack.modRow_stack (p : Pack) (i : Nat) (f : Row → Row) : (p.modRow i f).stack = p.stack := rfl
@[simp] theorem Pack.modRow_serial (p : Pack) (i : Nat) (f : Row → Row) : (p.modRow i f).serial = p.serial := rfl
@[simp] theorem Pack.modRow_fair (p : Pack) (i : Nat) (f : Row → Row) : (p.modRow i f).fair = p.fair := rfl
@[simp] theorem Pack.modRow_cursor (p : Pack) (i : Nat) (f : Row → Row) : (p.modRow i f).cursor = p.cursor := rfl
@[simp] theorem Pack.modRow_quad (p : Pack) (i : Nat) (f : Row → Row) : (p.modRow i f).quad = p.quad := rfl
@[simp] theorem Pack.modRow_stamp (p : Pack) (i : Nat) (f : Row → Row) : (p.modRow i f).stamp = p.stamp := rfl
@[simp] theorem Pack.modRow_lastStart (p : Pack) (i : Nat) (f : Row → Row) : (p.modRow i f).lastStart = p.lastStart := rfl
@[simp] theorem Pack.modRow_yielded (p : Pack) (i : Nat) (f : Row → Row) : (p.modRow i f).yielded = p.yielded := rfl
@[simp] theorem Pack.modRow_rotated (p : Pack) (i : Nat) (f : Row → Row) : (p.modRow i f).rotated = p.rotated := rfl
@[simp] theorem Pack.modRow_lanes (p : Pack) (i : Nat) (f : Row → Row) : (p.modRow i f).lanes = p.lanes := rfl
@[simp] theorem Pack.modRow_hold (p : Pack) (i : Nat) (f : Row → Row) : (p.modRow i f).hold = p.hold := rfl
@[simp] theorem Pack.modRow_granted (p : Pack) (i : Nat) (f : Row → Row) : (p.modRow i f).granted = p.granted := rfl
@[simp] theorem Pack.modRow_noEvict (p : Pack) (i : Nat) (f : Row → Row) : (p.modRow i f).noEvict = p.noEvict := rfl
@[simp] theorem Pack.modRow_latch (p : Pack) (i : Nat) (f : Row → Row) : (p.modRow i f).latch = p.latch := rfl
@[simp] theorem Pack.modRow_fences (p : Pack) (i : Nat) (f : Row → Row) : (p.modRow i f).fences = p.fences := rfl
@[simp] theorem Pack.modRow_retired (p : Pack) (i : Nat) (f : Row → Row) : (p.modRow i f).retired = p.retired := rfl
@[simp] theorem Pack.modRow_asideStack (p : Pack) (i : Nat) (f : Row → Row) : (p.modRow i f).asideStack = p.asideStack := rfl
@[simp] theorem Pack.modRow_asideSerial (p : Pack) (i : Nat) (f : Row → Row) : (p.modRow i f).asideSerial = p.asideSerial := rfl
@[simp] theorem Pack.modRow_inSlice (p : Pack) (i : Nat) (f : Row → Row) : (p.modRow i f).inSlice = p.inSlice := rfl
@[simp] theorem Pack.modRow_sliceDone (p : Pack) (i : Nat) (f : Row → Row) : (p.modRow i f).sliceDone = p.sliceDone := rfl
@[simp] theorem Pack.modRow_restorePage (p : Pack) (i : Nat) (f : Row → Row) : (p.modRow i f).restorePage = p.restorePage := rfl
@[simp] theorem Pack.modRow_asideHold (p : Pack) (i : Nat) (f : Row → Row) : (p.modRow i f).asideHold = p.asideHold := rfl
@[simp] theorem Pack.modRow_elder (p : Pack) (i : Nat) (f : Row → Row) : (p.modRow i f).elder = p.elder := rfl

/-! Pack.sweep -/
@[simp] theorem Pack.sweep_threads (p : Pack) (n : Nat) : (p.sweep n).threads = p.threads := rfl
@[simp] theorem Pack.sweep_scal (p : Pack) (n : Nat) : (p.sweep n).scal = p.scal := rfl
@[simp] theorem Pack.sweep_nextId (p : Pack) (n : Nat) : (p.sweep n).nextId = p.nextId := rfl
@[simp] theorem Pack.sweep_flights (p : Pack) (n : Nat) : (p.sweep n).flights = p.flights := rfl
@[simp] theorem Pack.sweep_stack (p : Pack) (n : Nat) : (p.sweep n).stack = p.stack := rfl
@[simp] theorem Pack.sweep_serial (p : Pack) (n : Nat) : (p.sweep n).serial = p.serial := rfl
@[simp] theorem Pack.sweep_fair (p : Pack) (n : Nat) : (p.sweep n).fair = p.fair := rfl
@[simp] theorem Pack.sweep_cursor (p : Pack) (n : Nat) : (p.sweep n).cursor = p.cursor := rfl
@[simp] theorem Pack.sweep_quad (p : Pack) (n : Nat) : (p.sweep n).quad = p.quad := rfl
@[simp] theorem Pack.sweep_stamp (p : Pack) (n : Nat) : (p.sweep n).stamp = p.stamp := rfl
@[simp] theorem Pack.sweep_lastStart (p : Pack) (n : Nat) : (p.sweep n).lastStart = p.lastStart := rfl
@[simp] theorem Pack.sweep_yielded (p : Pack) (n : Nat) : (p.sweep n).yielded = p.yielded := rfl
@[simp] theorem Pack.sweep_rotated (p : Pack) (n : Nat) : (p.sweep n).rotated = p.rotated := rfl
@[simp] theorem Pack.sweep_lanes (p : Pack) (n : Nat) : (p.sweep n).lanes = p.lanes := rfl
@[simp] theorem Pack.sweep_hold (p : Pack) (n : Nat) : (p.sweep n).hold = p.hold := rfl
@[simp] theorem Pack.sweep_granted (p : Pack) (n : Nat) : (p.sweep n).granted = p.granted := rfl
@[simp] theorem Pack.sweep_noEvict (p : Pack) (n : Nat) : (p.sweep n).noEvict = p.noEvict := rfl
@[simp] theorem Pack.sweep_latch (p : Pack) (n : Nat) : (p.sweep n).latch = p.latch := rfl
@[simp] theorem Pack.sweep_fences (p : Pack) (n : Nat) : (p.sweep n).fences = p.fences := rfl
@[simp] theorem Pack.sweep_retired (p : Pack) (n : Nat) : (p.sweep n).retired = p.retired := rfl
@[simp] theorem Pack.sweep_asideStack (p : Pack) (n : Nat) : (p.sweep n).asideStack = p.asideStack := rfl
@[simp] theorem Pack.sweep_asideSerial (p : Pack) (n : Nat) : (p.sweep n).asideSerial = p.asideSerial := rfl
@[simp] theorem Pack.sweep_inSlice (p : Pack) (n : Nat) : (p.sweep n).inSlice = p.inSlice := rfl
@[simp] theorem Pack.sweep_sliceDone (p : Pack) (n : Nat) : (p.sweep n).sliceDone = p.sliceDone := rfl
@[simp] theorem Pack.sweep_restorePage (p : Pack) (n : Nat) : (p.sweep n).restorePage = p.restorePage := rfl
@[simp] theorem Pack.sweep_asideHold (p : Pack) (n : Nat) : (p.sweep n).asideHold = p.asideHold := rfl
@[simp] theorem Pack.sweep_elder (p : Pack) (n : Nat) : (p.sweep n).elder = p.elder := rfl

/-! Pack.setScalar -/
@[simp] theorem Pack.setScalar_threads (p : Pack) (i : Nat) (w : Bool) (v : Nat) : (p.setScalar i w v).threads = p.threads := rfl
@[simp] theorem Pack.setScalar_rows (p : Pack) (i : Nat) (w : Bool) (v : Nat) : (p.setScalar i w v).rows = p.rows := rfl
@[simp] theorem Pack.setScalar_nextId (p : Pack) (i : Nat) (w : Bool) (v : Nat) : (p.setScalar i w v).nextId = p.nextId := rfl
@[simp] theorem Pack.setScalar_flights (p : Pack) (i : Nat) (w : Bool) (v : Nat) : (p.setScalar i w v).flights = p.flights := rfl
@[simp] theorem Pack.setScalar_stack (p : Pack) (i : Nat) (w : Bool) (v : Nat) : (p.setScalar i w v).stack = p.stack := rfl
@[simp] theorem Pack.setScalar_serial (p : Pack) (i : Nat) (w : Bool) (v : Nat) : (p.setScalar i w v).serial = p.serial := rfl
@[simp] theorem Pack.setScalar_fair (p : Pack) (i : Nat) (w : Bool) (v : Nat) : (p.setScalar i w v).fair = p.fair := rfl
@[simp] theorem Pack.setScalar_cursor (p : Pack) (i : Nat) (w : Bool) (v : Nat) : (p.setScalar i w v).cursor = p.cursor := rfl
@[simp] theorem Pack.setScalar_quad (p : Pack) (i : Nat) (w : Bool) (v : Nat) : (p.setScalar i w v).quad = p.quad := rfl
@[simp] theorem Pack.setScalar_stamp (p : Pack) (i : Nat) (w : Bool) (v : Nat) : (p.setScalar i w v).stamp = p.stamp := rfl
@[simp] theorem Pack.setScalar_lastStart (p : Pack) (i : Nat) (w : Bool) (v : Nat) : (p.setScalar i w v).lastStart = p.lastStart := rfl
@[simp] theorem Pack.setScalar_yielded (p : Pack) (i : Nat) (w : Bool) (v : Nat) : (p.setScalar i w v).yielded = p.yielded := rfl
@[simp] theorem Pack.setScalar_rotated (p : Pack) (i : Nat) (w : Bool) (v : Nat) : (p.setScalar i w v).rotated = p.rotated := rfl
@[simp] theorem Pack.setScalar_lanes (p : Pack) (i : Nat) (w : Bool) (v : Nat) : (p.setScalar i w v).lanes = p.lanes := rfl
@[simp] theorem Pack.setScalar_hold (p : Pack) (i : Nat) (w : Bool) (v : Nat) : (p.setScalar i w v).hold = p.hold := rfl
@[simp] theorem Pack.setScalar_granted (p : Pack) (i : Nat) (w : Bool) (v : Nat) : (p.setScalar i w v).granted = p.granted := rfl
@[simp] theorem Pack.setScalar_noEvict (p : Pack) (i : Nat) (w : Bool) (v : Nat) : (p.setScalar i w v).noEvict = p.noEvict := rfl
@[simp] theorem Pack.setScalar_latch (p : Pack) (i : Nat) (w : Bool) (v : Nat) : (p.setScalar i w v).latch = p.latch := rfl
@[simp] theorem Pack.setScalar_fences (p : Pack) (i : Nat) (w : Bool) (v : Nat) : (p.setScalar i w v).fences = p.fences := rfl
@[simp] theorem Pack.setScalar_retired (p : Pack) (i : Nat) (w : Bool) (v : Nat) : (p.setScalar i w v).retired = p.retired := rfl
@[simp] theorem Pack.setScalar_asideStack (p : Pack) (i : Nat) (w : Bool) (v : Nat) : (p.setScalar i w v).asideStack = p.asideStack := rfl
@[simp] theorem Pack.setScalar_asideSerial (p : Pack) (i : Nat) (w : Bool) (v : Nat) : (p.setScalar i w v).asideSerial = p.asideSerial := rfl
@[simp] theorem Pack.setScalar_inSlice (p : Pack) (i : Nat) (w : Bool) (v : Nat) : (p.setScalar i w v).inSlice = p.inSlice := rfl
@[simp] theorem Pack.setScalar_sliceDone (p : Pack) (i : Nat) (w : Bool) (v : Nat) : (p.setScalar i w v).sliceDone = p.sliceDone := rfl
@[simp] theorem Pack.setScalar_restorePage (p : Pack) (i : Nat) (w : Bool) (v : Nat) : (p.setScalar i w v).restorePage = p.restorePage := rfl
@[simp] theorem Pack.setScalar_asideHold (p : Pack) (i : Nat) (w : Bool) (v : Nat) : (p.setScalar i w v).asideHold = p.asideHold := rfl
@[simp] theorem Pack.setScalar_elder (p : Pack) (i : Nat) (w : Bool) (v : Nat) : (p.setScalar i w v).elder = p.elder := rfl

/-! Pack.readyAt -/
@[simp] theorem Pack.readyAt_scal (p : Pack) (m : Mask) (pc : W64) : (p.readyAt m pc).scal = p.scal := rfl
@[simp] theorem Pack.readyAt_rows (p : Pack) (m : Mask) (pc : W64) : (p.readyAt m pc).rows = p.rows := rfl
@[simp] theorem Pack.readyAt_nextId (p : Pack) (m : Mask) (pc : W64) : (p.readyAt m pc).nextId = p.nextId := rfl
@[simp] theorem Pack.readyAt_flights (p : Pack) (m : Mask) (pc : W64) : (p.readyAt m pc).flights = p.flights := rfl
@[simp] theorem Pack.readyAt_stack (p : Pack) (m : Mask) (pc : W64) : (p.readyAt m pc).stack = p.stack := rfl
@[simp] theorem Pack.readyAt_serial (p : Pack) (m : Mask) (pc : W64) : (p.readyAt m pc).serial = p.serial := rfl
@[simp] theorem Pack.readyAt_fair (p : Pack) (m : Mask) (pc : W64) : (p.readyAt m pc).fair = p.fair := rfl
@[simp] theorem Pack.readyAt_cursor (p : Pack) (m : Mask) (pc : W64) : (p.readyAt m pc).cursor = p.cursor := rfl
@[simp] theorem Pack.readyAt_quad (p : Pack) (m : Mask) (pc : W64) : (p.readyAt m pc).quad = p.quad := rfl
@[simp] theorem Pack.readyAt_stamp (p : Pack) (m : Mask) (pc : W64) : (p.readyAt m pc).stamp = p.stamp := rfl
@[simp] theorem Pack.readyAt_lastStart (p : Pack) (m : Mask) (pc : W64) : (p.readyAt m pc).lastStart = p.lastStart := rfl
@[simp] theorem Pack.readyAt_yielded (p : Pack) (m : Mask) (pc : W64) : (p.readyAt m pc).yielded = p.yielded := rfl
@[simp] theorem Pack.readyAt_rotated (p : Pack) (m : Mask) (pc : W64) : (p.readyAt m pc).rotated = p.rotated := rfl
@[simp] theorem Pack.readyAt_lanes (p : Pack) (m : Mask) (pc : W64) : (p.readyAt m pc).lanes = p.lanes := rfl
@[simp] theorem Pack.readyAt_hold (p : Pack) (m : Mask) (pc : W64) : (p.readyAt m pc).hold = p.hold := rfl
@[simp] theorem Pack.readyAt_granted (p : Pack) (m : Mask) (pc : W64) : (p.readyAt m pc).granted = p.granted := rfl
@[simp] theorem Pack.readyAt_noEvict (p : Pack) (m : Mask) (pc : W64) : (p.readyAt m pc).noEvict = p.noEvict := rfl
@[simp] theorem Pack.readyAt_latch (p : Pack) (m : Mask) (pc : W64) : (p.readyAt m pc).latch = p.latch := rfl
@[simp] theorem Pack.readyAt_fences (p : Pack) (m : Mask) (pc : W64) : (p.readyAt m pc).fences = p.fences := rfl
@[simp] theorem Pack.readyAt_retired (p : Pack) (m : Mask) (pc : W64) : (p.readyAt m pc).retired = p.retired := rfl
@[simp] theorem Pack.readyAt_asideStack (p : Pack) (m : Mask) (pc : W64) : (p.readyAt m pc).asideStack = p.asideStack := rfl
@[simp] theorem Pack.readyAt_asideSerial (p : Pack) (m : Mask) (pc : W64) : (p.readyAt m pc).asideSerial = p.asideSerial := rfl
@[simp] theorem Pack.readyAt_inSlice (p : Pack) (m : Mask) (pc : W64) : (p.readyAt m pc).inSlice = p.inSlice := rfl
@[simp] theorem Pack.readyAt_sliceDone (p : Pack) (m : Mask) (pc : W64) : (p.readyAt m pc).sliceDone = p.sliceDone := rfl
@[simp] theorem Pack.readyAt_restorePage (p : Pack) (m : Mask) (pc : W64) : (p.readyAt m pc).restorePage = p.restorePage := rfl
@[simp] theorem Pack.readyAt_asideHold (p : Pack) (m : Mask) (pc : W64) : (p.readyAt m pc).asideHold = p.asideHold := rfl
@[simp] theorem Pack.readyAt_elder (p : Pack) (m : Mask) (pc : W64) : (p.readyAt m pc).elder = p.elder := rfl

/-! Pack.retire -/
@[simp] theorem Pack.retire_threads (p : Pack) : (p.retire).threads = p.threads := rfl
@[simp] theorem Pack.retire_scal (p : Pack) : (p.retire).scal = p.scal := rfl
@[simp] theorem Pack.retire_rows (p : Pack) : (p.retire).rows = p.rows := rfl
@[simp] theorem Pack.retire_nextId (p : Pack) : (p.retire).nextId = p.nextId := rfl
@[simp] theorem Pack.retire_flights (p : Pack) : (p.retire).flights = p.flights := rfl
@[simp] theorem Pack.retire_stack (p : Pack) : (p.retire).stack = p.stack := rfl
@[simp] theorem Pack.retire_serial (p : Pack) : (p.retire).serial = p.serial := rfl
@[simp] theorem Pack.retire_fair (p : Pack) : (p.retire).fair = p.fair := rfl
@[simp] theorem Pack.retire_cursor (p : Pack) : (p.retire).cursor = p.cursor := rfl
@[simp] theorem Pack.retire_quad (p : Pack) : (p.retire).quad = p.quad := rfl
@[simp] theorem Pack.retire_stamp (p : Pack) : (p.retire).stamp = p.stamp := rfl
@[simp] theorem Pack.retire_lastStart (p : Pack) : (p.retire).lastStart = p.lastStart := rfl
@[simp] theorem Pack.retire_yielded (p : Pack) : (p.retire).yielded = p.yielded := rfl
@[simp] theorem Pack.retire_rotated (p : Pack) : (p.retire).rotated = p.rotated := rfl
@[simp] theorem Pack.retire_lanes (p : Pack) : (p.retire).lanes = p.lanes := rfl
@[simp] theorem Pack.retire_hold (p : Pack) : (p.retire).hold = p.hold := rfl
@[simp] theorem Pack.retire_granted (p : Pack) : (p.retire).granted = p.granted := rfl
@[simp] theorem Pack.retire_noEvict (p : Pack) : (p.retire).noEvict = p.noEvict := rfl
@[simp] theorem Pack.retire_latch (p : Pack) : (p.retire).latch = p.latch := rfl
@[simp] theorem Pack.retire_fences (p : Pack) : (p.retire).fences = p.fences := rfl
@[simp] theorem Pack.retire_asideStack (p : Pack) : (p.retire).asideStack = p.asideStack := rfl
@[simp] theorem Pack.retire_asideSerial (p : Pack) : (p.retire).asideSerial = p.asideSerial := rfl
@[simp] theorem Pack.retire_inSlice (p : Pack) : (p.retire).inSlice = p.inSlice := rfl
@[simp] theorem Pack.retire_sliceDone (p : Pack) : (p.retire).sliceDone = p.sliceDone := rfl
@[simp] theorem Pack.retire_restorePage (p : Pack) : (p.retire).restorePage = p.restorePage := rfl
@[simp] theorem Pack.retire_asideHold (p : Pack) : (p.retire).asideHold = p.asideHold := rfl
@[simp] theorem Pack.retire_elder (p : Pack) : (p.retire).elder = p.elder := rfl

/-! Thread.wake -/
@[simp] theorem Thread.wake_handler (x : Thread) : (x.wake).handler = x.handler := rfl
@[simp] theorem Thread.wake_fault (x : Thread) : (x.wake).fault = x.fault := rfl
@[simp] theorem Thread.wake_fpc (x : Thread) : (x.wake).fpc = x.fpc := rfl
@[simp] theorem Thread.wake_preds (x : Thread) : (x.wake).preds = x.preds := rfl
@[simp] theorem Thread.wake_gen (x : Thread) : (x.wake).gen = x.gen := rfl
@[simp] theorem Thread.wake_lane (x : Thread) : (x.wake).lane = x.lane := rfl
@[simp] theorem Thread.wake_holds (x : Thread) : (x.wake).holds = x.holds := rfl
@[simp] theorem Thread.wake_po (x : Thread) : (x.wake).po = x.po := rfl
@[simp] theorem Thread.wake_queue (x : Thread) : (x.wake).queue = x.queue := rfl
@[simp] theorem Thread.wake_pend (x : Thread) : (x.wake).pend = x.pend := rfl
@[simp] theorem Thread.wake_again (x : Thread) : (x.wake).again = x.again := rfl
@[simp] theorem Thread.wake_start (x : Thread) : (x.wake).start = x.start := rfl
@[simp] theorem Thread.wake_aside (x : Thread) : (x.wake).aside = x.aside := rfl
@[simp] theorem Thread.wake_resume (x : Thread) : (x.wake).resume = x.resume := rfl
@[simp] theorem Thread.wake_was (x : Thread) : (x.wake).was = x.was := rfl
@[simp] theorem Thread.wake_since (x : Thread) : (x.wake).since = x.since := rfl

/-! Thread.push -/
@[simp] theorem Thread.push_pc (x : Thread) (k : EntryKind) (p : Place) (r : Nat) (b : Option Nat) (v : Nat) : (x.push k p r b v).pc = x.pc := rfl
@[simp] theorem Thread.push_status (x : Thread) (k : EntryKind) (p : Place) (r : Nat) (b : Option Nat) (v : Nat) : (x.push k p r b v).status = x.status := rfl
@[simp] theorem Thread.push_handler (x : Thread) (k : EntryKind) (p : Place) (r : Nat) (b : Option Nat) (v : Nat) : (x.push k p r b v).handler = x.handler := rfl
@[simp] theorem Thread.push_fault (x : Thread) (k : EntryKind) (p : Place) (r : Nat) (b : Option Nat) (v : Nat) : (x.push k p r b v).fault = x.fault := rfl
@[simp] theorem Thread.push_fpc (x : Thread) (k : EntryKind) (p : Place) (r : Nat) (b : Option Nat) (v : Nat) : (x.push k p r b v).fpc = x.fpc := rfl
@[simp] theorem Thread.push_preds (x : Thread) (k : EntryKind) (p : Place) (r : Nat) (b : Option Nat) (v : Nat) : (x.push k p r b v).preds = x.preds := rfl
@[simp] theorem Thread.push_gen (x : Thread) (k : EntryKind) (p : Place) (r : Nat) (b : Option Nat) (v : Nat) : (x.push k p r b v).gen = x.gen := rfl
@[simp] theorem Thread.push_lane (x : Thread) (k : EntryKind) (p : Place) (r : Nat) (b : Option Nat) (v : Nat) : (x.push k p r b v).lane = x.lane := rfl
@[simp] theorem Thread.push_holds (x : Thread) (k : EntryKind) (p : Place) (r : Nat) (b : Option Nat) (v : Nat) : (x.push k p r b v).holds = x.holds := rfl
@[simp] theorem Thread.push_pend (x : Thread) (k : EntryKind) (p : Place) (r : Nat) (b : Option Nat) (v : Nat) : (x.push k p r b v).pend = x.pend := rfl
@[simp] theorem Thread.push_again (x : Thread) (k : EntryKind) (p : Place) (r : Nat) (b : Option Nat) (v : Nat) : (x.push k p r b v).again = x.again := rfl
@[simp] theorem Thread.push_start (x : Thread) (k : EntryKind) (p : Place) (r : Nat) (b : Option Nat) (v : Nat) : (x.push k p r b v).start = x.start := rfl
@[simp] theorem Thread.push_aside (x : Thread) (k : EntryKind) (p : Place) (r : Nat) (b : Option Nat) (v : Nat) : (x.push k p r b v).aside = x.aside := rfl
@[simp] theorem Thread.push_resume (x : Thread) (k : EntryKind) (p : Place) (r : Nat) (b : Option Nat) (v : Nat) : (x.push k p r b v).resume = x.resume := rfl
@[simp] theorem Thread.push_was (x : Thread) (k : EntryKind) (p : Place) (r : Nat) (b : Option Nat) (v : Nat) : (x.push k p r b v).was = x.was := rfl
@[simp] theorem Thread.push_since (x : Thread) (k : EntryKind) (p : Place) (r : Nat) (b : Option Nat) (v : Nat) : (x.push k p r b v).since = x.since := rfl

/-! Thread.enter -/
@[simp] theorem Thread.enter_preds (x : Thread) (h : Handler) (c : Code) (n : Nat) (q r : W64) : (x.enter h c n q r).preds = x.preds := rfl
@[simp] theorem Thread.enter_gen (x : Thread) (h : Handler) (c : Code) (n : Nat) (q r : W64) : (x.enter h c n q r).gen = x.gen := rfl
@[simp] theorem Thread.enter_lane (x : Thread) (h : Handler) (c : Code) (n : Nat) (q r : W64) : (x.enter h c n q r).lane = x.lane := rfl
@[simp] theorem Thread.enter_holds (x : Thread) (h : Handler) (c : Code) (n : Nat) (q r : W64) : (x.enter h c n q r).holds = x.holds := rfl
@[simp] theorem Thread.enter_po (x : Thread) (h : Handler) (c : Code) (n : Nat) (q r : W64) : (x.enter h c n q r).po = x.po := rfl
@[simp] theorem Thread.enter_queue (x : Thread) (h : Handler) (c : Code) (n : Nat) (q r : W64) : (x.enter h c n q r).queue = x.queue := rfl
@[simp] theorem Thread.enter_pend (x : Thread) (h : Handler) (c : Code) (n : Nat) (q r : W64) : (x.enter h c n q r).pend = x.pend := rfl
@[simp] theorem Thread.enter_aside (x : Thread) (h : Handler) (c : Code) (n : Nat) (q r : W64) : (x.enter h c n q r).aside = x.aside := rfl
@[simp] theorem Thread.enter_resume (x : Thread) (h : Handler) (c : Code) (n : Nat) (q r : W64) : (x.enter h c n q r).resume = x.resume := rfl
@[simp] theorem Thread.enter_was (x : Thread) (h : Handler) (c : Code) (n : Nat) (q r : W64) : (x.enter h c n q r).was = x.was := rfl
@[simp] theorem Thread.enter_since (x : Thread) (h : Handler) (c : Code) (n : Nat) (q r : W64) : (x.enter h c n q r).since = x.since := rfl

/-! Thread.drop -/
@[simp] theorem Thread.drop_pc (x : Thread) (n : Nat) : (x.drop n).pc = x.pc := rfl
@[simp] theorem Thread.drop_status (x : Thread) (n : Nat) : (x.drop n).status = x.status := rfl
@[simp] theorem Thread.drop_handler (x : Thread) (n : Nat) : (x.drop n).handler = x.handler := rfl
@[simp] theorem Thread.drop_fault (x : Thread) (n : Nat) : (x.drop n).fault = x.fault := rfl
@[simp] theorem Thread.drop_fpc (x : Thread) (n : Nat) : (x.drop n).fpc = x.fpc := rfl
@[simp] theorem Thread.drop_preds (x : Thread) (n : Nat) : (x.drop n).preds = x.preds := rfl
@[simp] theorem Thread.drop_gen (x : Thread) (n : Nat) : (x.drop n).gen = x.gen := rfl
@[simp] theorem Thread.drop_lane (x : Thread) (n : Nat) : (x.drop n).lane = x.lane := rfl
@[simp] theorem Thread.drop_holds (x : Thread) (n : Nat) : (x.drop n).holds = x.holds := rfl
@[simp] theorem Thread.drop_po (x : Thread) (n : Nat) : (x.drop n).po = x.po := rfl
@[simp] theorem Thread.drop_pend (x : Thread) (n : Nat) : (x.drop n).pend = x.pend := rfl
@[simp] theorem Thread.drop_again (x : Thread) (n : Nat) : (x.drop n).again = x.again := rfl
@[simp] theorem Thread.drop_start (x : Thread) (n : Nat) : (x.drop n).start = x.start := rfl
@[simp] theorem Thread.drop_aside (x : Thread) (n : Nat) : (x.drop n).aside = x.aside := rfl
@[simp] theorem Thread.drop_resume (x : Thread) (n : Nat) : (x.drop n).resume = x.resume := rfl
@[simp] theorem Thread.drop_was (x : Thread) (n : Nat) : (x.drop n).was = x.was := rfl
@[simp] theorem Thread.drop_since (x : Thread) (n : Nat) : (x.drop n).since = x.since := rfl

/-! Thread.setPred -/
@[simp] theorem Thread.setPred_pc (x : Thread) (i : Nat) (v : Bool) : (x.setPred i v).pc = x.pc := by unfold Thread.setPred; split <;> rfl
@[simp] theorem Thread.setPred_status (x : Thread) (i : Nat) (v : Bool) : (x.setPred i v).status = x.status := by unfold Thread.setPred; split <;> rfl
@[simp] theorem Thread.setPred_handler (x : Thread) (i : Nat) (v : Bool) : (x.setPred i v).handler = x.handler := by unfold Thread.setPred; split <;> rfl
@[simp] theorem Thread.setPred_fault (x : Thread) (i : Nat) (v : Bool) : (x.setPred i v).fault = x.fault := by unfold Thread.setPred; split <;> rfl
@[simp] theorem Thread.setPred_fpc (x : Thread) (i : Nat) (v : Bool) : (x.setPred i v).fpc = x.fpc := by unfold Thread.setPred; split <;> rfl
@[simp] theorem Thread.setPred_gen (x : Thread) (i : Nat) (v : Bool) : (x.setPred i v).gen = x.gen := by unfold Thread.setPred; split <;> rfl
@[simp] theorem Thread.setPred_lane (x : Thread) (i : Nat) (v : Bool) : (x.setPred i v).lane = x.lane := by unfold Thread.setPred; split <;> rfl
@[simp] theorem Thread.setPred_holds (x : Thread) (i : Nat) (v : Bool) : (x.setPred i v).holds = x.holds := by unfold Thread.setPred; split <;> rfl
@[simp] theorem Thread.setPred_po (x : Thread) (i : Nat) (v : Bool) : (x.setPred i v).po = x.po := by unfold Thread.setPred; split <;> rfl
@[simp] theorem Thread.setPred_queue (x : Thread) (i : Nat) (v : Bool) : (x.setPred i v).queue = x.queue := by unfold Thread.setPred; split <;> rfl
@[simp] theorem Thread.setPred_pend (x : Thread) (i : Nat) (v : Bool) : (x.setPred i v).pend = x.pend := by unfold Thread.setPred; split <;> rfl
@[simp] theorem Thread.setPred_again (x : Thread) (i : Nat) (v : Bool) : (x.setPred i v).again = x.again := by unfold Thread.setPred; split <;> rfl
@[simp] theorem Thread.setPred_start (x : Thread) (i : Nat) (v : Bool) : (x.setPred i v).start = x.start := by unfold Thread.setPred; split <;> rfl
@[simp] theorem Thread.setPred_aside (x : Thread) (i : Nat) (v : Bool) : (x.setPred i v).aside = x.aside := by unfold Thread.setPred; split <;> rfl
@[simp] theorem Thread.setPred_resume (x : Thread) (i : Nat) (v : Bool) : (x.setPred i v).resume = x.resume := by unfold Thread.setPred; split <;> rfl
@[simp] theorem Thread.setPred_was (x : Thread) (i : Nat) (v : Bool) : (x.setPred i v).was = x.was := by unfold Thread.setPred; split <;> rfl
@[simp] theorem Thread.setPred_since (x : Thread) (i : Nat) (v : Bool) : (x.setPred i v).since = x.since := by unfold Thread.setPred; split <;> rfl

/-! What the updates write -/
@[simp] theorem Device.setCore_cores (d : Device) (c : Nat) (x : Core) : (d.setCore c x).cores = aset d.cores c x := rfl
@[simp] theorem Device.wr_writes (d : Device) (a : Nat) (b : Byte) : (d.wr a b).writes = (a, b) :: d.writes := rfl
@[simp] theorem Team.modPack_packs (y : Team) (i : Nat) (f : Pack → Pack) : (y.modPack i f).packs = lmod y.packs i f := rfl
@[simp] theorem Pack.modThread_threads (p : Pack) (t : Nat) (f : Thread → Thread) : (p.modThread t f).threads = lmod p.threads t f := rfl
@[simp] theorem Thread.wake_status (x : Thread) : x.wake.status = .ready := rfl
@[simp] theorem Thread.wake_pc (x : Thread) : x.wake.pc = nextPc x.pc := rfl
@[simp] theorem Thread.push_po (x : Thread) (k : EntryKind) (p : Place) (r : Nat) (b : Option Nat) (v : Nat) : (x.push k p r b v).po = x.po + 1 := rfl
@[simp] theorem Thread.enter_handler (x : Thread) (h : Handler) (c : Code) (n : Nat) (q r : W64) : (x.enter h c n q r).handler = h := rfl
@[simp] theorem Thread.enter_pc (x : Thread) (h : Handler) (c : Code) (n : Nat) (q r : W64) : (x.enter h c n q r).pc = r := rfl
@[simp] theorem Thread.enter_fpc (x : Thread) (h : Handler) (c : Code) (n : Nat) (q r : W64) : (x.enter h c n q r).fpc = q := rfl
@[simp] theorem Thread.enter_fault (x : Thread) (h : Handler) (c : Code) (n : Nat) (q r : W64) :
    (x.enter h c n q r).fault = BitVec.ofNat 64 (c.num + n % 65536 * 65536) := rfl
@[simp] theorem Thread.enter_status (x : Thread) (h : Handler) (c : Code) (n : Nat) (q r : W64) : (x.enter h c n q r).status = .ready := rfl

/-! The ends of a step -/
@[simp] theorem State.start_writes (s : State) : s.start.writes = [] := rfl
@[simp] theorem State.start_now (s : State) : s.start.now = s.dev.now := rfl
@[simp] theorem State.start_draws (s : State) : s.start.draws = s.dev.draws := rfl
@[simp] theorem State.start_nextCmd (s : State) : s.start.nextCmd = s.dev.nextCmd := rfl
@[simp] theorem State.start_nextBundle (s : State) : s.start.nextBundle = s.dev.nextBundle := rfl
@[simp] theorem State.start_keys (s : State) : s.start.keys = s.dev.keys := rfl
@[simp] theorem State.start_bad (s : State) : s.start.bad = s.dev.bad := rfl
@[simp] theorem State.start_lostKeys (s : State) : s.start.lostKeys = s.dev.lostKeys := rfl
@[simp] theorem State.start_cores (s : State) : s.start.cores = s.dev.cores := rfl
@[simp] theorem State.start_ridges (s : State) : s.start.ridges = s.dev.ridges := rfl
@[simp] theorem State.start_grids (s : State) : s.start.grids = s.dev.grids := rfl
@[simp] theorem State.start_submits (s : State) : s.start.submits = s.dev.submits := rfl
@[simp] theorem State.start_fronts (s : State) : s.start.fronts = s.dev.fronts := rfl
@[simp] theorem State.start_parts (s : State) : s.start.parts = s.dev.parts := rfl
@[simp] theorem State.start_dies (s : State) : s.start.dies = s.dev.dies := rfl
@[simp] theorem State.start_links (s : State) : s.start.links = s.dev.links := rfl
@[simp] theorem State.start_clock (s : State) : s.start.clock = s.dev.clock := rfl
@[simp] theorem State.start_module (s : State) : s.start.module = s.dev.module := rfl
@[simp] theorem State.start_pool (s : State) : s.start.pool = s.dev.pool := rfl
@[simp] theorem State.start_hostAtoms (s : State) : s.start.hostAtoms = s.dev.hostAtoms := rfl
@[simp] theorem State.start_hostReply (s : State) : s.start.hostReply = s.dev.hostReply := rfl
@[simp] theorem State.start_cur (s : State) : s.start.cur = s.dev.cur := rfl
@[simp] theorem State.commit_agenda (s : State) (d : Device) : (s.commit d).agenda = s.agenda := rfl
@[simp] theorem State.commit_mem (s : State) (d : Device) : (s.commit d).mem = s.mem.apply d.writes := rfl
@[simp] theorem State.commit_writes (s : State) (d : Device) : (s.commit d).dev.writes = [] := rfl
@[simp] theorem State.commit_now (s : State) (d : Device) : (s.commit d).dev.now = d.now := rfl
@[simp] theorem State.commit_draws (s : State) (d : Device) : (s.commit d).dev.draws = d.draws := rfl
@[simp] theorem State.commit_nextCmd (s : State) (d : Device) : (s.commit d).dev.nextCmd = d.nextCmd := rfl
@[simp] theorem State.commit_nextBundle (s : State) (d : Device) : (s.commit d).dev.nextBundle = d.nextBundle := rfl
@[simp] theorem State.commit_keys (s : State) (d : Device) : (s.commit d).dev.keys = d.keys := rfl
@[simp] theorem State.commit_bad (s : State) (d : Device) : (s.commit d).dev.bad = d.bad := rfl
@[simp] theorem State.commit_lostKeys (s : State) (d : Device) : (s.commit d).dev.lostKeys = d.lostKeys := rfl
@[simp] theorem State.commit_cores (s : State) (d : Device) : (s.commit d).dev.cores = d.cores := rfl
@[simp] theorem State.commit_ridges (s : State) (d : Device) : (s.commit d).dev.ridges = d.ridges := rfl
@[simp] theorem State.commit_grids (s : State) (d : Device) : (s.commit d).dev.grids = d.grids := rfl
@[simp] theorem State.commit_submits (s : State) (d : Device) : (s.commit d).dev.submits = d.submits := rfl
@[simp] theorem State.commit_fronts (s : State) (d : Device) : (s.commit d).dev.fronts = d.fronts := rfl
@[simp] theorem State.commit_parts (s : State) (d : Device) : (s.commit d).dev.parts = d.parts := rfl
@[simp] theorem State.commit_dies (s : State) (d : Device) : (s.commit d).dev.dies = d.dies := rfl
@[simp] theorem State.commit_links (s : State) (d : Device) : (s.commit d).dev.links = d.links := rfl
@[simp] theorem State.commit_clock (s : State) (d : Device) : (s.commit d).dev.clock = d.clock := rfl
@[simp] theorem State.commit_module (s : State) (d : Device) : (s.commit d).dev.module = d.module := rfl
@[simp] theorem State.commit_pool (s : State) (d : Device) : (s.commit d).dev.pool = d.pool := rfl
@[simp] theorem State.commit_hostAtoms (s : State) (d : Device) : (s.commit d).dev.hostAtoms = d.hostAtoms := rfl
@[simp] theorem State.commit_hostReply (s : State) (d : Device) : (s.commit d).dev.hostReply = d.hostReply := rfl
@[simp] theorem State.commit_cur (s : State) (d : Device) : (s.commit d).dev.cur = d.cur := rfl
@[simp] theorem State.start_nextSpawn (s : State) : s.start.nextSpawn = s.dev.nextSpawn := rfl
@[simp] theorem State.start_nextEvent (s : State) : s.start.nextEvent = s.dev.nextEvent := rfl
@[simp] theorem State.commit_nextSpawn (s : State) (d : Device) : (s.commit d).dev.nextSpawn = d.nextSpawn := rfl
@[simp] theorem State.commit_nextEvent (s : State) (d : Device) : (s.commit d).dev.nextEvent = d.nextEvent := rfl

end Sys2Proof.Machine
end

