-- ==== Sys2Proof/Tests/Slice0.lean ====
section
/-! SUPPORT. The model's own tests: words of the encoding tables and the instructions they stand for, ill-formed instructions, single
steps, and for every statement with hypotheses a state and operands that meet them. -/

namespace Sys2Proof.Tests

open Sys2Proof Sys2Proof.Machine

set_option Elab.async false
set_option maxRecDepth 100000
set_option exponentiation.threshold 4096

/-! ### A small machine -/

def h0 : Hdr := ⟨false, 0, 0, false, false⟩
def v (i : BitVec 8) : Src := .name ⟨i, false, false, .whole, false, .whole⟩
def vw (i : BitVec 8) : Src := .name ⟨i, false, false, .whole, true, .whole⟩
def s (i : BitVec 6) : Src := .scal ⟨i, false, false, .whole, false⟩
def sw (i : BitVec 6) : Src := .scal ⟨i, false, false, .whole, true⟩
def dn (i : BitVec 8) (c : BitVec 4) : VDst := ⟨i, c, false⟩
def dw (i : BitVec 8) (c : BitVec 4) : VDst := ⟨i, c, true⟩

/-- A row of name n, bound by every thread, with persistent counts and the value `f t` in thread t. -/
def rowOfName (id n : Nat) (wide : Bool) (f : Nat → Nat) : Row :=
  { id := id, name := n, wide := wide, lo := (List.range 32).map fun t => BitVec.ofNat 32 (f t), hi := List.replicate 32 0,
    count := List.replicate 32 15, bound := BitVec.allOnes 32, cur := true, held := 0, busy := 0, spent := 0, evLo := none, evHi := none, bad := 0, owed := [] }
/-- A buffer record: base, extent, stride, kind, ESZ, OOB; RD, WR and ATOM are set. -/
def recordOf (base extent stride kind esz : Nat) (oob : Bool) : BitVec 256 :=
  BitVec.ofNat 256 (base + extent * 2 ^ 64 + stride * 2 ^ 128 + kind * 2 ^ 160 + esz * 2 ^ 168 + oob.toNat * 2 ^ 174 + 7 * 2 ^ 175)
/-- A machine in which the pack of the one team of core 0 has just started a bundle of its 32 threads at PC 0. -/
def booted : State :=
  let s := State.reset.withFetchWord 96 0x0000000E0000E0000E000000
  { s with dev := { s.dev with cur := some ⟨0, 0, 0, BitVec.allOnes 32, 0, leBytes 12 0x0000000E0000E0000E000000⟩ }, agenda := [] }
/-- The header of an instruction guarded by p1, which the odd threads have. -/
def h1 : Hdr := ⟨false, 1, 3, false, false⟩
/-- The names of the pack: v1 is the thread number, v2 is 1, v3 is 4, v4 is 0, v8 and v9 are wide, v16 to v31 are 0. -/
def namesOf : List Row :=
  [rowOfName 1 1 false fun t => t, rowOfName 2 2 false fun _ => 1, rowOfName 3 3 false fun _ => 4, rowOfName 4 4 false fun _ => 0,
   rowOfName 8 8 true fun t => t, rowOfName 9 9 true fun _ => 7] ++ (List.range 16).map fun i => rowOfName (16 + i) (16 + i) false fun _ => 0
def packOf (p : Pack) : Pack :=
  { p with rows := namesOf, nextId := 40, latch := some 0, scal := lmod p.scal 1 fun _ => 8, 
           threads := (List.range p.threads.length).zip p.threads |>.map fun x => { x.2 with start := false, preds := if x.1 % 2 = 1 then 2 else 0 } }
def teamOf (t : Team) : Team :=
  { t with
    packs := t.packs.map packOf,
    recs := [recordOf 0 4096 64 0 2 false, recordOf 0 4096 64 1 2 false, recordOf 0 64 0 2 2 false, recordOf 0 0 0 0 2 true,
             recordOf 0 0 0 1 2 true, recordOf 0 0 0 2 2 true, recordOf 0 4096 0 3 2 false, recordOf 0 4096 0 1 4 false,
             recordOf 0 65536 256 1 0 false],
    fmts := [some 0, some 4, none, none, none, none, none, none] }
/-- The machine with names, records and format slots; its grid has the handler PC 0x10, 64 bytes of private store and 16 shadows. -/
def world : State :=
  { booted with
    mem := booted.mem.setBytes (0x6000000080 + 3) [0x80],
    dev := ((booted.dev.modTeam 0 0 teamOf).modGrid 1 fun g => { g with record := g.record ||| BitVec.ofNat 2048 (16 * 2 ^ 64 + 4 * 2 ^ 704 + 64 * 2 ^ 736 + 16 * 2 ^ 776) }).modCore 0
      fun c => { c with icache := c.icache ++ [(128, [0, 0, 0, 0x80] ++ List.replicate 124 0)] } }

/-! ### Bundles that issue -/

/-- Whether the conditions of `Issues` hold of a bundle that the machine has. -/
def issues (s : State) (h : Hdr) (u : Use) (b : Bun) : Bool :=
  decide b.pack.WF && ((List.range 32).all fun t => !b.mask.getLsbD t || ((b.pack.oldRows t).isNone && !b.short u t && !b.spoilt u t)) &&
  (match (b.spentPack u).rowsFor b.pack b.team b.dev.now b.till (s.start.maxlive b.team.grid) (b.writers u) u.dests with
   | .ok .. => true
   | _ => false) &&
  (!u.collective || (b.mask == BitVec.allOnes 32 && (((List.range 32).all fun t => b.pack.guard b.h t) || (List.range 32).all fun t => !b.pack.guard b.h t)))

theorem issues_sound {s : State} {h : Hdr} {u : Use} {b : Bun} (hb : s.start.bun h u.flat = some b) (hi : issues s h u b = true) :
    Issues s h u b := by
  simp only [issues, Bool.and_eq_true, decide_eq_true_eq, List.all_eq_true, List.mem_range, Bool.or_eq_true, Bool.not_eq_true',
    Option.isNone_iff_eq_none, beq_iff_eq] at hi
  obtain ⟨⟨⟨hw, hf⟩, hr⟩, hj⟩ := hi
  have hm : ∀ t, t < 32 → b.mask.getLsbD t = true → (b.pack.oldRows t = none ∧ b.short u t = false) ∧ b.spoilt u t = false := fun t ht hm => by
    rcases hf t ht with h | h
    · rw [hm] at h; cases h
    · exact h
  refine ⟨hb, hw, fun t ht h => (hm t ht h).1.1, fun t ht h => (hm t ht h).1.2, fun t ht h => (hm t ht h).2, ?_, fun hc => ?_⟩
  · split at hr
    · exact ⟨_, _, ‹_›⟩
    · cases hr
  · rcases hj with h | h
    · rw [hc] at h; cases h
    · exact h

/-- A bundle issues; of each thread of Part P holds, and Q holds of the bundle. -/
def meets (s : State) (h : Hdr) (u : Use) (P : Bun → Nat → Prop) (Q : Bun → Prop) [∀ b t, Decidable (P b t)] [∀ b, Decidable (Q b)] : Bool :=
  match s.start.bun h u.flat with
  | some b => issues s h u b && (List.range 32).all (fun t => !(b.partOf u).getLsbD t || decide (P b t)) && decide (Q b)
  | none => false

theorem issuing {s : State} {h : Hdr} {u : Use} {P : Bun → Nat → Prop} {Q : Bun → Prop} [∀ b t, Decidable (P b t)] [∀ b, Decidable (Q b)]
    (hk : meets s h u P Q = true) : ∃ b, Issues s h u b ∧ (∀ t, (b.partOf u).getLsbD t = true → P b t) ∧ Q b := by
  unfold meets at hk
  split at hk
  · rename_i b hb
    simp only [Bool.and_eq_true, List.all_eq_true, List.mem_range, Bool.or_eq_true, Bool.not_eq_true', decide_eq_true_eq] at hk
    refine ⟨b, issues_sound hb hk.1.1, fun t ht => ?_, hk.2⟩
    rcases hk.1.2 t (by
      by_contra hge
      rw [BitVec.getLsbD_of_ge _ _ (by omega)] at ht
      cases ht) with h | h
    · rw [ht] at h; cases h
    · exact h
  · cases hk

/-! ### Words of the encoding tables (R99 to R118, and the tables of each family) -/

/-- Each word decodes to its instruction. -/
def reads (l : List (Nat × Instr)) : Bool := l.all fun x => decodeTableWord 96 x.1 == some x.2

/-- Words of the control group, each written from its row of the table. -/
theorem test_decode_control : reads [
  (0x000000CE0000E0000E000000, .nop { h0 with yld := true, uexp := true }),
  (0x0100100E00009FFFEE000008, .bra { h0 with gpred := 1 } 131070 8),
  (0x0200F00E000019008E000000, .brx { h0 with gneg := true, gpred := 7 } (vw 200)),
  (0x030000027E0880003E000009, .call h0 (.s ⟨63, true⟩) 3 9),
  (0x0400000E000020A08E000000, .ret h0 (sw 5)),
  (0x0500000E00008FFFFE000001, .split h0 65535 1),
  (0x0600000E0000E0000E000000, .join h0),
  (0x070F000E000080000E000002, .brk h0 15 0 2),
  (0x0800000E0000E0000E000000, .exit h0),
  (0x0900000E0000E0000E000000, .yield h0),
  (0x0A00000E00008FFFFE000000, .trap h0 65535),
  (0x0A01000E000080001E000000, .trapDbg h0 1),
  (0x0B000F001220687C09FFFF00, .spawn { h0 with la := 15 } (dn 9 1) 31 (.imm 131071)),
  (0x0C00000E000000600E000000, .cwait h0 (v 3)),
  (0x0C01000E0000E0000E000000, .cwaitAll h0),
  (0x0D00000E000020400E000000, .sleep h0 (s 2))] = true := by decide +kernel

/-- Words of the names group, each written from its row of the table. -/
theorem test_decode_names : reads [
  (0x1000000A09E3A1003E000000, .mov h0 (.n ⟨4, 15, 3⟩) (.reg (.span ⟨8, 3⟩)) 0),
  (0x108000000E4823DEADBEEF00, .mov h0 (.v (dw 7 2)) (.wide ⟨.i32, 3, 0xDEADBEEF⟩) 0),
  (0x110F000E000000600E000000, .drop h0 15 (v 3) 0),
  (0x120E000E0000A001FE0000FF, .keep h0 14 (.span ⟨0, 31⟩) 255),
  (0x13000000022000400E000000, .live h0 (.plain (v 2)) (dn 1 1)),
  (0x130100000220E0000E000000, .live h0 .pack (dn 1 1)),
  (0x130200000220E0000E000000, .live h0 .team (dn 1 1))] = true := by decide +kernel

/-- Words of the integer group, each written from its row of the table. -/
theorem test_decode_integer : reads [
  (0x180000000A20006009FFF900, .iadd h0 ⟨dn 5 1, .reg (v 3) (.imm 131065)⟩),
  (0x190000000A20006009FFF900, .isub h0 ⟨dn 5 1, .reg (v 3) (.imm 131065)⟩),
  (0x1A0000000A20006009FFF900, .imul h0 ⟨dn 5 1, .reg (v 3) (.imm 131065)⟩),
  (0x1B0800000A28006082080800, .imulh h0 true ⟨dw 5 1, .reg (vw 3) (sw 4)⟩),
  (0x1C0000000A20006200084006, .imad h0 ⟨dn 5 1, .name ⟨3, false, false, .lo, false, .whole⟩, .name ⟨4, false, false, .hi, false, .whole⟩, 6⟩),
  (0x1D0800000A28006000080406, .imadw h0 true ⟨dw 5 1, v 3, .name ⟨4, false, false, .whole, false, .hi⟩, 6⟩),
  (0x1E0000000A20006000080200, .imin h0 false ⟨dn 5 1, .reg (v 3) (.name ⟨4, false, false, .whole, false, .lo⟩)⟩),
  (0x1F0800000A20006000080000, .imax h0 true ⟨dn 5 1, .reg (v 3) (v 4)⟩),
  (0x200000000A2000600E000000, .iabs h0 (dn 5 1) (v 3)),
  (0x218000000A2000FFFF000003, .and h0 ⟨dn 5 1, .wide (.name 3) ⟨.literal, 0, 0xFFFF0000⟩⟩),
  (0x228000000A2000FFFF000003, .or h0 ⟨dn 5 1, .wide (.name 3) ⟨.literal, 0, 0xFFFF0000⟩⟩),
  (0x238000000A2000FFFF000003, .xor h0 ⟨dn 5 1, .wide (.name 3) ⟨.literal, 0, 0xFFFF0000⟩⟩),
  (0x240000000A20702C0E000000, .not h0 (dn 5 1) (.sys 11)),
  (0x258000000A205F000000053F, .shl h0 ⟨dn 5 1, .wide (.scal 63) ⟨.u32, 15, 5⟩⟩),
  (0x268000000A205F000000053F, .shr h0 ⟨dn 5 1, .wide (.scal 63) ⟨.u32, 15, 5⟩⟩),
  (0x278000000A205F000000053F, .sar h0 ⟨dn 5 1, .wide (.scal 63) ⟨.u32, 15, 5⟩⟩),
  (0x280800000A20006008080400, .bfx h0 true ⟨dn 5 1, .reg (v 3) (.imm 0x0804)⟩),
  (0x290000000A200060080804FF, .bfi h0 ⟨dn 5 1, v 3, .imm 0x0804, 255⟩),
  (0x2A0000000A2000600E000000, .popc h0 (dn 5 1) (v 3)),
  (0x2B0000000A2000600E000000, .clz h0 (dn 5 1) (v 3)),
  (0x2C1D00040400006088000100, .icmp h0 ⟨2, true, true, .ge, .reg (vw 3) (.imm 1)⟩),
  (0x2DF000000A20B10000000940, .sel h0 7 ⟨dn 5 1, .wide (.sys 0) ⟨.count, 1, 9⟩⟩),
  (0x2E0800000A20006000080000, .iadds h0 true ⟨dn 5 1, .reg (v 3) (v 4)⟩),
  (0x2F3800000A28006080080000, .lea h0 3 true ⟨dw 5 1, .reg (vw 3) (v 4)⟩)] = true := by decide +kernel

/-- Words of the scalar group, each written from its row of the table. -/
theorem test_decode_scalar : reads [
  (0x300000021208206088000400, .sadd h0 ⟨⟨9, true⟩, .reg (sw 3) (.imm 4)⟩),
  (0x310000021208206088000400, .ssub h0 ⟨⟨9, true⟩, .reg (sw 3) (.imm 4)⟩),
  (0x320000021208206088000400, .smul h0 ⟨⟨9, true⟩, .reg (sw 3) (.imm 4)⟩),
  (0x33000002120040D00E000000, .smov h0 ⟨9, false⟩ (.reg (.pred 6 true))),
  (0x340100040E00206002080000, .scmp h0 ⟨7, false, false, .ne, .reg (s 3) (s 4)⟩),
  (0x35000002120000640E000000, .sbcast h0 ⟨9, false⟩ (.name ⟨3, false, false, .hi, false, .whole⟩)),
  (0x3600000212086C1C0E000000, .sget h0 ⟨9, true⟩ (.fmt 7)),
  (0x375000021208206087020000, .sand h0 5 ⟨⟨9, true⟩, .reg (sw 3) (.sys 8)⟩)] = true := by decide +kernel

/-- Words of the float group, each written from its row of the table. -/
theorem test_decode_float : reads [
  (0x380400000A20007802080000, .fadd h0 .rs ⟨dn 5 1, .reg (.name ⟨3, true, true, .whole, false, .whole⟩) (s 4)⟩),
  (0x390300000A20006008000100, .fsub h0 .rup ⟨dn 5 1, .reg (v 3) (.imm 1)⟩),
  (0x3A8100000A20613E00000004, .fmul h0 .rtz ⟨dn 5 1, .wide (.name 4) ⟨.f32, 1, 0x3E000000⟩⟩),
  (0x3B0200000A20006000080005, .ffma h0 .rdn ⟨dn 5 1, v 3, v 4, 5⟩),
  (0x3C0800000A20006000080000, .fmin h0 true ⟨dn 5 1, .reg (v 3) (v 4)⟩),
  (0x3D0000000A20006000080000, .fmax h0 false ⟨dn 5 1, .reg (v 3) (v 4)⟩),
  (0x3E0600040200006000080000, .fcmp h0 ⟨1, .un, .reg (v 3) (v 4)⟩),
  (0x3F0000000A2000600E000000, .frnd h0 .rne (dn 5 1) (v 3)),
  (0x400100000A2000600E000000, .frcp h0 .rtz (dn 5 1) (v 3)),
  (0x410200000A2000600E000000, .frsq h0 .rdn (dn 5 1) (v 3)),
  (0x420300000A2000600E000000, .fsqrt h0 .rup (dn 5 1) (v 3)),
  (0x430400000A2000600E000000, .fex2 h0 .rs (dn 5 1) (v 3)),
  (0x440000000A2000600E000000, .flg2 h0 .rne (dn 5 1) (v 3)),
  (0x450100000A2000600E000000, .fsin h0 .rtz (dn 5 1) (v 3)),
  (0x460200000A2000600E000000, .fcos h0 .rdn (dn 5 1) (v 3)),
  (0x470000000A20006000080000, .fdiv h0 .rne ⟨dn 5 1, .reg (v 3) (v 4)⟩),
  (0x480000000A28006088000200, .dadd h0 .rne ⟨dw 5 1, .reg (vw 3) (.imm 2)⟩),
  (0x490100000A28006082080800, .dmul h0 .rtz ⟨dw 5 1, .reg (vw 3) (sw 4)⟩),
  (0x4A0000000A28006080080806, .dfma h0 .rne ⟨dw 5 1, vw 3, vw 4, 6⟩),
  (0x4B0300040200006080080800, .dcmp h0 ⟨1, .le, .reg (vw 3) (vw 4)⟩),
  (0x4C0A00000A20006200080000, .hadd2 h0 true .rdn ⟨dn 5 1, .reg (.name ⟨3, false, false, .lo, false, .whole⟩) (v 4)⟩),
  (0x4D0000000A20006000080000, .hmul2 h0 false .rne ⟨dn 5 1, .reg (v 3) (v 4)⟩),
  (0x4E0800000A20006000080007, .hfma2 h0 true .rne ⟨dn 5 1, v 3, v 4, 7⟩),
  (0x4F1000000A20006000080000, .hmax2 h0 false true ⟨dn 5 1, .reg (v 3) (v 4)⟩)] = true := by decide +kernel

/-- Words of the convert group, each written from its row of the table. -/
theorem test_decode_convert : reads [
  (0x500800000A2000600E000059, .cvt h0 true .rne 5 9 (dn 5 1) (v 3)),
  (0x511000000A20006006C08008, .cvtn h0 (dn 5 1) (v 3) 2 (some 8)),
  (0x520000000A20006006C08000, .cvtw h0 (dn 5 1) (v 3) 2 none),
  (0x530300000A20006000080000, .scl h0 (dn 5 1) (.exp .rup (v 3) (v 4))),
  (0x531000000A20006006C18000, .scl h0 (dn 5 1) (.e8m0 (v 3) 6)),
  (0x532000000A20006000080007, .scl h0 (dn 5 1) (.rebase (v 3) (v 4) 7)),
  (0x540000000A20006400080000, .pk2 h0 .bits (dn 5 1) (.name ⟨3, false, false, .hi, false, .whole⟩) (v 4)),
  (0x541000000A20006000080000, .pk2 h0 (.f16 .rne) (dn 5 1) (v 3) (v 4)),
  (0x542400000A20006000080000, .pk2 h0 (.bf16 .rs) (dn 5 1) (v 3) (v 4)),
  (0x553000000A2000640E000000, .unpk h0 3 (dn 5 1) (.name ⟨3, false, false, .hi, false, .whole⟩)),
  (0x561000000A2020608E000000, .fcls h0 1 (dn 5 1) (sw 3))] = true := by decide +kernel

/-- Words of the cross group, each written from its row of the table. -/
theorem test_decode_cross : reads [
  (0x580300000A20006008001000, .shfl h0 3 (dn 5 1) (v 3) (.imm 16)),
  (0x59020004060000600E000000, .vote h0 2 (.p 3) (v 3)),
  (0x590300000A2040800E000000, .vote h0 3 (.v (dn 5 1)) (.pred 4 false)),
  (0x5A0000020A0040900E000000, .ballot h0 (.s ⟨5, false⟩) (.pred 4 true)),
  (0x5B0A00000A2800608E000000, .redux h0 10 (dw 5 1) (vw 3)),
  (0x5C1000000A2000600E000000, .scan h0 0 true (dn 5 1) (v 3)),
  (0x5D09000A0823006000040000, .topk h0 1 ⟨4, 1, 3⟩ (.fresh (v 3) (v 2) 0)),
  (0x5D11000A0823A100300400FA, .topk h0 1 ⟨4, 1, 3⟩ (.ins ⟨8, 3⟩ (v 2) true 250))] = true := by decide +kernel

/-- Words of the memory group, each written from its row of the table. -/
theorem test_decode_memory : reads [
  (0x606702000A2068040A040104, .ld { h0 with la := 2 } ⟨6, .s, .acq, dn 5 1, 1, .span ⟨2, 1⟩, 4⟩),
  (0x615A00068040006000080800, .st h0 ⟨5, .d, .rel, 1, v 3, vw 4, 0⟩),
  (0x624100000A20680400060000, .lds h0 ⟨4, .c, .none, dn 5 1, 1, v 3, 0⟩),
  (0x634000068040006000080000, .sts h0 ⟨4, .t, .none, 1, v 3, v 4, 0⟩),
  (0x640000000A20680808000500, .ldp h0 ⟨0, .t, .none, dn 5 1, 2, .imm 5, 0⟩),
  (0x652000068080800050080000, .stp h0 ⟨2, .t, .none, 2, .imm 5, v 4, 0⟩),
  (0x665200020A08680C02080000, .sld h0 5 .d .none ⟨5, true⟩ 3 (s 4)),
  (0x674000000A20800020060000, .ldc h0 4 (dn 5 1) 2 (v 3)),
  (0x6802000E0000680C00060000, .pref h0 3 (v 3) 0),
  (0x694000068780687C020800C8, .bsub h0 true (.imm 200) 30 31 (s 4)),
  (0x691000068780687C0800003F, .bsub h0 false (.scal 63) 30 31 (.imm 0)),
  (0x692000068780687C08000000, .bsub h0 false .rest 30 31 (.imm 0)),
  (0x6A3000000A2868180E000000, .bget h0 3 (.v (dw 5 1)) 6),
  (0x6B0F000E0000E0000E000000, .fence h0 .s .full)] = true := by decide +kernel

/-- Words of the atomic group, each written from its row of the table. -/
theorem test_decode_atomic : reads [
  (0x70AD00000A2000600008001F, .atom h0 10 .c .full (dn 5 1) 31 (v 3) (v 4)),
  (0x710B00000A2800600A0C0104, .acas h0 .s .rel (dw 5 1) 4 (v 3) ⟨6, 1⟩),
  (0x721200000A20006000080004, .afadd h0 1 .d .none (dn 5 1) 4 (v 3) (v 4)),
  (0x73B2000E0000006000080804, .red h0 11 .d .none 4 (v 3) (vw 4))] = true := by decide +kernel

/-- Words of the barrier group, each written from its row of the table. -/
theorem test_decode_barrier : reads [
  (0x7800000E0000800008000204, .binit h0 .t 4 (.imm 0) (.imm 2)),
  (0x790100000A20800008000104, .barv h0 .c (dn 5 1) 4 (.imm 0) (.imm 1)),
  (0x7A00000E0000800000060004, .bexp h0 .t 4 (.imm 0) (v 3)),
  (0x7B7D000E0000800000060004, .bwait h0 31 .c 4 (.imm 0) (v 3)),
  (0x7C0000040A00800000060004, .btry h0 .t 5 4 (.imm 0) (v 3)),
  (0x7D28000E0000800008000104, .bar h0 10 .t 4 (.imm 0) (.imm 1))] = true := by decide +kernel

/-- Words of the matrix group, each written from its row of the table. -/
theorem test_decode_matrix : reads [
  (0x800D000E000068100006003F, .mldw h0 none (.record 4 (v 3) true 63) 5),
  (0x800500064080A001F8000727, .mldw h0 (some 2) (.span ⟨0, 31⟩ (.imm 7) 39) 5),
  (0x816000060080A000F6C04010, .mma h0 ⟨none, true, true, 2, ⟨0, 15⟩, 1, 16⟩),
  (0x821300060080A000F6C00010, .mmar h0 ⟨some 3, false, false, 2, ⟨0, 15⟩, 0, 16⟩),
  (0x8300000E0000E0000E000000, .mfnc h0 none 0),
  (0x8300000E0000A081FE000028, .mfnc h0 (some (.span ⟨4, 31⟩)) 40),
  (0x8400000E0000603C0E000000, .mwait h0 (some 15)),
  (0x8500000A002F600808003800, .mrd h0 ⟨0, 1, 15⟩ 2 (.imm 56) 0),
  (0x86000006404060080E000000, .mzero h0 (some 1) 2),
  (0x8700000E000060080A200F38, .mwr h0 none 2 ⟨16, 15⟩ 56),
  (0x8800000E0000681000060010, .mtag h0 none 4 (v 3) 16),
  (0x890100020A0060080E000000, .mstat h0 (.b 2) ⟨5, false⟩),
  (0x890000020A00E0000E000000, .mstat h0 .q ⟨5, false⟩),
  (0x890200020A00E0000E000000, .mstat h0 .m ⟨5, false⟩),
  (0x8A00000E0000681008000063, .mst h0 none 4 (.imm 0) 3 6)] = true := by decide +kernel

/-- Words of the guard_copy group, each written from its row of the table. -/
theorem test_decode_guard_copy : reads [
  (0x9000000643C040600E000000, .gset h0 15 (.pred 3 false)),
  (0x910000064040E0000E000000, .gclr h0 1),
  (0x92010004060064080E000000, .gtst h0 true 3 2),
  (0x94000006804068080E000023, .cpy h0 1 2 35),
  (0x95000006804068080680C000, .cpyg h0 1 2 3 0),
  (0x96000006804068080680C000, .cpys h0 1 2 3 0),
  (0x9700000E000068080E000000, .cpyc h0 2),
  (0x98040006804068080E000000, .cpyr h0 4 1 2 0),
  (0x990100020600E0000E000000, .cseq h0 true (.s ⟨3, false⟩)),
  (0x9A00000E000000600E000000, .cpyw h0 (v 3))] = true := by decide +kernel

/-- Words of the route group, each written from its row of the table. -/
theorem test_decode_route : reads [
  (0xA00100023C0868380683C01F, .rsv h0 true 30 14 15 31),
  (0xA100000E000023C08683800D, .route h0 30 14 13),
  (0xA200000E0000683800060000, .rret h0 14 (v 3)),
  (0xA300000E000023C08E000000, .rwait h0 30),
  (0xA40500000A2023C08E000000, .rstat h0 5 (.v (dn 5 1)) 30),
  (0xA50000020800680C0E000000, .stile h0 ⟨4, false⟩ (some 3)),
  (0xA50100020800E0000E000000, .stile h0 ⟨4, false⟩ none),
  (0xA600000E000080009E000000, .sflush h0 (.imm 9)),
  (0xA700000E000023C08E000000, .rfree h0 30)] = true := by decide +kernel

/-- Words of the system group, each written from its row of the table. -/
theorem test_decode_system : reads [
  (0xB00000000A2870880E000000, .csr h0 (.v (dw 5 1)) (.direct 34)),
  (0xB00100020A0000600E000000, .csr h0 (.s ⟨5, false⟩) (.ind (v 3))),
  (0xB1000007044000608E000000, .csw h0 17 (vw 3)),
  (0xB202000E0000E0000E000000, .tret h0 2),
  (0xB30000020A00680C08000000, .nsave h0 ⟨5, false⟩ 3 (.imm 0)),
  (0xB400000E0000680C0800003F, .nload h0 3 (.imm 0) 63),
  (0xB50300000A28E0000E000000, .tstamp h0 true true (.v (dw 5 1))),
  (0xB60200020A0880007E000000, .cntr h0 (.one 2 (.s ⟨5, true⟩)) (.imm 7)),
  (0xB603000A0C2280007E000000, .cntr h0 (.all ⟨6, 1, 2⟩ 0) (.imm 7)),
  (0xB70000020A0880FF8E000000, .probe h0 (.s ⟨5, true⟩) (.imm 0xFF8)),
  (0xB801000E0000681C0E000000, .icinv h0 (some 7)),
  (0xB800000E0000E0000E000000, .icinv h0 none),
  (0xB900000E00008FFFFE000000, .mark h0 65535)] = true := by decide +kernel

/-- Words of the hint group, each written from its row of the table. -/
theorem test_decode_hint : reads [
  (0xF002000E0000681C00060000, .hnear h0 2 7 (v 3)),
  (0xF10000000A20E0000E000000, .hest h0 (dn 5 1)),
  (0xF003000E0000681C00060000, .unimplementedHint h0 ⟨0, 3, 0, 917504, 426432, 1536, 0⟩)] = true := by decide +kernel

/-! ### Ill-formed instructions: one for each check, each refused -/

def nOf (i : BitVec 8) (neg abs : Bool) (half : Half) (wide : Bool) (comp : Comp) : Src := .name ⟨i, neg, abs, half, wide, comp⟩
/-- A 64-bit name read by halves, and one with COMP. -/
def badHalf : Src := nOf 3 false false .lo true .whole
def negated : Src := nOf 3 true false .whole false .whole
def halved : Src := nOf 3 false false .lo false .whole
def spanOf (i : BitVec 8) (n : BitVec 5) : Src := .span ⟨i, n⟩
def w32 (k : IKind) (slot : BitVec 4) : Wide := ⟨k, slot, 5⟩
def ill (l : List Instr) : Bool := l.all fun i => !i.wf
theorem test_ill_formed_control : ill [
  .bra h0 0 10, .split h0 0 10, .brk h0 1 0 10, .brx h0 (v 1), .brx h0 (nOf 3 true false .whole true .whole), .brx h0 (.imm 4), .ret h0 (s 1),
  .call h0 (.v (dn 1 1)) 0 0, .call h0 (.s ⟨1, false⟩) 0 0, .call h0 (.v (dw 1 1)) 0 10, .trap h0 0x10000, .trapDbg h0 0x10000,
  .spawn h0 (dw 1 1) 0 (.imm 0), .spawn h0 (dn 1 1) 0 (vw 8), .cwait h0 negated, .sleep h0 (.sys 3)] = true := by decide +kernel
theorem test_ill_formed_names : ill [
  .mov h0 (.v (dn 1 1)) (.reg badHalf) 0, .mov h0 (.v (dn 1 1)) (.reg negated) 0, .mov h0 (.v (dn 1 1)) (.reg (v 1)) 1,
  .mov h0 (.v (dn 1 1)) (.reg (.pred 1 true)) 0, .mov h0 (.v (dn 1 1)) (.reg (.sys 12)) 0, .mov h0 (.v (dn 1 1)) (.wide (w32 .literal 1)) 0,
  .mov h0 (.v (dn 1 1)) (.wide (w32 .i32 0)) 1, .mov h0 (.n ⟨4, 1, 3⟩) (.reg (spanOf 8 2)) 0, .mov h0 (.n ⟨254, 1, 3⟩) (.reg (spanOf 8 3)) 0,
  .mov h0 (.n ⟨4, 1, 3⟩) (.reg (spanOf 254 3)) 0, .mov h0 (.n ⟨4, 1, 3⟩) (.reg (spanOf 8 3)) 2, .mov h0 (.n ⟨4, 1, 3⟩) (.reg (v 1)) 0,
  .drop h0 0 (v 1) 0, .drop h0 1 (v 1) 1, .drop h0 1 (spanOf 250 9) 0, .drop h0 1 (.imm 1) 0, .drop h0 1 (nOf 3 false false .whole false .lo) 0,
  .keep h0 0 (v 1) 0, .keep h0 15 (v 1) 0, .live h0 .pack (dw 1 1), .live h0 (.plain (spanOf 1 1)) (dn 1 1)] = true := by decide +kernel
theorem test_ill_formed_integer : ill [
  .iadd h0 ⟨dn 1 1, .reg (vw 8) (v 1)⟩, .iadd h0 ⟨dw 1 1, .reg (vw 8) (v 1)⟩, .iadd h0 ⟨dn 1 1, .reg negated (v 1)⟩,
  .iadd h0 ⟨dn 1 1, .reg (v 1) (nOf 3 false true .whole false .whole)⟩, .iadd h0 ⟨dn 1 1, .reg (.sys 200) (v 1)⟩,
  .iadd h0 ⟨dn 1 1, .wide (.pred 1) (w32 .u32 0)⟩, .iadd h0 ⟨dn 1 1, .wide (.sys 13) (w32 .u32 0)⟩, .iadd h0 ⟨dn 1 1, .wide (.name 1) (w32 .literal 3)⟩,
  .imad h0 ⟨dw 1 1, v 1, vw 8, 9⟩, .imadw h0 true ⟨dn 1 1, v 1, v 2, 9⟩, .imadw h0 true ⟨dw 1 1, vw 8, v 2, 9⟩, .iabs h0 (dw 1 1) (v 1), .bfi h0 ⟨dn 1 1, v 1, vw 8, 3⟩,
  .icmp h0 ⟨1, false, true, .un, .reg (v 1) (v 2)⟩, .icmp h0 ⟨1, true, true, .eq, .reg (v 1) (v 2)⟩, .lea h0 2 true ⟨dn 1 1, .reg (v 1) (vw 8)⟩,
  .sadd h0 ⟨⟨1, false⟩, .reg (v 1) (s 1)⟩, .sadd h0 ⟨⟨1, true⟩, .reg (s 1) (sw 2)⟩, .sadd h0 ⟨⟨1, false⟩, .wide (.name 1) (w32 .u32 0)⟩,
  .smov h0 ⟨1, true⟩ (.reg (s 1)), .smov h0 ⟨1, true⟩ (.reg (v 1)), .smov h0 ⟨1, true⟩ (.wide (w32 .literal 1)), .scmp h0 ⟨1, false, true, .un, .reg (s 1) (s 2)⟩,
  .sbcast h0 ⟨1, true⟩ (v 1), .sbcast h0 ⟨1, false⟩ (s 1), .sget h0 ⟨1, false⟩ (.fmt 1), .sget h0 ⟨1, true⟩ (v 1), .sand h0 6 ⟨⟨1, false⟩, .reg (s 1) (s 2)⟩] = true := by
  decide +kernel
theorem test_ill_formed_float : ill [
  .fadd h0 .rne ⟨dw 1 1, .reg (v 1) (v 2)⟩, .fadd h0 .rne ⟨dn 1 1, .reg (v 1) halved⟩, .fadd h0 .rne ⟨dn 1 1, .reg (.sys 1) (v 2)⟩,
  .fadd h0 .rne ⟨dn 1 1, .wide (.name 1) (w32 .fmt 0)⟩, .fadd h0 .rne ⟨dn 1 1, .wide (.sys 1) (w32 .f32 0)⟩, .fadd h0 .rne ⟨dn 1 1, .wide (.pred 1) (w32 .f32 0)⟩,
  .ffma h0 .rne ⟨dn 1 1, v 1, vw 8, 3⟩, .ffma h0 .rne ⟨dw 1 1, v 1, v 2, 3⟩, .fcmp h0 ⟨1, .lt, .reg (v 1) (vw 8)⟩, .frnd h0 .rne (dw 1 1) (v 1), .fsqrt h0 .rne (dn 1 1) (vw 8),
  .dadd h0 .rne ⟨dn 1 1, .reg (vw 8) (vw 9)⟩, .dadd h0 .rne ⟨dw 1 1, .reg (v 1) (vw 9)⟩, .dfma h0 .rne ⟨dw 1 1, vw 8, v 1, 9⟩, .dcmp h0 ⟨1, .lt, .reg (v 1) (vw 8)⟩,
  .hadd2 h0 true .rne ⟨dw 1 1, .reg (v 1) (v 2)⟩, .hfma2 h0 true .rne ⟨dn 1 1, vw 8, v 2, 3⟩, .hmax2 h0 true true ⟨dn 1 1, .reg (v 1) (.sys 1)⟩,
  .cvt h0 false .rne 1 1 (dn 1 1) (v 1), .cvt h0 false .rne 13 1 (dn 1 1) (v 1), .cvt h0 false .rne 9 9 (dn 1 1) (v 1), .cvt h0 false .rne 11 9 (dw 1 1) (v 1),
  .cvt h0 true .rne 3 1 (dn 1 1) (v 1), .cvt h0 false .rne 0 1 (dn 1 1) (v 1), .cvt h0 false .rne 9 1 (dn 1 1) negated, .cvt h0 false .rne 1 11 (dn 1 1) (v 1),
  .cvtn h0 (dw 1 1) (v 1) 0 none, .cvtn h0 (dn 1 1) (vw 8) 0 none, .cvtw h0 (dn 1 1) negated 0 none, .cvtw h0 (dw 1 1) (v 1) 0 none, .scl h0 (dw 1 1) (.e8m0 (v 1) 0),
  .scl h0 (dn 1 1) (.exp .rne (v 1) (vw 8)), .scl h0 (dn 1 1) (.e8m0 (vw 8) 0), .scl h0 (dn 1 1) (.rebase negated (v 1) 0), .pk2 h0 .bits (dw 1 1) (v 1) (v 2),
  .pk2 h0 (.f16 .rne) (dn 1 1) halved (v 2), .unpk h0 0 (dn 1 1) (.imm 1), .unpk h0 0 (dn 1 1) (vw 8), .fcls h0 1 (dn 1 1) (v 1), .fcls h0 0 (dn 1 1) halved] = true := by
  decide +kernel
theorem test_ill_formed_cross : ill [
  .shfl h0 0 (dn 1 1) (s 1) (v 2), .shfl h0 0 (dw 1 1) (v 1) (v 2), .shfl h0 0 (dn 1 1) (v 1) (vw 8), .vote h0 3 (.p 1) (v 1), .vote h0 0 (.v (dn 1 1)) (v 1),
  .vote h0 0 (.p 1) (s 1), .ballot h0 (.v (dw 1 1)) (v 1), .ballot h0 (.s ⟨1, false⟩) (vw 8), .redux h0 11 (dn 1 1) (v 1), .redux h0 0 (dw 1 1) (v 1),
  .scan h0 11 true (dn 1 1) (v 1), .topk h0 1 ⟨4, 1, 2⟩ (.fresh (v 1) (v 2) 0), .topk h0 1 ⟨254, 1, 3⟩ (.fresh (v 1) (v 2) 0), .topk h0 1 ⟨4, 1, 3⟩ (.fresh (v 1) (v 2) 5),
  .topk h0 1 ⟨4, 1, 3⟩ (.fresh (v 1) negated 0), .topk h0 1 ⟨4, 1, 3⟩ (.ins ⟨8, 2⟩ (v 1) true 0), .topk h0 1 ⟨4, 1, 3⟩ (.ins ⟨254, 3⟩ (v 1) true 0)] = true := by
  decide +kernel
theorem test_ill_formed_memory : ill [
  .ld h0 ⟨7, .d, .none, dn 1 1, 0, v 1, 0⟩, .ld h0 ⟨6, .d, .none, dn 1 1, 0, v 1, 5⟩, .ld h0 ⟨4, .d, .none, dn 1 1, 0, v 1, 1⟩, .ld h0 ⟨4, .d, .rel, dn 1 1, 0, v 1, 0⟩,
  .ld h0 ⟨4, .t, .none, dn 1 1, 0, v 1, 0⟩, .ld h0 ⟨5, .d, .none, dn 1 1, 0, v 1, 0⟩, .ld h0 ⟨4, .d, .none, dn 1 1, 0, spanOf 1 2, 0⟩, .ld h0 ⟨4, .d, .none, dn 1 1, 0, negated, 0⟩,
  .lds h0 ⟨4, .d, .none, dn 1 1, 0, v 1, 0⟩, .ldp h0 ⟨4, .t, .acq, dn 1 1, 0, v 1, 0⟩, .st h0 { sz := 1, scope := .d, ord := .none, v := v 1, b := 0, idx := v 1, w := 0 },
  .st h0 { sz := 4, scope := .d, ord := .acq, v := v 1, b := 0, idx := v 1, w := 0 }, .st h0 { sz := 5, scope := .d, ord := .none, v := v 1, b := 0, idx := v 1, w := 0 },
  .sts h0 { sz := 4, scope := .s, ord := .none, v := v 1, b := 0, idx := v 1, w := 0 }, .stp h0 { sz := 4, scope := .t, ord := .rel, v := v 1, b := 0, idx := v 1, w := 0 },
  .sld h0 6 .d .none ⟨1, false⟩ 0 (s 1), .sld h0 4 .d .full ⟨1, false⟩ 0 (s 1), .sld h0 5 .d .none ⟨1, false⟩ 0 (s 1), .sld h0 4 .d .none ⟨1, false⟩ 0 (v 1),
  .ldc h0 6 (dn 1 1) 0 (v 1), .ldc h0 5 (dn 1 1) 0 (v 1), .ldc h0 4 (dn 1 1) 0 negated, .pref h0 0 (v 1) 1, .pref h0 0 (spanOf 1 2) 0, .bsub h0 true .rest 1 0 (v 1),
  .bget h0 4 (.v (dn 1 1)) 0, .fence h0 .d .none] = true := by decide +kernel
theorem test_ill_formed_atomic : ill [
  .atom h0 11 .d .none (dn 1 1) 0 (v 1) (v 2), .atom h0 0 .d .none (dw 1 1) 0 (v 1) (v 2), .atom h0 0 .d .none (dn 1 1) 0 negated (v 2), .acas h0 .d .none (dn 1 1) 0 (v 1) ⟨8, 2⟩,
  .acas h0 .d .none (dn 1 1) 0 (v 1) ⟨255, 1⟩, .afadd h0 3 .d .none (dn 1 1) 0 (v 1) (v 2), .afadd h0 1 .d .none (dw 1 1) 0 (v 1) (vw 8), .afadd h0 0 .d .none (dn 1 1) 0 (v 1) (vw 8),
  .red h0 8 .d .none 0 (v 1) (v 2), .red h0 12 .d .none 0 (v 1) (v 2), .red h0 0 .d .none 0 (v 1) negated, .red h0 11 .d .none 0 (v 1) (.sys 1), .binit h0 .d 0 (v 1) (v 2),
  .binit h0 .t 0 (v 1) (vw 8), .barv h0 .t (dw 1 1) 0 (v 1) (v 2), .barv h0 .s (dn 1 1) 0 (v 1) (v 2), .bexp h0 .d 0 (v 1) (v 2), .bwait h0 9 .t 0 (v 1) (v 2), .bwait h0 0 .d 0 (v 1) (v 2),
  .btry h0 .d 1 0 (v 1) (v 2), .btry h0 .t 1 0 (v 1) (vw 8), .bar h0 1 .t 0 (v 1) (v 2), .bar h0 0 .t 0 negated (v 2)] = true := by decide +kernel
theorem test_ill_formed_engine : ill [
  .mldw h0 none (.record 0 negated false 0) 0, .mldw h0 none (.record 0 (v 1) true 64) 0, .mldw h0 none (.span ⟨250, 9⟩ (.imm 1) 0) 0, .mldw h0 none (.span ⟨4, 9⟩ (.imm 1) 3) 0,
  .mldw h0 none (.span ⟨4, 9⟩ (.imm 0x10000) 0) 0, .mldw h0 none (.span ⟨4, 9⟩ (v 1) 0) 0, .mma h0 ⟨none, false, false, 0, ⟨4, 31⟩, 0, 4⟩, .mma h0 ⟨none, false, false, 0, ⟨250, 9⟩, 0, 4⟩,
  .mmar h0 ⟨none, false, false, 0, ⟨4, 9⟩, 0, 4⟩, .mfnc h0 none 1, .mfnc h0 (some (.bufr 1)) 1, .mfnc h0 (some (v 1)) 1, .mfnc h0 (some (.imm 1)) 0, .mrd h0 ⟨4, 1, 14⟩ 0 (.imm 0) 0,
  .mrd h0 ⟨250, 1, 15⟩ 0 (.imm 0) 0, .mrd h0 ⟨4, 1, 15⟩ 0 (v 1) 0, .mwr h0 none 0 ⟨4, 14⟩ 0, .mwr h0 none 0 ⟨4, 15⟩ 4, .mwr h0 none 0 ⟨4, 15⟩ 64, .mtag h0 none 0 (v 1) 0,
  .mtag h0 none 0 (v 1) 17, .mst h0 none 0 negated 0 0, .gset h0 0 (.tile 1), .cpyr h0 5 0 1 63, .cseq h0 true (.v (dw 1 1)), .cpyw h0 negated] = true := by decide +kernel
theorem test_ill_formed_system : ill [
  .rret h0 0 (vw 8), .rstat h0 6 (.v (dn 1 1)) 0, .sflush h0 (vw 8), .csr h0 (.v (dn 1 1)) (.direct 12), .csr h0 (.v (dn 1 1)) (.ind negated), .csw h0 16 (v 1), .csw h0 17 negated,
  .tret h0 3, .nsave h0 ⟨1, false⟩ 0 negated, .nload h0 0 negated 1, .tstamp h0 true false (.v (dn 1 1)), .cntr h0 (.one 3 (.v (dw 1 1))) (v 1), .cntr h0 (.one 0 (.v (dn 1 1))) (v 1),
  .cntr h0 (.one 0 (.v (dw 1 1))) negated, .cntr h0 (.all ⟨4, 1, 3⟩ 0) (v 1), .probe h0 (.v (dn 1 1)) (v 1), .probe h0 (.v (dw 1 1)) negated, .mark h0 0x10000, .hnear h0 3 0 (v 1), .hnear h0 0 0 negated, .hnear h0 0 0 (vw 8), .hest h0 (dw 1 1),
  .unimplementedHint h0 ⟨14, 0, 0, 0xE0000, 0xE0000, 0xE0000, 0⟩, .unimplementedHint h0 ⟨0, 0, 0, 0xE0000, 26 * 16384, 0, 0⟩,
  .unimplementedHint h0 ⟨1, 0, 0, 32, 0xE0000, 0xE0000, 0⟩] = true := by decide +kernel

/-! ### Quantifiers over what a machine holds -/

theorem of_some {α : Type} {o : Option α} {P : α → Prop} [DecidablePred P] (h : o.all (fun x => decide (P x)) = true) : ∀ x, o = some x → P x :=
  fun x hx => by subst hx; simpa using h
theorem of_mask {n : Nat} {m : BitVec n} {P : Nat → Prop} (h : ∀ t, t < n → m.getLsbD t = true → P t) : ∀ t, m.getLsbD t = true → P t :=
  fun t ht => h t (by
    by_contra hge
    rw [BitVec.getLsbD_of_ge _ _ (by omega)] at ht
    cases ht) ht
theorem of_index {α : Type} {l : List α} {P : Nat → α → Prop} (h : ∀ j, j < l.length → ∀ x ∈ l[j]?, P j x) : ∀ j x, l[j]? = some x → P j x :=
  fun j x hx => h j (List.getElem?_eq_some_iff.mp hx).1 x hx
/-- What an operation that succeeds gives. -/
def okIn {α β ε : Type} (r : α × Except ε β) (h : r.2.isOk = true) : β := match r.2, h with | .ok x, _ => x
theorem okIn_eq {α β ε : Type} {r : α × Except ε β} (h : r.2.isOk = true) : r = (r.1, .ok (okIn r h)) := by
  obtain ⟨a, x⟩ := r
  cases x with
  | ok x => rfl
  | error e => cases h
/-- The machine of `world` before its bundle started; the threads' first fetch is yet to come, or is past. -/
def unstarted : State := { State.reset.withFetchWord 96 0x0000000E0000E0000E000000 with agenda := [] }
def unbooted : State := { unstarted with dev := unstarted.dev.modPack 0 0 0 packOf }
/-- The device as a bundle start finds it, and what it starts. -/
def sweeping (s : State) : Device :=
  s.start.modCore 0 fun x => { x with teams := x.teams.map fun y => (y.1, ({ y.2 with packs := y.2.packs.map (Pack.release · s.start.now) }).sweep s.start.now) }
abbrev startIn (s : State) (h : ((sweeping s).choosePack s.mem 0 0).isSome = true) := ((sweeping s).choosePack s.mem 0 0).get h
abbrev Start := Nat × Nat × Pack × W64 × Mask × Nat × W64 × Bool
def fetching (s : State) (c : Start) : Device :=
  (sweeping s).modPack 0 c.1 c.2.1 fun p =>
    { (if c.2.2.1.hold.isSome then p.rouse else p) with fair := c.2.2.2.2.2.1, cursor := c.2.2.2.2.2.2.1, rotated := c.2.2.2.2.2.2.2 }
/-- What the premises of a bundle start say of a state, what it starts and the line it fetches. -/
def Starts (s : State) (c : Start) : Prop :=
  s.start.cur = none ∧ aget (s.start.core 0).quadStart 0 ≠ some s.start.now ∧ (sweeping s).choosePack s.mem 0 0 = some c ∧
    (∃ t, (sweeping s).team 0 c.1 = some t ∧ t.part = 0) ∧
    ∃ d1 bs hd, (fetching s c).fetch s.mem 0 0 c.2.2.2.1 = (d1, .ok (bs, hd)) ∧ (∃ i, decodeBytes bs = .ok i) ∧
      ∀ k x, c.2.2.2.2.1.getLsbD k = true → c.2.2.1.thread k = some x → x.start = true → slotOf c.2.2.2.1 = 0 ∧ headerTarget hd 0 = true
theorem starts_of {s : State} {c : Start} (hc : s.start.cur = none ∧ aget (s.start.core 0).quadStart 0 ≠ some s.start.now)
    (hs : (sweeping s).choosePack s.mem 0 0 = some c) (ht : ((sweeping s).team 0 c.1).any (·.part = 0) = true)
    (hf : (match (fetching s c).fetch s.mem 0 0 c.2.2.2.1 with
      | (_, .ok (bs, hd)) => (decodeBytes bs).isOk && ((slotOf c.2.2.2.1 == 0 && headerTarget hd 0) || c.2.2.1.threads.all (!·.start))
      | _ => false) = true) : Starts s c := by
  refine ⟨hc.1, hc.2, hs, ?_, ?_⟩
  · cases h : (sweeping s).team 0 c.1 with
    | none => rw [h] at ht; cases ht
    | some t => rw [h] at ht; exact ⟨t, rfl, by simpa using ht⟩
  · split at hf
    · rename_i d bs hd he
      simp only [Bool.and_eq_true, Bool.or_eq_true, beq_iff_eq, List.all_eq_true, Bool.not_eq_true'] at hf
      refine ⟨d, bs, hd, he, ?_, fun k x _ hx h => hf.2.elim id fun g => ?_⟩
      · revert hf; cases decodeBytes bs <;> simp [Except.isOk, Except.toBool]
      · rw [g x (List.mem_of_getElem? hx)] at h; cases h
    · cases hf
theorem witness_bundleStart : Starts unbooted (startIn unbooted (by decide +kernel)) :=
  starts_of (by decide +kernel) (Option.some_get _).symm (by decide +kernel) (by decide +kernel)
/-- The first fetch of a pack, whose TARGET bit is tested (R125). -/
theorem witness_bundleStartFirst : Starts unstarted (startIn unstarted (by decide +kernel)) ∧
    (startIn unstarted (by decide +kernel)).2.2.1.threads.all (·.start) = true :=
  ⟨starts_of (by decide +kernel) (Option.some_get _).symm (by decide +kernel) (by decide +kernel), by decide +kernel⟩

/-- The machine of `world` with no bundle executing. -/
def idle : State := { world with dev := { world.dev with cur := none } }
/-- Col 8, where the front end of partition 0 stands, TRUSTED. -/
def served (d : Device) : Device := { d with dies := lmod d.dies 8 fun x => { x with state := .trusted } }
/-- `idle` with its team, its pack, its thread 1 or its device changed. -/
def devd (f : Device → Device) : State := { idle with dev := f idle.dev }
def teamed (f : Team → Team) : State := devd fun d => d.modTeam 0 0 f
def packed (f : Pack → Pack) : State := devd fun d => d.modPack 0 0 0 f
def threaded (f : Thread → Thread) : State := devd fun d => d.modThread ⟨0, 0, 0, 1⟩ f
abbrev teamIn (s : State) (h : (s.start.team 0 0).isSome = true) : Team := (s.start.team 0 0).get h
abbrev packIn (s : State) (h : (s.start.pack 0 0 0).isSome = true) : Pack := (s.start.pack 0 0 0).get h
abbrev threadIn (s : State) (h : (s.start.thread ⟨0, 0, 0, 1⟩).isSome = true) : Thread := (s.start.thread ⟨0, 0, 0, 1⟩).get h

def joining : State := packed fun p => { p with stack := [⟨5, BitVec.allOnes 32, BitVec.allOnes 32, 0⟩, ⟨9, BitVec.allOnes 32, 1, 0⟩] }
theorem witness_joinRelease : ∃ pk e es, joining.start.pack 0 0 0 = some pk ∧ pk.stack = e :: es ∧ e.due ≤ joining.start.now ∧
    e.members ≠ 0 ∧ e.members &&& ~~~e.arrived = 0 ∧ ∀ x ∈ es, joining.start.now < x.due ∨ x.members ≠ 0 ∧ x.members &&& ~~~x.arrived ≠ 0 :=
  ⟨packIn joining (by decide +kernel), ⟨5, BitVec.allOnes 32, BitVec.allOnes 32, 0⟩, [⟨9, BitVec.allOnes 32, 1, 0⟩], by decide +kernel⟩
def flying : State := packed fun p => { p with flights := [⟨3, 3, .row 1, some 1, 3, some 0, false, [(0, 5), (1, 6)], []⟩, ⟨4, 3, .pred 2, none, 3, some 0, false, [(0, 1), (1, 0)], []⟩,
  ⟨5, 5, .pred 3, none, 3, some 0, false, [(0, 1)], []⟩] }
/-- Flights 3 and 4 have a value for each of their threads, flight 5 has none for thread 1. -/
theorem witness_pendingValueArrive : ∃ pk f h, flying.start.pack 0 0 0 = some pk ∧
    pk.flights.find? (fun g => g.id == 3 && g.ready.any (· ≤ flying.start.now)) = some f ∧
    (∀ g ∈ pk.flights, g.group = f.group → ∀ t, g.mask.getLsbD t = true → ∃ v ∈ g.vals, v.1 = t) ∧
    pk.flights.find? (fun g => g.id == 5 && g.ready.any (· ≤ flying.start.now)) = some h ∧
    ∃ g ∈ pk.flights, g.group = h.group ∧ ∃ t, g.mask.getLsbD t = true ∧ ∀ v ∈ g.vals, v.1 ≠ t :=
  ⟨packIn flying (by decide +kernel), ⟨3, 3, .row 1, some 1, 3, some 0, false, [(0, 5), (1, 6)], []⟩, ⟨5, 5, .pred 3, none, 3, some 0, false, [(0, 1)], []⟩,
   by decide +kernel, by decide +kernel,
   fun g hg hk => of_mask ((by decide +kernel : ∀ g ∈ (packIn flying _).flights, g.group = 3 → ∀ t, t < 32 → g.mask.getLsbD t = true → ∃ v ∈ g.vals, v.1 = t) g hg hk),
   by decide +kernel, ⟨5, 5, .pred 3, none, 3, some 0, false, [(0, 1)], []⟩, by decide +kernel, rfl, 1, by decide +kernel⟩
def dying : State := packed fun p => { p with rows := p.rows.map fun r => if r.id = 2 then { r with count := List.replicate 32 0 } else r }
theorem witness_rowFree : ∃ pk, dying.start.pack 0 0 0 = some pk ∧ (∀ y ∈ pk.rows, y.id = 2 → y.live = false ∧ y.held = 0 ∧ y.busy ≤ dying.start.now ∧ y.spent ≤ dying.start.now ∧ y.evicted = false) ∧
    ∃ y ∈ pk.rows, y.id = 2 :=
  ⟨packIn dying (by decide +kernel), by decide +kernel⟩
def blockedAt (n : Nat) : State := packed fun p => { p with hold := some ⟨.allocation n, BitVec.allOnes 32, 0⟩ }
theorem witness_rowsGranted : ∃ t p, (blockedAt 104).start.team 0 0 = some t ∧ t.packs[0]? = some p ∧ p.blocked = true ∧ p.need - p.granted ≤ t.quota - t.inUse ∧
    ∀ j r, t.packs[j]? = some r → r.blocked = true → j = 0 :=
  ⟨teamIn (blockedAt 104) (by decide +kernel), packIn (blockedAt 104) (by decide +kernel), by decide +kernel, by decide +kernel, by decide +kernel,
   by decide +kernel, of_index (P := fun j (r : Pack) => r.blocked = true → j = 0) (by decide +kernel)⟩
/-- Two packs: the elder waits for more rows than the quota has, the younger has no thread ready. -/
def deadlocked : State :=
  teamed fun t => { t with packs := t.packs.flatMap fun p =>
    [{ p with hold := some ⟨.allocation 200, BitVec.allOnes 32, 0⟩ }, { p with stamp := 1, threads := p.threads.map fun x => { x with status := .atJoin } }] }
/-- The same, with a round of evictions for the elder in progress. -/
def deadlockedOn : State := { deadlocked with dev := deadlocked.dev.modTeam 0 0 fun t => { t with round := some 0 } }
theorem witness_allocationDeadlock :
    (∃ t e v, deadlocked.start.team 0 0 = some t ∧ t.evict = none ∧ t.victim deadlocked.start.now e = some v ∧ t.round = none ∧ t.deadlocked deadlocked.start.now = true ∧
      t.elder = some e) ∧
    ∃ t e v, deadlockedOn.start.team 0 0 = some t ∧ t.evict = none ∧ t.victim deadlockedOn.start.now e = some v ∧ t.round = some e ∧ e ∈ t.blockedPacks :=
  ⟨⟨teamIn deadlocked (by decide +kernel), 0, ⟨0, 1, 31, false, none⟩, by decide +kernel⟩,
   teamIn deadlockedOn (by decide +kernel), 0, ⟨0, 1, 31, false, none⟩, by decide +kernel⟩
def evicting : State := { deadlocked with dev := deadlocked.dev.modTeam 0 0 fun t => { t with evict := some ⟨0, 1, 9, true, none⟩ } }
def evictedPack : Pack := (evicting.start.pack 0 0 1).get (by decide +kernel)
def evictedRow : Row := (evictedPack.row 9).get (by decide +kernel)
theorem witness_rowEvict : ∃ t ps d1, evicting.start.team 0 0 = some t ∧ t.evict = some ⟨0, 1, 9, true, none⟩ ∧ t.packs[1]? = some evictedPack ∧
    evictedPack.row 9 = some evictedRow ∧ evictedPack.evictable evicting.start.now evictedRow = true ∧ evictedRow.bad = 0 ∧
    evicting.start.placeBlock evicting.mem 0 t.part (evicting.start.spillEntry t 1 evictedPack.spilled) 256 1 = (d1, .ok ps) ∧
    ∀ y ∈ ps, d1.joined 0 y.place = true :=
  ⟨teamIn evicting (by decide +kernel), _, _, by decide +kernel, by decide +kernel, by decide +kernel, by decide +kernel, by decide +kernel, by decide +kernel,
   okIn_eq (by decide +kernel), by decide +kernel⟩
def restoring : State := packed fun p => { p with granted := 1, rows := p.rows.map fun r => if r.id = 9 then { r with evHi := some 0 } else r }
theorem witness_rowRestore : ∃ t pk ps d1, restoring.start.team 0 0 = some t ∧ restoring.start.pack 0 0 0 = some pk ∧ pk.lastEvicted = some (9, true, 0) ∧
    pk.granted ≠ 0 ∧ pk.restorePage = none ∧ restoring.start.placeBlock restoring.mem 0 t.part (restoring.start.spillEntry t 0 0) 256 0 = (d1, .ok ps) ∧
    ∀ y ∈ ps, d1.joined 0 y.place = true :=
  ⟨teamIn restoring (by decide +kernel), packIn restoring (by decide +kernel), _, _, by decide +kernel, by decide +kernel, by decide +kernel,
   by decide +kernel, by decide +kernel, okIn_eq (by decide +kernel), by decide +kernel⟩

/-! ### One step of `world`; the expected values are worked out by hand from the rules cited -/

def packAfter (i : Instr) : Option Pack := match exec i world with | .next t => t.dev.pack 0 0 0 | _ => none
/-- The value and the count of a 32-bit name in thread t after the step. -/
def nameAfter (i : Instr) (n t : Nat) : Option (Nat × Nat) := (packAfter i).map fun p => (p.value n t false .whole, p.count n t)
/-- A short immediate of −7 added to 3 wraps at 32 bits (R108, R151); the destination has its declared count (R59). -/
theorem test_iadd_wraps : nameAfter (.iadd h0 ⟨dn 5 2, .reg (v 1) (.imm 131065)⟩) 5 3 = some (0xFFFFFFFC, 2) := by decide +kernel
/-- The upper half of 3 × −7 is all ones (R151). -/
theorem test_imulh_signed : nameAfter (.imulh h0 true ⟨dn 5 1, .reg (v 1) (.imm 131065)⟩) 5 3 = some (0xFFFFFFFF, 1) := by decide +kernel
/-- −7 shifted right by one keeps its sign: −4 (R151). -/
theorem test_sar : nameAfter (.sar h0 ⟨dn 5 1, .reg (.imm 131065) (v 2)⟩) 5 0 = some (0xFFFFFFFC, 1) := by decide +kernel
/-- A shift by 40 of 32 bits leaves nothing (R151). -/
theorem test_shl_past_width : nameAfter (.shl h0 ⟨dn 5 1, .reg (v 2) (.imm 40)⟩) 5 0 = some (0, 1) := by decide +kernel
/-- The unsigned integer 3 as FP32 is 0x40400000 (R162). -/
theorem test_cvt_u32_f32 : nameAfter (.cvt h0 false .rne 1 9 (dn 5 1) (v 1)) 5 3 = some (0x40400000, 1) := by decide +kernel
/-- 0 + 1.5 is 1.5 (R158). -/
theorem test_fadd : nameAfter (.fadd h0 .rne ⟨dn 5 1, .wide (.name 4) ⟨.f32, 0, 0x3FC00000⟩⟩) 5 0 = some (0x3FC00000, 1) := by decide +kernel
/-- 31 < −7 is false of signed integers and true of unsigned ones (R153). -/
theorem test_icmp_sign : (packAfter (.icmp h0 ⟨3, false, true, .lt, .reg (v 1) (.imm 131065)⟩)).map (·.pred 31 3) = some false ∧
    (packAfter (.icmp h0 ⟨3, false, false, .lt, .reg (v 1) (.imm 131065)⟩)).map (·.pred 31 3) = some true := by decide +kernel
/-- A guard that only the odd threads pass: an even thread keeps its name unbound and goes on (R56, R60). -/
theorem test_guard : nameAfter (.iadd h1 ⟨dn 5 1, .reg (v 1) (v 2)⟩) 5 2 = some (0, 0) ∧ nameAfter (.iadd h1 ⟨dn 5 1, .reg (v 1) (v 2)⟩) 5 3 = some (4, 1) := by
  decide +kernel
/-- `trap 5`: SOFTWARE_TRAP and its number in `sys.fault`, the PC at the handler (R138, R286, R315). -/
theorem test_trap : ((packAfter (.trap h0 5)).bind (·.thread 7)).map (fun x => (x.handler, x.fault.toNat, x.fpc.toNat, x.pc.toNat)) =
    some (.fault, 0x16 + 5 * 65536, 0, 0x10) := by decide +kernel
/-- `exit` of every thread retires the pack (R47, R135). -/
theorem test_exit : (packAfter (.exit h0)).map (·.retired) = some true := by decide +kernel
/-- `shfl` from thread t + 1: the value is pending, not yet in the name (R45, R167). -/
theorem test_shfl_pending : (packAfter (.shfl h0 1 (dn 5 1) (v 1) (.imm 1))).map (fun p => (p.flights.flatMap (·.vals)).take 2) = some [(0, 1), (1, 2)] := by
  decide +kernel

def t1 : ThreadId := ⟨0, 0, 0, 1⟩
/-- Thread 1 with one entry in its queue, at 4 bytes of the homed tier or of its team's scratchpad. -/
def entryAt (k : EntryKind) (scratch : Bool) (n rank : Nat) : Entry :=
  { po := 7, kind := k, rank := rank, bound := none, va := 64,
    place := { space := if scratch then .scratch 1 0 else .phys, addrs := (List.range n).map ((if scratch then 64 else 0x6000000040) + ·), key := 1, home := 0 } }
def queued (e : Entry) : State := threaded fun x => { x with po := 8, queue := [e] }
abbrev leftOf (s : State) : Device := s.start.modThread t1 fun y => { y with queue := y.queue.filter fun o => o.po != 7 }

def stored : Entry := entryAt (.store [(1, 0xFF), (2, 0x0F), (3, 0), (4, 0xFF)]) false 4 2
theorem witness_storeLeave : ∃ x, (queued stored).start.thread t1 = some x ∧ x.entry 7 = some stored ∧ (queued stored).start.leaves t1 x stored = true ∧
    (leftOf (queued stored)).met stored.place false = none ∧ (leftOf (queued stored)).isBad 0x6000000040 4 = false ∧
    (leftOf (queued stored)).metImage stored.place true ≠ some .memoryUncorrectable :=
  ⟨threadIn (queued stored) (by decide +kernel), by decide +kernel⟩
/-- The home ridge of the store has been quarantined since it was issued. -/
def cutOff : State :=
  { queued stored with dev := { (queued stored).dev with dies := lmod (queued stored).dev.dies 0 fun x => { x with state := .quarantined } } }
theorem witness_storeLeaveMet : ∃ x, cutOff.start.thread t1 = some x ∧ x.entry 7 = some stored ∧ cutOff.start.leaves t1 x stored = true ∧
    (leftOf cutOff).met stored.place false = some .dieQuarantined :=
  ⟨threadIn cutOff (by decide +kernel), by decide +kernel⟩
def atomicE : Entry := entryAt (.atomic 0 32 5 0 3 0 0 0) true 4 0
def flight3 : Flight := ⟨3, 3, .row 1, some 1, 2, some 0, false, [], []⟩
def atomicS : State := { queued atomicE with dev := (queued atomicE).dev.modPack 0 0 0 fun p => { p with flights := [flight3] } }
theorem witness_atomicLeave : ∃ x, atomicS.start.thread t1 = some x ∧ x.entry 7 = some atomicE ∧ atomicS.start.leaves t1 x atomicE = true ∧
    (leftOf atomicS).met atomicE.place true = none :=
  ⟨threadIn atomicS (by decide +kernel), by decide +kernel⟩
def reduceE : Entry := entryAt (.reduce 0 32 5) true 4 1
theorem witness_reduceLeave : ∃ x, (queued reduceE).start.thread t1 = some x ∧ x.entry 7 = some reduceE ∧ (queued reduceE).start.leaves t1 x reduceE = true :=
  ⟨threadIn (queued reduceE) (by decide +kernel), by decide +kernel⟩
def objectAt : ObjAt := ⟨.scratch 1 0, (List.range 16).map (64 + ·)⟩
def arriveE : Entry := entryAt (.arrive (some objectAt) 2 (some 3) none 0 0 1) true 16 0
def arriveS : State :=
  { queued arriveE with
    dev := (((queued arriveE).dev.modTeam 0 0 fun t => { t with scratch := t.scratch.setBytes 64 (objBytes 4 2 1 0 0) }).modPack 0 0 0 fun p =>
      { p with flights := [flight3] }) }
theorem witness_arriveLeave : ∃ x, arriveS.start.thread t1 = some x ∧ x.entry 7 = some arriveE ∧ arriveS.start.leaves t1 x arriveE = true ∧
    (leftOf arriveS).met arriveE.place true = none ∧
    (let w := objWords ((leftOf arriveS).cells arriveS.mem arriveE.place)
     (2 : W32).toNat = w.2.1 ∧ w.2.2.1 ≠ w.2.1) :=
  ⟨threadIn arriveS (by decide +kernel), by decide +kernel⟩
def stepE (init : Bool) : Entry := entryAt (.barrierStep objectAt init 9 2) true 16 0
theorem witness_barrierStepLeave : ∀ init, ∃ x, (queued (stepE init)).start.thread t1 = some x ∧ x.entry 7 = some (stepE init) ∧
    (queued (stepE init)).start.leaves t1 x (stepE init) = true ∧ (leftOf (queued (stepE init))).met (stepE init).place (!init) = none
  | true => ⟨threadIn (queued (stepE true)) (by decide +kernel), by decide +kernel⟩
  | false => ⟨threadIn (queued (stepE false)) (by decide +kernel), by decide +kernel⟩
def markE : Entry := { entryAt (.release 2 false) true 0 2 with place := .none }
theorem witness_markerRetire : ∃ x, (queued markE).start.thread t1 = some x ∧ x.entry 7 = some markE ∧ (queued markE).start.retires t1 x markE = true :=
  ⟨threadIn (queued markE) (by decide +kernel), by decide +kernel⟩
def loadE : Entry := entryAt (.load 3 0 4 2 0) false 4 2
def loadS : State := { queued loadE with dev := (queued loadE).dev.modPack 0 0 0 fun p => { p with flights := [flight3] } }
theorem witness_loadPerform : ∃ x p f, loadS.start.thread t1 = some x ∧ x.entry 7 = some loadE ∧ loadS.start.mayLoad t1 x loadE = true ∧
    loadS.start.met loadE.place true = none ∧ loadE.place.addrs.length = 4 ∧ (∀ o ∈ x.queue, o.po ≠ 7 → ∀ a b c g, o.kind ≠ .load 3 a b c g) ∧
    loadS.start.pack 0 0 0 = some p ∧ p.flights.find? (fun g => g.id == 3 && g.mask.getLsbD 1) = some f ∧ ∀ y ∈ f.parts, y.1 ≠ 1 :=
  ⟨threadIn loadS (by decide +kernel), packIn loadS (by decide +kernel), flight3, by decide +kernel, by decide +kernel, by decide +kernel,
   by decide +kernel, by decide +kernel, fun o ho hp => absurd ((by decide +kernel : ∀ o ∈ (threadIn loadS _).queue, o.po = 7) o ho) hp,
   by decide +kernel, by decide +kernel, by decide +kernel⟩
def pooled : State := devd fun d => { d with pool := [⟨[(t1, 7, 2)], stored.place, 64, 0, 32, 5⟩, ⟨[(t1, 8, 2)], stored.place, 64, 0, 32, 6⟩] }
theorem witness_reductionCombine : ∃ x y, pooled.start.pool[0]? = some x ∧ pooled.start.pool[1]? = some y ∧ (0 : Nat) ≠ 1 ∧ x.place.space = y.place.space ∧
    x.place.addrs = y.place.addrs ∧ x.place.site = y.place.site ∧ x.op = y.op ∧ x.width = y.width ∧ x.op ≠ 9 ∧ x.op ≠ 10 :=
  ⟨⟨[(t1, 7, 2)], stored.place, 64, 0, 32, 5⟩, ⟨[(t1, 8, 2)], stored.place, 64, 0, 32, 6⟩, by decide +kernel⟩
theorem witness_reductionApply : ∃ x, pooled.start.pool[1]? = some x ∧ { pooled.start with pool := pooled.start.pool.eraseIdx 1 }.met x.place true = none :=
  ⟨⟨[(t1, 8, 2)], stored.place, 64, 0, 32, 6⟩, by decide +kernel⟩
def waitingFor (w : Wait) : State := threaded fun x => { x with status := .atBarrier w }
def dropping : State := waitingFor (.icinv 4 (some (0, 128)))
theorem witness_icinvDrop : ∃ t pk, dropping.start.team 0 0 = some t ∧ dropping.start.pack 0 0 0 = some pk ∧
    (∀ x ∈ pk.icinvs, ∀ y, pk.thread x.2.2 = some y → y.releasing = false) ∧ pk.icinvs ≠ [] :=
  ⟨teamIn dropping (by decide +kernel), packIn dropping (by decide +kernel), by decide +kernel, by decide +kernel,
   fun x hx => of_some (P := fun (y : Thread) => y.releasing = false)
     ((by decide +kernel : ∀ x ∈ (packIn dropping _).icinvs,
        ((packIn dropping _).thread x.2.2).all (fun y => decide (y.releasing = false)) = true) x hx),
   by decide +kernel⟩

/-! ### Ends of waits -/

def phasing (limit : Nat) : State :=
  let s := waitingFor (.phase (some objectAt) 1 (some limit) [] 0)
  { s with dev := s.dev.modTeam 0 0 fun t => { t with scratch := t.scratch.setBytes 64 (objBytes 4 2 1 0 0) } }
theorem witness_barrierWake : ∃ x t, (phasing 9).start.thread t1 = some x ∧ (phasing 9).start.team 0 0 = some t ∧
    (phasing 9).start.waitOf t1 = some (.phase (some objectAt) 1 (some 9) [] 0) ∧ (phasing 9).start.phaseOf (phasing 9).mem (some objectAt) ≠ (1 : W32).toNat ∧
    (phasing 9).start.now < 9 :=
  ⟨threadIn (phasing 9) (by decide +kernel), teamIn (phasing 9) (by decide +kernel), by decide +kernel⟩
def late : State := waitingFor (.arrival (some 0) [] 0)
theorem witness_barrierTimeout : ∃ x t g, late.start.thread t1 = some x ∧ late.start.team 0 0 = some t ∧ late.start.waitOf t1 = some (.arrival (some 0) [] 0) ∧
    0 ≤ late.start.now ∧ late.start.grid t.grid = some g ∧ g.terminated = false ∧ lrHpc g.record ≠ 0 ∧ x.handler = .off :=
  ⟨threadIn late (by decide +kernel), teamIn late (by decide +kernel), (late.start.grid 1).get (by decide +kernel), by decide +kernel⟩
theorem witness_barrierTimeoutPhase : (phasing 0).start.waitOf t1 = some (.phase (some objectAt) 1 (some 0) [] 0) ∧ 0 ≤ (phasing 0).start.now := by decide +kernel
theorem witness_sleepWake : (waitingFor (.sleep 0)).start.waitOf t1 = some (.sleep 0) ∧ 0 ≤ (waitingFor (.sleep 0)).start.now := by decide +kernel
theorem witness_cwaitWake : ∃ t, (waitingFor (.cwait 0)).start.team 0 0 = some t ∧ (waitingFor (.cwait 0)).start.waitOf t1 = some (.cwait 0) ∧
    (t.cmp - 0).toNat < 2 ^ 31 :=
  ⟨teamIn (waitingFor (.cwait 0)) (by decide +kernel), by decide +kernel⟩
theorem witness_mwaitWake : ∀ w ∈ [Wait.mwait [5], .mwaitTile [5] 2 9], ∃ t, (waitingFor w).start.team 0 0 = some t ∧ (waitingFor w).start.waitOf t1 = some w ∧
    (∀ e ∈ ((waitingFor w).start.core 0).engines, ∀ c ∈ e.queue, c.id ∉ [5]) ∧ t.closing 2 (some 9) = false := by
  intro w hw
  simp only [List.mem_cons, List.mem_nil_iff, or_false] at hw
  rcases hw with rfl | rfl
  · exact ⟨teamIn (waitingFor (.mwait [5])) (by decide +kernel), by decide +kernel⟩
  · exact ⟨teamIn (waitingFor (.mwaitTile [5] 2 9)) (by decide +kernel), by decide +kernel⟩
theorem witness_cpywWake : ∃ t, (waitingFor (.cpyw 0)).start.team 0 0 = some t ∧ (waitingFor (.cpyw 0)).start.waitOf t1 = some (.cpyw 0) ∧
    (t.doneSeq - 0).toNat < 2 ^ 31 :=
  ⟨teamIn (waitingFor (.cpyw 0)) (by decide +kernel), by decide +kernel⟩
def reassembled : State :=
  let s := waitingFor (.rwait 2 0)
  { s with dev := s.dev.modEntry 0 2 fun e => { e with state := .complete } }
theorem witness_rwaitWake : reassembled.start.waitOf t1 = some (.rwait 2 0) ∧ (reassembled.start.entry (2 / 32) (2 % 32)).gen = 0 ∧
    (reassembled.start.entry (2 / 32) (2 % 32)).state = .complete := by decide +kernel
theorem witness_spawnHoldRelease : ∃ t, (waitingFor .spawnHold).start.team 0 0 = some t ∧ (waitingFor .spawnHold).start.waitOf t1 = some .spawnHold ∧
    t.children < 2 ^ 31 - 1 :=
  ⟨teamIn (waitingFor .spawnHold) (by decide +kernel), by decide +kernel⟩
def stamping : State := waitingFor (.tstamp false 3 true)
theorem witness_tstampFenceSample : ∃ x, stamping.start.thread t1 = some x ∧ stamping.start.waitNow t1 = some (.tstamp false 3 true) ∧
    ∀ e ∈ x.queue, ∀ sc, e.kind ≠ .full sc true :=
  ⟨threadIn stamping (by decide +kernel), by decide +kernel, by decide +kernel,
   fun e he => absurd he ((by decide +kernel : ∀ e, e ∉ (threadIn stamping _).queue) e)⟩

/-! ### Pages and pending faults -/

theorem core_all {d : Device} {P : Core → Prop} (h0 : P (Core.fresh 0)) (h : ∀ x ∈ d.cores, P x.2) (c : Nat) : P (d.core c) := by
  unfold Device.core
  generalize d.cores = l at h
  induction l with
  | nil => exact h0
  | cons a l ih =>
    simp only [aget]
    split
    · exact h a (by simp)
    · exact ih fun x hx => h x (by simp [hx])
theorem entry_all {d : Device} {P : REntry → Prop} (h0 : P REntry.fresh) (h : ∀ x ∈ d.cores, ∀ e ∈ x.2.entries, P e) (c i : Nat) : P (d.entry c i) := by
  refine core_all (P := fun c => P (nth c.entries i REntry.fresh)) ?_ (fun x hx => ?_) c
  all_goals
    unfold nth
    rw [List.getD_eq_getElem?_getD]
  · cases hy : (Core.fresh 0).entries[i]? with
    | none => exact h0
    | some y => exact (List.eq_of_mem_replicate (List.mem_of_getElem? hy) : y = REntry.fresh) ▸ h0
  · cases hy : x.2.entries[i]? with
    | none => exact h0
    | some y => exact h x hx y (List.mem_of_getElem? hy)

def parkedAt (page kind : Nat) (walk : Bool) : State := threaded fun x => { x with status := .parked page kind walk }
theorem witness_tlbMissWalk : (parkedAt 64 0 true).start.walkers 0 0 64 0 ≠ [] ∧ (0 : Nat) < 16 ∧ ∃ d1 r, (parkedAt 64 0 true).start.translate (parkedAt 64 0 true).mem 0 0 64 0 = (d1, r) ∧ r ≠ .miss :=
  ⟨by decide +kernel, by decide, _, _, Prod.mk.eta.symm, by decide +kernel⟩
/-- The partition's routine is at offset 16 of its store: a jump to itself (`jal x0, 0`). -/
def stopping : State :=
  { parkedAt 65536 0 true with
    dev := ((parkedAt 65536 0 true).dev.modRidge 0 fun r => { r with store := [(16, 0x6F), (17, 0), (18, 0), (19, 0)] }).modPart 0 fun q => { q with reg := 16 } }
theorem spins {m : Memory} {d : Device} (h : rvFetch (leNat ((List.range 4).map fun i => (d.ridge 0).storeByte ((16 + i) % 65536))) = some (.jal 0 0, 4)) :
    ∀ (n : Nat) (r : Rv), r.pc = 16 → Device.runWalker m 0 n d r = (d, .stopped)
  | 0, _, _ => rfl
  | n + 1, r, hr => by
    unfold Device.runWalker
    rw [hr, show (16 : W32).toNat = 16 from rfl, h]
    exact spins h n _ (by simp [hr])
abbrev walkingD : Device := { stopping.start with draws := stopping.start.draws + 1 }
theorem witness_walkStopped : ∃ d1 x, fld (stopping.start.part 0).reg 63 0 ≠ 0 ∧ stopping.start.walkers 0 0 65536 0 ≠ [] ∧
    Device.runWalker stopping.mem 0 65536 walkingD (stopping.start.walkEntry 0 65536 0) = (d1, .stopped) ∧ d1.walkers 0 0 65536 0 = t1 :: [] ∧
    d1.thread t1 = some x :=
  ⟨walkingD, (walkingD.thread t1).get (by decide +kernel), by decide +kernel, by decide +kernel, spins (by decide +kernel) _ _ rfl, by decide +kernel,
   (Option.some_get _).symm⟩
def resolving : State :=
  { parkedAt 65536 0 false with dev := (parkedAt 65536 0 false).dev.modPart 0 fun q => { q with parks := [⟨0, 65536⟩] } }
theorem witness_resolve :
    (∀ x ∈ resolving.start.allCmds 0, ∀ p k, x.2.parked = some (p, k) → p ≠ 65536) ∧
    (∀ x ∈ resolving.start.teams, (∀ e, x.2.2.evict = some e → e.page ≠ some 65536) ∧ ∀ p ∈ x.2.2.packs, p.restorePage ≠ some 65536) ∧
    ∀ c i row p, (row, p) ∈ (resolving.start.entry c i).parked → p ≠ 65536 :=
  ⟨fun x hx => absurd hx (List.eq_nil_iff_forall_not_mem.mp (by decide +kernel) x),
   fun x hx => ⟨of_some (P := fun e : Evict => e.page ≠ some 65536)
     ((by decide +kernel : ∀ x ∈ resolving.start.teams, x.2.2.evict.all (fun e => decide (e.page ≠ some 65536)) = true) x hx),
     (by decide +kernel : ∀ x ∈ resolving.start.teams, ∀ p ∈ x.2.2.packs, p.restorePage ≠ some 65536) x hx⟩,
   fun c i row p h => by
     rw [entry_all (P := fun e => e.parked = []) rfl (by decide +kernel) c i] at h
     cases h⟩
theorem witness_tlbInvalidation : ∀ r, idle.start.pinned r 0 64 = [] := by
  have h : idle.start.allCmds 0 = [] := by decide +kernel
  intro r
  simp [Device.pinned, h]
def pinning : State := devd fun d => d.modRidge 0 fun r => { r with stale := [(65536 * 16, 0)] }
theorem witness_pinTimeout : (pinning.start.ridges.map (·.1)).Nodup ∧ (pinning.start.ridge 0).stale ≠ [] := by decide +kernel
def pendF : PendFault := ⟨.misaligned, 3, none, 64, false, false, 0, (0, 1), false, .thread t1⟩
def faulting : State := threaded fun x => { x with pend := [pendF] }
theorem witness_asyncFaultDelivery : ∃ x t g, faulting.start.thread t1 = some x ∧ faulting.start.team 0 0 = some t ∧ faulting.start.grid t.grid = some g ∧
    x.pend = pendF :: [] ∧ x.lane ≤ faulting.start.now ∧ t.saving = none ∧ faulting.start.preceded pendF = false ∧ pendF.code.cls = 0 ∧ pendF.asSys = false ∧ g.terminated = false ∧
    x.status ≠ .exited ∧ x.handler = .off ∧ lrHpc g.record ≠ 0 :=
  ⟨threadIn faulting (by decide +kernel), teamIn faulting (by decide +kernel), (faulting.start.grid 1).get (by decide +kernel), by decide +kernel⟩

/-! ### Commands -/

def cmdOf (id : Nat) (op : CmdOp) : Cmd :=
  { id := id, op := op, guard := none, grid := 1, team := 0, core := 0, slot := 0, pack := 0, mask := BitVec.allOnes 32, pc := 0, pos := [(0, 0)], rows := [],
    fences := [], obj := none, seq := 4, started := false, leave := false, arrived := 0, data := [], done := [], toShadow := false, runs := [], swap := none, applied := false,
    chain := (0, 0, 0), sub := none, failing := none, undef := false, idleFrom := 0, parked := none, pins := [], aborted := none, ranges := [] }
def runningOf (id : Nat) (op : CmdOp) : Cmd := { cmdOf id op with started := true }
/-- The machine with a command at the head of matrix engine 0, or of the team's copy queue. -/
def matrix (c : Cmd) : State := devd fun d => d.modEngine 0 0 fun e => { e with queue := [c] }
def copying (c : Cmd) : State := teamed fun t => { t with copyQ := [c] }
def copyOp : CmdOp := .cpy (recordOf 64 32 0 1 0 false) (recordOf 0 32 0 1 0 false)
def heavyCopy : Cmd := cmdOf 5 (.cpy (recordOf 0 65536 0 0 0 false) (recordOf 0 65536 0 0 0 false))

theorem witness_powerLeaveGrant : ((copying heavyCopy).start.heads 0).find? (fun x => x.1 == .copy 0 0 5) = some (.copy 0 0 5, heavyCopy) ∧
    heavyCopy.needsLeave = true ∧ ∀ x ∈ (copying heavyCopy).start.heads 0, x ≠ (.copy 0 0 5, heavyCopy) → x.2.needsLeave = true →
      heavyCopy.arrived * 2 ^ 64 + heavyCopy.id < x.2.arrived * 2 ^ 64 + x.2.id := by decide +kernel
theorem witness_copyStart : ∃ t, (copying (cmdOf 5 copyOp)).start.cmd (.copy 0 0 5) = some (cmdOf 5 copyOp) ∧
    (copying (cmdOf 5 copyOp)).start.team 0 0 = some t ∧ (cmdOf 5 copyOp).started = false ∧ (cmdOf 5 copyOp).aborted = none ∧
    ((cmdOf 5 copyOp).op.heavy = true → (cmdOf 5 copyOp).leave = true) ∧
    (copying (cmdOf 5 copyOp)).start.ordered (copying (cmdOf 5 copyOp)).mem (cmdOf 5 copyOp) t
      ((cmdOf 5 copyOp).sets (copying (cmdOf 5 copyOp)).start (copying (cmdOf 5 copyOp)).mem (Engine.fresh 0) t) = true :=
  ⟨teamIn (copying (cmdOf 5 copyOp)) (by decide +kernel), by decide +kernel⟩
def zeroing : Cmd := cmdOf 6 (.mzero 3)
theorem witness_matrixStart : ∃ t, ((matrix zeroing).start.engine 0 0).queue = [zeroing] ∧ (matrix zeroing).start.team 0 0 = some t ∧
    ((matrix zeroing).start.engine 0 0).outUntil = none ∧ zeroing.fences = [] ∧ zeroing.verdict t = some true ∧ (zeroing.op.heavy = true → zeroing.leave = true) ∧
    (matrix zeroing).start.bindingFree 0 0 zeroing t = true ∧
    (matrix zeroing).start.ordered (matrix zeroing).mem zeroing t
      (zeroing.sets (matrix zeroing).start (matrix zeroing).mem ((matrix zeroing).start.engine 0 0) t) = true :=
  ⟨teamIn (matrix zeroing) (by decide +kernel), by decide +kernel⟩
def doneCmd (op : CmdOp) : Cmd := { runningOf 6 op with applied := true }
theorem witness_commandRetire : ∃ t, ((matrix (doneCmd (.mzero 3))).start.engine 0 0).queue = [doneCmd (.mzero 3)] ∧ (doneCmd (.mzero 3)).finished = true ∧
    (matrix (doneCmd (.mzero 3))).start.team 0 0 = some t :=
  ⟨teamIn (matrix (doneCmd (.mzero 3))) (by decide +kernel), by decide +kernel⟩
theorem witness_copyRetire : ∃ t, (copying (doneCmd copyOp)).start.team 0 0 = some t ∧ t.copyQ = [doneCmd copyOp] ∧ (doneCmd copyOp).finished = true :=
  ⟨teamIn (copying (doneCmd copyOp)) (by decide +kernel), by decide +kernel⟩
def fenceF : OpFence := ⟨9, [(0, 3)], [(0, 1, 7)], [5], false, some (recordOf 64 16 0 1 0 false)⟩
/-- The copy that the marker waits for has written the bytes that the record names, and not yet its others. -/
def writtenCopy : Cmd := { runningOf 5 copyOp with done := List.range 16 }
def fenced : State :=
  { packed fun p => { p with fences := [fenceF] } with
    dev := (packed fun p => { p with fences := [fenceF] }).dev.modTeam 0 0 fun t => { t with copyQ := [writtenCopy] } }
theorem witness_operandReadyRetire : ∃ t pk, fenced.start.team 0 0 = some t ∧ fenced.start.pack 0 0 0 = some pk ∧
    pk.fences.find? (fun g => g.id == fenceF.id) = some fenceF ∧
    (∀ x ∈ fenceF.flights, ∀ y g, t.packs[x.1]? = some y → g ∈ y.flights → g.id ≠ x.2) ∧
    (∀ x ∈ fenceF.entries, (∀ y, fenced.start.thread ⟨0, 0, x.1, x.2.1⟩ = some y → y.has x.2.2 = false) ∧
      ∀ r ∈ fenced.start.pool, ∀ o ∈ r.owners, o.1 = ⟨0, 0, x.1, x.2.1⟩ → o.2.1 ≠ x.2.2) ∧
    (∀ c ∈ t.copyQ, c.id ∈ fenceF.copies ∧ c.finished = false ∧ ∀ x ∈ c.leftNow fenced.start fenced.mem t, fenceF.names t x = false) :=
  ⟨teamIn fenced (by decide +kernel), packIn fenced (by decide +kernel), by decide +kernel, by decide +kernel, by decide +kernel,
   fun x hx y g hy => of_some (P := fun y : Pack => ∀ g ∈ y.flights, g.id ≠ x.2)
     ((by decide +kernel : ∀ x ∈ fenceF.flights, (teamIn fenced _).packs[x.1]?.all (fun y => decide (∀ g ∈ y.flights, g.id ≠ x.2)) = true) x hx) y hy g,
   fun x hx => ⟨of_some (P := fun y : Thread => y.has x.2.2 = false)
     ((by decide +kernel : ∀ x ∈ fenceF.entries, (fenced.start.thread ⟨0, 0, x.1, x.2.1⟩).all (fun y => decide (y.has x.2.2 = false)) = true) x hx),
     fun r hr => absurd hr (List.eq_nil_iff_forall_not_mem.mp (by decide +kernel) r)⟩,
   by decide +kernel⟩
def closing : State :=
  teamed fun t => { t with guards := lmod t.guards 3 fun _ => .isTrue, shadows := lmod t.shadows 2 fun _ => { tile := { Tile.zero with elems := [(5, 9)] }, slot := some 3, opener := 8 } }
theorem witness_shadowResolve : ∃ t, closing.start.team 0 0 = some t ∧ closing.start.closable 0 t 3 = true ∧
    ∀ q c cs, q < 4 → (closing.start.engine 0 q).queue = c :: cs → c.grid = t.grid → c.team = t.index → c.guard = some 3 → c.started = false →
      t.guards.getD 3 .unresolved = .isTrue :=
  ⟨teamIn closing (by decide +kernel), by decide +kernel, by decide +kernel, fun _ _ _ _ _ _ _ _ _ => by decide +kernel⟩
def hung : State := { matrix { zeroing with started := true } with dev := { (matrix { zeroing with started := true }).dev with now := 21000000 } }
theorem witness_engineReset : ∃ t, (0 : Nat) < 480 ∧ (0 : Nat) < 4 ∧ (hung.start.core 0).engines.length = 4 ∧
    (hung.start.engine 0 0).queue = [{ zeroing with started := true }] ∧ hung.start.team 0 0 = some t ∧ ({ zeroing with started := true } : Cmd).started = true ∧
    (hung.start.engine 0 0).lastMove + 21000000 ≤ hung.start.now ∧ zeroing.arrived + 21000000 ≤ hung.start.now ∧ zeroing.idleFrom + 21000000 ≤ hung.start.now :=
  ⟨teamIn hung (by decide +kernel), by decide +kernel⟩

/-! ### Bundles that meet the hypotheses of the statements about instructions -/

/-- A bundle issues with threads in Part; P holds of each of them, and Q of the bundle. -/
abbrev Goes (s : State) (h : Hdr) (u : Use) (P : Bun → Nat → Prop := fun _ _ => True) (Q : Bun → Prop := fun _ => True) : Prop :=
  ∃ b, Issues s h u b ∧ (∀ t, (b.partOf u).getLsbD t = true → P b t) ∧ b.partOf u ≠ 0 ∧ Q b
theorem Goes.each {s : State} {h : Hdr} {u : Use} {P P' : Bun → Nat → Prop} {Q : Bun → Prop} (r : Goes s h u P Q)
    (f : ∀ b t, P b t → P' b t) : Goes s h u P' Q := by
  obtain ⟨b, hi, hp, hq⟩ := r
  exact ⟨b, hi, fun t ht => f b t (hp t ht), hq⟩
theorem Goes.also {s : State} {h : Hdr} {u : Use} {P : Bun → Nat → Prop} {Q Q' : Bun → Prop} (r : Goes s h u P Q) (f : ∀ b, Q b → Q' b) : Goes s h u P Q' := by
  obtain ⟨b, hi, hp, hn, hq⟩ := r
  exact ⟨b, hi, hp, hn, f b hq⟩
theorem witness_integerResults : let o : Op2 := ⟨dn 5 1, .reg (v 1) (.imm 131065)⟩
    Goes world h1 { reads := o.s.reads, dests := [VDst.dst o.d], flat := o.s.flat } (fun b t => b.denied2 t o.s = false) :=
  issuing (by decide +kernel)
theorem witness_integerUnaryResults : Goes world h1 { reads := (vw 8).reads 0, dests := [VDst.dst (dw 5 2)] } (fun b t => b.denied t (vw 8) = false) :=
  issuing (by decide +kernel)
theorem witness_fieldAndSelectResults : let o : Op2 := ⟨dn 5 1, .wide (.name 1) ⟨.u32, 0, 0xFF00FF05⟩⟩
    Goes world h1 { reads := o.s.reads, dests := [VDst.dst o.d], flat := o.s.flat } (fun b t => b.denied2 t o.s = false) ∧
    Goes world h1 { reads := o.s.reads, dests := [VDst.dst o.d] } (fun b t => b.denied2 t o.s = false) :=
  ⟨issuing (by decide +kernel), issuing (by decide +kernel)⟩
theorem witness_integerThreeSourceResults : let o : Op3 := ⟨dn 5 1, v 1, v 3, 3⟩
    Goes world h1 { reads := o.a.reads 0 ++ o.b.reads 0 ++ [o.c.toNat], dests := [VDst.dst o.d] }
      (fun b t => b.denied t o.a = false ∧ b.denied t o.b = false) :=
  issuing (by decide +kernel)
theorem witness_compareResults :
    (let o : ICmp := ⟨3, false, true, .lt, .reg (v 1) (v 3)⟩
     Goes world h1 { reads := o.s.reads, dests := [.pred o.p.toNat], flat := o.s.flat } (fun b t => b.denied2 t o.s = false)) ∧
    let o : FCmp := ⟨3, .un, .reg (v 1) (v 3)⟩
    Goes world h1 { reads := o.s.reads, dests := [.pred o.p.toNat], flat := o.s.flat } :=
  ⟨issuing (by decide +kernel), issuing (by decide +kernel)⟩
theorem witness_scalarResults :
    (let o : SOp2 := ⟨⟨5, true⟩, .reg (s 1) (sw 2)⟩
     Goes world h1 { reads := o.s.reads, dests := [SDst.dst o.d], flat := o.s.flat } (fun b t => b.denied2 t o.s = false)) ∧
    Goes world h1 { reads := (s 1).reads 0, dests := [SDst.dst ⟨5, true⟩], flat := (s 1).flat } (fun b t => b.denied t (s 1) = false) ∧
    Goes world h1 { dests := [SDst.dst ⟨5, true⟩], flat := true } (fun _ _ => True) (fun b => b.team.fmts[1]? = some (some 4) ∧ b.team.guards[2]? = some .unresolved) ∧
    Goes world h1 { reads := (v 1).reads 0, dests := [SDst.dst ⟨5, false⟩] } ∧
    let o : ICmp := ⟨3, false, true, .lt, .reg (s 1) (s 2)⟩
    Goes world h1 { reads := o.s.reads, dests := [.pred o.p.toNat], flat := o.s.flat } (fun b t => b.denied2 t o.s = false) := by
  refine ⟨?_, ?_, ?_, ?_, ?_⟩ <;> exact issuing (by decide +kernel)
/-- The floating-point statements: two sources, three, one; the packed and the conversion statements share their uses. -/
theorem witness_floatResults :
    (let o : Op2 := ⟨dn 5 1, .reg (v 1) (v 3)⟩
     Goes world h1 { reads := o.s.reads, dests := [VDst.dst o.d], flat := o.s.flat }) ∧
    (let o : Op3 := ⟨dn 5 1, v 1, v 3, 3⟩
     Goes world h1 { reads := o.a.reads 0 ++ o.b.reads 0 ++ [o.c.toNat], dests := [VDst.dst o.d] }) ∧
    Goes world h1 { reads := (v 1).reads 0, dests := [VDst.dst (dn 5 2)], flat := (v 1).flat } (fun b t => b.denied t (v 1) = false) :=
  ⟨issuing (by decide +kernel), issuing (by decide +kernel), issuing (by decide +kernel)⟩
theorem witness_longFloatResults :
    Goes world h1 { reads := (v 1).reads 0, dests := [VDst.dst (dn 5 1)], flat := (v 1).flat, long := true } ∧
    (let o : Op2 := ⟨dw 5 1, .reg (vw 8) (vw 9)⟩
     Goes world h1 { reads := o.s.reads, dests := [VDst.dst o.d], flat := o.s.flat, long := true }) ∧
    let o : Op3 := ⟨dw 5 1, vw 8, vw 9, 9⟩
    Goes world h1 { reads := o.a.reads 0 ++ o.b.reads 0 ++ [o.c.toNat], dests := [VDst.dst o.d], long := true } :=
  ⟨issuing (by decide +kernel), issuing (by decide +kernel), issuing (by decide +kernel)⟩
theorem witness_conversionResults :
    Goes world h1 { reads := (v 1).reads 0 ++ [(3 : Nat)], dests := [VDst.dst (dn 5 2)], flat := false } (fun b t => b.denied t (v 1) = false)
      (fun b => b.team.fmts[1]? = some (some 4)) ∧
    Goes world h1 { reads := (v 1).reads 0 ++ (v 3).reads 0, dests := [VDst.dst (dn 5 2)], flat := (v 1).flat && (v 3).flat }
      (fun b t => b.denied t (v 1) = false ∧ b.denied t (v 3) = false) (fun b => b.team.fmts[0]? = some (some 0)) ∧
    Goes world h1 { reads := (v 1).reads 0, dests := [VDst.dst (dn 5 2)], flat := (v 1).flat } (fun _ _ => True)
      (fun b => b.team.fmts[1]? = some (some 4) ∧ (emaxOf (recElem 4)).isSome = true) :=
  ⟨issuing (by decide +kernel), issuing (by decide +kernel), issuing (by decide +kernel)⟩
theorem witness_crossThreadResults :
    Goes world h1 { reads := (v 1).reads 0 ++ (v 3).reads 0, dests := [VDst.dst (dn 5 1)], long := true, cross := true } (fun b t => b.denied t (v 3) = false) ∧
    Goes world h1 { reads := (v 1).reads 0, dests := [VPDst.dst (.p 2)], long := true, cross := true } ∧
    Goes world h1 { reads := (v 1).reads 0, dests := [VSDst.dst (.s ⟨5, false⟩)], long := true, cross := true } ∧
    Goes world h1 { reads := (v 1).reads 0, dests := [VDst.dst (dn 5 2)], long := true, cross := true } :=
  ⟨issuing (by decide +kernel), issuing (by decide +kernel), issuing (by decide +kernel), issuing (by decide +kernel)⟩
theorem witness_topkResult :
    Goes world h1 { reads := (v 1).reads 0 ++ (v 3).reads 0, dests := spanDsts ⟨40, 2, 3⟩ false 0 } (fun b t => b.denied t (v 3) = false) ∧
    Goes world h1 { reads := spanNames 16 3 0 ++ (v 1).reads 0 ++ [(3 : Nat)], dests := spanDsts ⟨40, 2, 3⟩ false 0 } :=
  ⟨issuing (by decide +kernel), issuing (by decide +kernel)⟩
theorem witness_movAndLive :
    Goes world h1 { reads := (v 1).reads 0, dests := [VDst.dst (dn 5 1)], flat := (v 1).flat } (fun b t => b.denied t (v 1) = false) ∧
    Goes world h1 { dests := [VDst.dst (dn 5 1)], flat := true } ∧
    Goes world h1 { dests := [VDst.dst (dn 5 1)] } ∧
    (let a : Src := .span ⟨16, 3⟩
     Goes world h1 { reads := a.reads 0, dests := spanDsts ⟨40, 2, 3⟩ false 0, flat := a.flat }) :=
  ⟨issuing (by decide +kernel), issuing (by decide +kernel), issuing (by decide +kernel), issuing (by decide +kernel)⟩
/-- Names 16 to 18 with the count 5. -/
def counted5 : State := packed fun p => { p with rows := p.rows.map fun r => if 16 ≤ r.name ∧ r.name < 19 then { r with count := List.replicate 32 5 } else r }
def counted5' : State := { counted5 with dev := { counted5.dev with cur := world.dev.cur } }
theorem witness_dropAndKeep : let a : Src := .span ⟨16, 2⟩
    Goes counted5' h1 {} (fun b t => ∀ n ∈ a.reads 0, b.pack.count n t ≠ 0 ∧ (b.pack.count n t = 15 ∨ 3 ≤ b.pack.count n t) ∧
      (b.pack.count n t = 15 ∨ b.pack.count n t + 3 ≤ 14)) :=
  issuing (by decide +kernel)

/-- `world` with its pack, its thread or its team changed while the bundle executes. -/
def worldly (f : Device → Device) : State := { world with dev := f world.dev }
def packW (f : Pack → Pack) : State := worldly fun d => d.modPack 0 0 0 f
def teamW (f : Team → Team) : State := worldly fun d => d.modTeam 0 0 f
theorem witness_transfersOfControl :
    (let u : Use := { flat := true }
     Goes world h1 u (fun _ _ => True) (fun b => b.test world.mem world.start (staticTarget b.pc 0 0) false = (world.start, none))) ∧
    Goes world h1 { flat := true, yields := true } ∧
    Goes world h1 { reads := (v 3).reads 0, flat := (v 3).flat } (fun _ _ => True) (fun b => b.test world.mem world.start 0 false = (world.start, none)) ∧
    Goes world h1 { flat := true, dests := [VSDst.dst (.v (dw 5 1))] } (fun _ _ => True)
      (fun b => b.test world.mem world.start (staticTarget b.pc 0 0) true = (world.start, none)) :=
  ⟨issuing (by decide +kernel), issuing (by decide +kernel), issuing (by decide +kernel), issuing (by decide +kernel)⟩
def ent (pc : W64) (m a : Mask) : JoinEntry := ⟨pc, m, a, 0⟩
def all32 : Mask := BitVec.allOnes 32
theorem witness_reconvergence_split : Goes world h1 { flat := !world.start.serialMode } (fun _ _ => True)
      (fun b => b.pack.serial = none ∧ b.pack.stack.length < 16) ∧
    (let s := packW fun p => { p with stack := List.replicate 16 (ent 3 all32 0) }
     Goes s h1 { flat := !s.start.serialMode } (fun _ _ => True) (fun b => b.pack.serial = none ∧ 16 ≤ b.pack.stack.length)) :=
  ⟨issuing (by decide +kernel), issuing (by decide +kernel)⟩
/-- Serial mode with a record whose current thread is 3, which alone is in the bundle. -/
def serialAt (r : Serial) : State :=
  { packW (fun p => { p with serial := some r }) with
    dev := { (packW fun p => { p with serial := some r }).dev with cur := some ⟨0, 0, 0, 8, 0, leBytes 12 0x0000000E0000E0000E000000⟩ } }
/-- A nested record, one whose J is the PC, one whose J is another, and one whose M ends with the current thread. -/
def records : List Serial := [⟨16, all32, 3, 2⟩, ⟨0, all32, 3, 0⟩, ⟨16, all32, 3, 0⟩, ⟨0, 15, 3, 0⟩]
theorem witness_serial : ∀ r ∈ records, let s := serialAt r
    Goes s h0 { flat := !s.start.serialMode } (fun b t => ∀ x ∈ b.thread t, x.status = .ready) (fun b =>
      b.pack.serial = some r ∧ b.mask = oneBit r.c ∧ b.partOf { flat := !s.start.serialMode } = oneBit r.c ∧ b.pc = 0 ∧ r.m.getLsbD r.c = true ∧
      b.test s.mem s.start (staticTarget b.pc 0 0) false = (s.start, none) ∧ b.pack.inSlice = false ∧ (s.start.core b.core).sliceFor = none ∧
      (r.m = all32 → b.pack.follows r.m r.c 4) ∧ (r.m = 15 → b.pack.lastOf r.m r.c)) := by
  have h : ∀ r ∈ records, r.c = 3 ∧ let s := serialAt r
      meets s h0 { flat := !s.start.serialMode } (fun b t => ∀ x ∈ b.thread t, x.status = .ready) (fun b => b.partOf { flat := !s.start.serialMode } ≠ 0 ∧
        b.pack.serial = some r ∧ b.mask = oneBit r.c ∧ b.partOf { flat := !s.start.serialMode } = oneBit r.c ∧ b.pc = 0 ∧ r.m.getLsbD r.c = true ∧
        b.test s.mem s.start (staticTarget b.pc 0 0) false = (s.start, none) ∧ b.pack.inSlice = false ∧ (s.start.core b.core).sliceFor = none ∧
        b.pack.isGone 4 = false) = true := by decide +kernel
  intro r hr
  obtain ⟨hc, hm⟩ := h r hr
  refine (show Goes _ _ _ _ _ from issuing hm).also fun b hb => ?_
  obtain ⟨h1, h2, h3, h4, h5, h6, h7, h8, h9⟩ := hb
  refine ⟨h1, h2, h3, h4, h5, h6, h7, h8, fun he => ?_, fun he => ?_⟩
  · rw [he, hc]
    exact ⟨by decide, by omega, h9, fun t ht hl => absurd ht (by omega)⟩
  · rw [he, hc]
    exact fun t ht hm => absurd ht (of_mask (m := (15 : Mask)) (P := fun t => ¬3 < t) (by decide) t hm)
theorem witness_reconvergence_join :
    let s := packW fun p => { p with stack := [ent 0 all32 1, ent 64 all32 0] }
    Goes s h1 { flat := !s.start.serialMode } (fun _ _ => True)
      (fun b => b.pack.serial = none ∧ b.pack.stack = [ent 0 all32 1, ent 64 all32 0] ∧ b.pc = 0 ∧
        b.partOf { flat := !s.start.serialMode } &&& ~~~all32 = 0) :=
  issuing (by decide +kernel)
theorem witness_reconvergence_brk :
    let s := packW fun p => { p with stack := [ent 16 all32 0, ent 64 all32 0] }
    let u : Use := { flat := !s.start.serialMode }
    Goes s h1 u (fun b t => ∀ e ∈ b.pack.innermost t, e.joinPc ≠ b.pc)
      (fun b => b.pack.serial = none ∧ b.test s.mem s.start (staticTarget b.pc 0 0) false = (s.start, none)) :=
  issuing (by decide +kernel)
theorem witness_exit : let u : Use := { flat := !world.start.serialMode }
    Goes world h1 u (fun _ _ => True) (fun b => b.pack.serial = none ∧ b.pack.inSlice = false ∧ (world.start.core b.core).sliceFor = none) :=
  issuing (by decide +kernel)
theorem witness_takingATrap : Goes world h1 { flat := true } (fun b t => ∀ x ∈ b.thread t, x.handler = .off ∧ x.status = .ready)
    (fun b => ∀ g ∈ world.start.grid b.team.grid, g.terminated = false ∧ lrHpc g.record ≠ 0 ∧ (world.start.part b.team.part).debugReg.getLsbD 0 = false) ∧
    (world.start.grid 1).isSome = true :=
  ⟨issuing (by decide +kernel), by decide +kernel⟩
def handling : State := packW fun p => { p with threads := p.threads.map fun x => { x with handler := .fault, fpc := 3, fault := 5 } }
theorem witness_returnFromHandler : Goes handling h1 { flat := true } (fun b t => ∀ x ∈ b.thread t, x.handler = .fault)
    (fun b => (handling.start.core b.core).sliceFor = none) :=
  issuing (by decide +kernel)

/-! ### Accesses -/

/-- What an access reaches, when it meets no miss, no fault and no change of the device. -/
def found (s : State) (r : Device × Reach) : Bool := decide (r.1 = s.start) && (match r.2 with | .ok .. => true | _ => false)
theorem found_ok {s : State} {r : Device × Reach} (h : found s r = true) : ∃ ps bit n, r = (s.start, .ok ps bit n) := by
  obtain ⟨d, x⟩ := r
  cases x <;> simp_all [found]
theorem witness_loads : let o : LdOp := { sz := 4, scope := .d, ord := .acq, d := dn 5 3, b := 0, idx := v 2, w := 0 }
    Goes world h1 { reads := o.idx.reads 0, dests := [VDst.dst o.d], flat := o.idx.flat, long := true }
      (fun b t => b.denied t o.idx = false ∧ found world (b.reach world.start world.mem t (b.team.bufr 0) (b.idx2 t o.idx) (loadAcc [0] o.sz o.w) 2) = true)
      (fun _ => world.start.stalled h1 o.b o.idx (loadAcc [0] o.sz o.w) = none) :=
  issuing (by decide +kernel)
theorem witness_loads_each :
    (∀ q ∈ [((1 : BitVec 5), [1, 3]), (2, [2])], Goes world h0 { reads := (v 2).reads 0, dests := [VDst.dst (dn 5 3)], flat := (v 2).flat, long := true }
      (fun b t => found world (b.reach world.start world.mem t (b.team.bufr q.1.toNat) (b.idx2 t (v 2)) (loadAcc q.2 4 0) 2) = true)
      (fun _ => world.start.stalled h0 q.1 (v 2) (loadAcc q.2 4 0) = none)) ∧
    (∀ q ∈ [((3 : BitVec 5), [0]), (4, [1, 3]), (5, [2])], Goes world h0 { reads := (v 2).reads 0, dests := [VDst.dst (dn 5 3)], flat := (v 2).flat, long := true }
      (fun b t => b.reach world.start world.mem t (b.team.bufr q.1.toNat) (b.idx2 t (v 2)) (loadAcc q.2 4 0) 2 = (world.start, .dropped))
      (fun _ => world.start.stalled h0 q.1 (v 2) (loadAcc q.2 4 0) = none)) := by
  simp only [List.forall_mem_cons, List.not_mem_nil, false_imp_iff, implies_true, and_true]
  exact ⟨⟨issuing (by decide +kernel), issuing (by decide +kernel)⟩, issuing (by decide +kernel), issuing (by decide +kernel), issuing (by decide +kernel)⟩
theorem witness_loads_scalar : let acc : Acc := { kinds := [0, 1, 3], rd := true, wr := false, n := szBytes 4, kind := 0 }
    Goes world h1 { reads := (v 2).reads 0, dests := [SDst.dst ⟨5, false⟩], flat := (v 2).flat, long := true }
      (fun b t => found world (b.reach world.start world.mem t (b.team.bufr 0) (b.idx2 t (v 2)) acc 2) = true)
      (fun _ => world.start.stalled h1 0 (v 2) acc = none) ∧
    Goes world h1 { reads := (v 2).reads 0, dests := [SDst.dst ⟨5, false⟩], flat := (v 2).flat, long := true }
      (fun b t => b.reach world.start world.mem t (b.team.bufr 3) (b.idx2 t (v 2)) acc 2 = (world.start, .dropped))
      (fun _ => world.start.stalled h1 3 (v 2) acc = none) :=
  ⟨issuing (by decide +kernel), issuing (by decide +kernel)⟩
/-- Three more records under OOB 1, of 16 elements each, in memory, in the scratchpad and in the private store. -/
def mixed : State := teamW fun t => { t with recs := t.recs ++ [recordOf 0 64 0 0 2 true, recordOf 0 64 0 1 2 true, recordOf 0 64 0 2 2 true] }
/-- The accesses of the lower 16 threads reach memory, those of the others are dropped. -/
def landing (t : Nat) (r : Device × Reach) : Bool := if t < 16 then found mixed r else decide (r = (mixed.start, .dropped))
abbrev lands (b : Bun) (t : Nat) (ri : BitVec 5) (a : Acc) : Prop :=
  landing t (b.reach mixed.start mixed.mem t (b.team.bufr ri.toNat) (b.idx2 t (v 1)) a 2) = true
theorem witness_mixed : ∀ q ∈ [((9 : BitVec 5), [0]), (10, [1, 3]), (11, [2])],
    Goes mixed h0 { reads := (v 1).reads 0, dests := [VDst.dst (dn 5 3)], flat := (v 1).flat, long := true } (fun b t => lands b t q.1 (loadAcc q.2 4 0))
      (fun b => mixed.start.stalled h0 q.1 (v 1) (loadAcc q.2 4 0) = none ∧ (mixed.start.bunTeam b).badPriv = []) ∧
    Goes mixed h0 { reads := (v 1).reads 0 ++ (v 1).reads 0, flat := (v 1).flat && (v 1).flat } (fun b t => lands b t q.1 (storeAcc q.2 4 0))
      (fun _ => mixed.start.stalled h0 q.1 (v 1) (storeAcc q.2 4 0) = none) ∧
    let i : Instr := .atom h0 0 .t .none (dn 5 1) q.1 (v 1) (v 1)
    Goes mixed h0 { reads := i.reads, dests := [VDst.dst (dn 5 1)], long := true } (fun b t => lands b t q.1 (atomAcc 32 .t))
      (fun b => mixed.start.stalled h0 q.1 (v 1) (atomAcc 32 .t) = none ∧ (mixed.start.bunTeam b).badPriv = []) := by
  simp only [List.forall_mem_cons, List.not_mem_nil, false_imp_iff, implies_true, and_true]
  exact ⟨⟨issuing (by decide +kernel), issuing (by decide +kernel), issuing (by decide +kernel)⟩,
    ⟨issuing (by decide +kernel), issuing (by decide +kernel), issuing (by decide +kernel)⟩,
    issuing (by decide +kernel), issuing (by decide +kernel), issuing (by decide +kernel)⟩
def constLine (b : Bun) (t : Nat) := world.start.fetchLine world.mem b.core b.team.part (lineOf (staticTarget b.pc 1 0) + (b.idx t (v 3)).toNat / 120 * 128)
theorem witness_loadConstant :
    Goes world h1 { reads := (v 3).reads 0, dests := [VDst.dst (dn 5 2)], flat := (v 3).flat, long := true }
      (fun b t => b.denied t (v 3) = false ∧ 0 ≤ b.idx t (v 3) ∧ (b.idx t (v 3)).toNat % 120 + szBytes 4 ≤ 120 ∧ (constLine b t).1 = world.start ∧
        (match (constLine b t).2 with | .ok line => !malformed (headerOf line) && headerKind (headerOf line) == 2 | _ => false) = true) :=
  issuing (by decide +kernel)
theorem witness_stores :
    (∀ q ∈ [((0 : BitVec 5), [0]), (1, [1, 3]), (2, [2])], Goes world h0 { reads := (v 2).reads 0 ++ (v 1).reads 0, flat := (v 2).flat && (v 1).flat }
      (fun b t => b.denied t (v 2) = false ∧ b.denied t (v 1) = false ∧
        found world (b.reach world.start world.mem t (b.team.bufr q.1.toNat) (b.idx2 t (v 2)) (storeAcc q.2 4 0) 2) = true)
      (fun _ => world.start.stalled h0 q.1 (v 2) (storeAcc q.2 4 0) = none)) ∧
    (∀ q ∈ [((3 : BitVec 5), [0]), (4, [1, 3]), (5, [2])], Goes world h0 { reads := (v 2).reads 0 ++ (v 1).reads 0, flat := (v 2).flat && (v 1).flat }
      (fun b t => b.reach world.start world.mem t (b.team.bufr q.1.toNat) (b.idx2 t (v 2)) (storeAcc q.2 4 0) 2 = (world.start, .dropped))
      (fun _ => world.start.stalled h0 q.1 (v 2) (storeAcc q.2 4 0) = none)) := by
  simp only [List.forall_mem_cons, List.not_mem_nil, false_imp_iff, implies_true, and_true]
  exact ⟨⟨issuing (by decide +kernel), issuing (by decide +kernel), issuing (by decide +kernel)⟩,
    issuing (by decide +kernel), issuing (by decide +kernel), issuing (by decide +kernel)⟩
theorem witness_recordsAndFences :
    Goes world h1 { reads := (v 3).reads 0, flat := (v 3).flat } (fun _ _ => True) (fun b =>
      let low := (lowest (b.partOf { reads := (v 3).reads 0, flat := (v 3).flat })).getD 0
      let x := b.team.bufr 1
      let o := b.idx low (v 3)
      b.denied low (v 3) = false ∧ 0 ≤ o ∧ o + 16 ≤ recExtent x ∧ recBase x + o.toNat < 2 ^ 64 ∧ (recEsz x ≤ 6 → (recBase x + o.toNat) % 2 ^ recEsz x = 0)) ∧
    Goes world h1 { dests := [VSDst.dst (.v (dw 5 1))], flat := true } ∧ Goes world h1 { reads := (v 1).reads 0, flat := (v 1).flat } ∧
    Goes world h1 { flat := true } :=
  ⟨issuing (by decide +kernel), issuing (by decide +kernel), issuing (by decide +kernel), issuing (by decide +kernel)⟩
theorem witness_atomics :
    (∀ q ∈ [((0 : BitVec 5), Scope.d), (2, Scope.t)],
      let i : Instr := .atom h0 0 q.2 .none (dn 5 1) q.1 (v 2) (v 1)
      Goes world h0 { reads := i.reads, dests := [VDst.dst (dn 5 1)], long := true }
        (fun b t => b.denied t (v 2) = false ∧ b.denied t (v 1) = false ∧
          found world (b.reach world.start world.mem t (b.team.bufr q.1.toNat) (b.idx2 t (v 2)) (atomAcc 32 q.2) 2) = true)
        (fun _ => world.start.stalled h0 q.1 (v 2) (atomAcc 32 q.2) = none)) ∧
    ∀ q ∈ [((0 : BitVec 5), Scope.d), (2, Scope.t)],
      Goes world h0 { reads := (v 2).reads 0 ++ (v 1).reads 0, flat := (v 2).flat && (v 1).flat }
        (fun b t => b.denied t (v 2) = false ∧ b.denied t (v 1) = false ∧
          found world (b.reach world.start world.mem t (b.team.bufr q.1.toNat) (b.idx2 t (v 2)) (atomAcc 32 q.2) 2) = true)
        (fun _ => world.start.stalled h0 q.1 (v 2) (atomAcc 32 q.2) = none) := by
  simp only [List.forall_mem_cons, List.not_mem_nil, false_imp_iff, implies_true, and_true]
  exact ⟨⟨issuing (by decide +kernel), issuing (by decide +kernel)⟩, issuing (by decide +kernel), issuing (by decide +kernel)⟩
/-- Where a barrier object stands, with no change of the device: a sound one through b7, none under OOB 1 through b4. -/
def standing (rb : BitVec 5) (s : State) (b : Bun) (t : Nat) : Bool :=
  let r := b.object s.mem s.start t rb (v 1)
  decide (r.1 = s.start) && (match r.2 with | .ok o => o.isSome == (rb == 7) && !s.start.objBad o | _ => false)
theorem witness_barriers :
    (let u : Use := { reads := (v 1).reads 0 ++ (v 2).reads 0, flat := (v 1).flat && (v 2).flat }
     Goes world h1 u (fun b t => b.denied t (v 1) = false ∧ b.denied t (v 2) = false ∧ standing 7 world b t = true)
       (fun b => 1 ≤ b.int ((lowest (b.partOf u)).getD 0) 32 (v 2) ∧ b.int ((lowest (b.partOf u)).getD 0) 32 (v 2) ≤ 65535)) ∧
    ∀ q ∈ [(VDst.dst (dn 5 1), (7 : BitVec 5)), (.pred 2, 7), (VDst.dst (dn 5 1), 4), (.pred 2, 4)],
      Goes world h1 { reads := (v 1).reads 0 ++ (v 2).reads 0, dests := [q.1], flat := (v 1).flat && (v 2).flat, long := true }
      (fun b t => b.denied t (v 1) = false ∧ b.denied t (v 2) = false ∧ standing q.2 world b t = true) := by
  simp only [List.forall_mem_cons, List.not_mem_nil, false_imp_iff, implies_true, and_true]
  refine ⟨?_, ?_, ?_, ?_, ?_⟩ <;> exact issuing (by decide +kernel)
theorem witness_childrenAndSleep :
    Goes world h1 { reads := (v 4).reads 0, dests := [VDst.dst (dn 5 1)], flat := (v 4).flat, long := true }
      (fun b t => 0 ≤ (BitVec.ofNat 32 (b.int t 32 (v 4))).toInt ∧ 256 * (BitVec.ofNat 32 (b.int t 32 (v 4))).toInt + 256 ≤ recExtent (b.team.bufr 0) ∧
        (let va := recBase (b.team.bufr 0) + 256 * (BitVec.ofNat 32 (b.int t 32 (v 4))).toInt.toNat
         let r := world.start.reachPhys world.mem b.core b.team.part { kinds := [0], rd := true, wr := false, n := 256, kind := 0 } 2 va 256
         va % 64 = 0 ∧ r.1 = world.start ∧ r.2.isOk = true))
      (fun b => b.depth < 10 ∧ recKind (b.team.bufr 0) = 0 ∧ recRd (b.team.bufr 0) = true ∧ b.team.children + 32 < 2 ^ 31) ∧
    Goes world h1 { reads := (v 1).reads 0, flat := (v 1).flat } :=
  ⟨issuing (by decide +kernel), issuing (by decide +kernel)⟩

/-! ### Engines, routing and system instructions -/

/-- The pack's engine has room. -/
abbrev roomy (s : State) (b : Bun) : Prop := (s.start.engine b.core b.pack.quad).full s.start.now = false
def offOf (b : Bun) (u : Use) (rb : BitVec 5) (idx : Src) : Int := b.idx ((lowest b.mask).getD 0) idx * 2 ^ recEsz (b.team.bufr rb.toNat)
theorem witness_matrixCommands_record : let u : Use := { reads := (v 4).reads 0, flat := (v 4).flat, collective := true }
    Goes world h0 u (fun _ _ => True) (fun b => roomy world b ∧ b.team.fmt 0 = some 0 ∧ fmtBad 0 = false ∧ bOk 0 = true ∧ recElem 0 ≤ 10 ∧
      b.denied ((lowest b.mask).getD 0) (v 4) = false ∧
      firstFate (recTests (b.team.bufr 8) [0, 1, 3] false (CmdOp.mldwRec (b.team.bufr 8) (offOf b u 8 (v 4)) 0 9).extents) = none ∧
      firstFate (recTests (b.team.bufr 1) [1, 3] false (CmdOp.mtag (b.team.bufr 1) (offOf b u 1 (v 4)) 3).extents) = none ∧
      firstFate (recTests (b.team.bufr 8) [0, 1, 3] true (CmdOp.mst (b.team.bufr 8) (offOf b u 8 (v 4)) 2 0 0 false).extents) = none) :=
  issuing (by decide +kernel)
def latched : State := packW fun p => { p with latch := some 4 }
theorem witness_matrixCommands_span : let o : MmaOp := { g := none, e := false, tag := false, a := 2, sp := ⟨16, 15⟩, f := 1, vs := 4 }
    Goes latched h0 { reads := spanNames 16 15 0, flat := false, collective := true } (fun _ _ => True) (fun b => roomy latched b ∧
      rowOf o b.team = [] ∧ slotA (b.team.fmt 1) b.pack.latch (spanNames 16 15 0).length false = true ∧ 2 < latched.start.lr b.team.grid lrShadow) :=
  issuing (by decide +kernel)
/-- A format of 25 names' bytes in slot 0, and names 16 to 41. -/
def spanned : State := teamW fun t => { t with
  fmts := [some 556],
  packs := t.packs.map fun p => { p with nextId := 60, rows := p.rows ++ (List.range 10).map fun i => rowOfName (40 + i) (32 + i) false fun _ => 0 } }
theorem witness_matrixCommands_latch : Goes spanned h0 { reads := spanNames 16 24 0, flat := false, collective := true } (fun _ _ => True) (fun b =>
    roomy spanned b ∧ b.team.fmt 0 = some 556 ∧ fmtBad 556 = false ∧ bOk 556 = true ∧ (spanNames 16 24 0).length = (latchBytes 556 + 127) / 128) :=
  issuing (by decide +kernel)
theorem witness_matrixCommands_rest :
    Goes world h0 { flat := true, collective := true } (fun _ _ => True) (roomy world) ∧
    Goes world h0 { reads := spanNames 16 15 0, collective := true } (fun _ _ => True) (roomy world) :=
  ⟨issuing (by decide +kernel), issuing (by decide +kernel)⟩
def copyable : State := teamW fun t => { t with iss := 9, doneSeq := 3, recs := t.recs ++ [recordOf 0 64 0 1 2 false, recordOf 0 16 0 1 4 false] }
theorem witness_copyCommands : Goes copyable h0 { flat := true } (fun _ _ => True) (fun b =>
      let r := fun i => b.team.bufr i
      b.team.copyQ.length < 16 ∧ firstFate (copyTests (r 8) (r 1) none (b.team.object 0)) = none ∧ recExtent (r 1) ≤ recExtent (r 8) ∧
      recExtent (r 1) % cpyrSize 1 = 0 ∧ firstFate (copyTests (r 8) (r 1) (some (r 9)) (b.team.object 42)) = none ∧
      recExtent (r 9) / 4 * recStride (r 8) ≤ recExtent (r 8) ∧ recKind (r 1) < 2 ∧ recRd (r 1) = true ∧ recWr (r 1) = true ∧ 64 ≤ recExtent (r 1)) ∧
    Goes copyable h1 { dests := [VSDst.dst (.s ⟨5, false⟩)], flat := true } ∧
    Goes copyable h1 { reads := (v 1).reads 0, flat := (v 1).flat } (fun b t => b.denied t (v 1) = false) :=
  ⟨issuing (by decide +kernel), issuing (by decide +kernel), issuing (by decide +kernel)⟩
/-- Two commands not yet waited for, one of them in the queue of engine 0; an open block under slot 3 in tile 4, one with a closed shadow in
tile 7, and the shadow of tile 6 under a resolved slot. -/
def queueing : State :=
  worldly fun d => (d.modTeam 0 0 fun t =>
    { t with uncovered := [⟨5, 0, 2, some 2, 0, [], [], []⟩, ⟨6, 0, 0, some 3, 0, [], [], []⟩], miss := 77,
             tiles := lmod (lmod t.tiles 4 fun x => { x with block := { x.block with steps := 5, opened := true, aCode := 2, bCode := 3 } }) 7 fun x =>
               { x with block := { x.block with opened := true } },
             guards := lmod t.guards 5 fun _ => .isTrue,
             shadows := lmod (lmod t.shadows 4 fun x => { x with slot := some 3 }) 6 fun x => { x with slot := some 5 } }).modEngine 0 0 fun e => { e with queue := [cmdOf 6 (.mzero 3)] }
theorem witness_matrixReads :
    Goes world h0 { flat := true } (fun _ _ => True) (fun b => recKind (b.team.bufr 1) = 1 ∧ world.start.retired 0 [] = true ∧ b.team.uncovered = [] ∧
      b.team.closing 2 none = false) ∧
    Goes queueing h0 { flat := true } (fun _ _ => True) (fun b => queueing.start.retired b.core ((b.team.uncovered.filter fun u => u.pack == b.index).map (·.id)) = false ∧
      b.team.closing 6 none = true) ∧
    Goes world h0 { dests := spanDsts ⟨40, 15, 3⟩ false 0, flat := true, long := true, collective := true } (fun _ _ => True)
      (fun b => b.idx ((lowest b.mask).getD 0) (.imm 8) = 8 ∧ (b.team.tiles.getD 4 Tile.zero).bad = false ∧
        (b.team.uncovered.all fun u => u.tile != some 4) = true) ∧
    Goes queueing h1 { dests := [SDst.dst ⟨5, false⟩], flat := true } (fun _ _ => True) (fun b =>
      (b.team.tiles.getD 4 Tile.zero).block.opened = true ∧ (b.team.shadows.getD 4 Shadow.closed).slot = some 3 ∧
      (b.team.tiles.getD 5 Tile.zero).block.opened = false ∧ (b.team.tiles.getD 7 Tile.zero).block.opened = true ∧
      (b.team.shadows.getD 7 Shadow.closed).slot = none) :=
  ⟨issuing (by decide +kernel), issuing (by decide +kernel), issuing (by decide +kernel), issuing (by decide +kernel)⟩
theorem witness_guardSlots :
    Goes world h1 { reads := (v 4).reads 0, flat := (v 4).flat } (fun b t => b.denied t (v 4) = false) (fun b => b.team.guards.getD 3 .unresolved = .unresolved) ∧
    Goes world h1 { flat := true } (fun _ _ => True) (fun b => b.team.guards.getD 3 .unresolved = .unresolved) ∧
    Goes world h1 { dests := [.pred 2], flat := true } :=
  ⟨issuing (by decide +kernel), issuing (by decide +kernel), issuing (by decide +kernel)⟩
/-- The first n entries of core 0 are routed; scalar 1 asks for one row of one element. -/
def reserving (n : Nat) : State :=
  worldly fun d => (d.modPack 0 0 0 fun p => { p with scal := lmod p.scal 1 fun _ => 0 }).modCore 0 fun c =>
    { c with entries := imap (fun i e => if i < n then { e with state := .routed } else e) 0 c.entries }
abbrev mayReserve (b : Bun) : Prop :=
  let x := b.pack.scalar 1
  let r := b.team.bufr 0
  fld x 31 30 = 0 ∧ x.getLsbD 15 = false ∧ x.getLsbD 7 = false ∧ scRows x ≤ 64 ∧ b.team.fmt (scSlot x) = some 0 ∧ recElem 0 ≤ 10 ∧
  recKind r = 0 ∧ recWr r = true ∧ recRd r = true ∧ 4 * scN x * scK x * scRows x ≤ recExtent r
theorem witness_reserve :
    Goes (reserving 3) h1 { dests := [.scal 5 true], flat := true } (fun _ _ => True) (fun b => mayReserve b ∧
      ((reserving 3).start.entry b.core 3).state = .free ∧ ∀ k, k < 3 → ((reserving 3).start.entry b.core k).state ≠ .free) ∧
    Goes (reserving 32) h1 { dests := [.scal 5 true], flat := true } (fun _ _ => True) (fun b => mayReserve b ∧
      ∀ e, e < 32 → ((reserving 32).start.entry b.core e).state ≠ .free) :=
  ⟨issuing (by decide +kernel), issuing (by decide +kernel)⟩
/-- Entry 2 of core 0 in a state; the ticket in scalar 1 names it. -/
def ticketed (st : RState) (park : List (Nat × Nat)) : State :=
  worldly fun d => ((d.modTeam 0 0 fun t => { t with taken := [4, 5], packs := t.packs.map fun p =>
    { p with scal := lmod p.scal 1 fun _ => BitVec.ofNat 64 (7 * 2 ^ 32 + 2 * 512) } }).modCore 0 fun c => { c with entries := lmod c.entries 2 fun e =>
      { e with state := st, gen := 7, grid := 1, team := 0, rows := 2, k := 2, n := 3, parked := park } }).modPart 0 fun q =>
    { q with stCnt := 5, stations := [(3, { active := true, desc := 0, grid := 1, queue := ⟨0, 0, [], []⟩, spill := ⟨0, 0, [], []⟩, flushReq := false, timerHit := false })] }
theorem witness_routingInstructions_route : Goes (ticketed .reserved []) h0 { flat := true, collective := true } (fun _ _ => True) (fun b =>
      b.ticket (b.pack.scalar 1).toNat = some 2 ∧ ((ticketed .reserved []).start.entry b.core 2).state = .reserved ∧
      recKind (b.team.bufr 1) ≤ 1 ∧ recKind (b.team.bufr 0) = 0 ∧ recRd (b.team.bufr 1) = true ∧ 8 * 2 * 2 ≤ recExtent (b.team.bufr 1)) :=
  issuing (by decide +kernel)
theorem witness_routingInstructions_wait :
    Goes (ticketed .complete []) h1 { flat := true } (fun _ _ => True) (fun b => b.ticket (b.pack.scalar 1).toNat = some 2 ∧
      ((ticketed .complete []).start.entry b.core 2).state = .complete ∧ ((ticketed .complete []).start.entry b.core 2).parked = []) ∧
    Goes (ticketed .routed [(3, 4)]) h1 { flat := true } (fun _ _ => True) (fun b => b.ticket (b.pack.scalar 1).toNat = some 2 ∧
      ((ticketed .routed [(3, 4)]).start.entry b.core 2).state = .routed ∧
      ((ticketed .routed [(3, 4)]).start.entry b.core 2).parked ≠ []) ∧
    Goes (ticketed .routed []) h1 { dests := [VSDst.dst (.v (dn 5 1))], flat := true } (fun _ _ => True) (fun b => b.ticket (b.pack.scalar 1).toNat = some 2) :=
  ⟨issuing (by decide +kernel), issuing (by decide +kernel), issuing (by decide +kernel)⟩
theorem witness_routingInstructions_rest :
    Goes (ticketed .routed []) h1 { reads := (v 4).reads 0, flat := (v 4).flat } (fun b t => b.denied t (v 4) = false ∧ b.int t 32 (v 4) < b.team.taken.length) ∧
    Goes (ticketed .routed []) h1 { dests := [SDst.dst ⟨6, false⟩], flat := true } (fun _ _ => True) (fun b =>
      recKind (b.team.bufr 1) = 1 ∧ recWr (b.team.bufr 1) = true ∧ 32 * b.team.taken.length ≤ recExtent (b.team.bufr 1) ∧
      b.team.scored [(recBase (b.team.bufr 1), 32 * b.team.taken.length)] true = false) ∧
    Goes (ticketed .routed []) h1 { flat := true } (fun _ _ => True) (fun b =>
      (aget ((ticketed .routed []).start.part b.team.part).stations 3).any (·.active) = true ∧ 3 < ((ticketed .routed []).start.part b.team.part).stCnt.toNat) :=
  ⟨issuing (by decide +kernel), issuing (by decide +kernel), issuing (by decide +kernel)⟩
/-- A privileged grid whose threads are in fault-handler mode. -/
def privileged : State := { handling with dev := handling.dev.modGrid 1 fun g => { g with privileged := true } }
theorem witness_systemRegisters :
    Goes privileged h1 { dests := [VSDst.dst (.v (dn 5 1))], flat := !sysVaries 17 } (fun b t => b.sysDenied t 17 = false)
      (fun _ => Machine.sysAssigned 17 = true) ∧
    Goes privileged h1 { reads := (v 2).reads 0, dests := [VSDst.dst (.v (dn 5 1))], flat := privileged.start.csrFlat h1 (.ind (v 2)) } (fun b t => b.denied t (v 2) = false ∧
      Machine.sysAssigned (b.int t 32 (v 2)) = true ∧ b.sysDenied t (b.int t 32 (v 2)) = false) ∧
    Goes privileged h1 { reads := (v 4).reads 0, flat := (v 4).flat }
      (fun b t => b.inHandler t = true ∧ isPc (BitVec.ofNat 64 (b.int t 64 (v 4))) = true ∧ b.denied t (v 4) = false) (fun b => b.privileged = true) :=
  ⟨issuing (by decide +kernel), issuing (by decide +kernel), issuing (by decide +kernel)⟩
/-- A handler pack of a privileged grid with two rows and a scalar 1 that asks for k of them back. -/
def saving2 (k : Nat) : State := { privileged with dev := privileged.dev.modTeam 0 0 fun t => { t with
  recs := lmod t.recs 0 fun _ => recordOf 0 16384 0 0 2 false,
  packs := t.packs.map fun p => { p with rows := p.rows.take 2, scal := lmod p.scal 1 fun _ => BitVec.ofNat 64 k } } }
def saveUse : Use := { dests := [SDst.dst ⟨5, false⟩], flat := true, collective := true }
theorem witness_rowsInMemory_save : Goes (saving2 0) h0 saveUse (fun _ _ => True) (fun b =>
      let s := saving2 0
      let r := b.team.bufr 0
      let es := b.pack.entries
      let x := s.start.recBlock s.mem b.ridge b.team r ((b.ready saveUse).offset r (.imm 0)).toNat (256 * es.length) 1
      es.length = 2 ∧ (saveTests (b.ready saveUse) r (.imm 0) true es.length).isNone = true ∧ (s.start.saveHold (b.ready saveUse) r (.imm 0) true es.length).isNone = true ∧
      (∀ y ∈ b.pack.rows, y.live = true → y.bad = 0) ∧ x.1 = s.start ∧ x.2.isOk = true) :=
  issuing (by decide +kernel)
def loadUse : Use := { flat := true, collective := true }
/-- One entry stands in memory: the row of name 7. -/
def loading : State :=
  let e : List Byte := (packIn (saving2 1) (by decide +kernel)).entries.headD []
  { saving2 1 with mem := (saving2 1).mem.setBytes 0x6000000000 e }
theorem witness_rowsInMemory_load : Goes loading h0 loadUse (fun _ _ => True) (fun b =>
      let s := loading
      let r := b.team.bufr 0
      let x := s.start.recBlock s.mem b.ridge b.team r ((b.ready loadUse).offset r (.imm 0)).toNat 256 0
      let ps := match x.2 with | .ok ps => ps | _ => []
      let load := fun (p : Pack) => p.loadRows s.start.now (s.start.maxlive b.team.grid) (chunk256 1 (s.start.readParts s.mem ps))
      (b.pack.scalar 1).toNat = 1 ∧ (saveTests (b.ready loadUse) r (.imm 0) false 1).isNone = true ∧
      (s.start.saveHold (b.ready loadUse) r (.imm 0) false 1).isNone = true ∧ x.1 = s.start ∧ x.2.isOk = true ∧
      (load b.pack).1.resident - b.pack.resident ≤ b.team.quota - b.team.inUse + b.pack.granted ∧ (load (b.spentPack loadUse)).2.isNone = true) :=
  issuing (by decide +kernel)
theorem witness_timeAndIdentity :
    Goes world h1 { dests := [VSDst.dst (.v (dw 5 1))], flat := true } ∧ Goes world h1 { dests := [VSDst.dst (.v (dw 5 1))], flat := true, long := true } ∧
    Goes world h1 { reads := (v 3).reads 0, dests := [VSDst.dst (.v (dw 5 1))], flat := (v 3).flat } (fun b t => b.denied t (v 3) = false ∧ b.int t 32 (v 3) ≤ 7) ∧
    Goes world h1 { reads := (v 3).reads 0, dests := spanDsts ⟨40, 2, 2⟩ true 0, flat := (v 3).flat } (fun b t => b.denied t (v 3) = false ∧ b.int t 32 (v 3) ≤ 7) ∧
    Goes world h1 { reads := (Src.imm 0xFF8).reads 0, dests := [VSDst.dst (.v (dw 5 1))], flat := (Src.imm 0xFF8).flat }
      (fun b t => b.denied t (.imm 0xFF8) = false ∧ b.int t 32 (.imm 0xFF8) % 8 = 0 ∧ b.int t 32 (.imm 0xFF8) ≤ 0xFF8) ∧
    Goes world h1 { flat := true } (fun _ _ => True) (fun b => recKind (b.team.bufr 0) = 0) := by
  refine ⟨?_, ?_, ?_, ?_, ?_, ?_⟩ <;> exact issuing (by decide +kernel)
/-- A hint word of a hint that is not implemented, with a name as its destination and a name as its source. -/
def hintWord : HintWord := ⟨1, 7, 0, 0x20060, 0x00200, 0xE0000, 0⟩
theorem witness_hints :
    Goes world h1 { reads := (v 1).reads 0, flat := (v 1).flat } ∧
    Goes world h1 { dests := [VDst.dst (dn 5 1)], flat := true } (fun _ _ => True) (fun b => (world.start.grid b.team.grid).isSome = true) ∧
    (let reads := (Instr.unimplementedHint h1 hintWord).reads
     Goes world h1 { reads := reads, dests := Machine.HintWord.dests hintWord, flat := reads.isEmpty }) :=
  ⟨issuing (by decide +kernel), issuing (by decide +kernel), issuing (by decide +kernel)⟩

/-! ### Bundles that stop, and the whole machine -/

/-- What a bundle that stops at issue meets; Q holds of it. -/
def stops (s : State) (h : Hdr) (flat : Bool) (Q : Bun → Grid → Prop) [∀ b g, Decidable (Q b g)] : Bool :=
  match s.start.bun h flat with
  | some b =>
    match s.start.grid b.team.grid with
    | some g => decide b.pack.WF && ((List.range 32).all fun t => !b.mask.getLsbD t || (b.pack.oldRows t).isNone) && !g.terminated &&
        lrHpc g.record != 0 && ((List.range 32).all fun t => !b.mask.getLsbD t || (b.thread t).all fun x => x.status == .ready && x.handler == .off) && decide (Q b g)
    | none => false
  | none => false
/-- A bundle of a grid with a handler, whose threads are ready outside handler mode, and of which Q holds. -/
abbrev Stops (s : State) (h : Hdr) (flat : Bool) (Q : Bun → Grid → Prop) : Prop :=
  ∃ b g, s.start.bun h flat = some b ∧ b.pack.WF ∧ (∀ t, t < 32 → b.mask.getLsbD t = true → b.pack.oldRows t = none) ∧
    s.start.grid b.team.grid = some g ∧ g.terminated = false ∧ lrHpc g.record ≠ 0 ∧
    (∀ t x, b.mask.getLsbD t = true → b.thread t = some x → x.status = .ready ∧ x.handler = .off) ∧ Q b g
theorem stopping_of {s : State} {h : Hdr} {flat : Bool} {Q : Bun → Grid → Prop} [∀ b g, Decidable (Q b g)] (hk : stops s h flat Q = true) :
    Stops s h flat Q := by
  unfold stops at hk
  split at hk
  · rename_i b hb
    split at hk
    · rename_i g hg
      simp only [Bool.and_eq_true, List.all_eq_true, List.mem_range, Bool.or_eq_true, Bool.not_eq_true', decide_eq_true_eq, bne_iff_ne, ne_eq,
        Option.isNone_iff_eq_none, Option.all_eq_true, beq_iff_eq] at hk
      obtain ⟨⟨⟨⟨⟨hw, hf⟩, ht⟩, hh⟩, hr⟩, hq⟩ := hk
      refine ⟨b, g, hb, hw, fun t ht hm => ?_, hg, ht, hh, fun t x hm hx => ?_, hq⟩
      · rcases hf t ht with h | h
        · rw [hm] at h; cases h
        · exact h
      · have hlt : t < 32 := by
          by_contra hge
          rw [BitVec.getLsbD_of_ge _ _ (by omega)] at hm
          cases hm
        rcases hr t hlt with h | h
        · rw [hm] at h; cases h
        · exact h x hx
    · cases hk
  · cases hk
/-- Every count of a thread below 5 is c. -/
def lowCounts (c : Nat) : State := packW fun p => { p with rows := p.rows.map fun r => { r with count := imap (fun i _ => if i < 5 then c else 15) 0 r.count } }
def addOp : Op2 := ⟨dn 5 1, .reg (v 1) (v 2)⟩
def addUse : Use := { reads := addOp.s.reads, dests := [VDst.dst addOp.d], flat := addOp.s.flat }
def fitsIn (s : State) (u : Use) (b : Bun) : Nat :=
  match (b.spentPack u).rowsFor b.pack b.team b.dev.now b.till (s.start.maxlive b.team.grid) (b.writers u) u.dests with
  | .ok .. => 0
  | .limit => 1
  | .block _ => 2
theorem witness_stopsAtIssue_counts : Stops (lowCounts 0) h0 addUse.flat fun b _ =>
    fitsIn (lowCounts 0) addUse b = 0 ∧ b.mask.getLsbD 3 = true ∧ b.short addUse 3 = true := stopping_of (by decide +kernel)
def limited : State := worldly fun d => d.modGrid 1 fun g => { g with record := g.record &&& ~~~(BitVec.ofNat 2048 (0x1FF * 2 ^ 656)) ||| BitVec.ofNat 2048 (5 * 2 ^ 656) }
theorem witness_stopsAtIssue_limit : Stops limited h0 addUse.flat fun b _ => fitsIn limited addUse b = 1 ∧ (b.writers addUse).getLsbD 3 = true :=
  stopping_of (by decide +kernel)
def scarce : State := teamW fun t => { t with quota := 22 }
theorem witness_stopsAtIssue_quota : Stops scarce h0 addUse.flat fun b _ => fitsIn scarce addUse b = 2 := stopping_of (by decide +kernel)
def divergent : State := { world with dev := { world.dev with cur := world.dev.cur.map fun c => { c with mask := 0xFF } } }
theorem witness_stopsAtIssue_convergence : let u : Use := { dests := spanDsts ⟨40, 15, 3⟩ false 0, flat := true, long := true, collective := true }
    Stops divergent h0 true fun b _ => b.mask ≠ BitVec.allOnes 32 ∧ fitsIn divergent u b = 0 ∧ ∀ k, k < 32 → b.mask.getLsbD k = true → b.short u k = false ∧ b.spoilt u k = false :=
  stopping_of (by decide +kernel)

def nextOf (o : Host.Outcome State Fault Refusal) (s : State) : State := match o with | .next t => t | _ => s
def isNext (o : Host.Outcome State Fault Refusal) : Bool := match o with | .next _ => true | _ => false
theorem isNext_eq {o : Host.Outcome State Fault Refusal} {s : State} (h : isNext o = true) : o = .next (nextOf o s) := by
  cases o <;> first | rfl | cases h
def placed : State := State.reset.withFetchWord 96 0x10000000044080000E000000
theorem witness_stepKeepsInv : State.reset.Inv ∧ placed.Inv ∧ step placed = .next (nextOf (step placed) placed) :=
  ⟨by unfold State.Inv; decide +kernel, by unfold State.Inv; decide +kernel, isNext_eq (by decide +kernel)⟩
theorem witness_stepRunsDecoded : let t := nextOf (exec placed.turn.1.move placed.turn.2) placed
    exec placed.turn.1.move placed.turn.2 = .next t ∧ ∃ c, t.dev.cur = some c ∧ decodeBytes c.word = .ok (.mov h0 (.v (dn 2 2)) (.reg (.imm 0)) 0) :=
  ⟨isNext_eq (by decide +kernel), ((nextOf (exec placed.turn.1.move placed.turn.2) placed).dev.cur).get (by decide +kernel), by decide +kernel⟩
/-- A step of a machine with a turn that is no bundle start. -/
def ticking : State := { State.reset with agenda := [{ dt := 0, move := .rowFree ⟨0, 0, 0⟩ 3 }] }
theorem witness_stepRunsDecoded_move : let t := nextOf (exec ticking.turn.1.move ticking.turn.2) ticking
    exec ticking.turn.1.move ticking.turn.2 = .next t ∧ t.dev.cur = none :=
  ⟨isNext_eq (by decide +kernel), by decide +kernel⟩
theorem witness_decodeEncode : let i : Instr := .mov h0 (.v (dn 2 2)) (.reg (.imm 0)) 0
    i.wf = true ∧ encode i = some 0x10000000044080000E000000 ∧ (leBytes 12 0x10000000044080000E000000).length = 12 ∧
    decodeBytes (leBytes 12 0x10000000044080000E000000) = .ok i := by decide +kernel
theorem witness_unassignedMajors : ∀ m ∈ [0x0E, 0x0F, 0x14, 0x57, 0x6C, 0x7F, 0x8B, 0x8F, 0x93, 0x9B, 0x9F, 0xA8, 0xAF, 0xBA, 0xEF, 0xFE, 0xFF], (leBytes 12 (m * 2 ^ 88)).length = 12 ∧ leNat (leBytes 12 (m * 2 ^ 88)) / 2 ^ 88 = m := by decide +kernel

/-! ### Read and write moves of commands -/

def mk0 : CmdId := .matrix 0 0 6
def ck0 : CmdId := .copy 0 0 5
def physCopy : Cmd := runningOf 5 (.cpy (recordOf 64 32 0 1 0 false) (recordOf 16 32 0 0 0 false))
theorem witness_engineReadMove : ∃ t d1 c', (copying physCopy).start.cmd ck0 = some physCopy ∧ (copying physCopy).start.team 0 0 = some t ∧
    physCopy.open_ = true ∧
    (let segs := (physCopy.view.reads.map fun x => x.cut 0 32).filter fun x => x.len != 0 && !physCopy.view.has x.n
     (copying physCopy).start.mayMove (copying physCopy).mem t physCopy.view false segs = true ∧
     (copying physCopy).start.readSegs (copying physCopy).mem t 0 segs physCopy.view = (d1, .ok c')) :=
  ⟨teamIn (copying physCopy) (by decide +kernel), _, _, by decide +kernel, by decide +kernel, by decide +kernel, by decide +kernel, okIn_eq (by decide +kernel)⟩
/-- Each operation of a matrix command whose moves a statement describes stands at the head of an engine's queue, started. -/
theorem witness_matrixMoves :
    ∀ op ∈ [CmdOp.mst (recordOf 0 65536 256 1 2 false) 0 3 0 0 false, .mldwSpan (List.replicate 512 1) 0 9, .mzero 3, .mwr 3 8 (List.replicate 16 (List.replicate 32 1)),
            .mma false 3 (List.replicate 2048 1) 0 [] false true],
      (matrix (runningOf 6 op)).start.cmd mk0 = some (runningOf 6 op) ∧ ((matrix (runningOf 6 op)).start.team 0 0).isSome = true ∧
      (runningOf 6 op).open_ = true ∧ (runningOf 6 op).has 0 = false ∧ (runningOf 6 op).toShadow = false ∧ (runningOf 6 op).undef = false ∧
      ∀ t, (matrix (runningOf 6 op)).start.team 0 0 = some t → (runningOf 6 op).meetsBad t = false ∧ ∀ u ∈ t.uncovered, u.id = 6 → u.touched = [] := by
  intro op ho
  have h : ∀ op ∈ [CmdOp.mst (recordOf 0 65536 256 1 2 false) 0 3 0 0 false, .mldwSpan (List.replicate 512 1) 0 9, .mzero 3,
            .mwr 3 8 (List.replicate 16 (List.replicate 32 1)), .mma false 3 (List.replicate 2048 1) 0 [] false true],
      (matrix (runningOf 6 op)).start.cmd mk0 = some (runningOf 6 op) ∧ ((matrix (runningOf 6 op)).start.team 0 0).isSome = true ∧
      (runningOf 6 op).open_ = true ∧ (runningOf 6 op).has 0 = false ∧ (runningOf 6 op).toShadow = false ∧ (runningOf 6 op).undef = false ∧
      ((matrix (runningOf 6 op)).start.team 0 0).all (fun t => decide ((runningOf 6 op).meetsBad t = false ∧ ∀ u ∈ t.uncovered, u.id = 6 → u.touched = [])) = true := by
    decide +kernel
  obtain ⟨h1, h2, h3, h4, h5, h6, h7⟩ := h op ho
  exact ⟨h1, h2, h3, h4, h5, h6, of_some h7⟩
def latching : Cmd := { runningOf 6 (.mldwRec (recordOf 0 65536 256 1 2 false) 0 0 9) with data := (List.range (latchBytes 0)).map fun i => (i, 1) }
theorem aget_of_mem {α : Type} {l : List (Nat × α)} {k : Nat} {x : α} (h : (k, x) ∈ l) : (aget l k).isSome = true := by
  induction l with
  | nil => cases h
  | cons a l ih =>
    simp only [aget]
    split
    · rfl
    · rename_i hne
      exact ih ((List.mem_cons.mp h).resolve_left fun he => hne (by rw [← he]))
theorem matrix_cmd (c : Cmd) (hc : c.id = 6) : (matrix c).start.cmd mk0 = some c := by
  have h : ∀ c : Cmd, ((matrix c).start.engine 0 0).queue = [c] := fun c => rfl
  simp [Device.cmd, mk0, h, hc]
theorem witness_latchWrite : (matrix latching).start.cmd mk0 = some latching ∧ latching.open_ = true ∧ ∀ n, n < latchBytes 0 → latching.has n = true :=
  ⟨matrix_cmd _ rfl, rfl, fun n hn => aget_of_mem (x := 1) (List.mem_map.mpr ⟨n, List.mem_range.mpr hn, rfl⟩)⟩
def readyCopy : Cmd := { runningOf 5 copyOp with data := (List.range 32).map fun i => (i, 7), done := [9] }
theorem witness_engineWriteMove : ∃ t d1 n ns, (copying readyCopy).start.cmd ck0 = some readyCopy ∧ (copying readyCopy).start.team 0 0 = some t ∧
    readyCopy.open_ = true ∧
    (let segs := (readyCopy.view.targets.map fun x => x.cut 0 8).filter fun x => x.len != 0
     segs ≠ [] ∧ (∀ x ∈ segs, ∀ i, i < x.len → readyCopy.view.has (x.n + i) = true ∧ x.n + i ∉ readyCopy.view.done) ∧
     (copying readyCopy).start.mayMove (copying readyCopy).mem t readyCopy.view true segs = true ∧
     (copying readyCopy).start.writeSegs (copying readyCopy).mem t readyCopy.view (.cmd 5 none) segs 0 [] = (d1, n, ns, none) ∧
     ns = segs.flatMap (fun y => (List.range y.len).map (y.n + ·)) ∧ objectPart t readyCopy.view.obj = []) :=
  ⟨teamIn (copying readyCopy) (by decide +kernel), _, _, _, by decide +kernel, by decide +kernel, by decide +kernel, by decide +kernel, by decide +kernel,
   by decide +kernel, Prod.ext rfl (Prod.ext rfl (Prod.ext rfl (by decide +kernel))), by decide +kernel, rfl⟩
/-- A chain at its entry 3, in a phase of its walk; from phase 5 on it performs that entry, a copy of 16 bytes from b1 to b1. -/
def chainHdr : BitVec 256 := recordOf 256 320 0 1 0 false
def chainAt (p : Nat) : Cmd :=
  { runningOf 5 (.cpyc chainHdr) with
    chain := (3, p, 8), done := if p = 6 then List.range 16 else [],
    sub := if 5 ≤ p then some (.cpy (recordOf 32 16 64 1 2 false) (recordOf 0 16 64 1 2 false), none) else none }
/-- A chain of capacity 8 in the scratchpad. -/
def chained (p tail : Nat) : State :=
  { copying (chainAt p) with
    dev := (copying (chainAt p)).dev.modTeam 0 0 fun t =>
      { t with scratch := (t.scratch.setBytes 256 (leBytes 8 (8 + tail * 2 ^ 32))).setBytes (256 + 64 + 96)
                 (leBytes 32 (16 * 2 ^ 192 + 32 * 2 ^ 64 + 0xFF * 2 ^ 24 + 1 * 2 ^ 16 + 1 * 2 ^ 8)) } }
def chainTeam (p tail : Nat) : Team := ((chained p tail).start.team 0 0).getD (Team.launch ⟨0, 0, 0, 0, [], 0, none, none, false, none, 0, false, 0, [], [], [], 0, false, false⟩ 0 0 0 [] 0 [])
def chainSeg (off len : Nat) : Seg := { n := 0, r := chainHdr, off := off, len := len }
/-- What a phase reads of the chain, and where a phase's write goes. -/
def chainRead (p tail off len : Nat) := (chained p tail).start.readSeg (chained p tail).mem (chainTeam p tail) 0 (chainSeg off len)
def chainReads (p tail off len : Nat) (v : Nat) : Bool :=
  (chained p tail).start.mayMove (chained p tail).mem (chainTeam p tail) (chainAt p) false [chainSeg off len] &&
    (match (chainRead p tail off len).2 with | .ok bs => leNat bs == v | .error _ => false)
def chainWrites (p off : Nat) (bs : List Byte) : Bool :=
  (chained p 9).start.mayMove (chained p 9).mem (chainTeam p 9) (chainAt p) true [chainSeg off bs.length] &&
    ((chained p 9).start.writeSeg (chained p 9).mem (chainTeam p 9) 0 (.cmd 5 none) (chainSeg off bs.length) bs).2.isOk
theorem witness_chain : ∀ p, p < 7 → (chained p 9).start.cmd ck0 = some (chainAt p) ∧ (chained p 9).start.team 0 0 = some (chainTeam p 9) ∧
    (chainAt p).started = true ∧ (chainAt p).applied = false ∧ (chainAt p).parked = none ∧ (chainAt p).failing = none := by decide +kernel
theorem witness_chain_reads : chainReads 0 9 8 4 0 = true ∧ chainReads 2 9 4 4 9 = true ∧ chainReads 2 3 4 4 3 = true ∧ (chained 2 3).start.cmd ck0 = some (chainAt 2) ∧
    (chained 2 3).start.team 0 0 = some (chainTeam 2 3) ∧ chainReads 3 9 0 4 8 = true ∧ 64 + 32 * 8 ≤ recExtent chainHdr ∧
    chainReads 4 9 (64 + 32 * (3 % 8)) 32 (16 * 2 ^ 192 + 32 * 2 ^ 64 + 0xFF * 2 ^ 24 + 1 * 2 ^ 16 + 1 * 2 ^ 8) = true ∧
    (let e := ChainE.of (leBytes 32 (16 * 2 ^ 192 + 32 * 2 ^ 64 + 0xFF * 2 ^ 24 + 1 * 2 ^ 16 + 1 * 2 ^ 8))
     e.bad = false ∧ (e.command (chainTeam 4 9)).isOk = true) := by decide +kernel
theorem witness_chain_writes : chainWrites 1 12 [0] = true ∧ (chainAt 5).needsLeave = false ∧
    (chained 5 9).start.ordered (chained 5 9).mem (chainAt 5).view (chainTeam 5 9) (cmdExtents (chainAt 5).view.op (chainAt 5).view.obj) = true ∧
    (chainAt 6).view.finished = true ∧ chainWrites 6 8 (leBytes 4 ((3 + 1) % 2 ^ 32)) = true := by decide +kernel

/-! ### Routing -/

def entryR (st : RState) (c : Choice) : REntry :=
  { REntry.fresh with
    state := st, gen := 7, grid := 1, team := 0, rows := 1, k := 1, n := 4, dst := recordOf 0 64 64 0 2 false, staging := recordOf 256 64 0 0 2 false, fmt := 0,
    tmo := 5, start := some 0, weights := [0x3F800000], choices := [c], stations := [0] }
def stationS (records : Nat) : Station :=
  { active := true, desc := BitVec.ofNat 512 (1024 * 2 ^ 64 + 64 * 2 ^ 128 + 5 * 2 ^ 160 + 8 * 2 ^ 192 + 4 * 2 ^ 216), grid := 1,
    queue := { wr := records, rd := 0, times := List.replicate records 0, owners := List.replicate records (0, 2, 7) },
    spill := { wr := 0, rd := 0, times := [], owners := [] }, flushReq := false, timerHit := false }
/-- Thread 1 waits; entry 2 of core 0 and station 0 of partition 0 stand as given, and the team has taken a record of that entry. -/
def routing (w : Wait) (e : REntry) (st : Station) : State :=
  { waitingFor w with
    dev := { ((((waitingFor w).dev.modEntry 0 2 fun _ => e).modPart 0 fun q => { q with stCnt := 1, stations := [(0, st)] }).modTeam 0 0 fun t =>
                { t with taken := [BitVec.ofNat 256 (2 * 2 ^ 73 + 7 * 2 ^ 128)] }).modGrid 1 fun g => { g with station := some 0 } with now := 10 } }
def tableR : BitVec 256 := recordOf 64 8 0 1 0 false
/-- A route of entry 2 under generation 7 that has yet to write the one record of its plan. -/
def routeW (stage : Nat) : Routing :=
  { entry := 2, gen := 7, stage := stage, sent := 0, k := 1, plan := [some 0], bt := tableR, bk := recordOf 512 64 64 0 2 false }
def routeS (stage : Nat) (e : REntry) : State := routing (.route (routeW stage)) e (stationS 0)
def tableOf : List AccPart := okIn ((routeS 0 (entryR .reserved .pending)).start.recBlock (routeS 0 (entryR .reserved .pending)).mem 0
  (teamIn (routeS 0 (entryR .reserved .pending)) (by decide +kernel)) tableR 0 8 0) (by decide +kernel)
theorem witness_routeTableRead : ∃ t p d1, (routeS 0 (entryR .reserved .pending)).start.team 0 0 = some t ∧
    (routeS 0 (entryR .reserved .pending)).start.pack 0 0 0 = some p ∧ p.sliceDone = false ∧
    p.routing = some (2, routeW 0) ∧ t.tableHeld ((routeS 0 (entryR .reserved .pending)).start.entry 0 2) tableR = false ∧
    (∀ u y, (2 : Mask).getLsbD u = true → p.thread u = some y → y.releasing = false) ∧
    (let x := (routeS 0 (entryR .reserved .pending)).start.entry (2 / 32) (2 % 32)
     x.state = .reserved ∧ x.gen = 7 ∧ x.grid = t.grid ∧ x.team = t.index ∧ x.k * x.rows = 1) ∧
    (routeS 0 (entryR .reserved .pending)).start.recBlock (routeS 0 (entryR .reserved .pending)).mem 0 t tableR 0 (8 * 1) 0 = (d1, .ok tableOf) ∧
    (∀ y ∈ tableOf, d1.joined 0 y.place = true) ∧
    ∀ y ∈ (List.range 1).map (tableEntry (d1.readParts (routeS 0 (entryR .reserved .pending)).mem tableOf)), y.2.2.1 = false → y.2.1 = false ∧
      y.2.2.2 < (d1.part t.part).stCnt.toNat ∧ ∃ z, aget (d1.part t.part).stations y.2.2.2 = some z ∧ z.active = true :=
  ⟨teamIn (routeS 0 (entryR .reserved .pending)) (by decide +kernel), packIn (routeS 0 (entryR .reserved .pending)) (by decide +kernel), _, by decide +kernel,
   by decide +kernel, by decide +kernel, by decide +kernel, by decide +kernel,
   fun u y hu => of_some (P := fun y : Thread => y.releasing = false) (of_mask (m := (2 : Mask))
     (P := fun u => ((packIn (routeS 0 (entryR .reserved .pending)) (by decide +kernel)).thread u).all (fun y => decide (y.releasing = false)) = true)
     (by decide +kernel) u hu) y,
   by decide +kernel, okIn_eq _, by decide +kernel, fun y hy hs => by
     have h : ∀ y ∈ (List.range 1).map (tableEntry (((routeS 0 (entryR .reserved .pending)).start.recBlock (routeS 0 (entryR .reserved .pending)).mem 0
         (teamIn (routeS 0 (entryR .reserved .pending)) (by decide +kernel)) tableR 0 (8 * 1) 0).1.readParts (routeS 0 (entryR .reserved .pending)).mem tableOf)),
         y = (0, false, false, 0) := by decide +kernel
     rw [h y hy]
     exact ⟨rfl, by decide +kernel, stationS 0, by decide +kernel⟩⟩
theorem witness_routeStallResume : ∃ t p, (routeS 1 (entryR .routed .pending)).start.team 0 0 = some t ∧ (routeS 1 (entryR .routed .pending)).start.pack 0 0 0 = some p ∧
    p.sliceDone = false ∧ t.saving = none ∧ p.routing = some (2, routeW 1) :=
  ⟨teamIn (routeS 1 (entryR .routed .pending)) (by decide +kernel), packIn (routeS 1 (entryR .routed .pending)) (by decide +kernel), by decide +kernel⟩
theorem witness_recordStoreRetry : ∃ t p, (routeS 2 (entryR .routed .pending)).start.team 0 0 = some t ∧ (routeS 2 (entryR .routed .pending)).start.pack 0 0 0 = some p ∧
    p.sliceDone = false ∧ t.saving = none ∧ p.routing = some (2, routeW 2) :=
  ⟨teamIn (routeS 2 (entryR .routed .pending)) (by decide +kernel), packIn (routeS 2 (entryR .routed .pending)) (by decide +kernel), by decide +kernel⟩
theorem witness_recordStoreResolve : ∃ t p, (routeS 12 (entryR .routed .pending)).start.team 0 0 = some t ∧
    (routeS 12 (entryR .routed .pending)).start.pack 0 0 0 = some p ∧ p.sliceDone = false ∧ t.saving = none ∧
    p.routing = some (2, routeW (2 + 10)) ∧ (10 : Nat) ≠ 0 ∧ (10 : Nat) < 254 ∧ (routeW 12).plan[(routeW 12).sent]? = some (some 0) ∧
    aget ((routeS 12 (entryR .routed .pending)).start.part t.part).stations 0 = some (stationS 0) ∧
    (match (stationS 0).spot (2 / 32, 2 % 32, 7) with | .ring ovf => !ovf | _ => false) = true :=
  ⟨teamIn (routeS 12 (entryR .routed .pending)) (by decide +kernel), packIn (routeS 12 (entryR .routed .pending)) (by decide +kernel), by decide +kernel⟩
def filled : State :=
  let s := routing (.sleep 0) (entryR .routed .pending) { stationS 2 with timerHit := true }
  { s with dev := served s.dev }
theorem witness_flushTimerExpiry : aget (filled.start.part 0).stations 0 = some { stationS 2 with timerHit := true } ∧ (stationS 2).active = true ∧
    (∃ t0 ts, ((stationS 2).queue.times = t0 :: ts ∨ (stationS 2).spill.times = t0 :: ts) ∧ t0 + (stationS 2).flush ≤ filled.start.now) ∧ (stationS 2).flush ≠ 0 :=
  ⟨by decide +kernel, by decide +kernel, ⟨0, [0], by decide +kernel⟩, by decide +kernel⟩
theorem witness_stationTeamLaunch : ∃ g x, filled.start.grid 1 = some g ∧ filled.start.serving 0 = true ∧ filled.start.enqueueing 0 0 = false ∧ g.terminated = false ∧
    g.unretired < (stationS 2).maxt ∧ (stationS 2).queue.untaken + (stationS 2).spill.untaken ≠ 0 ∧
    ((List.range 2).map fun i => (stationS 2).qbase + 32 * (((stationS 2).queue.rd + i) % (stationS 2).qcap)).foldlM (fun (a : Device × List (BitVec 256)) va =>
      match a.1.readBlock filled.mem (a.1.feRidge 0) 0 va 32 with
      | (d, .ok bs) => some (d, a.2 ++ [BitVec.ofNat 256 (leNat bs)])
      | _ => none) (filled.start, []) = some x :=
  ⟨(filled.start.grid 1).get (by decide +kernel), (((List.range 2).map fun i => (stationS 2).qbase + 32 * (((stationS 2).queue.rd + i) % (stationS 2).qcap)).foldlM
     (fun (a : Device × List (BitVec 256)) va =>
      match a.1.readBlock filled.mem (a.1.feRidge 0) 0 va 32 with
      | (d, .ok bs) => some (d, a.2 ++ [BitVec.ofNat 256 (leNat bs)])
      | _ => none) (filled.start, [])).get (by decide +kernel),
   by decide +kernel, by decide +kernel, by decide +kernel, by decide +kernel, by decide +kernel, by decide +kernel, (Option.some_get _).symm⟩
def rretS (stage : Nat) (c : Choice) : State := routing (.rret (recordOf 768 64 16 0 2 false) 0 stage []) (entryR .routed c) (stationS 0)
theorem witness_rretClaim : ∃ x t, (rretS 0 .pending).start.thread t1 = some x ∧ (rretS 0 .pending).start.team 0 0 = some t ∧
    (let w := t.taken.getD 0 0
     let y := (rretS 0 .pending).start.entry (fld w 72 64) (fld w 77 73)
     y.state ≠ .free ∧ y.gen.toNat = fld w 159 128 ∧ (rretS 0 .pending).start.waitNow t1 = some (.rret (recordOf 768 64 16 0 2 false) 0 0 []) ∧ x.releasing = false ∧
     fld w 72 64 < 480 ∧ (rretS 0 .pending).start.trusted (ridgeOf (fld w 72 64)) = true ∧ fld w 47 40 < y.rows ∧ fld w 55 48 < y.k ∧ y.state ≠ .complete ∧
     y.choices.getD (y.k * fld w 47 40 + fld w 55 48) .skipped = .pending) :=
  ⟨threadIn (rretS 0 .pending) (by decide +kernel), teamIn (rretS 0 .pending) (by decide +kernel), by decide +kernel⟩
def rretRec : BitVec 256 := recordOf 768 64 16 0 2 false
def rretSeg : Seg := Seg.clip { n := 0, r := rretRec, off := (0 * 16 : Nat), len := 4 * 4 }
theorem witness_rretLoad : ∃ x t d1 ps, (rretS 1 .claimed).start.thread t1 = some x ∧ (rretS 1 .claimed).start.team 0 0 = some t ∧
    (let w := t.taken.getD 0 0
     let y := (rretS 1 .claimed).start.entry (fld w 72 64) (fld w 77 73)
     y.state ≠ .free ∧ y.gen.toNat = fld w 159 128 ∧ y.n = 4) ∧
    (rretS 1 .claimed).start.waitNow t1 = some (.rret rretRec 0 1 []) ∧ recKind rretRec ≤ 1 ∧ recRd rretRec = true ∧
    0 * recStride rretRec + 4 * 4 ≤ recExtent rretRec ∧ (t.own rretRec = true → t.scored [(recBase rretRec + 0 * recStride rretRec, 4 * 4)] false = false) ∧
    rretSeg.len ≠ 0 ∧ (rretS 1 .claimed).start.recBlock (rretS 1 .claimed).mem 0 t rretRec rretSeg.off.toNat rretSeg.len 0 = (d1, .ok ps) :=
  ⟨threadIn (rretS 1 .claimed) (by decide +kernel), teamIn (rretS 1 .claimed) (by decide +kernel), _, _, by
     refine ⟨?_, ?_, ?_, ?_, ?_, ?_, ?_, ?_, ?_, okIn_eq ?_⟩ <;> decide +kernel⟩
theorem witness_rretArrival : ∃ x, (rretS 2 .claimed).start.thread t1 = some x ∧ (rretS 2 .claimed).start.waitNow t1 = some (.rret rretRec 0 2 []) ∧
    ∀ o ∈ x.queue, o.isWrite = false :=
  ⟨threadIn (rretS 2 .claimed) (by decide +kernel), by decide +kernel⟩
theorem witness_reservationTimeout : (let x := (routeS 0 (entryR .routed .pending)).start.entry 0 2
    x.start = some 0 ∧ x.state = .routed ∧ x.tmo ≠ 0 ∧ 0 + x.tmo ≤ (routeS 0 (entryR .routed .pending)).start.now) := by decide +kernel
def combining : State := routing (.sleep 0) (entryR .routed .arrived) (stationS 0)
def stagedOf := combining.start.staged combining.mem 0 0 (entryR .routed .arrived) 0
def stagedY : List (W32 × List Byte) := okIn stagedOf (by decide +kernel)
def placedOf := stagedOf.1.placeBlock combining.mem 0 0 (recBase (entryR .routed .arrived).dst + 0) 16 1
theorem witness_rowCombine : ∃ ps, combining.start.stagedJoined combining.mem 0 0 (entryR .routed .arrived) 0 = true ∧
    (∀ y ∈ ps, placedOf.1.joined 0 y.place = true) ∧ combining.start.entry 0 2 = entryR .routed .arrived ∧
    (let x := entryR .routed .arrived
     x.state = .routed ∧ 0 < x.rows ∧ 0 ∉ x.combined ∧ x.parked = [] ∧ x.freeing = false ∧
     (∀ c, c < x.k → x.choices.getD (x.k * 0 + c) .skipped ≠ .pending ∧ x.choices.getD (x.k * 0 + c) .skipped ≠ .claimed) ∧
     x.fits 0 = x.n ∧ x.fits 0 ≠ 0 ∧ (elemBits (recElem x.fmt) * x.fits 0 + 7) / 8 = 16) ∧
    stagedOf = (stagedOf.1, .ok stagedY) ∧ placedOf = (placedOf.1, .ok ps) :=
  ⟨okIn placedOf (by decide +kernel), by decide +kernel, by decide +kernel, by decide +kernel, by decide +kernel, okIn_eq _, okIn_eq _⟩
def rsvW : Wait := .rsv 3 (recordOf 0 64 64 0 2 false) (recordOf 256 64 0 0 2 false) 0x1 0 5
theorem witness_rsvEntryFreed : ∃ t p y, (waitingFor rsvW).start.team 0 0 = some t ∧ (waitingFor rsvW).start.pack 0 0 0 = some p ∧ t.saving = none ∧
    p.sliceDone = false ∧ p.thread 1 = some y ∧ y.status = .atBarrier rsvW ∧
    (∀ v, v < 32 → v ≠ 1 → (p.thread v).all (fun z => z.status == .ready) = true) ∧
    (((waitingFor rsvW).start.freedWake ⟨0, 0, 0⟩ p).reserve 0 t.grid t.index (recordOf 0 64 64 0 2 false) (recordOf 256 64 0 0 2 false) 0x1 0 y.gen).isSome = true :=
  ⟨teamIn (waitingFor rsvW) (by decide +kernel), packIn (waitingFor rsvW) (by decide +kernel), threadIn (waitingFor rsvW) (by decide +kernel), by decide +kernel⟩

/-! ### Launch and retirement -/

/-- The two parts of the load of a child's record; the second may have been performed already. -/
def spawnE (po first : Nat) : Entry := { entryAt (.spawnLoad 3 first 9 0) false 128 2 with po := po, va := 64 + first }
def spawning (two : Bool) (more : Device → Device) : State :=
  let s := threaded fun x => { x with po := 9, queue := spawnE 7 0 :: (if two then [spawnE 8 128] else []) }
  { s with dev := more (s.dev.modPack 0 0 0 fun p => { p with flights := [flight3] }) }
/-- A front end that accepts children, and one whose partition has been stopped. -/
def unserved (d : Device) : Device := d.modPart 0 fun q => { q with stopped := true }
theorem witness_spawnSubmit : ∀ f ∈ [(served, true), (unserved, false)], let s := spawning false f.1
    ∃ x t p, s.start.thread t1 = some x ∧ s.start.team 0 0 = some t ∧ x.entry 7 = some (spawnE 7 0) ∧
    s.start.mayLoad t1 x (spawnE 7 0) = true ∧ (∀ o ∈ x.before 7, o.isRelease = false) ∧ s.start.met (spawnE 7 0).place true = none ∧
    (∀ o ∈ x.queue, o.po = 7) ∧ s.start.spawnsBefore t.fe 0 = false ∧ s.start.pack 0 0 0 = some p ∧
    p.flights.find? (fun g => g.id == 3 && g.mask.getLsbD 1) = some flight3 ∧ (∀ z ∈ s.start.submits, z.grid / 2 ^ 60 ≠ t.grid / 2 ^ 60) ∧
    s.start.serving t.part = f.2 := by
  simp only [List.forall_mem_cons, List.not_mem_nil, false_imp_iff, implies_true, and_true]
  exact ⟨⟨threadIn (spawning false served) (by decide +kernel), teamIn (spawning false served) (by decide +kernel), packIn (spawning false served) (by decide +kernel), by decide +kernel⟩,
    threadIn (spawning false unserved) (by decide +kernel), teamIn (spawning false unserved) (by decide +kernel), packIn (spawning false unserved) (by decide +kernel),
    by decide +kernel⟩
theorem witness_spawnSubmitPart : ∃ x t, (spawning true id).start.thread t1 = some x ∧ (spawning true id).start.team 0 0 = some t ∧ x.entry 7 = some (spawnE 7 0) ∧
    (spawning true id).start.mayLoad t1 x (spawnE 7 0) = true ∧ (∀ o ∈ x.before 7, o.isRelease = false) ∧
    (spawning true id).start.met (spawnE 7 0).place true = none ∧ ∃ o ∈ x.queue, o.po ≠ 7 ∧ o.kind = .spawnLoad 3 128 9 0 :=
  ⟨threadIn (spawning true id) (by decide +kernel), teamIn (spawning true id) (by decide +kernel), by decide +kernel⟩
/-- A queue of front end 0 with a launch record at its head. -/
def ringed : State :=
  { idle with
    mem := idle.mem.setBytes 0x6000001000 (leBytes 256 loadRecord.toNat),
    dev := (served idle.dev).modFront 0 fun f => { f with queues := lmod f.queues 2 fun y => { y with reg := true, regBase := 0x1000, regCnt := 16, wr := 1 } } }
def headOf := ringed.start.head ringed.mem 0 2
def headRec : BitVec 2048 × List (BitVec 256) := match headOf.2 with | .ready r bs none => (r, bs) | _ => (0, [])
theorem witness_launchAccept : ringed.start.serving 0 = true ∧ (∀ y ∈ ringed.start.submits, y.grid / 2 ^ 60 ≠ 0) ∧ (ringed.start.front 0).last < 16 ∧
    (∀ k e, k < 16 → k ≠ 2 → e = ringed.start ∨ e = headOf.1 → let y := nth (e.front 0).queues k Queue.fresh; y.reg = false ∨ y.faulted = true ∨ y.rd = y.wr) ∧
    headOf = (headOf.1, .ready headRec.1 headRec.2 none) ∧
    (let y := nth (headOf.1.front 0).queues 2 Queue.fresh
     let l : Launch := { fe := 0, lrec := y.regBase.toNat + 256 * (y.rd.toNat % y.regCnt), record := headRec.1, queue := some (2, y.rd + 1), parent := none,
                         depth := 0, privileged := y.privileged, station := none, wrec := [] }
     let d2 := headOf.1.modFront 0 fun f =>
       { f with last := 2, queues := lmod f.queues 2 (fun z => { z with rd := z.rd + 1, waiting := none }), grids := f.grids + 1, accepts := f.accepts + 1 }
     l.check (d2.front 0) headRec.2 = none) := by
  refine ⟨by decide +kernel, by decide +kernel, by decide +kernel, fun k e hk hne he => ?_, ?_, by decide +kernel⟩
  · rcases he with rfl | rfl
    · exact (by decide +kernel : ∀ k, k < 16 → k ≠ 2 → let y := nth (ringed.start.front 0).queues k Queue.fresh; y.reg = false ∨ y.faulted = true ∨ y.rd = y.wr) k hk hne
    · exact (by decide +kernel : ∀ k, k < 16 → k ≠ 2 → let y := nth (headOf.1.front 0).queues k Queue.fresh; y.reg = false ∨ y.faulted = true ∨ y.rd = y.wr) k hk hne
  · have h : (match headOf.2 with | .ready _ _ none => true | _ => false) = true := by decide +kernel
    have hr : headRec = match headOf.2 with | .ready r bs none => (r, bs) | _ => (0, []) := rfl
    generalize headOf = x at h hr
    obtain ⟨d, b⟩ := x
    match b, h with
    | .ready r bs none, _ => rw [hr]
def unplaced : State := devd fun d => (served d).modGrid 1 fun g => { g with nextTeam := 0, live := 0, slots := [] }
theorem witness_teamPlace : ∃ g, unplaced.start.serving 0 = true ∧ (unplaced.start.unhold 0).nextGrid 0 = some (1, g) ∧ g.saved = [] ∧ g.fours = false ∧
    ((unplaced.start.unhold 0).cursorCores 0).find? ((unplaced.start.unhold 0).coreFits g) = some 0 ∧ g.freeSlot = some 0 :=
  ⟨(unplaced.start.grid 1).get (by decide +kernel), by decide +kernel⟩
def exited : State := packed fun p => { p with rows := [], threads := p.threads.map fun x => { x with status := .exited } }
theorem witness_teamRetire : ∃ t, exited.start.team 0 0 = some t ∧ t.stopping = false ∧ (exited.start.part t.part).resetting = none ∧ (∀ p ∈ t.packs, p.retired = true ∨ ∀ x ∈ p.threads, x.status = .exited) ∧
    exited.start.teamCmds 0 t = [] ∧ exited.start.drained 0 0 t = true ∧ ∀ p ∈ t.packs, ∀ x ∈ p.threads, x.pend = [] :=
  ⟨teamIn exited (by decide +kernel), by decide +kernel⟩
def gridded (f : Grid → Grid) : State :=
  devd fun d => { d with grids := aset d.grids 2 (match d.grid 1 with | some g => f { g with live := 0 } | none => f ⟨0, 0, 0, 0, [], 0, none, none, false, none, 0, false, 0, [], [], [], 0, false, false⟩) }
theorem witness_gridRetire : ∃ g, (gridded fun g => { g with queue := some (2, 1) }).start.grid 2 = some g ∧ g.fe = 0 ∧
    (gridded fun g => { g with queue := some (2, 1) }).start.gridDone 2 g = true ∧ g.queue = some (2, 1) ∧ g.parent = none :=
  ⟨((gridded fun g => { g with queue := some (2, 1) }).start.grid 2).get (by decide +kernel), by decide +kernel⟩
theorem witness_childRetire : ∃ g x, (gridded fun g => { g with parent := some (1, 0, 1) }).start.grid 2 = some g ∧ g.fe = 0 ∧
    (gridded fun g => { g with parent := some (1, 0, 1) }).start.gridDone 2 g = true ∧ g.queue = none ∧ g.parent = some (1, 0, 1) ∧
    (gridded fun g => { g with parent := some (1, 0, 1) }).start.find 1 0 = some x :=
  ⟨((gridded fun g => { g with parent := some (1, 0, 1) }).start.grid 2).get (by decide +kernel),
   ((gridded fun g => { g with parent := some (1, 0, 1) }).start.find 1 0).get (by decide +kernel), by decide +kernel, by decide +kernel, by decide +kernel,
   by decide +kernel, by decide +kernel, (Option.some_get _).symm⟩
theorem witness_stationGridRetire : ∃ g, (gridded fun g => { g with station := some 9 }).start.grid 2 = some g ∧ g.fe = 0 ∧
    (gridded fun g => { g with station := some 9 }).start.gridDone 2 g = true ∧ g.queue = none ∧ g.parent = none :=
  ⟨((gridded fun g => { g with station := some 9 }).start.grid 2).get (by decide +kernel), by decide +kernel⟩

/-! ### Slices, the host and management -/

def slicing (f : Part → Part) : State := devd fun d => d.modPart 0 f
theorem witness_endSlice : (let s := slicing fun q => { q with slice := 1 }
    let q := s.start.part 0
    q.active = true ∧ q.suspended = false ∧ q.saving = false ∧ q.resetting = none ∧ q.loans = [] ∧ s.start.holds 0 (coresOf q.clusters.1 q.clusters.2) = true) := by
  decide +kernel
def timed : State := { slicing (fun q => { q with slice := 1 }) with dev := { (slicing fun q => { q with slice := 1 }).dev with now := 2100 } }
theorem witness_sliceTimer : (let q := timed.start.part 0
    fld q.slice 31 0 ≠ 0 ∧ q.runSince + 1000 * fld q.slice 31 0 ≤ timed.start.clock.read timed.start.now) := by decide +kernel
def emptied : State := devd fun d => { d with cores := [] }
theorem witness_endSliceEmpty : (let q := emptied.start.part 0
    q.active = true ∧ q.suspended = false ∧ q.saving = false ∧ q.resetting = none ∧ q.loans = [] ∧
    emptied.start.holds 0 (coresOf q.clusters.1 q.clusters.2) = false) := by decide +kernel
def suspended : State := slicing fun q => { q with suspended := true }
theorem witness_resume : (let q := suspended.start.part 0
    q.active = true ∧ q.suspended = true ∧ q.resetting = none ∧ ∀ x ∈ suspended.start.parts, x.1 ≠ 0 → x.2.running = true → x.2.meets q = false) := by decide +kernel
def slicedCore (b : Nat) (d : Device) : Device := (d.modPart 0 fun q => { q with reg := q.reg ||| BitVec.ofNat 1024 (0x20 * 2 ^ 64), saving := true }).modCore 0
  fun c => { c with sliceFor := some 0, budget := some b }
def sliced : State := devd (slicedCore 9)
theorem witness_sliceEndEntry : ∃ t p, sliced.start.team 0 0 = some t ∧ sliced.start.pack 0 0 0 = some p ∧ sliced.start.sliceDue 0 t p = true ∧
    sliced.start.sliceOver 0 t = false ∧ fld (sliced.start.part t.part).reg 127 64 ≠ 0 ∧ (sliced.start.part t.part).drainKind ≠ 1 ∧ t.saving = none ∧ p.retired = false ∧
    (∀ n ∈ p.lanes, n ≤ sliced.start.now) ∧ (∀ x ∈ p.threads, x.status = .exited ∨ x.pend = []) ∧ ∃ x ∈ p.threads, x.status ≠ .exited :=
  ⟨teamIn sliced (by decide +kernel), packIn sliced (by decide +kernel), by decide +kernel⟩
def spentS : State := devd (slicedCore 0)
theorem witness_budgetExpiry : (spentS.start.core 0).sliceFor = some 0 ∧ (spentS.start.core 0).budget = some 0 ∧ 0 ≤ spentS.start.now ∧
    (∀ t ∈ (spentS.start.core 0).teams, t.2.part = 0 → t.2.saving = none → ∀ x ∈ t.2.packs,
      (∀ n ∈ x.lanes, n ≤ spentS.start.now) ∧ ∀ y ∈ x.threads, y.handler ≠ .slice) := by decide +kernel
def savingS : State :=
  let s := devd fun d => (slicedCore 0 d).modPart 0 fun q => { q with reg := q.reg ||| BitVec.ofNat 1024 (0x6000100000 * 2 ^ 512 + 256 * 2 ^ 576) }
  { s with dev := { (s.dev.modTeam 0 0 fun t => { t with
      saving := some ⟨true, 0, false⟩, copyQ := [cmdOf 5 copyOp],
      packs := t.packs.map fun p => { p with threads := p.threads.map fun x => { x with aside := none } } }) with now := 42000 } }
theorem witness_saveDrainTimeout : ∃ t, savingS.start.team 0 0 = some t ∧ t.saving = some ⟨true, 0, false⟩ ∧ (savingS.start.part t.part).resetting = none ∧
    0 + 42000 ≤ savingS.start.now ∧
    ∀ q c, q < 4 → c ∈ (savingS.start.engine 0 q).queue → c.grid = t.grid → c.team = t.index → c.id ∈ (savingS.start.kept 0 t).map (·.2.id) :=
  ⟨teamIn savingS (by decide +kernel), by decide +kernel, by decide +kernel, by decide +kernel, by decide +kernel, fun q c hq hc =>
    absurd hc ((List.eq_nil_iff_forall_not_mem.mp ((by decide +kernel : ∀ q, q < 4 → (savingS.start.engine 0 q).queue = []) q hq)) c)⟩
def savable : State := { savingS with dev := savingS.dev.modTeam 0 0 fun t => { t with copyQ := [] } }
theorem witness_teamSave : ∃ t g, savable.start.team 0 0 = some t ∧ savable.start.grid t.grid = some g ∧ t.saving = some ⟨true, 0, false⟩ ∧ g.terminated = false ∧
    savable.start.saveReady 0 0 t = true ∧
    (let cmds := (savable.start.kept 0 t).map fun x => (x.1, { x.2 with rows := [], leave := false, parked := none, pins := [], started := false })
     let t' := { t with packs := imap (fun i p => (savable.start.unspill savable.mem 0 t i p).freeze) 0 t.packs, evict := none, saving := none, copyQ := [] }
     (g.shape t' cmds.length).size ≤ fld (savable.start.part t.part).reg 607 576 * 4096) :=
  ⟨teamIn savable (by decide +kernel), (savable.start.grid 1).get (by decide +kernel), by decide +kernel⟩
def savedS : State :=
  devd fun d => ((served d).modCore 0 fun c => { c with teams := [] }).modGrid 1 fun g =>
    { g with slots := [], saved := [⟨teamIn savable (by decide +kernel), 0x6000100000, 0x6000110000, 0, false, [], 0⟩] }
theorem witness_teamRestore : ∃ g x, savedS.start.serving 0 = true ∧ (savedS.start.unhold 0).nextGrid 0 = some (1, g) ∧ g.saved = [x] ∧ g.fours = false ∧
    ((savedS.start.unhold 0).cursorCores 0).find? ((savedS.start.unhold 0).coreFits g) = some 0 :=
  ⟨(savedS.start.grid 1).get (by decide +kernel), ⟨teamIn savable (by decide +kernel), 0x6000100000, 0x6000110000, 0, false, [], 0⟩, by decide +kernel⟩
def stoppedS : State := threaded fun x => { x with status := .stopped }
theorem witness_dbgrel : ∃ x t, stoppedS.start.thread t1 = some x ∧ stoppedS.start.team 0 0 = some t ∧ t.part = 0 ∧ x.status = .stopped :=
  ⟨threadIn stoppedS (by decide +kernel), teamIn stoppedS (by decide +kernel), by decide +kernel⟩

def request (write : Bool) (view : Nat) : HostReq := { port := 3, write := write, view := view, addr := 0x100, len := 4, data := [1, 2, 3, 4] }
/-- What the port of a request asks of the cols. -/
def upAt (s : State) (port : Nat) : Bool := decide (port < 64) && s.start.trusted (if port < 32 then 8 else 9)
/-- The cols are TRUSTED, and partition 8 has its page table at no address of memory. -/
def hosted : State := devd fun d =>
  { d.modPart 8 fun q => { q with reg := BitVec.ofNat 1024 (2 ^ 50 * 2 ^ 128) } with
    dies := lmod (lmod d.dies 8 fun x => { x with state := .trusted }) 9 fun x => { x with state := .trusted } }
theorem witness_hostMemoryRequest : upAt hosted 3 = true ∧ (hosted.start.hostWrite hosted.mem 1 0x100 [1, 2, 3, 4]).isSome = true ∧
    hosted.start.hostWrite hosted.mem 9 0x100 [1, 2, 3, 4] = none ∧ (hosted.start.hostRead hosted.mem 1 0x100 4).isSome = true ∧
    hosted.start.hostRead hosted.mem 9 0x100 4 = none ∧ (request true 1).view ≤ 16 := by decide +kernel
/-- Col 9 is OFF: no port of 32 to 63 is up. -/
theorem witness_hostMemoryRequestDown :
    upAt { hosted with dev := { hosted.dev with dies := lmod hosted.dev.dies 9 fun x => { x with state := .off } } } 40 = false := by decide +kernel
/-- A write of a word of the management window is an event that runs. -/
theorem witness_hostMemoryRequestWindow : isNext (exec (.mgmtRegisterWrite 0x1200 (BitVec.ofNat 64 (leNat [1, 2, 3, 4, 5, 6, 7, 8]))) hosted) = true := by decide +kernel
def atomicOf : HostAtomic := { port := 3, width := 32, op := 2, view := 1, addr := 0x100, value := 5, cmp := 0 }
theorem witness_hostAtomicRead : upAt hosted atomicOf.port = true ∧ (atomicOf.width = 32 ∨ atomicOf.width = 64) ∧ atomicOf.op ≤ 12 ∧ atomicOf.view ≤ 16 ∧
    hosted.start.hostApl hosted.mem atomicOf = false ∧ (hosted.start.hostRead hosted.mem atomicOf.view atomicOf.addr (atomicOf.width / 8)).isSome = true := by decide +kernel
def atomicPending : State := { hosted with dev := { hosted.dev with hostAtoms := [⟨atomicOf, 9⟩] } }
theorem witness_hostAtomicWrite : upAt atomicPending 3 = true ∧ ∃ x, x.req = atomicOf ∧ x ∈ atomicPending.start.hostAtoms ∧ (∀ y ∈ atomicPending.start.hostAtoms, y.req = atomicOf → y = x) ∧
    atomicPending.start.hostApl atomicPending.mem atomicOf = false ∧
    (let new := atomNew 2 32 x.old.toNat 5 0
     let rest : Device := { atomicPending.start with hostAtoms := atomicPending.start.hostAtoms.erase x }
     (rest.hostWrite atomicPending.mem 1 0x100 (leBytes 4 new)).isSome = true) :=
  ⟨by decide +kernel, ⟨atomicOf, 9⟩, by decide +kernel⟩
/-- The loaded page is of the class in which a host atomic is one move (APL 1). -/
def applied : State := { hosted with dev := { hosted.dev with ridges := hosted.dev.ridges.map fun r => (r.1, { r.2 with tlb := r.2.tlb.map fun e => { e with leaf := e.leaf ||| 0x80 } }) } }
theorem witness_hostAtomicWhole : upAt applied 3 = true ∧ applied.start.hostApl applied.mem atomicOf = true ∧
    (match applied.start.hostRead applied.mem 1 0x100 4 with
     | some (d1, bs) => (d1.hostWrite applied.mem 1 0x100 (leBytes 4 (atomNew 2 32 (leNat bs) 5 0))).isSome
     | none => false) = true := by decide +kernel

def ptp : State := devd fun d => { d with module := { d.module with ptpCfg := 0x103 } }
theorem witness_ptpEventMessage : (¬(idle.start.module.ptpCfg.getLsbD 8 = true ∧ fld idle.start.module.ptpCfg 5 0 = 3)) ∧
    (ptp.start.module.ptpCfg.getLsbD 8 = true ∧ fld ptp.start.module.ptpCfg 5 0 = 3) := by decide +kernel
theorem witness_keyregen : ∀ p ∈ idle.start.parts, p.2.active = true → (BitVec.ofNat 64 (fld p.2.reg 319 256)).getLsbD 5 = false := by decide +kernel
theorem witness_rcmd : idle.start.module.rStat ≠ 1 ∧ (idle.start.part 3).active = false := by decide +kernel

/-- A registration that R330 accepts, for cluster 3 and key 2. -/
def regOf : BitVec 1024 := BitVec.ofNat 1024 (64 * 2 ^ 608 + 2 ^ 576 + 64 * 2 ^ 320 + 4 * 2 ^ 256 + 2 ^ 224 + 3 * 2 ^ 208 + 3 * 2 ^ 192)
def registering : State := devd fun d => d.modPart 1 fun q => { q with reg := regOf }
theorem witness_activate : (let d := registering.start
    let q := d.part 1
    let lo := fld q.reg 207 192
    let hi := fld q.reg 223 208
    q.active = false ∧ q.resetting = none ∧ d.module.heldBy = false ∧ regOk q.reg = true ∧ (BitVec.ofNat 64 (fld q.reg 319 256)).getLsbD 0 = false ∧
    ∀ x ∈ d.parts, x.1 ≠ 1 → (x.2.running = true → hi < x.2.clusters.1 ∨ x.2.clusters.2 < lo) ∧
      (x.2.active = true → fld x.2.reg 319 256 &&& fld q.reg 319 256 = 0)) := by decide +kernel
theorem witness_activateRefused : (idle.start.part 2).active = false ∧ (idle.start.part 2).resetting = none ∧ regOk (idle.start.part 2).reg = false := by decide +kernel
theorem witness_partitionReset : (idle.start.part 0).active = true ∧ (idle.start.part 0).resetting = none ∧ (idle.start.part 0).saving = false ∧
    (idle.start.part 5).active = false ∧ (idle.start.part 5).resetting = none := by decide +kernel
theorem witness_migrationStopEmpty : (emptied.start.part 0).active = true ∧ (emptied.start.part 0).suspended = false ∧ (emptied.start.part 0).loans = [] ∧
    (∀ x ∈ emptied.start.teams, x.2.2.part ≠ 0) ∧ emptied.start.holds 0 (coresOf (emptied.start.part 0).clusters.1 (emptied.start.part 0).clusters.2) = false := by decide +kernel
theorem witness_migrationStop : (suspended.start.part 0).active = true ∧ (suspended.start.part 0).suspended = true ∧
    (idle.start.part 0).suspended = false ∧ (idle.start.part 0).loans = [] ∧
    (∃ x ∈ idle.start.teams, x.2.2.part = 0) ∧ idle.start.holds 0 (coresOf (idle.start.part 0).clusters.1 (idle.start.part 0).clusters.2) = true := by decide +kernel
def resettingP : State :=
  let s := slicing fun q => { q with resetting := some 0 }
  { s with dev := { s.dev with now := 210000 } }
theorem witness_resetDrainTimeout : (resettingP.start.part 0).resetting = some 0 ∧ 0 + 210000 ≤ resettingP.start.now := by decide +kernel
theorem witness_registrationUpdate : (BitVec.ofNat 64 (2 ^ 32)).extractLsb' 32 16 ≠ 0 ∧ (0x5000 : BitVec 64).toNat ≠ fld (idle.start.part 0).reg 447 384 := by decide +kernel
/-- Partition 0 has clusters 4 to 7, partition 1 the clusters from a to b. -/
def beside (a b : Nat) : State := devd fun d => (d.modPart 0 fun q => { q with clusters := (4, 7) }).modPart 1 fun q => { q with active := true, clusters := (a, b) }
theorem witness_loan : ((beside 0 3).start.part 0).active = true ∧ ((beside 0 3).start.part 1).active = true ∧ ((beside 0 3).start.part 0).clusters.1 + 2 ≤ ((beside 0 3).start.part 0).clusters.2 ∧
    ((beside 0 3).start.part 1).clusters.2 + 1 = ((beside 0 3).start.part 0).clusters.1 ∧
    ((beside 8 9).start.part 1).clusters.2 + 1 ≠ ((beside 8 9).start.part 0).clusters.1 ∧
    ((beside 8 9).start.part 0).clusters.2 + 1 = ((beside 8 9).start.part 1).clusters.1 ∧
    ((beside 9 9).start.part 1).clusters.2 + 1 ≠ ((beside 9 9).start.part 0).clusters.1 ∧
    ((beside 9 9).start.part 0).clusters.2 + 1 ≠ ((beside 9 9).start.part 1).clusters.1 := by decide +kernel
/-- Partition 1 holds the clusters 1 to 3, with a team on core 4; partition 0 ends before them. -/
def lent : State :=
  devd fun d =>
    let d : Device := { d with cores := d.cores.map fun (c : Nat × Core) => (4, { c.2 with teams := c.2.teams.map fun (t : Nat × Team) => (t.1, { t.2 with part := 1 }) }) }
    (d.modPart 1 fun q => { q with active := true, clusters := (1, 3) }).modPart 0 fun q => { q with clusters := (0, 0) }
theorem witness_reclaim : (let d := lent.start
    let q := d.part 0
    let b := d.part 1
    q.active = true ∧ b.loans = [] ∧ b.resetting = none ∧ b.clusters.1 + 1 ≤ b.clusters.2 ∧ q.clusters.2 + 1 = b.clusters.1 ∧
    d.holds 1 (((List.range 1).map (b.clusters.1 + ·)).flatMap fun c => coresOf c c) = true) := by decide +kernel

def ring0 : State := devd fun d => d.modFront 0 fun f => { f with queues := lmod f.queues 2 fun y => { y with base := 0x1000, cnt := 16 } }
theorem witness_queueRegister : (let d := ring0.start
    let x := nth (d.front 0).queues 2 Queue.fresh
    let cnt := fld x.cnt 16 0
    d.module.heldBy = false ∧ x.base.toNat % 256 = 0 ∧ powerOfTwo cnt = true ∧ 16 ≤ cnt ∧ cnt ≤ 65536 ∧
    (d.ringOk ring0.mem 0 x.base.toNat (256 * cnt)).2 = true) := by decide +kernel
/-- Queue 3 has a misaligned base, queue 4 a ring of no legal size. -/
def ringsBad : State := devd fun d => d.modFront 0 fun f =>
  { f with queues := lmod (lmod f.queues 3 fun y => { y with base := 0x1001, cnt := 16 }) 4 fun y => { y with base := 0x1000, cnt := 24 } }
theorem witness_queueRegisterFails : (let x := nth (ringsBad.start.front 0).queues 3 Queue.fresh
    let y := nth (ringsBad.start.front 0).queues 4 Queue.fresh
    x.base.toNat % 256 ≠ 0 ∧ x.faulted = false ∧ y.base.toNat % 256 = 0 ∧ powerOfTwo (fld y.cnt 16 0) = false) := by decide +kernel
theorem witness_qwr : (let x := nth (ringed.start.front 0).queues 2 Queue.fresh
    x.reg = true ∧ ((5 : BitVec 32) - x.wr).toNat < 2 ^ 31 ∧ ((5 : BitVec 32) - x.rd).toNat ≤ x.regCnt) := by decide +kernel
/-- A station's descriptor at 0x2000, its launch record at 0x3000. -/
def stationed : State :=
  { idle with
    mem := (idle.mem.setBytes 0x6000002000 (leBytes 64 (0x3000 + 0x4000 * 2 ^ 64 + 64 * 2 ^ 128 + 2 ^ 192 + 2 ^ 216))).setBytes 0x6000003000 (leBytes 256 loadRecord.toNat),
    dev := idle.dev.modPart 0 fun q => { q with stBase := 0x2000, stCnt := 5 } }
def descIn := stationed.start.readBlock stationed.mem (stationed.start.feRidge 0) 0 0x2000 64
def lrecIn := descIn.1.readBlock stationed.mem (stationed.start.feRidge 0) 0 0 0
def lrecIn2 := lrecIn.1.readBlock stationed.mem (stationed.start.feRidge 0) 0 0x3000 256
def bufsIn := lrecIn2.1.readBufs stationed.mem 0 loadRecord
theorem witness_stationActivate : (let q := stationed.start.part 0
    q.active = true ∧ q.resetting = none ∧ 0 < fld q.stCnt 12 0 ∧ aget q.stations 0 = none) ∧ descIn.2.isOk = true ∧
    (match descIn.2 with
     | .ok bs => let x := BitVec.ofNat 512 (leNat bs); descOk x && fld x 447 384 == 0 && fld x 228 224 == 0 && fld x 63 0 == 0x3000
     | _ => false) = true ∧
    (match lrecIn.2 with | .ok [] => true | _ => false) = true ∧ (match lrecIn2.2 with | .ok bs => leNat bs == loadRecord.toNat | _ => false) = true ∧
    (match bufsIn.2 with
     | .ok bufs =>
       let l : Launch := { fe := 0, lrec := 0x3000, record := loadRecord, queue := none, parent := none, depth := 0, privileged := false,
                           station := some 0, wrec := [] }
       decide (l.check ((bufsIn.1.modFront 0 fun f => { f with grids := f.grids + 1, accepts := f.accepts + 1 }).front 0) bufs = none)
     | _ => false) = true := by decide +kernel
def stationAt : State := slicing fun q => { q with stations := [(3, { active := true, desc := 0, grid := 1, queue := ⟨0, 0, [], []⟩, spill := ⟨0, 0, [], []⟩, flushReq := false, timerHit := false })] }
theorem witness_stationDeactivate : (aget (stationAt.start.part 0).stations 3).isSome = true := by decide +kernel
def sampling : State := slicing fun q => { q with reg := q.reg ||| BitVec.ofNat 1024 (10 * 2 ^ 359) }
theorem witness_pcSample : ∃ t p, (let d := sampling.start
    let q := d.part 0
    q.active = true ∧ fld q.reg 363 359 ≠ 0 ∧ d.now % 2 ^ fld q.reg 363 359 = 0 ∧ (d.core 0).sampled ≠ some d.now ∧ q.clusters.1 ≤ 0 ∧ 0 ≤ q.clusters.2 ∧
    (((d.packsOf 0 0).filter fun x => (d.core 0).samplePos ≤ x) ++ d.packsOf 0 0).head? = some 0 ∧ d.team 0 0 = some t ∧ d.pack 0 0 0 = some p) :=
  ⟨teamIn sampling (by decide +kernel), packIn sampling (by decide +kernel), by decide +kernel⟩
/-- Nine partitions with all the counters of ridge 0 enabled. -/
def counted : State := { State.reset with dev := { State.reset.dev with
  now := 2100000,
  parts := (List.range 9).map fun p => (p, { Part.fresh with
    counters := (List.range 8).map fun k => (k, { sel := 1, count := 0, en := 0, run := 0, seq := 0, phys := false, since := 0 }) }) } }
theorem witness_counterRotate : (let e := counted.start.settleCounters
    64 < ((e.ridgeCounters 0).filter fun x => x.2.2.on).length ∧ (counted.start.ridge 0).rotated + 2100000 ≤ counted.start.now) := by decide +kernel

/-! ### Trust and links -/

def dieIs (n : Nat) (f : Die → Die) : State := devd fun d => { d with dies := lmod d.dies n f }
theorem witness_powerGood : (State.reset.start.die 3).state = .off ∧ 3 < State.reset.start.dies.length := by decide +kernel
def booting : State := dieIs 3 fun x => { x with state := .booting }
theorem witness_bootMeasured : (booting.start.die 3).state = .booting ∧ ¬((booting.start.die 8).state = .quarantined ∧ (booting.start.die 8).reason = 9) ∧
    booting.start.module.attesting ≠ some 3 ∧ ∃ digest, digest = Config.sha256 ((booting.start.die 3).image.getD (Config.shippedImage 3)) :=
  ⟨by decide +kernel, by decide +kernel, by decide +kernel, _, rfl⟩
def booting0 : State := { State.reset with dev := { State.reset.dev with dies := lmod State.reset.dev.dies 3 fun x => { x with state := .booting } } }
theorem witness_bootImageRejected : (booting0.start.die 3).state = .booting ∧ booting0.start.module.attesting ≠ some 3 ∧ (∀ p ∈ booting0.start.parts, p.2.active = false) := by
  decide +kernel
def measured : State := dieIs 8 fun x => { x with state := .measured }
/-- Every die has had its turn of the bring-up, and ridge 3 asks again. -/
def asking : State :=
  let s := dieIs 3 fun x => { x with state := .measured }
  { s with dev := { s.dev with module := { s.dev.module with turned := bringUp, asks := [3, 5] } } }
theorem witness_getVersion :
    ((measured.start.die 8).state = .measured ∧ measured.start.module.attesting = none ∧ 8 < measured.start.dies.length ∧
      bringUp.find? (fun n => !measured.start.module.turned.contains n) = some 8) ∧
    (asking.start.die 3).state = .measured ∧ asking.start.module.attesting = none ∧ 3 < asking.start.dies.length ∧
      (∀ n ∈ bringUp, n ∈ asking.start.module.turned) ∧ asking.start.module.asks.head? = some 3 := by decide +kernel
def attested (n k : Nat) : State := devd fun d =>
  { d with dies := lmod d.dies n fun x => { x with state := .attesting, step := k, since := 0, measurement := Config.manifest true, memKeys := false },
           module := { d.module with attesting := some n }, now := 525000000 }
/-- The hypotheses of each step; in step 4 the die answers with the chain in its fuses. -/
theorem witness_attestation : (∀ k, k < 9 → ((attested 3 k).start.die 3).state = .attesting ∧ ((attested 3 k).start.die 3).step = k ∧
    (attested 3 k).start.module.attesting = some 3 ∧ ((attested 3 k).start.die 3).since + 525000000 ≤ (attested 3 k).start.now) ∧
    ((attested 3 6).start.die 3).measurement = Config.manifest true ∧ ∃ root leaf, Config.fusedChain 3 = (root, leaf) :=
  ⟨fun _ _ => ⟨rfl, rfl, rfl, by show 0 + 525000000 ≤ 525000000; omega⟩, rfl, _, _, rfl⟩
theorem witness_finish : ((attested 3 8).start.keyed 3 = true ∧ (8 ≤ 3 ∨ ((attested 3 8).start.die 3).memKeys = true)) = False := by
  simp [show ((attested 3 8).start.die 3).memKeys = false from rfl]
/-- Col 8 waits for FINISH with keys in all its links. -/
def finishing : State := devd fun d =>
  { d with links := d.links.map fun (l : Link) => { l with armed := true, keys := [some 0, none] },
           dies := d.dies.map fun (x : Die) => { x with state := .attesting, step := 8, since := 0, session := true }, module := { d.module with attesting := some 8 } }
theorem witness_finishOpens : (finishing.start.die 8).state = .attesting ∧ (finishing.start.die 8).step = 8 ∧ finishing.start.module.attesting = some 8 ∧
    finishing.start.keyed 8 = true := by decide +kernel
/-- Die 3 in a state, with a recovery from an address of the system space in progress. -/
def recovering (x : DieState) (addr : Nat) : State :=
  let s := dieIs 3 fun y => { y with state := x }
  { s with dev := { s.dev with module := { s.dev.module with rStat := 1, rDie := 3, rAddr := BitVec.ofNat 64 addr, rLen := 4096 } } }
/-- An image is fetched; the checks come to one of the two outcomes. -/
theorem witness_recoveryComplete : ∀ x ∈ [DieState.quarantined, .off], let s := recovering x 0x100000000000
    s.start.module.rStat = 1 ∧ s.start.module.rDie = 3 ∧ (s.start.die 3).state = x ∧ 3 < s.start.dies.length ∧ s.start.module.rAddr.toNat % 4096 = 0 ∧
    1 ≤ s.start.module.rLen.toNat ∧ s.start.module.rLen.toNat ≤ 64 * 2 ^ 20 ∧ regionOf s.start.module.rAddr.toNat = .system ∧
    regionOf (s.start.module.rAddr.toNat + s.start.module.rLen.toNat - 1) = .system := by decide +kernel
theorem witness_recoveryCompleteUnnamed : (recovering .quarantined 0x801).start.module.rStat = 1 ∧ (recovering .quarantined 0x801).start.module.rDie = 3 ∧
    (recovering .quarantined 0x801).start.module.rAddr.toNat % 4096 ≠ 0 := by decide +kernel
theorem witness_quar : idle.start.trusted 0 = true ∧ hosted.start.trusted 8 = true ∧ ((recovering .quarantined 0).start.die 3).state = .quarantined := by decide +kernel
def armed : State := devd fun d => { d with links := d.links.map fun (l : Link) => { l with armed := true }, dies := lmod d.dies 3 fun x => { x with state := .attesting, step := 9 } }
theorem witness_ridgeReopen : (armed.start.die 3).state = .attesting ∧ (armed.start.die 3).step = 9 ∧ armed.start.keyed 3 = true ∧ armed.start.trusted 1 = false := by
  decide +kernel
/-- The link from ridge 0 to col 8, changed; both dies are TRUSTED. -/
def linked (f : Link → Link) : State :=
  devd fun d => { d with
    links := d.links.map fun (l : Link) => if l.src = 0 ∧ l.dst = 8 then f { l with armed := true, keys := [some 7, none] } else l,
    dies := d.dies.map fun (x : Die) => { x with state := .trusted, session := true }, now := 7560000000000 }
def linkIn (f : Link → Link) (h : ((linked f).start.link 0 8).isSome = true) : Link := ((linked f).start.link 0 8).get h
theorem witness_linkKeyInstall : ∃ l, (linked fun l => { l with armed := false }).start.link 0 8 = some l ∧ l.armed = false ∧
    ((linked fun l => { l with armed := false }).start.die 0).session = true ∧ ((linked fun l => { l with armed := false }).start.die 8).session = true ∧
    ((linked fun l => { l with armed := false }).start.die 0).state ≠ .attesting ∧ ((linked fun l => { l with armed := false }).start.die 8).state ≠ .attesting :=
  ⟨linkIn (fun l => { l with armed := false }) (by decide +kernel), by decide +kernel⟩
theorem witness_keyRollover : ∃ l, (linked id).start.link 0 8 = some l ∧ l.armed = true ∧ l.rolling = false ∧ l.since + 7560000000000 ≤ (linked id).start.now ∧
    (linked id).start.trusted 0 = true ∧ (linked id).start.trusted 8 = true :=
  ⟨linkIn id (by decide +kernel), by decide +kernel⟩
/-- A flit that passes under key 7 of identifier 0, and one under identifier 1, which has no key. -/
def goodFlit : Flit := { ctr := 5, header := [], data := [], tag := Config.gcmTag (Config.linkKey 7) (nonce 0 8 5) [] [] }
theorem witness_flitReceive : ∃ l, (linked id).start.link 0 8 = some l ∧ l.armed = true ∧ l.rolling = false ∧
    (∃ k, l.keys.getD false.toNat none = some k ∧ Config.gcmTag (Config.linkKey k) (nonce 0 8 goodFlit.ctr) goodFlit.header goodFlit.data = goodFlit.tag) ∧
    l.keys.getD true.toNat none = none :=
  ⟨linkIn id (by decide +kernel), by decide +kernel, by decide +kernel, by decide +kernel, ⟨7, by decide +kernel, rfl⟩, by decide +kernel⟩
def rolling (accepted : Bool) : Link → Link := fun l => { l with rolling := true, switched := accepted, accepted := accepted }
/-- Key 7 of the new identifier is set, and the sender has not switched to it. -/
def early : Link → Link := fun l => { l with rolling := true, switched := false, keys := [none, some 7] }
theorem witness_flitReceiveEarly : ∃ l, (linked early).start.link 0 8 = some l ∧ l.armed = true ∧ true ≠ l.sender ∧ l.rolling = true ∧ l.switched = false ∧
    ∃ k, l.keys.getD true.toNat none = some k ∧ Config.gcmTag (Config.linkKey k) (nonce 0 8 goodFlit.ctr) goodFlit.header goodFlit.data = goodFlit.tag :=
  ⟨linkIn early (by decide +kernel), by decide +kernel, by decide +kernel, by decide +kernel, by decide +kernel, by decide +kernel, 7, by decide +kernel, rfl⟩
theorem witness_keySwitch : ∃ l, (linked (rolling false)).start.link 0 8 = some l ∧ l.armed = true ∧ l.rolling = true ∧ l.switched = false :=
  ⟨linkIn (rolling false) (by decide +kernel), by decide +kernel⟩
theorem witness_oldKeyRetire : ∃ l, (linked (rolling true)).start.link 0 8 = some l ∧ l.armed = true ∧ l.rolling = true ∧ l.switched = true ∧ l.accepted = true :=
  ⟨linkIn (rolling true) (by decide +kernel), by decide +kernel⟩
theorem witness_linkFailure : ∃ l, (linked fun l => { l with badRun := 16 }).start.link 0 8 = some l ∧ l.armed = true ∧ 16 ≤ l.badRun :=
  ⟨linkIn (fun l => { l with badRun := 16 }) (by decide +kernel), by decide +kernel⟩
/-- Ridge 0 holds two dirty lines: one whose key is partition 0's, one of no partition. -/
def dirtied : State := devd fun d =>
  (d.modRidge 0 fun y => { y with dirty := [(5, 0, List.replicate 128 1), (0xC0000001, 9, List.replicate 128 2)] }) |> fun d => { d with keys := aset d.keys 0xC0000001 1 }
theorem witness_dirtyRidgeCacheLineError : (dirtied.start.ridge 0).dirty.find? (fun x => x.1 == 5) = some (5, 0, List.replicate 128 1) ∧ dirtied.start.ownerOf 5 = none ∧
    (dirtied.start.ridge 0).dirty.find? (fun x => x.1 == 0xC0000001) = some (0xC0000001, 9, List.replicate 128 2) ∧ dirtied.start.ownerOf 0xC0000001 = some 0 := by
  decide +kernel
/-- An image of one line in segment form at 0x2000 that holds no instruction and ends in an exit. -/
def segmented : State := { idle with mem := idle.mem.setBytes 0x6000002000 (leBytes 8 (2 ^ 30) ++ List.replicate 108 0 ++ leBytes 12 3) }
def segIn := segmented.start.vread segmented.mem (segmented.start.feRidge 0) 0 0x2000 128
def segLines : List (List Byte) := match segIn.2 with | .ok bs => [bs] | _ => []
theorem witness_segmentFormTranslator : ∃ out, segIn.2.isOk = true ∧ (0x400 % 128 = 0) ∧
    segLines.length = 1 ∧ (∀ l ∈ segLines, segLineOk l none (segStarts segLines) = true) ∧ segOut segLines = some out ∧
    (∀ k, k < out.length → (segmented.start.part 0).window (0x400 + 128 * k) = true) ∧
    (segIn.1.vwrite segmented.mem (segmented.start.feRidge 0) 0 0x400 out.flatten).2.isOk = true :=
  ⟨(segOut segLines).get (by decide +kernel), by decide +kernel, by decide +kernel, by decide +kernel, by decide +kernel,
   (Option.some_get _).symm, by decide +kernel, by decide +kernel⟩

end Sys2Proof.Tests
end

section
/-! PROOFS. The cross-thread instructions and `topk` (R166 to R171): what each leaves pending or writes. -/

namespace Sys2Proof.Machine

open Sys2Proof

/-! ### Signed reads and threads below a bound -/

/-- The model's signed value is the two's complement value (R4). -/
theorem signed32_eq_toInt (x : Nat) : signed 32 x = (BitVec.ofNat 32 x).toInt := by
  have hlt : x % 2 ^ 32 < 2 ^ 32 := Nat.mod_lt _ (by norm_num)
  rw [BitVec.toInt_eq_toNat_cond, BitVec.toNat_ofNat]
  unfold signed bit
  generalize x % 2 ^ 32 = y at hlt ⊢
  have hbit : (y / 2 ^ (32 - 1) % 2 == 1) = decide (2 ^ 31 ≤ y) := by
    rw [Bool.eq_iff_iff, beq_iff_eq, decide_eq_true_eq]
    omega
  rw [hbit]
  split <;> split <;> simp_all <;> omega

/-- No thread of a mask stands at 32 or above. -/
theorem filter_range_min (m : Mask) (n : Nat) :
    (List.range (min n 32)).filter (fun k => m.getLsbD k) = (List.range n).filter (fun k => m.getLsbD k) := by
  rcases Nat.le_total n 32 with h | h
  · rw [Nat.min_eq_left h]
  · obtain ⟨k, rfl⟩ := Nat.exists_eq_add_of_le h
    have hpast : ((List.range k).map (32 + ·)).filter (fun k => m.getLsbD k) = [] := by
      simp [List.filter_eq_nil_iff, BitVec.getLsbD_of_ge]
    rw [Nat.min_eq_right h, List.range_add, List.filter_append, hpast, List.append_nil]

/-! ### Instructions that only give every thread of Part its values -/

/-- What each thread comes to when the denied ones fault and the others have their values (R148). -/
def valsUnless (den : Nat → Bool) (v : Nat → List Nat) (t : Nat) : Res := if den t then .fault .privilege 0 else { vals := v t }

theorem valsUnless_of_not {den : Nat → Bool} {t : Nat} (h : den t = false) (v : Nat → List Nat) : valsUnless den v t = { vals := v t } := by
  rw [valsUnless, h, if_neg Bool.false_ne_true]

section issuing
variable {s : State} {h : Hdr} {u : Use} {b : Bun} {i : Instr} {body : Bun → Device → Device × (Nat → Res)} {den : Nat → Bool}

/-- A long-latency instruction that gives every thread of Part one value leaves it pending (R45, R61). -/
theorem Issues.sends {v : Nat → Nat} {d : Dst} (hI : Issues s h u b) (he : exec i s = s.run fun _ d => d.issue h u body)
    (hl : u.long = true) (hd : u.dests = [d]) (hbody : ∀ rows fls d, body (b.going u rows fls) d = (d, valsUnless den fun t => [v t]))
    (hno : ∀ t, (b.partOf u).getLsbD t = true → den t = false) : Sends s b u b.onward i v := by
  obtain ⟨q, hq, hE, _, hP, _⟩ := hI.run_next hbody fun t ht => by rw [valsUnless_of_not (hno t ht)]
  exact ⟨q, he.trans hq, hE, (hP d hl hd).congr fun t ht => by rw [valsUnless_of_not (hno t ht)]⟩

/-- A short-latency instruction that gives every thread of Part its values writes them in the order of its destinations (R59, R60). -/
theorem Issues.gives {v : Nat → List Nat} (hI : Issues s h u b) (he : exec i s = s.run fun _ d => d.issue h u body)
    (hl : u.long = false) (ha : Apart u.dests) (hbody : ∀ rows fls d, body (b.going u rows fls) d = (d, valsUnless den v))
    (hno : ∀ t, (b.partOf u).getLsbD t = true → den t = false) : Gives s b u i v := by
  obtain ⟨q, hq, hE, _, _, hW⟩ := hI.run_next hbody fun t ht => by rw [valsUnless_of_not (hno t ht)]
  refine ⟨q, he.trans hq, hE, fun j n wd c hj hc t ht => ?_⟩
  have := hW ha j n wd c hj hc t ht
  rwa [hl, if_neg Bool.false_ne_true, valsUnless_of_not (hno t ht)] at this

end issuing

/-! ### Cross-thread instructions (R166 to R170) -/

/-- What a cross-thread instruction of one destination uses (R149, R167). -/
abbrev crossUse (reads : List Nat) (dest : Dst) : Use := { reads := reads, dests := [dest], long := true, cross := true }

/-- A cross-thread instruction that no thread of Part is denied leaves its value pending, when that value does not depend on the rows
that its bundle takes (R45, R149, R167). -/
theorem crossOp_sends {s : State} {i : Instr} {h : Hdr} {reads : List Nat} {dest : Dst} {den : Bun → Nat → Bool} {f : Bun → Nat → Nat} {b : Bun}
    {v : Nat → Nat} (hI : Issues s h (crossUse reads dest) b) (hh : i.hdr = some h) (hr : i.reads = reads)
    (he : exec i s = s.run fun _ d => d.crossOp i dest den f)
    (hden : ∀ rows fls t, den (b.going (crossUse reads dest) rows fls) t = den b t)
    (hno : ∀ t, (b.partOf (crossUse reads dest)).getLsbD t = true → den b t = false)
    (hf : ∀ rows fls t, f (b.going (crossUse reads dest) rows fls) t = v t) :
    Sends s b (crossUse reads dest) b.onward i v := by
  refine hI.sends (den := den b) (body := fun b d => (d, fun t => if den b t then .fault .privilege 0 else .ok (f b t)))
    (he.trans ?_) rfl rfl (fun rows fls d => ?_) hno
  · simp only [Device.crossOp, hh, hr]
  · simp only [hden, hf]
    rfl

/-- The source thread of `shfl`, as R168 gives it for each mode. -/
theorem shflFrom_eq (m : BitVec 2) (t l : Nat) :
    shflFrom m t l = match m.toNat with
      | 0 => ((l % 32 : Nat) : Int)
      | 1 => (t : Int) + (BitVec.ofNat 32 l).toInt
      | 2 => ((t : Int) + (BitVec.ofNat 32 l).toInt) % 32
      | _ => ((t ^^^ (l % 32) : Nat) : Int) := by
  rw [shflFrom, signed32_eq_toInt] <;> rfl

section going
variable (b : Bun) (u : Use) (rows fls : List Nat)

theorem going_truths (a : Src) :
    (b.going u rows fls).truths a = maskOf fun t => (b.partOf u).getLsbD t && b.int t 32 a != 0 := by
  simp only [Bun.truths, going_int]

theorem going_column (w : Nat) (a : Src) :
    (b.going u rows fls).column w a = (List.range 32).map fun t => if (b.partOf u).getLsbD t then some (b.int t w a) else none := by
  simp only [Bun.column, going_int]

end going

/-- Whether all threads of Part hold the same value, as a test of all 32 threads (R169). -/
theorem threadsOf_all (m : Mask) (p : Nat → Bool) : (threadsOf m).all p = (List.range 32).all fun t => !m.getLsbD t || p t := by
  rw [threadsOf, List.all_filter]

section scan
variable (f : Nat → Nat → Nat) (p : Nat → Bool) (g : Nat → Nat)

/-- Combining from a value on, absent threads are passed over (R170). -/
theorem foldl_combineOpt_some (l : List Nat) (x : Nat) :
    (l.map fun t => if p t then some (g t) else none).foldl (combineOpt f) (some x) = some (((l.filter p).map g).foldl f x) := by
  induction l generalizing x with
  | nil => rfl
  | cons t l ih => cases hp : p t <;> simp [hp, combineOpt, ih]

/-- Combining from nothing, the first thread that takes part gives its value as it is (R170). -/
theorem foldl_combineOpt_none (l : List Nat) :
    (l.map fun t => if p t then some (g t) else none).foldl (combineOpt f) none =
      ((l.filter p).map g).head?.map fun x => ((l.filter p).map g).tail.foldl f x := by
  induction l with
  | nil => rfl
  | cons t l ih =>
    cases hp : p t with
    | false => simpa [hp, combineOpt] using ih
    | true => simpa [hp, combineOpt] using foldl_combineOpt_some f p g l (g t)

end scan

/-- What `scan` has accumulated from the threads of Part below n (R170). -/
theorem scanAcc_column (f : Nat → Nat → Nat) (m : Mask) (g : Nat → Nat) (n : Nat) :
    scanAcc f ((List.range 32).map fun t => if m.getLsbD t then some (g t) else none) n =
      (((List.range n).filter fun k => m.getLsbD k).map g).head?.map fun x =>
        (((List.range n).filter fun k => m.getLsbD k).map g).tail.foldl f x := by
  rw [scanAcc, ← List.map_take, List.take_range, foldl_combineOpt_none f (fun k => m.getLsbD k) g, filter_range_min]

section results
variable {s : State} {h : Hdr} {b : Bun} {a : Src}

/-- `shfl`: each thread has the value of its source thread when that one is in Part, and its own when it is not (R168). -/
theorem shfl_sends {m : BitVec 2} {d : VDst} {l : Src} (hI : Issues s h (crossUse (a.reads 0 ++ l.reads 0) (VDst.dst d)) b)
    (hl : ∀ t, (b.partOf (crossUse (a.reads 0 ++ l.reads 0) (VDst.dst d))).getLsbD t = true → b.denied t l = false) :
    Sends s b (crossUse (a.reads 0 ++ l.reads 0) (VDst.dst d)) b.onward (.shfl h m d a l) fun t =>
      let j := shflFrom m t (b.int t 32 l)
      b.int (if 0 ≤ j ∧ j < 32 ∧ (b.partOf (crossUse (a.reads 0 ++ l.reads 0) (VDst.dst d))).getLsbD j.toNat = true then j.toNat else t)
        (width d.wide) a := by
  refine crossOp_sends hI rfl rfl rfl (fun rows fls t => going_denied ..) hl fun rows fls t => ?_
  have hrange : ∀ j : Int, j ≤ 31 ↔ j < 32 := fun j => by omega
  simp only [going_int, Bool.and_eq_true, decide_eq_true_eq, hrange, and_assoc]

/-- `vote`: the four tests over Part (R169). -/
theorem vote_sends {m : BitVec 2} {d : VPDst} (hI : Issues s h (crossUse (a.reads 0) (VPDst.dst d)) b) :
    let part := b.partOf (crossUse (a.reads 0) (VPDst.dst d))
    let yes := maskOf fun t => part.getLsbD t && b.int t 32 a != 0
    Sends s b (crossUse (a.reads 0) (VPDst.dst d)) b.onward (.vote h m d a) fun _ => match m.toNat with
      | 0 => (yes == part).toNat
      | 1 => (yes != 0).toNat
      | 2 => ((List.range 32).all fun t => !part.getLsbD t || b.int t 32 a == b.int ((lowest part).getD 0) 32 a).toNat
      | _ => ((List.range 32).filter fun t => yes.getLsbD t).length := by
  refine crossOp_sends hI rfl rfl rfl (fun _ _ _ => rfl) (fun _ _ => rfl) fun rows fls t => ?_
  rw [← threadsOf_all]
  simp only [going_truths, going_int] <;> rfl

/-- `ballot`: the threads of Part whose source is true, as a number (R169). -/
theorem ballot_sends {d : VSDst} (hI : Issues s h (crossUse (a.reads 0) (VSDst.dst d)) b) :
    Sends s b (crossUse (a.reads 0) (VSDst.dst d)) b.onward (.ballot h d a) fun _ =>
      (maskOf fun t => (b.partOf (crossUse (a.reads 0) (VSDst.dst d))).getLsbD t && b.int t 32 a != 0).toNat :=
  crossOp_sends hI rfl rfl rfl (fun _ _ _ => rfl) (fun _ _ => rfl) fun _ _ _ =>
    congrArg BitVec.toNat (going_truths ..)

/-- `redux`: the fixed tree over the values of Part (R170). -/
theorem redux_sends {op : BitVec 4} {d : VDst} (hI : Issues s h (crossUse (a.reads 0) (VDst.dst d)) b) :
    Sends s b (crossUse (a.reads 0) (VDst.dst d)) b.onward (.redux h op d a) fun _ =>
      reduceTree (reduceOp op (width d.wide)) ((List.range 32).map fun t =>
        if (b.partOf (crossUse (a.reads 0) (VDst.dst d))).getLsbD t then some (b.int t (width d.wide) a) else none) :=
  crossOp_sends hI rfl rfl rfl (fun _ _ _ => rfl) (fun _ _ => rfl) fun _ _ _ =>
    congrArg (reduceTree _) (going_column ..)

/-- `scan`: the values of Part up to a thread, combined in ascending order (R170). -/
theorem scan_sends {op : BitVec 4} {excl : Bool} {d : VDst} (hI : Issues s h (crossUse (a.reads 0) (VDst.dst d)) b) :
    Sends s b (crossUse (a.reads 0) (VDst.dst d)) b.onward (.scan h op excl d a) fun t =>
      match ((List.range (if excl then t else t + 1)).filter fun k => (b.partOf (crossUse (a.reads 0) (VDst.dst d))).getLsbD k).map
          fun k => b.int k (width d.wide) a with
      | [] => reduceId op (width d.wide)
      | x :: xs => xs.foldl (reduceOp op (width d.wide)) x := by
  refine crossOp_sends hI rfl rfl rfl (fun _ _ _ => rfl) (fun _ _ => rfl) fun rows fls t => ?_
  dsimp only
  rw [going_column, scanAcc_column]
  generalize List.map _ _ = xs
  cases xs <;> rfl

end results

/-- Settles O12: each of the five instructions leaves its value over the threads of Part pending. -/
theorem crossThreadResults : Obligations.CrossThreadResults := by
  unfold Obligations.CrossThreadResults
  intro s h a b
  refine ⟨?_, fun m d => vote_sends, fun d => ballot_sends, fun op d hI => ⟨redux_sends hI, fun excl => scan_sends hI⟩⟩
  intro m d l u lane off from_ hI hl
  have hfrom : from_ = fun t => shflFrom m t (b.int t 32 l) := funext fun t => (shflFrom_eq m t _).symm
  rw [hfrom]
  exact shfl_sends hI hl

/-! ### `topk` (R171) -/

/-- The j-th destination of a span is the name j above its first. -/
theorem spanDsts_getElem? {d : SpanD} {wide : Bool} {ext : BitVec 8} {j : Nat} {e : Dst} (h : (spanDsts d wide ext)[j]? = some e) :
    e = .name (d.first.toNat + j) wide d.cnt.toNat := by
  obtain ⟨k, hk, rfl⟩ : ∃ k, (List.range (spanCount d.len ext))[j]? = some k ∧ Dst.name (d.first.toNat + k) wide d.cnt.toNat = e := by
    simpa [spanDsts, spanNames] using h
  obtain ⟨_, rfl⟩ := List.getElem?_eq_some_iff.mp hk
  simp

/-- The destinations of a span are names apart. -/
theorem spanDsts_apart (d : SpanD) (wide : Bool) (ext : BitVec 8) : Apart (spanDsts d wide ext) := by
  have hname : ∀ {j n : Nat} {e : Dst} {w : Bool}, (spanDsts d wide ext)[j]? = some e → e.live = some (n, w) → n = d.first.toNat + j := by
    intro j n e w hj hl
    rw [spanDsts_getElem? hj, Dst.live] at hl
    split at hl
    · cases hl
    · simp_all
  intro i j n _ _ _ _ hi hj hli hlj
  have := hname hi hli
  have := hname hj hlj
  omega

/-- Settles O13: both forms write the list with the candidate inserted into the names of the span. -/
theorem topkResult : Obligations.TopkResult := by
  unfold Obligations.TopkResult
  intro s h k d c b n list
  constructor
  · intro x ext u hI hx
    refine hI.gives (den := fun t => b.denied t x) rfl rfl (spanDsts_apart d false ext) (fun rows fls d => ?_) hx
    simp only [going_fp, going_int, going_denied]
    rfl
  · intro ol ixn x u old hI
    refine hI.gives (den := fun _ => false) rfl rfl (spanDsts_apart d false 0) (fun rows fls d => ?_) fun _ _ => rfl
    simp only [going_fp, going_extName, old, ← Nat.add_assoc]
    rfl

end Sys2Proof.Machine
end

section
/-! PROOFS. Records, prefetches and fences (R202 to R205): the record that `bsub` narrows, and the markers that `fence` inserts. -/

namespace Sys2Proof.Machine

open Sys2Proof

/-! ### Bits of a record (R4, R173) -/

/-- A bit by the model's division is the bit of the vector. -/
theorem bit_toNat {n : Nat} (x : BitVec n) (i : Nat) : bit x.toNat i = x.getLsbD i := by
  rw [bit, BitVec.getLsbD, Nat.testBit_eq_decide_div_mod_eq]
  rfl

/-- A field is the part of the vector that its bits make. -/
theorem fld_eq_extractLsb' {n : Nat} (x : BitVec n) (hi lo : Nat) : fld x hi lo = (x.extractLsb' lo (hi + 1 - lo)).toNat := by
  rw [fld, bits, BitVec.extractLsb'_toNat, Nat.shiftRight_eq_div_pow]

theorem fld_lt {n : Nat} (x : BitVec n) (hi lo : Nat) : fld x hi lo < 2 ^ (hi + 1 - lo) := Nat.mod_lt _ (by positivity)

/-- Putting v into a field keeps what stands above and below it. -/
theorem setBits_eq {n hi lo : Nat} (x : BitVec n) (v : Nat) :
    setBits x hi lo v = BitVec.ofNat n (2 ^ lo * (2 ^ (hi + 1 - lo) * (x.toNat / 2 ^ lo / 2 ^ (hi + 1 - lo)) + v % 2 ^ (hi + 1 - lo)) + x.toNat % 2 ^ lo) := by
  have hlow := Nat.div_add_mod x.toNat (2 ^ lo)
  have hmid := Nat.div_add_mod (x.toNat / 2 ^ lo) (2 ^ (hi + 1 - lo))
  rw [setBits, bits]
  congr 1
  generalize x.toNat / 2 ^ lo % 2 ^ (hi + 1 - lo) = m at *
  generalize x.toNat / 2 ^ lo / 2 ^ (hi + 1 - lo) = q at *
  rw [← hmid, Nat.mul_add, Nat.mul_comm _ m] at hlow
  rw [Nat.mul_add, Nat.mul_comm (2 ^ lo) (v % _)]
  omega

/-- The bits of `setBits` are those of the value within the field and those of the vector outside it. -/
theorem setBits_getLsbD {n hi lo : Nat} (x : BitVec n) (v : Nat) (hn : hi < n) (hl : lo ≤ hi) (i : Nat) :
    (setBits x hi lo v).getLsbD i = if lo ≤ i ∧ i ≤ hi then v.testBit (i - lo) else x.getLsbD i := by
  rw [setBits_eq, BitVec.getLsbD_ofNat, Nat.testBit_two_pow_mul_add _ (Nat.mod_lt _ (by positivity)),
    Nat.testBit_two_pow_mul_add _ (Nat.mod_lt _ (by positivity)), Nat.testBit_mod_two_pow, Nat.testBit_mod_two_pow,
    Nat.testBit_div_two_pow, Nat.testBit_div_two_pow]
  by_cases hlow : i < lo
  · have hin : i < n := by omega
    simp [hlow, Nat.not_le.mpr hlow, hin, BitVec.getLsbD]
  by_cases hmid : i ≤ hi
  · have hin : i < n := by omega
    have hoff : i - lo < hi + 1 - lo := by omega
    simp [hlow, Nat.not_lt.mp hlow, hmid, hoff, hin]
  · have hoff : ¬ i - lo < hi + 1 - lo := by omega
    have hsum : i - lo - (hi + 1 - lo) + (hi + 1 - lo) + lo = i := by omega
    have hpast : n ≤ i → x.getLsbD i = false := BitVec.getLsbD_of_ge x i
    by_cases hin : i < n
    · simp [hlow, hmid, hoff, hsum, hin, BitVec.getLsbD]
    · simp [hmid, hin, hpast (Nat.le_of_not_lt hin)]

/-- A field whose bits are those of another vector is that one's field. -/
theorem fld_congr {n : Nat} {x y : BitVec n} {hi lo : Nat} (h : ∀ i, lo ≤ i → i ≤ hi → y.getLsbD i = x.getLsbD i) : fld y hi lo = fld x hi lo := by
  rw [fld_eq_extractLsb', fld_eq_extractLsb']
  congr 1
  apply BitVec.eq_of_getLsbD_eq
  intro i hi'
  rw [BitVec.getLsbD_extractLsb', BitVec.getLsbD_extractLsb', h (lo + i) (by omega) (by omega)]

/-- A field whose bits are those of a number that it can hold is that number. -/
theorem fld_of_testBit {n : Nat} {y : BitVec n} {hi lo v : Nat} (hv : v < 2 ^ (hi + 1 - lo)) (h : ∀ i, lo ≤ i → i ≤ hi → y.getLsbD i = v.testBit (i - lo)) :
    fld y hi lo = v := by
  rw [fld_eq_extractLsb', ← Nat.mod_eq_of_lt hv, ← BitVec.toNat_ofNat]
  congr 1
  apply BitVec.eq_of_getLsbD_eq
  intro i hi'
  rw [BitVec.getLsbD_extractLsb', BitVec.getLsbD_ofNat, h (lo + i) (by omega) (by omega), Nat.add_sub_cancel_left]

/-! ### The narrowed record (R203) -/

/-- The record with another base and extent and, when it is read only, neither write nor atomic permission (R203). -/
def narrowed (x : BitVec 256) (ro : Bool) (base len : Nat) : BitVec 256 :=
  let y := setBits (setBits x 63 0 base) 103 64 len
  if ro then setBits y 177 176 0 else y

/-- A narrowing within the record that keeps its elements aligned is allowed. -/
theorem narrow_eq_narrowed {x : BitVec 256} {ro : Bool} {o l : Int} (ho : 0 ≤ o) (hl : 0 ≤ l) (hx : o + l ≤ recExtent x)
    (ha : recEsz x ≤ 6 → (recBase x + o.toNat) % 2 ^ recEsz x = 0) : narrow x ro o l = .ok (narrowed x ro (recBase x + o.toNat) l.toNat) := by
  have hin : (decide (o < 0) || decide (l < 0) || decide (o + l > recExtent x)) = false := by simp [ho, hl, hx]
  have hal : (decide (recEsz x ≤ 6) && (recBase x + o.toNat) % 2 ^ recEsz x != 0) = false := by
    simpa using ha
  rw [narrow, hin, hal]
  rfl

section narrowed
variable (x : BitVec 256) (ro : Bool) (base len : Nat)

/-- The two permissions, the extent, the base, and all that stays (R173, R203). -/
theorem narrowed_getLsbD (i : Nat) :
    (narrowed x ro base len).getLsbD i =
      if 176 ≤ i ∧ i ≤ 177 then x.getLsbD i && !ro else if 64 ≤ i ∧ i ≤ 103 then len.testBit (i - 64) else if i ≤ 63 then base.testBit i else x.getLsbD i := by
  have hinner : (setBits (setBits x 63 0 base) 103 64 len).getLsbD i =
      if 64 ≤ i ∧ i ≤ 103 then len.testBit (i - 64) else if i ≤ 63 then base.testBit i else x.getLsbD i := by
    simp [setBits_getLsbD]
  by_cases hp : 176 ≤ i ∧ i ≤ 177
  · have hstays : (setBits (setBits x 63 0 base) 103 64 len).getLsbD i = x.getLsbD i := by
      rw [hinner, if_neg (by omega), if_neg (by omega)]
    cases ro <;> simp [narrowed, setBits_getLsbD, hstays, hp]
  · rw [if_neg hp, ← hinner]
    cases ro <;> simp [narrowed, setBits_getLsbD, hp]

variable {x ro base len}

/-- The bits above the extent stay, but for the two permissions. -/
theorem narrowed_getLsbD_above {i : Nat} (h : 104 ≤ i ∧ i ≠ 176 ∧ i ≠ 177) : (narrowed x ro base len).getLsbD i = x.getLsbD i := by
  rw [narrowed_getLsbD, if_neg (by omega), if_neg (by omega), if_neg (by omega)]

theorem narrowed_bit_above {i : Nat} (h : 104 ≤ i ∧ i ≠ 176 ∧ i ≠ 177) :
    bit (narrowed x ro base len).toNat i = bit x.toNat i := by
  rw [bit_toNat, bit_toNat, narrowed_getLsbD_above h]

theorem narrowed_permission {i : Nat} (h : 176 ≤ i ∧ i ≤ 177) : bit (narrowed x ro base len).toNat i = (bit x.toNat i && !ro) := by
  rw [bit_toNat, bit_toNat, narrowed_getLsbD, if_pos h]

theorem narrowed_fld_above {hi lo : Nat} (h : 104 ≤ lo ∧ (hi < 176 ∨ 177 < lo)) : fld (narrowed x ro base len) hi lo = fld x hi lo :=
  fld_congr fun i _ _ => narrowed_getLsbD_above (by omega)

theorem narrowed_recBase (h : base < 2 ^ 64) : recBase (narrowed x ro base len) = base :=
  fld_of_testBit h fun i _ hi => by rw [narrowed_getLsbD, if_neg (by omega), if_neg (by omega), if_pos hi, Nat.sub_zero]

theorem narrowed_recExtent (h : len < 2 ^ 40) : recExtent (narrowed x ro base len) = len :=
  fld_of_testBit h fun i hl hi => by rw [narrowed_getLsbD, if_neg (by omega), if_pos ⟨hl, hi⟩]

/-- The narrowed record has the base and extent given, loses its permissions to write when it is read only, and keeps every other field (R203). -/
theorem narrowed_fields (hb : base < 2 ^ 64) (hl : len < 2 ^ 40) :
    let y := narrowed x ro base len
    recBase y = base ∧ recExtent y = len ∧ recStride y = recStride x ∧ recKind y = recKind x ∧ recEsz y = recEsz x ∧ recSwz y = recSwz x ∧
    recOob y = recOob x ∧ recRd y = recRd x ∧ recWr y = (recWr x && !ro) ∧ recAtom y = (recAtom x && !ro) ∧ recPeer y = recPeer x :=
  ⟨narrowed_recBase hb, narrowed_recExtent hl, narrowed_fld_above (by decide), narrowed_fld_above (by decide), narrowed_fld_above (by decide),
    narrowed_fld_above (by decide), narrowed_bit_above (by decide), narrowed_bit_above (by decide), narrowed_permission (by decide),
    narrowed_permission (by decide), narrowed_fld_above (by decide)⟩

end narrowed

/-! ### Instructions that change the device beside the pack, or the threads of Part -/

/-- The threads that a list names, each once, changed in turn. -/
theorem foldl_modThread (g : Nat → Thread → Thread) (l : List Nat) (hl : l.Nodup) (p : Pack) :
    l.foldl (fun p t => p.modThread t (g t)) p = { p with threads := imap (fun t x => if t ∈ l then g t x else x) 0 p.threads } := by
  induction l generalizing p with
  | nil => simp [imap_id]
  | cons t l ih =>
    obtain ⟨ht, hl⟩ := List.nodup_cons.mp hl
    rw [List.foldl_cons, ih hl, Pack.modThread]
    congr 1
    refine List.ext_getElem? fun k => ?_
    by_cases hk : k = t
    · subst hk
      simp [ht, Option.map_map, Function.comp_def]
    · simp [hk, lmod_getElem?_ne]

/-- A change of the team that is none of its packs may be made before a change of a pack. -/
theorem modTeam_modPack (d : Device) (c k i : Nat) (f : Pack → Pack) {g : Team → Team} (hg : ∀ t : Team, g (t.modPack i f) = (g t).modPack i f) :
    (d.modPack c k i f).modTeam c k g = (d.modTeam c k g).modPack c k i f := by
  cases h : d.team c k with
  | none => simp [Device.modPack, Device.modTeam, h]
  | some t => rw [modPack_eq h, modTeam_eq h, modTeam_setTeam, modPack_setTeam, hg]

/-- A thread of the bundle changes in the pack that the bundle's own execution finds. -/
theorem modBunThread_modPack (d : Device) (b : Bun) (p : Pack) (t : Nat) (f : Thread → Thread) :
    (d.modPack b.core b.slot b.index fun _ => p).modBunThread b t f = d.modPack b.core b.slot b.index fun _ => p.modThread t f :=
  modPack_modPack ..

/-- The fold of a body that changes each thread it meets and gives it no value. -/
theorem foldl_modBunThread (d : Device) (b : Bun) (g : Nat → Thread → Thread) (l : List Nat) (p : Pack) (acc : List (Nat × Res)) :
    l.foldl (fun (acc : Device × List (Nat × Res)) t => (acc.1.modBunThread b t (g t), (t, {}) :: acc.2)) (d.modPack b.core b.slot b.index fun _ => p, acc) =
      (d.modPack b.core b.slot b.index fun _ => l.foldl (fun p t => p.modThread t (g t)) p, (l.map fun t => (t, ({} : Res))).reverse ++ acc) := by
  induction l generalizing p acc with
  | nil => rfl
  | cons t l ih =>
    rw [List.foldl_cons, List.foldl_cons, modBunThread_modPack, ih, List.map_cons, List.reverse_cons, List.append_assoc]
    rfl

/-- Where every key has the default value, so has every look-up. -/
theorem aget_getD_map_const {α : Type} (l : List Nat) (x : α) (k : Nat) : (aget (l.map fun t => (t, x)) k).getD x = x := by
  induction l with
  | nil => rfl
  | cons t l ih =>
    rw [List.map_cons, aget]
    split
    · rfl
    · exact ih

/-- A body that only changes each thread of Part (R43). -/
theorem each_modBunThread (d : Device) (b : Bun) (p : Pack) (g : Nat → Thread → Thread) :
    (b.each (d.modPack b.core b.slot b.index fun _ => p) fun d t => (d.modBunThread b t (g t), {})) =
      (d.modPack b.core b.slot b.index fun _ => { p with threads := imap (fun t x => if b.part.getLsbD t then g t x else x) 0 p.threads }, fun _ => {}) := by
  have hmem : ∀ t, t ∈ b.ts ↔ b.part.getLsbD t = true := fun t => mem_threadsOf.trans (and_iff_right_of_imp mask_lt)
  have hres : ∀ k, (aget ((b.ts.map fun t => (t, ({} : Res))).reverse ++ []) k).getD {} = ({} : Res) := fun k => by
    rw [List.append_nil, ← List.map_reverse, aget_getD_map_const]
  simp only [Bun.each, foldl_modBunThread, foldl_modThread g b.ts (threadsOf_nodup _), hmem, hres]

section does
variable {s : State} {h : Hdr} {u : Use} {b : Bun} {i : Instr} {body : Bun → Device → Device × (Nat → Res)} {k : Pack → Pack} {D : Device}

/-- An instruction whose threads all go on: it changes the device beside the pack to D, the pack by k and each thread of the bundle by g. -/
theorem Issues.does_moved {g : Nat → Thread → Thread} (hI : Issues s h u b) (he : exec i s = s.run fun _ d => d.issue h u body)
    (hbody : ∀ p rows fls, ∃ p1, Moved p p1 g k ∧
      body (b.going u rows fls) (s.start.modPack b.core b.slot b.index fun _ => p) = (D.modPack b.core b.slot b.index fun _ => p1, fun _ => {}))
    (hg : ∀ t x, (g t x).preds = x.preds) (hgo : ∀ t, b.mask.getLsbD t = false → ∀ x, g t x = x) :
    Does s b u (fun t x => b.onward t (g t x)) k D i := by
  obtain ⟨q, _, hq, hE, _⟩ := hI.run_on (g := fun _ => g) (own := fun _ => {}) (fun p rows fls _ => hbody p rows fls) (fun _ => hg) (fun _ => hgo)
    (fun _ _ => rfl) (fun _ _ => rfl)
  have hown : ∀ t, (b.own u (fun _ => {}) t).fate = .next := fun t => by rw [Bun.own, ite_self]
  simp only [hown, Fate.go_next] at hE
  exact ⟨q, he.trans hq, hE⟩

/-- A short-latency instruction that gives every thread of Part one value writes it (R60, R148, R155). -/
theorem Issues.computes {v : Nat → Nat} (hI : Issues s h u b) (he : exec i s = s.run fun _ d => d.issue h u body) (hl : u.long = false)
    (hbody : ∀ rows fls d, body (b.going u rows fls) d = (d, fun t => .ok (v t))) : Computes s b u b.onward i v := by
  obtain ⟨q, hq, hE, hR, _⟩ := hI.run_next hbody fun _ _ => rfl
  exact ⟨q, he.trans hq, hE, hR v hl fun _ _ => rfl⟩

/-- An instruction that changes only the device beside its pack (R46). -/
theorem Issues.does_beside (hI : Issues s h u b) (he : exec i s = s.run fun _ d => d.issue h u body)
    (hbody : ∀ p rows fls, body (b.going u rows fls) (s.start.modPack b.core b.slot b.index fun _ => p) =
      (D.modPack b.core b.slot b.index fun _ => p, fun _ => {})) : Does s b u b.onward id D i :=
  hI.does_moved (g := fun _ x => x) he (fun p rows fls => ⟨p, Moved.refl p, hbody p rows fls⟩) (fun _ _ => rfl) (fun _ _ _ => rfl)

/-- An instruction that changes only the threads of Part, each by itself (R43). -/
theorem Issues.does_together {f : Nat → Thread → Thread} (hI : Issues s h u b)
    (he : exec i s = s.run fun _ d => d.issue h u fun b d => b.each d fun d t => (d.modBunThread b t (f t), {}))
    (hf : ∀ t x, (f t x).preds = x.preds) : Does s b u (b.together u f) id s.start i := by
  have hgo : (fun t x => b.onward t (if (b.partOf u).getLsbD t then f t x else x)) = b.together u f := by
    funext t x
    rw [Bun.together]
    split <;> rfl
  rw [← hgo]
  refine hI.does_moved he (fun p rows fls => ⟨_, Moved.threads' p _, each_modBunThread s.start (b.going u rows fls) p f⟩) (fun t x => ?_) (fun t ht x => if_neg fun hp => ?_)
  · split
    · exact hf t x
    · rfl
  · rw [hI.partOf_mask hp] at ht
    cases ht

end does

/-! ### The four instructions (R202 to R205) -/

section results
variable {s : State} {h : Hdr} {b : Bun}

/-- The length of a `bsub` from offset o of the record x: an immediate, a scalar or all that is left of the record (R203). -/
def Bun.subLen (b : Bun) (x : BitVec 256) (o : Int) : BsubLen → Int
  | .imm k => k.toNat
  | .scal i => (b.pack.scalar i.toNat).toNat
  | .rest => recExtent x - o

/-- What `bsub` uses: the names that its offset reads (R203). -/
abbrev subUse (off : Src) : Use := { reads := off.reads 0, flat := off.flat }

/-- `bsub`: a narrowing that is allowed is written to the destination record (R203). -/
theorem bsub_does {ro : Bool} {len : BsubLen} {bd bs : BitVec 5} {off : Src} {y : BitVec 256}
    (hI : Issues s h (subUse off) b) (hp : b.partOf (subUse off) ≠ 0)
    (hd : b.denied ((lowest (b.partOf (subUse off))).getD 0) off = false)
    (hy : let x := b.team.bufr bs.toNat
      let o := b.idx ((lowest (b.partOf (subUse off))).getD 0) off
      narrow x ro o (b.subLen x o len) = .ok y) :
    Does s b (subUse off) b.onward id
      (s.start.modTeam b.core b.slot fun t => { t with recs := lmod t.recs bd.toNat fun _ => y }) (.bsub h ro len bd bs off) := by
  refine hI.does_beside rfl fun p rows fls => ?_
  have hd' : (b.going (subUse off) rows fls).denied (b.going (subUse off) rows fls).low off = false :=
    (going_denied ..).trans hd
  dsimp only
  rw [Bun.once, if_neg hp, hd', going_idx]
  dsimp only
  rw [if_neg Bool.false_ne_true]
  split
  · next c hc => cases hc.symm.trans hy
  · next z hz =>
    cases hz.symm.trans hy
    exact Prod.ext (modTeam_modPack _ _ _ _ _ fun _ => rfl) rfl

/-- `bget`: a field of the record (R204). -/
theorem bget_computes {f : BitVec 3} {d : VSDst} {rb : BitVec 5} (hI : Issues s h { dests := [VSDst.dst d], flat := true } b) :
    let r := b.team.bufr rb.toNat
    Computes s b { dests := [VSDst.dst d], flat := true } b.onward (.bget h f d rb) fun _ => match f.toNat with
      | 0 => recBase r | 1 => recExtent r | 2 => recStride r | _ => (r.extractLsb' 160 24).toNat := by
  intro r
  have hres : (r.extractLsb' 160 24).toNat = fld r 183 160 := by rw [fld_eq_extractLsb']
  rw [hres]
  exact hI.computes rfl rfl fun _ _ _ => rfl

/-- `pref` does nothing that can be told (R202). -/
theorem pref_does {rb : BitVec 5} {idx : Src} {ext : BitVec 8} (hI : Issues s h { reads := idx.reads ext, flat := idx.flat } b) :
    Does s b { reads := idx.reads ext, flat := idx.flat } b.onward id s.start (.pref h rb idx ext) :=
  hI.does_beside rfl fun _ _ _ => rfl

/-- `fence`: each thread of Part has its marker as the newest entry of its queue (R205, R221). -/
theorem fence_does {scope : Scope} {ord : Ord} (hI : Issues s h { flat := true } b) :
    Does s b { flat := true } (b.together { flat := true } fun _ x => x.push (match ord with
        | .acq => .acquire scope.code false none | .rel => .release scope.code false | _ => .full scope.code false) .none scope.code none 0) id s.start
      (.fence h scope ord) :=
  hI.does_together rfl fun _ _ => rfl

end results

/-- Settles O25: `bsub` by the record that it writes, `bget` by the field that it reads, `pref` and `fence` by what their threads do. -/
theorem recordsAndFences : Obligations.RecordsAndFences := by
  unfold Obligations.RecordsAndFences
  intro s h b
  refine ⟨?_, fun f d rb => bget_computes, fun rb idx ext => pref_does, fun scope ord => fence_does⟩
  intro ro len bd bs off u low x o l hI hp hd ho hl hx hbase halign
  have hlen : l.toNat < 2 ^ 40 := by
    have hext : recExtent x < 2 ^ 40 := fld_lt ..
    omega
  obtain ⟨hb, hn, hrest⟩ := narrowed_fields (x := x) (ro := ro) hbase hlen
  exact ⟨_, bsub_does hI hp hd (narrow_eq_narrowed ho hl hx halign), hb, (congrArg Nat.cast hn).trans (Int.toNat_of_nonneg hl), hrest⟩

end Sys2Proof.Machine
end
